-- ==== Sys2Proof/Word.lean ====
section
/-! DEFINITION. The word types and the two small containers the state is built from. -/

namespace Sys2Proof

/-- A host bus word, a command word, a result register (spec/00_scope.md R11). -/
abbrev Word := BitVec 32

/-- One byte of IBUF (spec/10_state.md R45). -/
abbrev Byte := BitVec 8

/-- A 16-bit address or bit cursor (spec/00_scope.md R11). -/
abbrev Half := BitVec 16

/-- Four like things: the result registers `res[0..3]`, or one per granule-channel `q = 2g + c`
(spec/10_state.md R33, spec/20_memory.md R90). -/
structure Quad (α : Type) where
  q0 : α
  q1 : α
  q2 : α
  q3 : α
deriving DecidableEq, Repr

/-- The element at index `q`. -/
def Quad.get {α : Type} (v : Quad α) (q : Fin 4) : α :=
  match q with
  | 0 => v.q0
  | 1 => v.q1
  | 2 => v.q2
  | 3 => v.q3

/-- The same value four times. -/
def Quad.const {α : Type} (a : α) : Quad α := ⟨a, a, a, a⟩

/-- One of a thing for each of the two channels. -/
structure PerChannel (α : Type) where
  ch0 : α
  ch1 : α
deriving DecidableEq, Repr

/-- The element of channel `c`. -/
def PerChannel.get {α : Type} (v : PerChannel α) (c : Fin 2) : α :=
  match c with
  | 0 => v.ch0
  | 1 => v.ch1

end Sys2Proof
end

