-- ==== Sys2Proof/Config.lean ====
section
/-! DEFINITION. The configuration: the parameters and read-only tables of spec/00_scope.md R8, the
constraints on them, the defaults the spec gives, and the model's one source of free values. -/

namespace Sys2Proof

/-- The free values. Draw number `n`, part `k`: every value the spec leaves open (its "draws") is some bits of
one of these. It has no body, so nothing can be proved of what it is (log 7 to 11). -/
opaque Config.freeDraw (n k : Nat) : BitVec 32

/-- P_LIMIT_MODE: where "no bits remain" is measured in spectral decoding (spec/00_scope.md R8,
spec/44_maindata.md R296). -/
inductive LimitMode where
  | span
  | part23
deriving DecidableEq, Repr

/-- One entry of a Huffman codebook: a bit string, first stream bit first, and what it decodes to
(spec/43_huffman.md R261). -/
structure CodeEntry (α : Type) where
  code : List Bool
  val : α
deriving DecidableEq, Repr

/-- A big-values pair codebook: the value is `(x, y)`, each 0 to 15. -/
abbrev PairBook := List (CodeEntry (BitVec 4 × BitVec 4))

/-- A count1 codebook: the value is `u`, 0 to 15. -/
abbrev QuadBook := List (CodeEntry (BitVec 4))

/-- One long-block scale-factor-band table, for one sampling frequency (spec/44_maindata.md R310). -/
structure SfbTable where
  hz : BitVec 32
  bounds : Vector Nat 23
deriving DecidableEq, Repr

/-- Two scale-factor widths (spec/44_maindata.md R292). -/
structure SlenPair where
  slen1 : Nat
  slen2 : Nat
deriving DecidableEq, Repr

/-- The items of spec/00_scope.md R8 and P_REG_BASE (spec/30_encoding.md R130), before any constraint is checked.
A table row that the spec calls absent is `none`. -/
structure ConfigData where
  /-- P_REG_BASE -/
  regBase : Nat
  /-- P_IBUF_BYTES -/
  ibufBytes : Nat
  /-- P_CRC_ON_BIT -/
  crcOnBit : BitVec 1
  /-- P_LIMIT_MODE -/
  limitMode : LimitMode
  /-- CFG_BITRATE: layer code, then bitrate code, to bits/s (spec/41_header.md R198) -/
  bitrate : Vector (Vector (Option (BitVec 32)) 16) 4
  /-- CFG_FREQ: version code, then frequency code, to Hz (spec/41_header.md R199) -/
  freq : Vector (Vector (Option (BitVec 32)) 4) 4
  /-- CFG_PADDING: layer code to bytes (spec/41_header.md R200) -/
  padding : Vector (BitVec 3) 4
  /-- CFG_SPF: layer code, then version code, to samples per frame (spec/41_header.md R201) -/
  spf : Vector (Vector (BitVec 16) 4) 4
  /-- CFG_SLEN: scalefac_compress to the two widths (spec/44_maindata.md R292) -/
  slen : Vector SlenPair 16
  /-- CFG_SFB_LONG: the tables that are present (spec/44_maindata.md R310) -/
  sfbLong : List SfbTable
  /-- CFG_PAIR_BOOK: table index 0 to 31 to codebook. Index 0 has none and is never read (spec/43_huffman.md R261). -/
  pairBook : Vector PairBook 32
  /-- CFG_LINBITS: table index 0 to 31. Index 0 is never read (spec/43_huffman.md R266). -/
  linbits : Vector Nat 32
  /-- CFG_QUAD_BOOK: count1 table 0 or 1 (spec/43_huffman.md R261) -/
  quadBook : Vector QuadBook 2
deriving DecidableEq, Repr

/-- No entry's code is a prefix of another's, and each code has 1 to 32 bits (spec/43_huffman.md R261). -/
def bookOk {α : Type} : List (CodeEntry α) → Bool
  | [] => true
  | e :: rest =>
    decide (1 ≤ e.code.length) && decide (e.code.length ≤ 32) &&
      rest.all (fun f => !(e.code.isPrefixOf f.code) && !(f.code.isPrefixOf e.code)) && bookOk rest

/-- No entry of the list is less than the one before it. -/
def nonDecreasing : List Nat → Bool
  | a :: b :: rest => decide (a ≤ b) && nonDecreasing (b :: rest)
  | _ => true

/-- 23 non-decreasing entries from 0 to 576 (spec/44_maindata.md R310). -/
def SfbTable.ok (t : SfbTable) : Bool :=
  nonDecreasing t.bounds.toList && decide (t.bounds[0] = 0) && decide (t.bounds[22] = 576)

/-- The largest frame size (pad bit 1) that this padding, bitrate and frequency give under the layer's formula of
spec/41_header.md R203. Layer code 3 is Layer I. Only the constraint below reads it. -/
def largestFrame (layer padding br fr : Nat) : Nat :=
  if layer = 3 then 4 * (12 * br / fr) + padding else 144 * br / fr + padding

/-- For this layer and bitrate, every frequency of the table gives a frame size that fits hdr.frame_size's 16 bits
(log 3). -/
def frameSizesFit (c : ConfigData) (layer padding br : Nat) : Bool :=
  c.freq.toList.all fun row => row.toList.all fun
    | none => true
    | some fr => decide (largestFrame layer padding br fr.toNat < 65536)

/-- A (layer code, bitrate code) pair that has no bitrate: the reserved layer, and codes 0 (free format) and 15 ("bad") of
every layer (spec/41_header.md R190, R193, R198, R206). -/
def bitrateReserved (layer : Fin 4) (code : Fin 16) : Bool := layer == 0 || code == 0 || code == 15

/-- A (version code, frequency code) pair that has no frequency: the reserved version, and the reserved code 3 of every
version (spec/41_header.md R193, R199, spec/93_implementation_defined.md U3). -/
def freqReserved (version code : Fin 4) : Bool := version == 1 || code == 3

/-- Every reserved pair is absent from CFG_BITRATE and CFG_FREQ. -/
def reservedAbsent (c : ConfigData) : Bool :=
  (List.finRange 4).all (fun l => (List.finRange 16).all fun b => !bitrateReserved l b || c.bitrate[l][b].isNone) &&
  (List.finRange 4).all (fun v => (List.finRange 4).all fun f => !freqReserved v f || c.freq[v][f].isNone)

/-- The constraints a configuration must meet; one that breaks them is refused (spec/93_implementation_defined.md U20,
spec/00_scope.md R8, spec/43_huffman.md R261, spec/44_maindata.md R310). That a frequency is not 0 and no frame size
overflows its register is the model's own (log 3). In the last line the spec states the absence, and that a table which
breaks it is refused is DEDUCED (log 27). -/
def ConfigData.ok (c : ConfigData) : Bool :=
  decide (64 ≤ c.ibufBytes) && decide (c.ibufBytes ≤ 8191) &&
  c.slen.toList.all (fun p => decide (p.slen1 ≤ 4) && decide (p.slen2 ≤ 4)) &&
  c.sfbLong.all SfbTable.ok &&
  c.pairBook.toList.all bookOk &&
  c.linbits.toList.all (fun n => decide (n ≤ 13)) &&
  c.quadBook.toList.all bookOk &&
  c.freq.toList.all (fun row => row.toList.all fun
    | none => true
    | some fr => decide (fr ≠ 0)) &&
  (List.finRange 4).all (fun l => c.bitrate[l].toList.all fun
    | none => true
    | some br => frameSizesFit c l.val c.padding[l].toNat br.toNat) &&
  reservedAbsent c

/-- A configuration: data with the proof that it meets its constraints. One that does not cannot be built, which is
how the model refuses it (spec/93_implementation_defined.md U20, log 1). -/
structure Config where
  data : ConfigData
  ok : data.ok = true
deriving DecidableEq, Repr

/-! ### The spec's defaults and candidates -/

/-- A present row entry. -/
def kbps (n : Nat) : Option (BitVec 32) := some (BitVec.ofNat 32 (n * 1000))

/-- A present frequency. -/
def hertz (n : Nat) : Option (BitVec 32) := some (BitVec.ofNat 32 n)

/-- spec/41_header.md R198, rows by layer code: 0 Reserved, 1 Layer III, 2 Layer II, 3 Layer I. -/
def defaultBitrate : Vector (Vector (Option (BitVec 32)) 16) 4 :=
  #v[ Vector.replicate 16 none,
      #v[none, kbps 32, kbps 40, kbps 48, kbps 56, kbps 64, kbps 80, kbps 96,
         kbps 112, kbps 128, kbps 160, kbps 192, kbps 224, kbps 256, kbps 320, none],
      #v[none, kbps 32, kbps 48, kbps 56, kbps 64, kbps 80, kbps 96, kbps 112,
         kbps 128, kbps 160, kbps 192, kbps 224, kbps 256, kbps 320, kbps 384, none],
      #v[none, kbps 32, kbps 64, kbps 96, kbps 128, kbps 160, kbps 192, kbps 224,
         kbps 256, kbps 288, kbps 320, kbps 352, kbps 384, kbps 416, kbps 448, none] ]

/-- spec/41_header.md R199, rows by version code: 0 V2.5, 1 Reserved, 2 V2, 3 V1. -/
def defaultFreq : Vector (Vector (Option (BitVec 32)) 4) 4 :=
  #v[ #v[hertz 11025, hertz 12000, hertz 8000, none],
      Vector.replicate 4 none,
      #v[hertz 22050, hertz 24000, hertz 16000, none],
      #v[hertz 44100, hertz 48000, hertz 32000, none] ]

/-- spec/41_header.md R200. The entry of layer code 0 is never read (log 25). -/
def defaultPadding : Vector (BitVec 3) 4 := #v[0, 1, 1, 4]

/-- spec/41_header.md R201. The entries of layer code 0 and of version code 1 are never read (log 25). -/
def defaultSpf : Vector (Vector (BitVec 16) 4) 4 :=
  #v[ Vector.replicate 4 0,
      #v[576, 0, 576, 1152],
      #v[1152, 0, 1152, 1152],
      #v[384, 0, 384, 384] ]

/-- spec/44_maindata.md R292. -/
def defaultSlen : Vector SlenPair 16 :=
  #v[⟨0, 0⟩, ⟨0, 1⟩, ⟨0, 2⟩, ⟨0, 3⟩, ⟨3, 0⟩, ⟨1, 1⟩, ⟨1, 2⟩, ⟨1, 3⟩,
     ⟨2, 1⟩, ⟨2, 2⟩, ⟨2, 3⟩, ⟨3, 1⟩, ⟨3, 2⟩, ⟨3, 3⟩, ⟨4, 2⟩, ⟨4, 3⟩]

/-- spec/44_maindata.md R310: the three tables the spec gives. -/
def defaultSfbLong : List SfbTable :=
  [ ⟨44100, #v[0, 4, 8, 12, 16, 20, 24, 30, 36, 44, 52, 62, 74, 90, 110, 134, 162, 196, 238, 288, 342, 418, 576]⟩,
    ⟨48000, #v[0, 4, 8, 12, 16, 20, 24, 30, 36, 42, 50, 60, 72, 88, 106, 128, 156, 190, 230, 276, 330, 384, 576]⟩,
    ⟨32000, #v[0, 4, 8, 12, 16, 20, 24, 30, 36, 44, 54, 66, 82, 102, 126, 156, 194, 240, 296, 364, 448, 550, 576]⟩ ]

/-- The bit string of the low `n` bits of `v`, most significant first. -/
def bitString : (n v : Nat) → List Bool
  | 0, _ => []
  | n + 1, v => v.testBit n :: bitString n v

/-- A codebook row written as length, code value and decoded value. -/
def row {α : Type} (n v : Nat) (a : α) : CodeEntry α := ⟨bitString n v, a⟩

/-- spec/43_huffman.md R268, the candidate for CFG_PAIR_BOOK[1]. -/
def pairTable1 : PairBook :=
  [row 1 0b1 (0, 0), row 3 0b001 (0, 1), row 2 0b01 (1, 0), row 3 0b000 (1, 1)]

/-- spec/43_huffman.md R267, table A, the candidate for CFG_QUAD_BOOK[0]. -/
def quadTableA : QuadBook :=
  [row 1 0b1 0b0000, row 4 0b0101 0b0001, row 4 0b0100 0b0010, row 5 0b00101 0b0011,
   row 4 0b0110 0b0100, row 6 0b000101 0b0101, row 5 0b00100 0b0110, row 6 0b000100 0b0111,
   row 4 0b0111 0b1000, row 5 0b00011 0b1001, row 5 0b00110 0b1010, row 6 0b000000 0b1011,
   row 5 0b00111 0b1100, row 6 0b000010 0b1101, row 6 0b000011 0b1110, row 6 0b000001 0b1111]

/-- spec/43_huffman.md R267, table B, the candidate for CFG_QUAD_BOOK[1]: code c decodes to 15 - c. -/
def quadTableB : QuadBook :=
  (List.range 16).map fun c => row 4 c (BitVec.ofNat 4 (15 - c))

/-- spec/43_huffman.md R266, the candidate values of CFG_LINBITS. -/
def isoLinbits : Vector Nat 32 :=
  #v[0, 0, 0, 0, 0, 0, 0, 0, 0, 0, 0, 0, 0, 0, 0, 0,
     1, 2, 3, 4, 6, 8, 10, 13, 4, 5, 6, 7, 8, 9, 11, 13]

/-- The configuration `State.reset` carries: every default the spec gives, its candidates of R266 to R268 for the OPEN
tables, and no content where it gives none (DESIGN CHOICE, log 2). -/
def ConfigData.standard : ConfigData where
  regBase := 0
  ibufBytes := 8191
  crcOnBit := 1
  limitMode := .span
  bitrate := defaultBitrate
  freq := defaultFreq
  padding := defaultPadding
  spf := defaultSpf
  slen := defaultSlen
  sfbLong := defaultSfbLong
  pairBook := (Vector.replicate 32 []).set 1 pairTable1
  linbits := isoLinbits
  quadBook := #v[quadTableA, quadTableB]

set_option maxRecDepth 4000 in
theorem ConfigData.standard_ok : ConfigData.standard.ok = true := by decide

/-- The configuration of `State.reset` (log 2). -/
def Config.standard : Config := ⟨ConfigData.standard, ConfigData.standard_ok⟩

end Sys2Proof
end

