-- ==== Sys2Proof/Machine/State.lean ====
section
/-! DEFINITION. The state of the block, its reset value, and the reasons a step can stop. -/

namespace Sys2Proof.Machine

/-- The header record (spec/10_state.md R41). The coded fields sync to emphasis are slices of `raw` and are read
through accessors (Machine/Operands.lean, log 14). -/
structure Header where
  raw : Word
  bitrate : Word
  frequency : Word
  padding : BitVec 3
  spf : BitVec 16
  frameSize : BitVec 16
  crcPresent : Bool
  nch : BitVec 2
  headerLen : BitVec 8
  siLen : BitVec 8
  mdLen : BitVec 16
deriving DecidableEq, Repr

/-- The part of a ChannelSideInfo record that `window_switch_flag` selects (spec/10_state.md R43). -/
inductive SideArm where
  /-- window_switch_flag = 0 -/
  | longBlock (tableSelect0 tableSelect1 tableSelect2 : BitVec 5) (region0Count : BitVec 4) (region1Count : BitVec 3)
  /-- window_switch_flag = 1 -/
  | shortOrMixed (blockType : BitVec 2) (mixedBlockFlag : BitVec 1) (tableSelect0 tableSelect1 : BitVec 5)
      (subblockGain0 subblockGain1 subblockGain2 : BitVec 3)
deriving DecidableEq, Repr

/-- A ChannelSideInfo record (spec/10_state.md R43). -/
structure ChannelSideInfo where
  part23Length : BitVec 12
  bigValues : BitVec 9
  globalGain : BitVec 8
  scalefacCompress : BitVec 4
  arm : SideArm
  preflag : BitVec 1
  scalefacScale : BitVec 1
  count1TableSelect : BitVec 1
deriving DecidableEq, Repr

/-- The side-info record (spec/10_state.md R42). A channel's four scfsi bits are one nibble with `scfsi[c][0]` its top
bit, as they stand in the stream (spec/30_encoding.md R135). `gc` is indexed by `q = 2g + c`. -/
structure SideInfo where
  mainDataBegin : BitVec 9
  privateBits : BitVec 5
  scfsi : PerChannel (BitVec 4)
  gc : Quad ChannelSideInfo
deriving DecidableEq, Repr

/-- The output memory OUT, which holds the main-data record (spec/10_state.md R44, spec/20_memory.md R90). -/
inductive OutMem where
  /-- A decoded record: the elements that are not 0, by OUT index, in rising order; every other element is 0 (R303). -/
  | record (cells : List (Nat × BitVec 16))
  /-- Unspecified content: every element is its part of draw number `n` (spec/10_state.md R44, spec/60_exceptions.md R356). -/
  | drawn (n : Nat)
deriving DecidableEq, Repr

/-- What the environment does next to the block (spec/60_exceptions.md R375, spec/70_reset_and_hazards.md R390, R405). -/
inductive Input where
  /-- a host read of `bytes` bytes at bus address `addr` -/
  | busRead (addr bytes : Nat)
  /-- a host write of `bytes` bytes at bus address `addr` -/
  | busWrite (addr bytes : Nat) (data : Word)
  /-- the scheduler gives the block sequencer its turn -/
  | sequencerTurn
  /-- the reset input is asserted -/
  | assertReset
  /-- the reset input is released -/
  | releaseReset
deriving DecidableEq, Repr

/-- Everything the spec gives the machine (spec/10_state.md), the configuration argument, and the model's own fields. -/
structure State where
  /-- the configuration; no step changes it (spec/10_state.md R47, log 1) -/
  cfg : Config
  /-- R35 -/
  busy : Bool
  /-- R35 -/
  cmdLatch : Word
  /-- R34 -/
  statusCode : BitVec 8
  /-- R34 -/
  statusDetail : BitVec 8
  /-- R39 -/
  err : BitVec 9
  /-- R33 -/
  res : Quad Word
  /-- R37 -/
  brBaseReg : BitVec 16
  /-- R37 -/
  brLenReg : BitVec 16
  /-- R37 -/
  winBase : BitVec 16
  /-- R37 -/
  winLen : BitVec 16
  /-- R36 -/
  pos : BitVec 16
  /-- R46 -/
  pos0 : BitVec 16
  /-- R38 -/
  ibufAddr : BitVec 16
  /-- R38 -/
  outAddr : BitVec 16
  /-- R40 -/
  hdrValid : Bool
  /-- R40 -/
  siValid : Bool
  /-- R40 -/
  mdValid : Bool
  /-- R41 -/
  hdr : Header
  /-- R42 -/
  si : SideInfo
  /-- R44 -/
  md : OutMem
  /-- R45: the IBUF bytes written since power-on, by address, in rising order; any other byte is a draw (log 7) -/
  ibuf : List Host.Cell
  /-- the level of the reset input (spec/70_reset_and_hazards.md R390, R393) -/
  resetAsserted : Bool
  /-- the model's own: the environment's pending inputs, first one next (log 4) -/
  inputs : List Input
  /-- the model's own: what host reads returned, newest first (log 6) -/
  replies : List Word
  /-- the model's own: the number of the next free value (log 7) -/
  draws : Nat
  /-- the model's own: the number of the draw that gives the unwritten IBUF bytes (log 7) -/
  ibufDraw : Nat
  /-- the model's own: a byte of the window was written under the running command (R402, log 10) -/
  tainted : Bool
  /-- the model's own: what a running BR_OPEN latches if BR_BASE or BR_LEN was written under it (R402, log 11) -/
  openRace : Option (BitVec 16 × BitVec 16)
deriving DecidableEq, Repr

/-- The reasons the machine stops with a fault: none. Every command word has a defined outcome and every command
completes (spec/30_encoding.md R122, spec/45_control.md R342), so nothing raises one. -/
inductive Fault : Type
deriving DecidableEq, Repr

/-- The reasons a step has no meaning. -/
inductive Refusal where
  /-- Raised by `exec` for a command without a meaning in this model. Safe: the run stops. No command is in that case. -/
  | notModelled (mnemonic : String)
  /-- Raised by a host access that is sub-word, wider than a word, or misaligned (spec/20_memory.md R89: "A model refuses
  it and gives it no meaning"). Safe: the run stops. -/
  | accessShape
  /-- Raised by a host access to a bus address outside the block's 256-byte aperture (spec/30_encoding.md R130, log 13).
  Safe: the run stops. -/
  | outsideAperture
  /-- Raised by a host access while reset is asserted (spec/70_reset_and_hazards.md R393, spec/93_implementation_defined.md
  U19: refuse). Safe: the run stops. -/
  | accessUnderReset
deriving DecidableEq, Repr

/-- The header record at reset (spec/10_state.md R41). -/
def Header.zero : Header := ⟨0, 0, 0, 0, 0, 0, false, 0, 0, 0, 0⟩

/-- A ChannelSideInfo record of zeros, which is a LongBlock (spec/10_state.md R42, R43). -/
def ChannelSideInfo.zero : ChannelSideInfo := ⟨0, 0, 0, 0, .longBlock 0 0 0 0 0, 0, 0, 0⟩

/-- The side-info record at reset (spec/10_state.md R42). -/
def SideInfo.zero : SideInfo := ⟨0, 0, ⟨0, 0⟩, Quad.const ChannelSideInfo.zero⟩

/-- The block right after a hardware reset (spec/10_state.md R48, spec/70_reset_and_hazards.md R390), with the standard
configuration (log 2) and no pending input (log 5). IBUF is draw 0 and OUT is draw 1. -/
def State.reset : State where
  cfg := Config.standard
  busy := false
  cmdLatch := 0
  statusCode := 0
  statusDetail := 0
  err := 0
  res := Quad.const 0
  brBaseReg := 0
  brLenReg := 0
  winBase := 0
  winLen := 0
  pos := 0
  pos0 := 0
  ibufAddr := 0
  outAddr := 0
  hdrValid := false
  siValid := false
  mdValid := false
  hdr := Header.zero
  si := SideInfo.zero
  md := .drawn 1
  ibuf := []
  resetAsserted := false
  inputs := []
  replies := []
  draws := 2
  ibufDraw := 0
  tainted := false
  openRace := none

end Sys2Proof.Machine
end

