-- ==== Sys2Proof/Machine/Flags.lean ====
section
/-! DEFINITION. Status codes, the sticky error log and the valid flags (spec/60_exceptions.md R350 to R358). -/

namespace Sys2Proof.Machine

/-- The error codes 1 to 7 of spec/60_exceptions.md R350. Code 0 is OK. -/
inductive ErrorKind where
  | exhausted
  | invalidFieldEncoding
  | unknownCode
  | illegalCmd
  | sequence
  | range
  | config
deriving DecidableEq, Repr

/-- An error a command ends with: `raise Status(detail)` of spec/00_scope.md R13. -/
structure CmdError where
  kind : ErrorKind
  detail : BitVec 8
deriving DecidableEq, Repr

/-- The code's number (spec/60_exceptions.md R350). -/
def errorCode (k : ErrorKind) : BitVec 8 :=
  match k with
  | .exhausted => 1
  | .invalidFieldEncoding => 2
  | .unknownCode => 3
  | .illegalCmd => 4
  | .sequence => 5
  | .range => 6
  | .config => 7

/-- The bit of `err` that a completion with this status code sets: bit k for k in 1 to 7, none for OK
(spec/10_state.md R39). -/
def errMask (code : BitVec 8) : BitVec 9 :=
  if 1 ≤ code.toNat ∧ code.toNat ≤ 7 then 1#9 <<< code.toNat else 0

/-- CMD_DROPPED, bit 8 of `err` (spec/10_state.md R39). -/
def cmdDroppedMask : BitVec 9 := 0x100

/-- A host write of `d` to ERR clears each bit k with `d[k] = 1` (spec/60_exceptions.md R358). -/
def clearErr (err : BitVec 9) (d : Word) : BitVec 9 := err &&& ~~~ (d.setWidth 9)

/-- One bit as a word at bit position `k`. -/
def flagAt (b : Bool) (k : Nat) : Word := if b then 1#32 <<< k else 0

/-- The STATUS word (spec/30_encoding.md R131). -/
def statusWord (s : State) : Word :=
  s.statusCode.setWidth 32 ||| (s.statusDetail.setWidth 32 <<< 8) ||| flagAt s.busy 16 ||| flagAt s.hdrValid 17 |||
    flagAt s.siValid 18 ||| flagAt s.mdValid 19

/-- After a failed HDR_DECODE: all three flags 0 (spec/60_exceptions.md R357). -/
def invalidateFromHdr (s : State) : State := { s with hdrValid := false, siValid := false, mdValid := false }

/-- After an exhausted SI_DECODE: its own flag and the later one 0 (spec/60_exceptions.md R357). -/
def invalidateFromSi (s : State) : State := { s with siValid := false, mdValid := false }

/-- After a failed MD_DECODE, and after a successful SI_DECODE: md_valid 0 (spec/60_exceptions.md R357). -/
def invalidateMd (s : State) : State := { s with mdValid := false }

end Sys2Proof.Machine
end

