-- ==== Sys2Proof/Machine/Operands.lean ====
section
/-! DEFINITION. Operand assembly, the slices of the header word, the flat view of a side-info record and the OUT index
map (spec/30_encoding.md, spec/20_memory.md R90). -/

namespace Sys2Proof.Machine

/-! ### Command operands (spec/30_encoding.md R123): unsigned, never scaled or shifted -/

/-- The bit count of BR_READ and BR_PEEK. -/
def bitCount (n : BitVec 6) : Nat := n.toNat

/-- The seek target of BR_SEEK, a bit position in the window. -/
def seekTarget (off : BitVec 16) : Nat := off.toNat

/-- BR_READ and BR_PEEK take 0 to 32 bits (spec/30_encoding.md R121, R122). -/
def countLegal (n : BitVec 6) : Bool := decide (bitCount n ≤ 32)

/-! ### The header word (spec/30_encoding.md R140, spec/41_header.md R192) -/

def hdrSync (h : Word) : BitVec 11 := h.extractLsb' 21 11
def hdrVersion (h : Word) : BitVec 2 := h.extractLsb' 19 2
def hdrLayer (h : Word) : BitVec 2 := h.extractLsb' 17 2
def hdrProtection (h : Word) : BitVec 1 := h.extractLsb' 16 1
def hdrBitrateCode (h : Word) : BitVec 4 := h.extractLsb' 12 4
def hdrFreqCode (h : Word) : BitVec 2 := h.extractLsb' 10 2
def hdrPad (h : Word) : BitVec 1 := h.extractLsb' 9 1
def hdrPrivateBit (h : Word) : BitVec 1 := h.extractLsb' 8 1
def hdrMode (h : Word) : BitVec 2 := h.extractLsb' 6 2
def hdrModeExt (h : Word) : BitVec 2 := h.extractLsb' 4 2
def hdrCopyright (h : Word) : BitVec 1 := h.extractLsb' 3 1
def hdrOriginal (h : Word) : BitVec 1 := h.extractLsb' 2 1
def hdrEmphasis (h : Word) : BitVec 2 := h.extractLsb' 0 2

/-- One channel (spec/41_header.md R202). A header record holds `nch` 1 or 2; any other value, which no decode stores,
is taken as two channels, as SI_DECODE's `nch == 1` test does (log 19). -/
def isMono (h : Header) : Bool := h.nch == 1

/-! ### The flat view of a ChannelSideInfo record (spec/10_state.md R43) -/

def windowSwitchFlag (r : ChannelSideInfo) : BitVec 1 :=
  match r.arm with
  | .longBlock .. => 0
  | .shortOrMixed .. => 1

def blockType (r : ChannelSideInfo) : BitVec 2 :=
  match r.arm with
  | .longBlock .. => 0
  | .shortOrMixed bt _ _ _ _ _ _ => bt

def mixedBlockFlag (r : ChannelSideInfo) : BitVec 1 :=
  match r.arm with
  | .longBlock .. => 0
  | .shortOrMixed _ mixed _ _ _ _ _ => mixed

def tableSelect0 (r : ChannelSideInfo) : BitVec 5 :=
  match r.arm with
  | .longBlock t0 _ _ _ _ => t0
  | .shortOrMixed _ _ t0 _ _ _ _ => t0

def tableSelect1 (r : ChannelSideInfo) : BitVec 5 :=
  match r.arm with
  | .longBlock _ t1 _ _ _ => t1
  | .shortOrMixed _ _ _ t1 _ _ _ => t1

/-- The filler of the ShortOrMixedBlock arm is 0. -/
def tableSelect2 (r : ChannelSideInfo) : BitVec 5 :=
  match r.arm with
  | .longBlock _ _ t2 _ _ => t2
  | .shortOrMixed .. => 0

/-- Implied by the ShortOrMixedBlock arm: 8 for a short block that is not mixed, else 7. -/
def region0Count (r : ChannelSideInfo) : BitVec 4 :=
  match r.arm with
  | .longBlock _ _ _ r0 _ => r0
  | .shortOrMixed bt mixed _ _ _ _ _ => if bt = 2 ∧ mixed = 0 then 8 else 7

/-- Implied by the ShortOrMixedBlock arm: 20 - region0_count. The flat view holds it in 4 bits. -/
def region1Count (r : ChannelSideInfo) : BitVec 4 :=
  match r.arm with
  | .longBlock _ _ _ _ r1 => r1.setWidth 4
  | .shortOrMixed bt mixed _ _ _ _ _ => if bt = 2 ∧ mixed = 0 then 12 else 13

def subblockGain0 (r : ChannelSideInfo) : BitVec 3 :=
  match r.arm with
  | .longBlock .. => 0
  | .shortOrMixed _ _ _ _ g0 _ _ => g0

def subblockGain1 (r : ChannelSideInfo) : BitVec 3 :=
  match r.arm with
  | .longBlock .. => 0
  | .shortOrMixed _ _ _ _ _ g1 _ => g1

def subblockGain2 (r : ChannelSideInfo) : BitVec 3 :=
  match r.arm with
  | .longBlock .. => 0
  | .shortOrMixed _ _ _ _ _ _ g2 => g2

/-- `IsShort(r)` (spec/44_maindata.md R290). -/
def isShort (r : ChannelSideInfo) : Bool := windowSwitchFlag r == 1 && blockType r == 2

/-- `scfsi[c][k]`, k in 0 to 3: the nibble's top bit is k = 0 (spec/30_encoding.md R135, spec/42_sideinfo.md R238). -/
def scfsiBit (nibble : BitVec 4) (k : Nat) : Bool := nibble.getLsbD (3 - k)

/-! ### Granule-channels and OUT indices (spec/20_memory.md R90), with `q = 2g + c` -/

def granuleOf (q : Fin 4) : Nat := q.val / 2
def channelOf (q : Fin 4) : Fin 2 := ⟨q.val % 2, Nat.mod_lt _ (by decide)⟩

def flIndex (q i : Nat) : Nat := 576 * q + i
def scalefacLIndex (q b : Nat) : Nat := 0x1000 + 32 * q + b
def scalefacSIndex (q b w : Nat) : Nat := 0x1100 + 64 * q + 4 * b + w
def region1StartIndex (q : Nat) : Nat := 0x1200 + 4 * q
def region2StartIndex (q : Nat) : Nat := 0x1200 + 4 * q + 1
def startPosIndex (q : Nat) : Nat := 0x1200 + 4 * q + 2
def endPosIndex (q : Nat) : Nat := 0x1200 + 4 * q + 3

/-- What an OUT index holds, which fixes its width and its extension on read. -/
inductive OutKind where
  /-- fl, 16 bits, sign-extended -/
  | line
  /-- scalefac_l and scalefac_s, 4 bits, zero-extended -/
  | scaleFactor
  /-- region1_start and region2_start, 10 bits, zero-extended -/
  | regionStart
  /-- start_pos and end_pos, 16 bits, zero-extended -/
  | bitPosition
deriving DecidableEq, Repr

/-- The map of spec/20_memory.md R90; none is unmapped. -/
def outKind (i : Nat) : Option OutKind :=
  if i < 0x900 then some .line
  else if 0x1000 ≤ i ∧ i < 0x1080 then
    if (i - 0x1000) % 32 < 22 then some .scaleFactor else none
  else if 0x1100 ≤ i ∧ i < 0x1200 then
    if (i - 0x1100) % 64 / 4 < 13 ∧ (i - 0x1100) % 4 < 3 then some .scaleFactor else none
  else if 0x1200 ≤ i ∧ i < 0x1210 then
    if (i - 0x1200) % 4 < 2 then some .regionStart else some .bitPosition
  else none

/-- An element's value on a host read (spec/20_memory.md R90). -/
def outExtend (k : OutKind) (v : BitVec 16) : Word :=
  match k with
  | .line => v.signExtend 32
  | .scaleFactor => (v.setWidth 4).setWidth 32
  | .regionStart => (v.setWidth 10).setWidth 32
  | .bitPosition => v.setWidth 32

end Sys2Proof.Machine
end

