-- ==== Sys2Proof/Machine/Ops.lean ====
section
/-! DEFINITION. The shared operations: sparse memories, the window's bits, accepting a command, ending one well, ending one
in an error, and the two resets. -/

namespace Sys2Proof.Machine

/-! ### A sparse memory: (key, value) pairs with strictly rising keys -/

/-- The value listed at key `a`. -/
def cellsGet {α : Type} : List (Nat × α) → Nat → Option α
  | [], _ => none
  | (b, v) :: rest, a => if b = a then some v else cellsGet rest a

/-- The list with `v` at key `a`. -/
def cellsPut {α : Type} : List (Nat × α) → Nat → α → List (Nat × α)
  | [], a, v => [(a, v)]
  | (b, w) :: rest, a, v =>
    if a < b then (a, v) :: (b, w) :: rest
    else if a = b then (a, v) :: rest
    else (b, w) :: cellsPut rest a v

/-- The list with nothing at key `a`. -/
def cellsErase {α : Type} : List (Nat × α) → Nat → List (Nat × α)
  | [], _ => []
  | (b, w) :: rest, a => if b = a then rest else (b, w) :: cellsErase rest a

/-- The keys rise strictly. -/
def cellsRising {α : Type} : List (Nat × α) → Bool
  | (a, _) :: (b, w) :: rest => decide (a < b) && cellsRising ((b, w) :: rest)
  | _ => true

/-! ### IBUF (spec/20_memory.md R80 to R84). An unlisted address lists no byte, and its content is the reset draw's
(log 7) -/

/-- IBUF's canonical form: strictly rising addresses, all inside IBUF. -/
abbrev Memory.wf (m : List Host.Cell) (bytes : Nat) : Prop :=
  cellsRising m = true ∧ m.all (fun c => decide (c.1 < bytes)) = true

/-- The content of an address the host has not written since power-on: part `a` of the reset's draw
(spec/10_state.md R45). -/
def unwrittenByte (draw a : Nat) : Byte := (Config.freeDraw draw a).setWidth 8

/-- `IbufByte(a)` (spec/20_memory.md R81). -/
def ibufByte (m : List Host.Cell) (draw a : Nat) : Byte := (cellsGet m a).getD (unwrittenByte draw a)

/-- A byte store by the host's port. -/
def ibufStore (m : List Host.Cell) (a : Nat) (b : Byte) : List Host.Cell := cellsPut m a b

/-! ### OUT (spec/20_memory.md R90). An unlisted element of a decoded record is 0 (spec/44_maindata.md R303) -/

/-- An element of a record. -/
def recordGet (m : List (Nat × BitVec 16)) (i : Nat) : BitVec 16 := (cellsGet m i).getD 0

/-- `M.<element> <- v`; storing 0 leaves the element unlisted. -/
def recordPut (m : List (Nat × BitVec 16)) (i : Nat) (v : BitVec 16) : List (Nat × BitVec 16) :=
  if v = 0 then cellsErase m i else cellsPut m i v

/-- The stored element at OUT index `i`. -/
def outElement (md : OutMem) (i : Nat) : BitVec 16 :=
  match md with
  | .record m => recordGet m i
  | .drawn n => (Config.freeDraw n i).setWidth 16

/-- The value a host read of OUT index `i` gives, 0 where the index is unmapped (spec/20_memory.md R91). -/
def outRead (md : OutMem) (i : Nat) : Word :=
  match outKind i with
  | some k => outExtend k (outElement md i)
  | none => 0

/-- The widest value an element holds. -/
def outLimit (k : OutKind) : Nat :=
  match k with
  | .line => 65536
  | .scaleFactor => 16
  | .regionStart => 1024
  | .bitPosition => 65536

/-- The value is not 0, the index is mapped and the value fits the element. -/
def recordCellOk (c : Nat × BitVec 16) : Bool :=
  c.2 != 0 && (match outKind c.1 with
    | some k => decide (c.2.toNat < outLimit k)
    | none => false)

/-- A record's canonical form: strictly rising mapped indices, no 0 listed, every value inside its element's width. -/
abbrev OutMem.wf (md : OutMem) : Prop :=
  match md with
  | .record m => cellsRising m = true ∧ m.all recordCellOk = true
  | .drawn _ => True

/-! ### The reader's window (spec/20_memory.md R86, spec/40_bitreader.md R160 to R165) -/

/-- The byte span the bit reader reads, with the memory behind it. -/
structure Window where
  ibuf : List Host.Cell
  ibufDraw : Nat
  base : Nat
  len : Nat
deriving DecidableEq, Repr

/-- The latched window. -/
def State.window (s : State) : Window := ⟨s.ibuf, s.ibufDraw, s.winBase.toNat, s.winLen.toNat⟩

/-- `8 * win_len`, the limit outside MD_DECODE (spec/40_bitreader.md R160). -/
def windowEnd (w : Window) : Nat := 8 * w.len

/-- `WinBit(k)` (spec/20_memory.md R86): within a byte, the first bit is bit 7. -/
def winBit (w : Window) (k : Nat) : Nat :=
  ((ibufByte w.ibuf w.ibufDraw (w.base + k / 8)).toNat >>> (7 - k % 8)) &&& 1

/-- `MemRead(p, n)`: the first bit read is the most significant (spec/40_bitreader.md R161). -/
def memRead (w : Window) (p : Nat) : Nat → Nat
  | 0 => 0
  | n + 1 => 2 * memRead w p n + winBit w (p + n)

/-- The n-bit field at window position `p`. -/
def bitsAt (w : Window) (p n : Nat) : BitVec n := BitVec.ofNat n (memRead w p n)

/-- `Take(n, L)` at cursor `pos`: the value and the new cursor, or none when exhausted
(spec/40_bitreader.md R162, R163). -/
def takeBits (w : Window) (n lim pos : Nat) : Option (Nat × Nat) :=
  if pos + n > lim then none else some (memRead w pos n, pos + n)

/-- A cursor value as the 16-bit register holds it. Every value stored fits (spec/00_scope.md R13, log 18). -/
def cursor (p : Nat) : BitVec 16 := BitVec.ofNat 16 p

/-! ### The life of a command (spec/60_exceptions.md R352 to R357) -/

/-- A CMD write accepted: the word is latched, the cursor saved, busy set (spec/60_exceptions.md R352). -/
def State.accept (s : State) (w : Word) : State :=
  { s with cmdLatch := w, pos0 := s.pos, busy := true, tainted := false, openRace := none }

/-- A completion with status OK(0) (spec/60_exceptions.md R353). -/
def State.finish (s : State) : State :=
  { s with statusCode := 0, statusDetail := 0, busy := false, tainted := false, openRace := none }

/-- A completion in an error: the cursor returns to its value at acceptance, the code and detail are reported and the
code's sticky bit is set (spec/60_exceptions.md R353, R356). It is the block's whole reaction to an error: nothing is
vectored and nothing is returned from (R360, R361). The valid flags (R357) and OUT are the failing command's. -/
def State.fail (s : State) (e : CmdError) : State :=
  { s with
    pos := s.pos0
    statusCode := errorCode e.kind
    statusDetail := e.detail
    err := s.err ||| errMask (errorCode e.kind)
    busy := false
    tainted := false
    openRace := none }

/-- A command's end. -/
abbrev Outcome := Host.Outcome State Fault Refusal

/-- A command that ended well. -/
def done (s : State) : Outcome := .next s.finish

/-- A command that ended in an error. -/
def raised (s : State) (kind : ErrorKind) (detail : BitVec 8) : Outcome := .next (s.fail ⟨kind, detail⟩)

/-- After an MD_DECODE stream error every OUT element is a fresh draw (spec/60_exceptions.md R356, log 8). -/
def State.scrambleOut (s : State) : State := { s with md := .drawn s.draws, draws := s.draws + 1 }

/-! ### Reset -/

/-- Every register at its reset value (spec/10_state.md R48). The configuration, IBUF, OUT and the model's own lists and
counters are not registers. -/
def State.resetRegisters (s : State) : State :=
  { s with
    busy := false
    cmdLatch := 0
    statusCode := 0
    statusDetail := 0
    err := 0
    res := Quad.const 0
    brBaseReg := 0
    brLenReg := 0
    winBase := 0
    winLen := 0
    pos := 0
    pos0 := 0
    ibufAddr := 0
    outAddr := 0
    hdrValid := false
    siValid := false
    mdValid := false
    hdr := Header.zero
    si := SideInfo.zero
    tainted := false
    openRace := none }

/-- Hardware reset (spec/70_reset_and_hazards.md R390): the registers, and fresh draws in IBUF and OUT. -/
def State.hardReset (s : State) : State :=
  { s.resetRegisters with
    ibuf := []
    ibufDraw := s.draws
    md := .drawn (s.draws + 1)
    draws := s.draws + 2 }

end Sys2Proof.Machine
end

