-- ==== Sys2Proof/Machine/BitReader.lean ====
section
/-! DEFINITION. The bit-reader commands (spec/40_bitreader.md R166 to R173). -/

namespace Sys2Proof.Machine

/-- The pair BR_OPEN latches: the programmed pair, or, where the host wrote BR_BASE or BR_LEN while this BR_OPEN ran, the
pair the race left (spec/70_reset_and_hazards.md R402, log 11). -/
def openPair (s : State) : BitVec 16 × BitVec 16 := s.openRace.getD (s.brBaseReg, s.brLenReg)

/-- Latch the window and set the cursor to its first bit. -/
def latchWindow (s : State) (base len : BitVec 16) : State := { s with winBase := base, winLen := len, pos := 0 }

/-- BR_OPEN (spec/40_bitreader.md R166). -/
def execBrOpen (s : State) : Outcome :=
  if (openPair s).1.toNat + (openPair s).2.toNat > s.cfg.data.ibufBytes then raised s .range 1
  else done (latchWindow s (openPair s).1 (openPair s).2)

/-- BR_READ n (spec/40_bitreader.md R168). A width above 32 is no legal command (spec/30_encoding.md R122). -/
def execBrRead (n : BitVec 6) (s : State) : Outcome :=
  if countLegal n then
    match takeBits s.window (bitCount n) (windowEnd s.window) s.pos.toNat with
    | none => raised s .exhausted 0
    | some (v, p) => done { s with res := { s.res with q0 := BitVec.ofNat 32 v }, pos := cursor p }
  else raised s .illegalCmd 3

/-- BR_PEEK n (spec/40_bitreader.md R170). A width above 32 is no legal command (spec/30_encoding.md R122). -/
def execBrPeek (n : BitVec 6) (s : State) : Outcome :=
  if countLegal n then
    match takeBits s.window (bitCount n) (windowEnd s.window) s.pos.toNat with
    | none => done { s with res := { s.res with q0 := 0, q1 := 0 } }
    | some (v, _) => done { s with res := { s.res with q0 := BitVec.ofNat 32 v, q1 := 1 } }
  else raised s .illegalCmd 3

/-- BR_SEEK off (spec/40_bitreader.md R172). -/
def execBrSeek (off : BitVec 16) (s : State) : Outcome :=
  if seekTarget off > windowEnd s.window then raised s .range 2
  else done { s with pos := cursor (seekTarget off) }

end Sys2Proof.Machine
end

