-- ==== Sys2Proof/Machine/Control.lean ====
section
/-! DEFINITION. The control commands NOP and SRST (spec/45_control.md). -/

namespace Sys2Proof.Machine

/-- NOP (spec/45_control.md R340): status OK(0) and nothing else. -/
def execNop (s : State) : Outcome := done s

/-- SRST (spec/45_control.md R342): every register at its reset value; IBUF and OUT keep their content. -/
def execSrst (s : State) : Outcome := done s.resetRegisters

end Sys2Proof.Machine
end

