-- ==== Sys2Proof/Machine/HeaderDecode.lean ====
section
/-! DEFINITION. The frame-header decoder HDR_DECODE (spec/41_header.md). -/

namespace Sys2Proof.Machine

/-- CFG_BITRATE(layer, bitrate code), or absent (spec/41_header.md R198). -/
def lookupBitrate (c : ConfigData) (layer : BitVec 2) (code : BitVec 4) : Option Word :=
  c.bitrate[layer.toFin][code.toFin]

/-- CFG_FREQ(version, frequency code), or absent (spec/41_header.md R199). -/
def lookupFreq (c : ConfigData) (version code : BitVec 2) : Option Word := c.freq[version.toFin][code.toFin]

/-- CFG_PADDING(layer) (spec/41_header.md R200). -/
def lookupPadding (c : ConfigData) (layer : BitVec 2) : BitVec 3 := c.padding[layer.toFin]

/-- CFG_SPF(layer, version) (spec/41_header.md R201). -/
def lookupSpf (c : ConfigData) (layer version : BitVec 2) : BitVec 16 := c.spf[layer.toFin][version.toFin]

/-- Frame size in bytes (spec/41_header.md R203). Layer code 3 is Layer I. -/
def frameSizeOf (c : ConfigData) (layer : BitVec 2) (br fr : Word) (pad : BitVec 1) : Nat :=
  if layer = 3 then
    4 * (12 * br.toNat / fr.toNat) + pad.toNat * (lookupPadding c layer).toNat
  else
    144 * br.toNat / fr.toNat + pad.toNat * (lookupPadding c layer).toNat

/-- `crc_present`: the protection bit equals P_CRC_ON_BIT (spec/41_header.md R204). -/
def crcFollows (c : ConfigData) (h : Word) : Bool := hdrProtection h == c.crcOnBit

/-- 4, or 6 with a CRC (spec/41_header.md R205). -/
def headerLength (c : ConfigData) (h : Word) : Nat := if crcFollows c h then 6 else 4

/-- Mode code 3 is Mono (spec/41_header.md R202). -/
def channelCount (h : Word) : Nat := if hdrMode h = 3 then 1 else 2

/-- 17 bytes for mono, else 32 (spec/41_header.md R205). -/
def sideInfoLength (h : Word) : Nat := if channelCount h = 1 then 17 else 32

/-- `Derive(H, f, br, fr)` (spec/41_header.md R195). The subtraction stops at 0 (R205). -/
def deriveHeader (c : ConfigData) (h br fr : Word) : Header where
  raw := h
  bitrate := br
  frequency := fr
  padding := lookupPadding c (hdrLayer h)
  spf := lookupSpf c (hdrLayer h) (hdrVersion h)
  frameSize := BitVec.ofNat 16 (frameSizeOf c (hdrLayer h) br fr (hdrPad h))
  crcPresent := crcFollows c h
  nch := BitVec.ofNat 2 (channelCount h)
  headerLen := BitVec.ofNat 8 (headerLength c h)
  siLen := BitVec.ofNat 8 (sideInfoLength h)
  mdLen := BitVec.ofNat 16
    (frameSizeOf c (hdrLayer h) br fr (hdrPad h) - headerLength c h - sideInfoLength h)

/-- The header record of a 32-bit word, or the first lookup that fails (spec/41_header.md R190, R193). -/
def decodeHeader (c : ConfigData) (h : Word) : Except CmdError Header :=
  match lookupBitrate c (hdrLayer h) (hdrBitrateCode h) with
  | none => .error ⟨.invalidFieldEncoding, 1⟩
  | some br =>
    match lookupFreq c (hdrVersion h) (hdrFreqCode h) with
    | none => .error ⟨.invalidFieldEncoding, 2⟩
    | some fr => .ok (deriveHeader c h br fr)

/-- HDR_DECODE (spec/41_header.md R190, R207). Any error clears all three valid flags (spec/60_exceptions.md R357). -/
def execHdrDecode (s : State) : Outcome :=
  match takeBits s.window 32 (windowEnd s.window) s.pos.toNat with
  | none => raised (invalidateFromHdr s) .exhausted 0
  | some (v, p) =>
    match decodeHeader s.cfg.data (BitVec.ofNat 32 v) with
    | .error e => .next ((invalidateFromHdr s).fail e)
    | .ok h => done { s with hdr := h, hdrValid := true, siValid := false, mdValid := false, pos := cursor p }

end Sys2Proof.Machine
end

