-- ==== Sys2Proof/Machine/Huffman.lean ====
section
/-! DEFINITION. The Huffman symbol engine and its two commands (spec/43_huffman.md). -/

namespace Sys2Proof.Machine

/-- An engine operation's three outcomes, with the cursor after the symbol (spec/43_huffman.md R260). The other two
outcomes move nothing (R269). -/
inductive Symbol (α : Type) where
  | ok (value : α) (pos : Nat)
  | unknownCode
  | exhausted
deriving DecidableEq, Repr

/-- The outcome of matching a codebook at the cursor (spec/43_huffman.md R262). -/
inductive MatchResult (α : Type) where
  | found (e : CodeEntry α)
  | short
  | noMatch
deriving DecidableEq, Repr

/-- A bit string as an unsigned number, first bit most significant. -/
def codeValue (code : List Bool) : Nat := code.foldl (fun v b => 2 * v + b.toNat) 0

/-- The entry's whole code stands in the `avail` bits at `pos`. -/
def entryMatches {α : Type} (w : Window) (avail pos : Nat) (e : CodeEntry α) : Bool :=
  decide (e.code.length ≤ avail) && memRead w pos e.code.length == codeValue e.code

/-- The `avail` bits at `pos` end inside the entry's code. -/
def entryCutShort {α : Type} (w : Window) (avail pos : Nat) (e : CodeEntry α) : Bool :=
  decide (avail < e.code.length) && memRead w pos avail == codeValue (e.code.take avail)

/-- `Match(B, L)` (spec/43_huffman.md R262). -/
def matchBook {α : Type} (w : Window) (book : List (CodeEntry α)) (lim pos : Nat) : MatchResult α :=
  match book.find? (entryMatches w (lim - pos) pos) with
  | some e => .found e
  | none => if book.any (entryCutShort w (lim - pos) pos) then .short else .noMatch

/-- The linbits of a magnitude that is the escape value 15 in a table that has linbits (spec/43_huffman.md R263). -/
def takeEscape (w : Window) (linbits lim : Nat) (mag : BitVec 4) (pos : Nat) : Option (Nat × Nat) :=
  if 0 < linbits ∧ mag = 15 then
    match takeBits w linbits lim pos with
    | none => none
    | some (v, p) => some (mag.toNat + v, p)
  else some (mag.toNat, pos)

/-- The sign bit that follows a magnitude other than 0: 1 is negative (spec/43_huffman.md R264). -/
def takeSign (w : Window) (lim mag pos : Nat) : Option (Int × Nat) :=
  if mag = 0 then some (0, pos)
  else
    match takeBits w 1 lim pos with
    | none => none
    | some (b, p) => some (if b = 1 then -(mag : Int) else (mag : Int), p)

/-- One value of a pair: its linbits, then its sign (spec/43_huffman.md R263). -/
def takeValue (w : Window) (linbits lim : Nat) (mag : BitVec 4) (pos : Nat) : Option (Int × Nat) :=
  match takeEscape w linbits lim mag pos with
  | none => none
  | some (m, p) => takeSign w lim m p

/-- The extension bits of both values of a pair, x first. -/
def takePair (w : Window) (linbits lim : Nat) (xy : BitVec 4 × BitVec 4) (pos : Nat) : Option ((Int × Int) × Nat) :=
  match takeValue w linbits lim xy.1 pos with
  | none => none
  | some (x, p) =>
    match takeValue w linbits lim xy.2 p with
    | none => none
    | some (y, p') => some ((x, y), p')

/-- `DecodePair(t, L)` (spec/43_huffman.md R263). Table index 0 reads nothing. -/
def decodePair (c : ConfigData) (w : Window) (t : BitVec 5) (lim pos : Nat) : Symbol (Int × Int) :=
  if t = 0 then .ok (0, 0) pos
  else
    match matchBook w c.pairBook[t.toFin] lim pos with
    | .noMatch => .unknownCode
    | .short => .exhausted
    | .found e =>
      match takePair w c.linbits[t.toFin] lim e.val (pos + e.code.length) with
      | none => .exhausted
      | some (xy, p) => .ok xy p

/-- The magnitude of bit `k` of a quadruple's code value `u`: 0 or 1. -/
def quadMagnitude (u : BitVec 4) (k : Nat) : Nat := (u.getLsbD k).toNat

/-- The values v, w, x, y of a quadruple, from the bits `u[3]` to `u[0]` and the sign bits that follow in the same order
(spec/43_huffman.md R265). -/
def takeQuad (w : Window) (lim : Nat) (u : BitVec 4) (pos : Nat) : Option (Quad Int × Nat) :=
  match takeSign w lim (quadMagnitude u 3) pos with
  | none => none
  | some (v0, p0) =>
    match takeSign w lim (quadMagnitude u 2) p0 with
    | none => none
    | some (v1, p1) =>
      match takeSign w lim (quadMagnitude u 1) p1 with
      | none => none
      | some (v2, p2) =>
        match takeSign w lim (quadMagnitude u 0) p2 with
        | none => none
        | some (v3, p3) => some (⟨v0, v1, v2, v3⟩, p3)

/-- `DecodeQuad(q, L)` (spec/43_huffman.md R265); the value is `[v, w, x, y]`. -/
def decodeQuad (c : ConfigData) (w : Window) (t : BitVec 1) (lim pos : Nat) : Symbol (Quad Int) :=
  match matchBook w c.quadBook[t.toFin] lim pos with
  | .noMatch => .unknownCode
  | .short => .exhausted
  | .found e =>
    match takeQuad w lim e.val (pos + e.code.length) with
    | none => .exhausted
    | some (vs, p) => .ok vs p

/-- `sext_32` of an engine value (spec/43_huffman.md R271). -/
def signedWord (v : Int) : Word := BitVec.ofInt 32 v

/-- HUFF_PAIR t (spec/43_huffman.md R270). -/
def execHuffPair (t : BitVec 5) (s : State) : Outcome :=
  match decodePair s.cfg.data s.window t (windowEnd s.window) s.pos.toNat with
  | .unknownCode => raised s .unknownCode 0
  | .exhausted => raised s .exhausted 0
  | .ok (x, y) p =>
    done { s with
      res := ⟨signedWord x, signedWord y, BitVec.ofNat 32 (p - s.pos.toNat), 0⟩
      pos := cursor p }

/-- HUFF_QUAD t (spec/43_huffman.md R272). -/
def execHuffQuad (t : BitVec 1) (s : State) : Outcome :=
  match decodeQuad s.cfg.data s.window t (windowEnd s.window) s.pos.toNat with
  | .unknownCode => raised s .unknownCode 0
  | .exhausted => raised s .exhausted 0
  | .ok vs p =>
    done { s with
      res := ⟨signedWord vs.q0, signedWord vs.q1, signedWord vs.q2, signedWord vs.q3⟩
      pos := cursor p }

end Sys2Proof.Machine
end

