-- ==== Sys2Proof/Machine/MainData.lean ====
section
/-! DEFINITION. The main-data decoder MD_DECODE (spec/44_maindata.md). -/

namespace Sys2Proof.Machine

/-- The record M under construction (spec/44_maindata.md R303): its elements that are not 0, by OUT index. -/
abbrev Record := List (Nat × BitVec 16)

/-- CFG_SFB_LONG(hz), or absent (spec/44_maindata.md R310). -/
def lookupSfb (c : ConfigData) (hz : Word) : Option (Vector Nat 23) :=
  (c.sfbLong.find? (fun t => t.hz == hz)).map (·.bounds)

/-- CFG_SLEN(scalefac_compress) (spec/44_maindata.md R292). -/
def lookupSlen (c : ConfigData) (r : ChannelSideInfo) : SlenPair := c.slen[r.scalefacCompress.toFin]

/-- The granule-channels of a frame in decode order (spec/44_maindata.md R311). -/
def frameOrder (mono : Bool) : List (Fin 4) := if mono then [0, 2] else [0, 1, 2, 3]

/-! ### Scale factors (spec/44_maindata.md R293 to R295) -/

/-- Read one `width`-bit scale factor into each of the OUT indices, in order; none when one is exhausted. -/
def readFactors (w : Window) (lim width : Nat) : List Nat → Record → Nat → Option (Record × Nat)
  | [], m, pos => some (m, pos)
  | i :: rest, m, pos =>
    match takeBits w width lim pos with
    | none => none
    | some (v, p) => readFactors w lim width rest (recordPut m i (BitVec.ofNat 16 v)) p

/-- The OUT indices of `scalefac_l[q][lo .. lo+n-1]`. -/
def longSlots (q lo n : Nat) : List Nat := (List.range' lo n).map (scalefacLIndex q)

/-- The OUT indices of `scalefac_s[q][lo .. lo+n-1][0..2]`, band outer and window inner. -/
def shortSlots (q lo n : Nat) : List Nat :=
  (List.range' lo n).flatMap fun b => [scalefacSIndex q b 0, scalefacSIndex q b 1, scalefacSIndex q b 2]

/-- Copy `scalefac_l[lo .. lo+n-1]` of granule 0 to granule 1 of the same channel, reading no bit. `q` is granule 1's. -/
def copyFactors (q lo n : Nat) (m : Record) : Record :=
  (List.range' lo n).foldl
    (fun m b => recordPut m (scalefacLIndex q b) (recordGet m (scalefacLIndex (q - 2) b))) m

/-- A short or mixed granule-channel (spec/44_maindata.md R293). -/
def shortFactors (w : Window) (sl : SlenPair) (mixed : Bool) (q lim : Nat) (m : Record) (pos : Nat) :
    Option (Record × Nat) :=
  match readFactors w lim sl.slen1 (if mixed then longSlots q 0 8 else []) m pos with
  | none => none
  | some (m, pos) =>
    match readFactors w lim sl.slen1 (shortSlots q 3 3) m pos with
    | none => none
    | some (m, pos) => readFactors w lim sl.slen2 (shortSlots q 6 6) m pos

/-- A long granule-channel of granule 0 (spec/44_maindata.md R294). -/
def longFactors (w : Window) (sl : SlenPair) (q lim : Nat) (m : Record) (pos : Nat) : Option (Record × Nat) :=
  match readFactors w lim sl.slen1 (longSlots q 0 11) m pos with
  | none => none
  | some (m, pos) => readFactors w lim sl.slen2 (longSlots q 11 10) m pos

/-- One scfsi group: copied from granule 0, or read. -/
def groupFactors (w : Window) (shared : Bool) (width q lim lo n : Nat) (m : Record) (pos : Nat) :
    Option (Record × Nat) :=
  if shared then some (copyFactors q lo n m, pos) else readFactors w lim width (longSlots q lo n) m pos

/-- A long granule-channel of granule 1: the groups [0,6), [6,11), [11,16), [16,21) (spec/44_maindata.md R295). -/
def sharedFactors (w : Window) (sl : SlenPair) (scfsi : BitVec 4) (q lim : Nat) (m : Record) (pos : Nat) :
    Option (Record × Nat) :=
  match groupFactors w (scfsiBit scfsi 0) sl.slen1 q lim 0 6 m pos with
  | none => none
  | some (m, pos) =>
    match groupFactors w (scfsiBit scfsi 1) sl.slen1 q lim 6 5 m pos with
    | none => none
    | some (m, pos) =>
      match groupFactors w (scfsiBit scfsi 2) sl.slen2 q lim 11 5 m pos with
      | none => none
      | some (m, pos) => groupFactors w (scfsiBit scfsi 3) sl.slen2 q lim 16 5 m pos

/-- `ScaleFactors(g, c, r, lim)`: the record and cursor after them, or none when exhausted. Band 21 is 0. -/
def scaleFactors (c : ConfigData) (w : Window) (si : SideInfo) (q : Fin 4) (lim : Nat) (m : Record) (pos : Nat) :
    Option (Record × Nat) :=
  if isShort (si.gc.get q) then
    shortFactors w (lookupSlen c (si.gc.get q)) (mixedBlockFlag (si.gc.get q) != 0) q lim m pos
  else if granuleOf q = 0 then longFactors w (lookupSlen c (si.gc.get q)) q lim m pos
  else sharedFactors w (lookupSlen c (si.gc.get q)) (si.scfsi.get (channelOf q)) q lim m pos

/-! ### Limits, regions and table choice (spec/44_maindata.md R296 to R299) -/

/-- `Limit(r, E)` with the cursor at the start of the granule-channel (spec/44_maindata.md R296). -/
def granuleLimit (mode : LimitMode) (r : ChannelSideInfo) (windowEnd pos : Nat) : Nat :=
  match mode with
  | .span => windowEnd
  | .part23 => min windowEnd (pos + r.part23Length.toNat)

/-- Entry `i` of a band table, 576 above the last one (spec/44_maindata.md R297). -/
def bandStart (t : Vector Nat 23) (i : Nat) : Nat := if h : i < 23 then t[i] else 576

/-- `Regions(r)`: (region1_start, region2_start); none where a long granule-channel has no band table
(spec/44_maindata.md R297). -/
def regions (t : Option (Vector Nat 23)) (r : ChannelSideInfo) : Option (Nat × Nat) :=
  if isShort r then some (36, 576)
  else t.map fun t =>
    (bandStart t ((region0Count r).toNat + 1), bandStart t ((region0Count r).toNat + (region1Count r).toNat + 2))

/-- `TableFor(i)` (spec/44_maindata.md R299). -/
def tableFor (r : ChannelSideInfo) (r1 r2 i : Nat) : BitVec 5 :=
  if i < r1 then tableSelect0 r else if i < r2 then tableSelect1 r else tableSelect2 r

/-! ### Spectral lines (spec/44_maindata.md R300 to R302) -/

/-- How a spectral loop ends. -/
inductive LoopEnd where
  /-- a symbol matches no codeword -/
  | unknownCode
  /-- the bits ran out: the granule-channel's spectral decoding ends without error -/
  | stopped (m : Record) (pos : Nat)
  /-- the loop ended by its own bound or at the 576-line capacity -/
  | complete (m : Record) (pos : Nat)
deriving DecidableEq, Repr

/-- Store a spectral line. Every engine value fits 16 bits (spec/43_huffman.md R273). -/
def putLine (m : Record) (q i : Nat) (v : Int) : Record := recordPut m (flIndex q i) (BitVec.ofInt 16 v)

/-- Store line `i` if the granule-channel has it (spec/44_maindata.md R301). -/
def putLineInside (m : Record) (q i : Nat) (v : Int) : Record := if i < 576 then putLine m q i v else m

/-- The big-values loop from line `i` with `pairs` pairs to go (spec/44_maindata.md R300). -/
def bigValuesLoop (c : ConfigData) (w : Window) (table : Nat → BitVec 5) (q lim : Nat) :
    (pairs i : Nat) → Record → Nat → LoopEnd
  | 0, _, m, pos => .complete m pos
  | pairs + 1, i, m, pos =>
    if pos = lim then .stopped m pos
    else if 576 ≤ i then .complete m pos
    else
      match decodePair c w (table i) lim pos with
      | .unknownCode => .unknownCode
      | .exhausted => .stopped m pos
      | .ok (x, y) p => bigValuesLoop c w table q lim pairs (i + 2) (putLine (putLine m q i x) q (i + 1) y) p

/-- The count1 loop from line `j`, at most `fuel` quadruples (spec/44_maindata.md R301). -/
def count1Loop (c : ConfigData) (w : Window) (t : BitVec 1) (q lim : Nat) :
    (fuel j : Nat) → Record → Nat → LoopEnd
  | 0, _, m, pos => .complete m pos
  | fuel + 1, j, m, pos =>
    if 576 ≤ j then .complete m pos
    else if pos = lim then .stopped m pos
    else
      match decodeQuad c w t lim pos with
      | .unknownCode => .unknownCode
      | .exhausted => .stopped m pos
      | .ok v p =>
        count1Loop c w t q lim fuel (j + 4)
          (putLineInside (putLineInside (putLineInside (putLineInside m q j v.q0) q (j + 1) v.q1) q (j + 2) v.q2)
            q (j + 3) v.q3) p

/-- `Spectral(g, c, r, r1, r2, lim)`: 144 quadruples cover all 576 lines. None is UNKNOWN_CODE. -/
def spectral (c : ConfigData) (w : Window) (r : ChannelSideInfo) (r1 r2 q lim : Nat) (m : Record) (pos : Nat) :
    Option (Record × Nat) :=
  match bigValuesLoop c w (tableFor r r1 r2) q lim r.bigValues.toNat 0 m pos with
  | .unknownCode => none
  | .stopped m pos => some (m, pos)
  | .complete m pos =>
    match count1Loop c w r.count1TableSelect q lim 144 (2 * r.bigValues.toNat) m pos with
    | .unknownCode => none
    | .stopped m pos => some (m, pos)
    | .complete m pos => some (m, pos)

/-! ### The frame (spec/44_maindata.md R290) -/

/-- The cursor after a granule-channel (spec/44_maindata.md R304). -/
def granuleEnd (mode : LimitMode) (lim pos : Nat) : Nat :=
  match mode with
  | .span => pos
  | .part23 => lim

/-- One granule-channel: the record and the cursor after it, or its stream error. -/
def decodeGranule (c : ConfigData) (w : Window) (t : Option (Vector Nat 23)) (si : SideInfo) (q : Fin 4)
    (m : Record) (pos : Nat) : Except CmdError (Record × Nat) :=
  let r := si.gc.get q
  let lim := granuleLimit c.limitMode r (windowEnd w) pos
  match scaleFactors c w si q lim (recordPut m (startPosIndex q) (cursor pos)) pos with
  | none => .error ⟨.exhausted, 0x10 ||| BitVec.ofNat 8 q.val⟩
  | some (m, pos) =>
    match regions t r with
    | none => .error ⟨.config, 1⟩
    | some (r1, r2) =>
      match spectral c w r r1 r2 q lim
          (recordPut (recordPut m (region1StartIndex q) (BitVec.ofNat 16 r1)) (region2StartIndex q) (BitVec.ofNat 16 r2))
          pos with
      | none => .error ⟨.unknownCode, 0x14 ||| BitVec.ofNat 8 q.val⟩
      | some (m, pos) =>
        .ok (recordPut m (endPosIndex q) (cursor (granuleEnd c.limitMode lim pos)), granuleEnd c.limitMode lim pos)

/-- The granule-channels in order, each from where the one before it ended (spec/44_maindata.md R311). -/
def decodeGranules (c : ConfigData) (w : Window) (t : Option (Vector Nat 23)) (si : SideInfo) :
    List (Fin 4) → Record → Nat → Except CmdError (Record × Nat)
  | [], m, pos => .ok (m, pos)
  | q :: rest, m, pos =>
    match decodeGranule c w t si q m pos with
    | .error e => .error e
    | .ok (m, pos) => decodeGranules c w t si rest m pos

/-- Some present granule-channel is long and the frame's frequency has no band table (spec/44_maindata.md R309). -/
def bandTableMissing (c : ConfigData) (hdr : Header) (si : SideInfo) : Bool :=
  (frameOrder (isMono hdr)).any (fun q => !isShort (si.gc.get q)) && (lookupSfb c hdr.frequency).isNone

/-- The frame's main-data record and the final cursor, or the first stream error, from a record of zeros. -/
def decodeFrame (c : ConfigData) (w : Window) (hdr : Header) (si : SideInfo) (pos : Nat) :
    Except CmdError (Record × Nat) :=
  decodeGranules c w (lookupSfb c hdr.frequency) si (frameOrder (isMono hdr)) [] pos

/-- MD_DECODE (spec/44_maindata.md R290, R309). Every error but SEQUENCE clears md_valid, and a stream error leaves OUT
unspecified (spec/60_exceptions.md R356, R357). -/
def execMdDecode (s : State) : Outcome :=
  if !s.hdrValid then raised s .sequence 1
  else if !s.siValid then raised s .sequence 2
  else if bandTableMissing s.cfg.data s.hdr s.si then raised (invalidateMd s) .config 1
  else
    match decodeFrame s.cfg.data s.window s.hdr s.si s.pos.toNat with
    | .error e => .next ((invalidateMd s).scrambleOut.fail e)
    | .ok (m, p) => done { s with md := .record m, mdValid := true, pos := cursor p }

end Sys2Proof.Machine
end

