-- ==== Sys2Proof/Machine/SideInfoDecode.lean ====
section
/-! DEFINITION. The side-info decoder SI_DECODE (spec/42_sideinfo.md; the layout is spec/30_encoding.md R141, R142). -/

namespace Sys2Proof.Machine

/-- The block's length in bits (spec/42_sideinfo.md R230, R235). -/
def sideInfoBits (mono : Bool) : Nat := if mono then 136 else 256

/-- The arm that the window_switch_flag at offset 33 selects, from the 22 bits at offset 34
(spec/30_encoding.md R142, spec/42_sideinfo.md R232). -/
def readArm (w : Window) (o : Nat) : SideArm :=
  if bitsAt w (o + 33) 1 = 1 then
    .shortOrMixed (bitsAt w (o + 34) 2) (bitsAt w (o + 36) 1) (bitsAt w (o + 37) 5) (bitsAt w (o + 42) 5)
      (bitsAt w (o + 47) 3) (bitsAt w (o + 50) 3) (bitsAt w (o + 53) 3)
  else
    .longBlock (bitsAt w (o + 34) 5) (bitsAt w (o + 39) 5) (bitsAt w (o + 44) 5) (bitsAt w (o + 49) 4)
      (bitsAt w (o + 53) 3)

/-- `ChannelSideInfo` of the 59-bit record at window position `o` (spec/30_encoding.md R142, spec/42_sideinfo.md R232). -/
def readChannel (w : Window) (o : Nat) : ChannelSideInfo where
  part23Length := bitsAt w o 12
  bigValues := bitsAt w (o + 12) 9
  globalGain := bitsAt w (o + 21) 8
  scalefacCompress := bitsAt w (o + 29) 4
  arm := readArm w o
  preflag := bitsAt w (o + 56) 1
  scalefacScale := bitsAt w (o + 57) 1
  count1TableSelect := bitsAt w (o + 58) 1

/-- The block at window position `p` (spec/30_encoding.md R141). A mono block's absent channel is all zero
(spec/42_sideinfo.md R234). -/
def readSideInfo (w : Window) (mono : Bool) (p : Nat) : SideInfo :=
  if mono then
    { mainDataBegin := bitsAt w p 9
      privateBits := bitsAt w (p + 9) 5
      scfsi := ⟨bitsAt w (p + 14) 4, 0⟩
      gc := ⟨readChannel w (p + 18), ChannelSideInfo.zero, readChannel w (p + 77), ChannelSideInfo.zero⟩ }
  else
    { mainDataBegin := bitsAt w p 9
      privateBits := (bitsAt w (p + 9) 3).setWidth 5
      scfsi := ⟨bitsAt w (p + 12) 4, bitsAt w (p + 16) 4⟩
      gc := ⟨readChannel w (p + 20), readChannel w (p + 79), readChannel w (p + 138), readChannel w (p + 197)⟩ }

/-- SI_DECODE (spec/42_sideinfo.md R230). The length is checked before any field is read. -/
def execSiDecode (s : State) : Outcome :=
  if !s.hdrValid then raised s .sequence 1
  else if s.pos.toNat + sideInfoBits (isMono s.hdr) > windowEnd s.window then raised (invalidateFromSi s) .exhausted 0
  else
    done { s with
      si := readSideInfo s.window (isMono s.hdr) s.pos.toNat
      siValid := true
      mdValid := false
      pos := cursor (s.pos.toNat + sideInfoBits (isMono s.hdr)) }

end Sys2Proof.Machine
end

