-- ==== Sys2Proof/Syntax.lean ====
section
/-! DEFINITION. The command set: one constructor per row of spec/opcode_table.json (spec/30_encoding.md R121). -/

namespace Sys2Proof

/-- The eleven commands with their operands. Every operand is an unsigned field of the command word
(spec/30_encoding.md R123). -/
inductive Instr where
  /-- NOP (spec/45_control.md R340) -/
  | nop
  /-- BR_OPEN (spec/40_bitreader.md R166) -/
  | brOpen
  /-- BR_READ n (spec/40_bitreader.md R168) -/
  | brRead (n : BitVec 6)
  /-- BR_PEEK n (spec/40_bitreader.md R170) -/
  | brPeek (n : BitVec 6)
  /-- BR_SEEK off (spec/40_bitreader.md R172) -/
  | brSeek (off : BitVec 16)
  /-- HDR_DECODE (spec/41_header.md R190) -/
  | hdrDecode
  /-- SI_DECODE (spec/42_sideinfo.md R230) -/
  | siDecode
  /-- HUFF_PAIR t (spec/43_huffman.md R270) -/
  | huffPair (t : BitVec 5)
  /-- HUFF_QUAD t (spec/43_huffman.md R272) -/
  | huffQuad (t : BitVec 1)
  /-- MD_DECODE (spec/44_maindata.md R290) -/
  | mdDecode
  /-- SRST (spec/45_control.md R342) -/
  | srst
deriving DecidableEq, Repr

end Sys2Proof
end

