-- ==== Sys2Proof/Machine/Dispatch.lean ====
section
/-! DEFINITION. One arm per command: `Execute(d)` with the rest of the completion (spec/60_exceptions.md R353). -/

namespace Sys2Proof.Machine

def exec (i : Instr) (s : State) : Host.Outcome State Fault Refusal :=
  match i with
  | .nop => Sys2Proof.Machine.execNop s
  | .brOpen => Sys2Proof.Machine.execBrOpen s
  | .brRead n => Sys2Proof.Machine.execBrRead n s
  | .brPeek n => Sys2Proof.Machine.execBrPeek n s
  | .brSeek off => Sys2Proof.Machine.execBrSeek off s
  | .hdrDecode => Sys2Proof.Machine.execHdrDecode s
  | .siDecode => Sys2Proof.Machine.execSiDecode s
  | .huffPair t => Sys2Proof.Machine.execHuffPair t s
  | .huffQuad t => Sys2Proof.Machine.execHuffQuad t s
  | .mdDecode => Sys2Proof.Machine.execMdDecode s
  | .srst => Sys2Proof.Machine.execSrst s

end Sys2Proof.Machine
end

