-- ==== Sys2Proof/WellFormed.lean ====
section
/-! DEFINITION. Which command terms are legal: the operand ranges of spec/30_encoding.md R121. -/

namespace Sys2Proof

/-- The read width of BR_READ and BR_PEEK is 0 to 32; every other operand value is legal
(spec/30_encoding.md R121, R122). -/
def Instr.wellFormed : Instr → Bool
  | .brRead n => decide (n.toNat ≤ 32)
  | .brPeek n => decide (n.toNat ≤ 32)
  | .nop => true
  | .brOpen => true
  | .brSeek _ => true
  | .hdrDecode => true
  | .siDecode => true
  | .huffPair _ => true
  | .huffQuad _ => true
  | .mdDecode => true
  | .srst => true

end Sys2Proof
end

