-- ==== Sys2Proof/Decode.lean ====
section
/-! DEFINITION. Decoding a command word and encoding a command (spec/30_encoding.md R120 to R123). -/

namespace Sys2Proof

/-- Why a command word does not decode, in the order the tests are made (spec/30_encoding.md R122). -/
inductive DecodeError where
  /-- the opcode is not assigned: ILLEGAL_CMD(1) -/
  | unassignedOpcode
  /-- a reserved operand bit is 1: ILLEGAL_CMD(2) -/
  | reservedBitSet
  /-- the read width of BR_READ or BR_PEEK is above 32: ILLEGAL_CMD(3) -/
  | countTooLarge
deriving DecidableEq, Repr

/-- The status detail of an illegal word (spec/60_exceptions.md R351). -/
def DecodeError.detail : DecodeError → BitVec 8
  | .unassignedOpcode => 1
  | .reservedBitSet => 2
  | .countTooLarge => 3

/-- Bits [31:24] (spec/30_encoding.md R120). -/
def opcodeOf (w : Word) : BitVec 8 := w.extractLsb' 24 8

/-- The command the opcode names with its operand sub-field, and the operand bits it leaves reserved
(spec/30_encoding.md R121), or none for an unassigned opcode. -/
def opcodeRow (w : Word) : Option (Instr × BitVec 24) :=
  match (opcodeOf w).toNat with
  | 0x00 => some (.nop, 0xFFFFFF)
  | 0x01 => some (.brOpen, 0xFFFFFF)
  | 0x02 => some (.brRead (w.extractLsb' 0 6), 0xFFFFC0)
  | 0x03 => some (.brPeek (w.extractLsb' 0 6), 0xFFFFC0)
  | 0x04 => some (.brSeek (w.extractLsb' 0 16), 0xFF0000)
  | 0x10 => some (.hdrDecode, 0xFFFFFF)
  | 0x11 => some (.siDecode, 0xFFFFFF)
  | 0x20 => some (.huffPair (w.extractLsb' 0 5), 0xFFFFE0)
  | 0x21 => some (.huffQuad (w.extractLsb' 0 1), 0xFFFFFE)
  | 0x30 => some (.mdDecode, 0xFFFFFF)
  | 0xFF => some (.srst, 0xFFFFFF)
  | _ => none

/-- The decode of a command word: the first of the three tests that fails names the error
(spec/30_encoding.md R122). -/
def decodeWord (w : Word) : Except DecodeError Instr :=
  match opcodeRow w with
  | none => .error .unassignedOpcode
  | some (i, reserved) =>
    if w.extractLsb' 0 24 &&& reserved ≠ 0 then .error .reservedBitSet
    else if i.wellFormed then .ok i
    else .error .countTooLarge

/-- A command word is one 32-bit bus word and nothing longer (spec/30_encoding.md R120); bits at and above `nbits`
are 0. -/
def decodeTableWord (nbits w : Nat) : Option Instr :=
  if w % 2 ^ nbits < 2 ^ 32 then
    match decodeWord (BitVec.ofNat 32 (w % 2 ^ nbits)) with
    | .ok i => some i
    | .error _ => none
  else none

/-! ### The encoder -/

/-- `opcode << 24 | operand` (spec/30_encoding.md R120, R124). -/
def commandWord (opcode : BitVec 8) (operand : BitVec 24) : Word := opcode ++ operand

/-- The word of a command, from the encoding table of spec/30_encoding.md R121. -/
def encode : Instr → Word
  | .nop => commandWord 0x00 0
  | .brOpen => commandWord 0x01 0
  | .brRead n => commandWord 0x02 (n.setWidth 24)
  | .brPeek n => commandWord 0x03 (n.setWidth 24)
  | .brSeek off => commandWord 0x04 (off.setWidth 24)
  | .hdrDecode => commandWord 0x10 0
  | .siDecode => commandWord 0x11 0
  | .huffPair t => commandWord 0x20 (t.setWidth 24)
  | .huffQuad t => commandWord 0x21 (t.setWidth 24)
  | .mdDecode => commandWord 0x30 0
  | .srst => commandWord 0xFF 0

end Sys2Proof
end

