-- ==== Sys2Proof/Machine/HostPort.lean ====
section
/-! DEFINITION. The register aperture: what a host read returns and what a host write does, with the hazards of an access
made while a command runs (spec/30_encoding.md R130 to R135, spec/20_memory.md R82 to R92,
spec/70_reset_and_hazards.md R400 to R402). -/

namespace Sys2Proof.Machine

/-- The registers of spec/30_encoding.md R130. -/
inductive Reg where
  | cmd
  | status
  | err
  | brBase
  | brLen
  | brPos
  | brWin
  | param
  | res (k : Fin 4)
  | ibufAddr
  | ibufData
  | outAddr
  | outData
  | hdrRaw
  | hdrFields
  | hdrBitrate
  | hdrFreq
  | hdrSize
  | hdrAux
  | hdrMdlen
  | siGlobal
  | siGc (q w : Fin 4)
deriving DecidableEq, Repr

/-- The register at an aperture offset; none is unmapped (spec/30_encoding.md R130). -/
def regAt (offset : Nat) : Option Reg :=
  match offset with
  | 0x000 => some .cmd
  | 0x004 => some .status
  | 0x008 => some .err
  | 0x00C => some .brBase
  | 0x010 => some .brLen
  | 0x014 => some .brPos
  | 0x018 => some .brWin
  | 0x01C => some .param
  | 0x020 => some (.res 0)
  | 0x024 => some (.res 1)
  | 0x028 => some (.res 2)
  | 0x02C => some (.res 3)
  | 0x030 => some .ibufAddr
  | 0x034 => some .ibufData
  | 0x038 => some .outAddr
  | 0x03C => some .outData
  | 0x040 => some .hdrRaw
  | 0x044 => some .hdrFields
  | 0x048 => some .hdrBitrate
  | 0x04C => some .hdrFreq
  | 0x050 => some .hdrSize
  | 0x054 => some .hdrAux
  | 0x058 => some .hdrMdlen
  | 0x060 => some .siGlobal
  | o =>
    if 0x080 ≤ o ∧ o < 0x0C0 ∧ o % 4 = 0 then
      some (.siGc (Fin.ofNat 4 ((o - 0x080) / 16)) (Fin.ofNat 4 (o % 16 / 4)))
    else none

/-! ### Register contents -/

/-- A field placed at bit `k` of a register word. -/
def fieldAt {n : Nat} (v : BitVec n) (k : Nat) : Word := v.setWidth 32 <<< k

/-- PARAM (spec/30_encoding.md R130): the block revision is 1. -/
def paramWord (c : ConfigData) : Word :=
  BitVec.ofNat 32 c.ibufBytes ||| fieldAt c.crcOnBit 16 ||| flagAt (c.limitMode == .part23) 17 ||| fieldAt (1#8) 24

/-- HDR_FIELDS (spec/30_encoding.md R134). -/
def hdrFieldsWord (h : Header) : Word :=
  fieldAt (hdrSync h.raw) 0 ||| fieldAt (hdrVersion h.raw) 11 ||| fieldAt (hdrLayer h.raw) 13 |||
    fieldAt (hdrProtection h.raw) 15 ||| fieldAt (hdrBitrateCode h.raw) 16 ||| fieldAt (hdrFreqCode h.raw) 20 |||
    fieldAt (hdrPad h.raw) 22 ||| fieldAt (hdrPrivateBit h.raw) 23 ||| fieldAt (hdrMode h.raw) 24 |||
    fieldAt (hdrModeExt h.raw) 26 ||| fieldAt (hdrCopyright h.raw) 28 ||| fieldAt (hdrOriginal h.raw) 29 |||
    fieldAt (hdrEmphasis h.raw) 30

/-- HDR_SIZE (spec/30_encoding.md R130). -/
def hdrSizeWord (h : Header) : Word := fieldAt h.frameSize 0 ||| fieldAt h.spf 16

/-- HDR_AUX (spec/30_encoding.md R130). -/
def hdrAuxWord (h : Header) : Word :=
  fieldAt h.padding 0 ||| flagAt h.crcPresent 3 ||| fieldAt h.nch 4 ||| fieldAt h.headerLen 8 ||| fieldAt h.siLen 16

/-- SI_GLOBAL (spec/30_encoding.md R135). -/
def siGlobalWord (x : SideInfo) : Word :=
  fieldAt x.mainDataBegin 0 ||| fieldAt x.privateBits 9 ||| fieldAt x.scfsi.ch0 14 ||| fieldAt x.scfsi.ch1 18

/-- SI_GC_q_w, words 0 to 3 of a record's flat view (spec/30_encoding.md R133). -/
def siGcWord (r : ChannelSideInfo) (w : Fin 4) : Word :=
  match w with
  | 0 => fieldAt r.part23Length 0 ||| fieldAt r.bigValues 12 ||| fieldAt r.globalGain 21
  | 1 =>
    fieldAt r.scalefacCompress 0 ||| fieldAt (windowSwitchFlag r) 4 ||| fieldAt (blockType r) 5 |||
      fieldAt (mixedBlockFlag r) 7 ||| fieldAt r.preflag 8 ||| fieldAt r.scalefacScale 9 |||
      fieldAt r.count1TableSelect 10 ||| fieldAt (region0Count r) 11 ||| fieldAt (region1Count r) 15
  | 2 =>
    fieldAt (tableSelect0 r) 0 ||| fieldAt (tableSelect1 r) 5 ||| fieldAt (tableSelect2 r) 10 |||
      fieldAt (subblockGain0 r) 15 ||| fieldAt (subblockGain1 r) 18 ||| fieldAt (subblockGain2 r) 21
  | 3 => 0

/-- A host read of IBUF_DATA (spec/20_memory.md R83). -/
def ibufDataWord (s : State) : Word :=
  if s.ibufAddr.toNat < s.cfg.data.ibufBytes then (ibufByte s.ibuf s.ibufDraw s.ibufAddr.toNat).setWidth 32 else 0

/-- What a host read returns while no command runs (spec/30_encoding.md R130). -/
def regValue (s : State) (r : Reg) : Word :=
  match r with
  | .cmd => 0
  | .status => statusWord s
  | .err => fieldAt s.err 0
  | .brBase => fieldAt s.brBaseReg 0
  | .brLen => fieldAt s.brLenReg 0
  | .brPos => fieldAt s.pos 0
  | .brWin => fieldAt s.winBase 0 ||| fieldAt s.winLen 16
  | .param => paramWord s.cfg.data
  | .res k => s.res.get k
  | .ibufAddr => fieldAt s.ibufAddr 0
  | .ibufData => ibufDataWord s
  | .outAddr => fieldAt s.outAddr 0
  | .outData => outRead s.md s.outAddr.toNat
  | .hdrRaw => s.hdr.raw
  | .hdrFields => hdrFieldsWord s.hdr
  | .hdrBitrate => s.hdr.bitrate
  | .hdrFreq => s.hdr.frequency
  | .hdrSize => hdrSizeWord s.hdr
  | .hdrAux => hdrAuxWord s.hdr
  | .hdrMdlen => fieldAt s.hdr.mdLen 0
  | .siGlobal => siGlobalWord s.si
  | .siGc q w => siGcWord (s.si.gc.get q) w

/-! ### Reads while a command runs (spec/70_reset_and_hazards.md R401) -/

def isHdrReg (r : Reg) : Bool :=
  match r with
  | .hdrRaw | .hdrFields | .hdrBitrate | .hdrFreq | .hdrSize | .hdrAux | .hdrMdlen => true
  | _ => false

def isSiReg (r : Reg) : Bool :=
  match r with
  | .siGlobal | .siGc _ _ => true
  | _ => false

def isResReg (r : Reg) : Bool :=
  match r with
  | .res _ => true
  | _ => false

/-- The registers a command may write by the "Writes" line of its rule, STATUS aside (log 9). -/
def commandWrites (i : Instr) (r : Reg) : Bool :=
  match i with
  | .nop => false
  | .brOpen => r == .brWin || r == .brPos
  | .brRead _ => r == .res 0 || r == .brPos
  | .brPeek _ => r == .res 0 || r == .res 1
  | .brSeek _ => r == .brPos
  | .hdrDecode => isHdrReg r || r == .brPos
  | .siDecode => isSiReg r || r == .brPos
  | .huffPair _ => isResReg r || r == .brPos
  | .huffQuad _ => isResReg r || r == .brPos
  | .mdDecode => r == .outData || r == .brPos
  | .srst =>
    r == .err || r == .brBase || r == .brLen || r == .brPos || r == .brWin || isResReg r || r == .ibufAddr ||
      r == .outAddr || isHdrReg r || isSiReg r

/-- The running command may write the register. An illegal word writes none. -/
def runningWrites (s : State) (r : Reg) : Bool :=
  match decodeWord s.cmdLatch with
  | .ok i => commandWrites i r
  | .error _ => false

/-- The bits of a register that are not "unused bits", which read 0 (spec/30_encoding.md R130). -/
def usedBits (r : Reg) : Word :=
  match r with
  | .err => 0x000001FE
  | .brBase | .brLen | .brPos | .ibufAddr | .outAddr | .hdrMdlen => 0x0000FFFF
  | .hdrAux => 0x00FFFF3F
  | .siGlobal => 0x003FFFFF
  | .siGc _ 0 => 0x1FFFFFFF
  | .siGc _ 1 => 0x0007FFFF
  | .siGc _ 2 => 0x00FFFFFF
  | .siGc _ 3 => 0
  | _ => 0xFFFFFFFF

/-- The unspecified value of a read made while a command runs, from the draw `d`; none where the read gives the current
value. STATUS shows busy, and its code, detail and valid bits are unspecified. -/
def busyValue (s : State) (r : Reg) (d : Word) : Option Word :=
  if !s.busy then none
  else if r = .status then some ((d &&& 0x000EFFFF) ||| 0x00010000)
  else if !runningWrites s r then none
  else if r = .outData then
    some (match outKind s.outAddr.toNat with
      | some k => outExtend k (d.setWidth 16)
      | none => 0)
  else some (d &&& usedBits r)

/-! ### The access itself -/

/-- The aperture offset of a legal access, or why there is none (spec/20_memory.md R89, spec/30_encoding.md R130,
spec/70_reset_and_hazards.md R393, log 13). -/
def accessOffset (s : State) (addr bytes : Nat) : Except Refusal Nat :=
  if s.resetAsserted then .error .accessUnderReset
  else if addr < s.cfg.data.regBase ∨ s.cfg.data.regBase + 256 ≤ addr then .error .outsideAperture
  else if bytes ≠ 4 ∨ (addr - s.cfg.data.regBase) % 4 ≠ 0 then .error .accessShape
  else .ok (addr - s.cfg.data.regBase)

/-- The side effect of a read: the two data ports advance their address (spec/20_memory.md R83, R91, R94). -/
def afterRead (s : State) (r : Reg) : State :=
  match r with
  | .ibufData => { s with ibufAddr := s.ibufAddr + 1 }
  | .outData => { s with outAddr := s.outAddr + 1 }
  | _ => s

/-- Return `v` to the host. -/
def State.reply (s : State) (v : Word) : State := { s with replies := v :: s.replies }

/-- A host read of a register. -/
def readReg (s : State) (r : Reg) : State :=
  match busyValue s r (Config.freeDraw s.draws 0) with
  | some v => (afterRead { s with draws := s.draws + 1 } r).reply v
  | none => (afterRead s r).reply (regValue s r)

/-- A host read (spec/30_encoding.md R130). An unmapped offset reads 0. -/
def hostRead (addr bytes : Nat) (s : State) : Outcome :=
  match accessOffset s addr bytes with
  | .error e => .refused e
  | .ok o =>
    match regAt o with
    | none => .next (s.reply 0)
    | some r => .next (readReg s r)

/-- A host write to CMD (spec/60_exceptions.md R352, spec/70_reset_and_hazards.md R400). -/
def writeCmd (s : State) (d : Word) : State :=
  if s.busy then { s with err := s.err ||| cmdDroppedMask } else s.accept d

/-- A BR_OPEN is running. -/
def openRunning (s : State) : Bool :=
  s.busy && (match decodeWord s.cmdLatch with
    | .ok .brOpen => true
    | _ => false)

/-- One bit of the next draw: the running BR_OPEN latches the new value (spec/70_reset_and_hazards.md R402, log 11). -/
def raceTakesNew (s : State) : Bool := (Config.freeDraw s.draws 0).getLsbD 0

/-- A host write to BR_BASE. Under a running BR_OPEN it is open whether the old or the new value is latched. -/
def writeBrBase (s : State) (d : Word) : State :=
  if openRunning s then
    { s with
      brBaseReg := d.setWidth 16
      openRace := some (if raceTakesNew s then d.setWidth 16 else (openPair s).1, (openPair s).2)
      draws := s.draws + 1 }
  else { s with brBaseReg := d.setWidth 16 }

/-- A host write to BR_LEN, as for BR_BASE. -/
def writeBrLen (s : State) (d : Word) : State :=
  if openRunning s then
    { s with
      brLenReg := d.setWidth 16
      openRace := some ((openPair s).1, if raceTakesNew s then d.setWidth 16 else (openPair s).2)
      draws := s.draws + 1 }
  else { s with brLenReg := d.setWidth 16 }

/-- The address lies inside the latched window. -/
def insideWindow (s : State) (a : Nat) : Bool :=
  decide (s.winBase.toNat ≤ a) && decide (a < s.winBase.toNat + s.winLen.toNat)

/-- A host write to IBUF_DATA (spec/20_memory.md R82). A byte of the window written while a command runs makes that
command's outcome unspecified (spec/70_reset_and_hazards.md R402, log 10). -/
def writeIbufData (s : State) (d : Word) : State :=
  if s.ibufAddr.toNat < s.cfg.data.ibufBytes then
    { s with
      ibuf := ibufStore s.ibuf s.ibufAddr.toNat (d.setWidth 8)
      tainted := s.tainted || (s.busy && insideWindow s s.ibufAddr.toNat)
      ibufAddr := s.ibufAddr + 1 }
  else { s with ibufAddr := s.ibufAddr + 1 }

/-- A host write of a register; a write to a read-only one is ignored (spec/20_memory.md R92, R94). -/
def writeReg (s : State) (r : Reg) (d : Word) : State :=
  match r with
  | .cmd => writeCmd s d
  | .err => { s with err := clearErr s.err d }
  | .brBase => writeBrBase s d
  | .brLen => writeBrLen s d
  | .ibufAddr => { s with ibufAddr := d.setWidth 16 }
  | .ibufData => writeIbufData s d
  | .outAddr => { s with outAddr := d.setWidth 16 }
  | .status | .brPos | .brWin | .param | .res _ | .outData | .hdrRaw | .hdrFields | .hdrBitrate | .hdrFreq
  | .hdrSize | .hdrAux | .hdrMdlen | .siGlobal | .siGc _ _ => s

/-- A host write (spec/30_encoding.md R130). A write to an unmapped offset is ignored. -/
def hostWrite (addr bytes : Nat) (d : Word) (s : State) : Outcome :=
  match accessOffset s addr bytes with
  | .error e => .refused e
  | .ok o =>
    match regAt o with
    | none => .next s
    | some r => .next (writeReg s r d)

end Sys2Proof.Machine
end

