-- ==== Sys2Proof/Machine/Sequencer.lean ====
section
/-! DEFINITION. The block sequencer's turn: the completion step of spec/60_exceptions.md R353, and the free outcome of a
command whose window bytes were written while it ran (spec/70_reset_and_hazards.md R402). -/

namespace Sys2Proof.Machine

/-! ### The outcome of a tainted command is a draw, inside the limits the spec sets (log 10) -/

/-- Every (code, detail) pair the block can produce (spec/60_exceptions.md R351). -/
def statusPairs : List (BitVec 8 × BitVec 8) :=
  [(0, 0), (1, 0), (1, 0x10), (1, 0x11), (1, 0x12), (1, 0x13), (2, 1), (2, 2), (3, 0), (3, 0x14), (3, 0x15), (3, 0x16),
   (3, 0x17), (4, 1), (4, 2), (4, 3), (5, 1), (5, 2), (6, 1), (6, 2), (7, 1)]

/-- Part `k` of draw `n` as one of the pairs. -/
def drawnStatus (n k : Nat) : BitVec 8 × BitVec 8 := statusPairs.getD ((Config.freeDraw n k).toNat % 21) (0, 0)

/-- Part `k` of draw `n`, cut to a width. -/
def drawnBits (n k width : Nat) : BitVec width := (Config.freeDraw n k).setWidth width

/-- A bit of part `k` of draw `n`. -/
def drawnFlag (n k : Nat) : Bool := (Config.freeDraw n k).getLsbD 0

/-- A number of 0 to `bound` from part `k` of draw `n`. -/
def drawnUpTo (n k bound : Nat) : Nat := (Config.freeDraw n k).toNat % (bound + 1)

/-- A header record of draws. A valid one has nch 1 or 2, header_len 4 or 6, si_len 17 or 32 (spec/10_state.md R41); one
that is not valid may hold anything. -/
def drawnHeader (n : Nat) (valid : Bool) : Header where
  raw := drawnBits n 10 32
  bitrate := drawnBits n 11 32
  frequency := drawnBits n 12 32
  padding := drawnBits n 13 3
  spf := drawnBits n 14 16
  frameSize := drawnBits n 15 16
  crcPresent := drawnFlag n 16
  nch := if valid then (if drawnFlag n 17 then 1 else 2) else drawnBits n 17 2
  headerLen := if valid then (if drawnFlag n 18 then 4 else 6) else drawnBits n 18 8
  siLen := if valid then (if drawnFlag n 19 then 17 else 32) else drawnBits n 19 8
  mdLen := drawnBits n 20 16

/-- A ChannelSideInfo record of draws, from part `k` on. -/
def drawnChannel (n k : Nat) : ChannelSideInfo where
  part23Length := drawnBits n k 12
  bigValues := drawnBits n (k + 1) 9
  globalGain := drawnBits n (k + 2) 8
  scalefacCompress := drawnBits n (k + 3) 4
  arm :=
    if drawnFlag n (k + 4) then
      .shortOrMixed (drawnBits n (k + 5) 2) (drawnBits n (k + 6) 1) (drawnBits n (k + 7) 5) (drawnBits n (k + 8) 5)
        (drawnBits n (k + 9) 3) (drawnBits n (k + 10) 3) (drawnBits n (k + 11) 3)
    else
      .longBlock (drawnBits n (k + 7) 5) (drawnBits n (k + 8) 5) (drawnBits n (k + 12) 5) (drawnBits n (k + 13) 4)
        (drawnBits n (k + 14) 3)
  preflag := drawnBits n (k + 15) 1
  scalefacScale := drawnBits n (k + 16) 1
  count1TableSelect := drawnBits n (k + 17) 1

/-- A side-info record of draws. The absent channel of a valid mono one is zero (spec/10_state.md R42); one that is not
valid may hold anything. -/
def drawnSideInfo (n : Nat) (mono : Bool) : SideInfo where
  mainDataBegin := drawnBits n 30 9
  privateBits := drawnBits n 31 5
  scfsi := ⟨drawnBits n 32 4, if mono then 0 else drawnBits n 33 4⟩
  gc :=
    ⟨drawnChannel n 100, if mono then ChannelSideInfo.zero else drawnChannel n 120,
     drawnChannel n 140, if mono then ChannelSideInfo.zero else drawnChannel n 160⟩

/-- A window of draws inside IBUF (spec/20_memory.md R87). -/
def drawnWindow (n : Nat) (s : State) : State :=
  { s with
    winLen := BitVec.ofNat 16 (drawnUpTo n 40 s.cfg.data.ibufBytes)
    winBase := BitVec.ofNat 16 (drawnUpTo n 41 (s.cfg.data.ibufBytes - drawnUpTo n 40 s.cfg.data.ibufBytes)) }

/-- The registers beside the results that a tainted BR_OPEN or SRST writes by its rule: draws. Any other command writes
none of them. -/
def drawnSetup (n : Nat) (s : State) : State :=
  match decodeWord s.cmdLatch with
  | .ok .brOpen => drawnWindow n s
  | .ok .srst =>
    { drawnWindow n s with
      brBaseReg := drawnBits n 42 16
      brLenReg := drawnBits n 43 16
      ibufAddr := drawnBits n 44 16
      outAddr := drawnBits n 45 16
      err := drawnBits n 46 9 &&& 0x1FE
      cmdLatch := drawnBits n 47 32
      pos0 := drawnBits n 48 16 }
  | _ => s

/-- What every tainted command leaves open: status, results, the cursor inside the window, the records, the valid flags
inside their implications, and OUT. -/
def drawnResults (n : Nat) (s : State) : State :=
  { s with
    statusCode := (drawnStatus n 0).1
    statusDetail := (drawnStatus n 0).2
    err := s.err ||| errMask (drawnStatus n 0).1
    res := ⟨drawnBits n 1 32, drawnBits n 2 32, drawnBits n 3 32, drawnBits n 4 32⟩
    pos := BitVec.ofNat 16 (drawnUpTo n 5 (8 * s.winLen.toNat))
    hdrValid := drawnFlag n 6
    siValid := drawnFlag n 6 && drawnFlag n 7
    mdValid := drawnFlag n 6 && drawnFlag n 7 && drawnFlag n 8
    hdr := drawnHeader n (drawnFlag n 6)
    si := drawnSideInfo n (drawnFlag n 6 && drawnFlag n 7 && isMono (drawnHeader n (drawnFlag n 6)))
    md := .drawn (n + 1)
    draws := n + 2
    busy := false
    tainted := false
    openRace := none }

/-- The completion of a tainted command (spec/70_reset_and_hazards.md R402). -/
def drawnOutcome (s : State) : State := drawnResults s.draws (drawnSetup s.draws s)

/-! ### The completion step -/

/-- Decode the latched word and execute it, or end ILLEGAL_CMD (spec/60_exceptions.md R353, spec/30_encoding.md R122). -/
def completion (s : State) : Outcome :=
  if s.tainted then .next (drawnOutcome s)
  else
    match decodeWord s.cmdLatch with
    | .error e => raised s .illegalCmd e.detail
    | .ok i => exec i s

/-- The sequencer's turn: with no accepted command the block is idle (spec/60_exceptions.md R368). -/
def sequencerTurn (s : State) : Outcome := if s.busy then completion s else .next s

/-- Assert the reset input (spec/70_reset_and_hazards.md R390): a running command is abandoned. -/
def assertReset (s : State) : State := { s.hardReset with resetAsserted := true }

/-- Release the reset input: the block is idle in its reset state. -/
def releaseReset (s : State) : State := { s with resetAsserted := false }

/-- What one input does to the block. -/
def takeInput (x : Input) (s : State) : Outcome :=
  match x with
  | .busRead addr bytes => hostRead addr bytes s
  | .busWrite addr bytes d => hostWrite addr bytes d s
  | .sequencerTurn => sequencerTurn s
  | .assertReset => .next (assertReset s)
  | .releaseReset => .next (releaseReset s)

/-- One step: the next input, or, when the environment does nothing more, the sequencer's turn
(spec/70_reset_and_hazards.md R405: every accepted command completes; log 4). -/
def nextStep (s : State) : Outcome :=
  match s.inputs with
  | [] => sequencerTurn s
  | x :: rest => takeInput x { s with inputs := rest }

/-- `s` with the command word `w` accepted and the sequencer's turn next: the state in which the very next step runs that
command (log 5). -/
def fetchReady (s : State) (w : Word) : State :=
  { s.accept w with resetAsserted := false, inputs := .sequencerTurn :: s.inputs }

end Sys2Proof.Machine
end

