-- ==== Sys2Proof/Machine/Step.lean ====
section
/-! DEFINITION. The step of the machine, and the state whose next step runs a given command word. -/

namespace Sys2Proof.Machine

/-- One step of the block in its environment (Machine/Sequencer.lean). -/
def step (s : State) : Host.Outcome State Fault Refusal := nextStep s

/-- `s` with the command word `w` accepted, so that the next step runs it. A command is one 32-bit word. -/
def State.withFetchWord (s : State) (nbits w : Nat) : State := fetchReady s (BitVec.ofNat 32 (w % 2 ^ nbits))

end Sys2Proof.Machine
end

