-- ==== Sys2Proof/Safety.lean ====
section
/-! DEFINITION. What holds of the block between steps, in the terms the statements use. -/

namespace Sys2Proof.Machine

/-- The invariant of the block. Every line but the last four is a rule of the spec; the last four are about the reset
input and the model's own fields. -/
structure Inv (s : State) : Prop where
  /-- The window lies inside IBUF (spec/20_memory.md R87). -/
  windowInside : s.winBase.toNat + s.winLen.toNat ≤ s.cfg.data.ibufBytes
  /-- The cursor lies inside the window or at its end (spec/10_state.md R36). -/
  cursorInside : s.pos.toNat ≤ 8 * s.winLen.toNat
  /-- While a command runs, the saved cursor is the cursor (spec/60_exceptions.md R352: no other step moves it). -/
  cursorSaved : s.busy = true → s.pos0 = s.pos
  /-- spec/10_state.md R40 -/
  siNeedsHdr : s.siValid = true → s.hdrValid = true
  /-- spec/10_state.md R40 -/
  mdNeedsSi : s.mdValid = true → s.siValid = true
  /-- The status is one of the pairs the block can produce (spec/60_exceptions.md R351). -/
  statusListed : (s.statusCode, s.statusDetail) ∈ statusPairs
  /-- ERR bit 0 is 0 (spec/30_encoding.md R132). -/
  errBitZero : s.err.getLsbD 0 = false
  /-- A valid header has one channel or two (spec/10_state.md R41). -/
  channels : s.hdrValid = true → s.hdr.nch = 1 ∨ s.hdr.nch = 2
  /-- A mono frame's absent channel is zero (spec/10_state.md R42). -/
  absentChannel : s.siValid = true → isMono s.hdr = true →
    s.si.scfsi.ch1 = 0 ∧ s.si.gc.q1 = ChannelSideInfo.zero ∧ s.si.gc.q3 = ChannelSideInfo.zero
  /-- IBUF is in canonical form and inside its size (spec/20_memory.md R80). -/
  ibufCanonical : Memory.wf s.ibuf s.cfg.data.ibufBytes
  /-- OUT holds mapped elements of their widths (spec/20_memory.md R90). -/
  outCanonical : s.md.wf
  /-- Under reset no command runs (spec/70_reset_and_hazards.md R390). -/
  resetIdle : s.resetAsserted = true → s.busy = false
  /-- Only a running command is tainted or raced. -/
  hazardRuns : s.busy = false → s.tainted = false ∧ s.openRace = none
  /-- IBUF's draw has been taken. -/
  ibufDrawTaken : s.ibufDraw < s.draws
  /-- OUT's draw, if it is one, has been taken. -/
  outDrawTaken : ∀ n, s.md = .drawn n → n < s.draws

end Sys2Proof.Machine
end

