-- ==== Sys2Proof/Certificates/Slice0/Obligations.lean ====
section
/-! DEFINITION. The statements about the model, each `def Obligations.<Name> : Prop`, with the small vocabulary they are
written in. The ids and the rules they come from stand in OBLIGATIONS.json. -/

namespace Sys2Proof.Spec

open Sys2Proof.Machine

/-- How a command that ends OK(0) leaves the state it wrote: status 0, idle. The last two fields are the model's own. -/
def endOk (s : State) : State :=
  { s with statusCode := 0, statusDetail := 0, busy := false, tainted := false, openRace := none }

/-- How a command that ends in an error leaves the state: cursor back at its value at acceptance, the code's sticky bit set
(spec/60_exceptions.md R353, R356). -/
def endError (s : State) (code detail : BitVec 8) : State :=
  { s with
    pos := s.pos0
    statusCode := code
    statusDetail := detail
    err := s.err ||| (1#9 <<< code.toNat)
    busy := false
    tainted := false
    openRace := none }

/-- All three valid flags 0. -/
def noneValid (s : State) : State := { s with hdrValid := false, siValid := false, mdValid := false }

/-- si_valid and md_valid 0. -/
def headerOnlyValid (s : State) : State := { s with siValid := false, mdValid := false }

/-- md_valid 0. -/
def mdInvalid (s : State) : State := { s with mdValid := false }

/-- The last bit position of the window, plus one. -/
def bitsInWindow (s : State) : Nat := 8 * s.winLen.toNat

/-- The `n` bits at the cursor as an unsigned number. -/
def nextBits (s : State) (n : Nat) : Nat := memRead s.window s.pos.toNat n

/-- The window's bits from position `p` on begin with this bit string. -/
def BitsAt (w : Window) (p : Nat) (bits : List Bool) : Prop :=
  ∀ j (h : j < bits.length), winBit w (p + j) = (bits[j]).toNat

/-- The register reset values of spec/10_state.md R48. -/
def RegistersReset (t : State) : Prop :=
  t.busy = false ∧ t.cmdLatch = 0 ∧ t.statusCode = 0 ∧ t.statusDetail = 0 ∧ t.err = 0 ∧
  t.res = ⟨0, 0, 0, 0⟩ ∧ t.brBaseReg = 0 ∧ t.brLenReg = 0 ∧ t.winBase = 0 ∧ t.winLen = 0 ∧ t.pos = 0 ∧ t.pos0 = 0 ∧
  t.ibufAddr = 0 ∧ t.outAddr = 0 ∧ t.hdrValid = false ∧ t.siValid = false ∧ t.mdValid = false ∧
  t.hdr = ⟨0, 0, 0, 0, 0, 0, false, 0, 0, 0, 0⟩ ∧
  t.si = ⟨0, 0, ⟨0, 0⟩, ⟨⟨0, 0, 0, 0, .longBlock 0 0 0 0 0, 0, 0, 0⟩, ⟨0, 0, 0, 0, .longBlock 0 0 0 0 0, 0, 0, 0⟩,
    ⟨0, 0, 0, 0, .longBlock 0 0 0 0 0, 0, 0, 0⟩, ⟨0, 0, 0, 0, .longBlock 0 0 0 0 0, 0, 0, 0⟩⟩⟩

/-- Every byte of IBUF reads as before. -/
def SameIbuf (s t : State) : Prop := ∀ a, ibufByte t.ibuf t.ibufDraw a = ibufByte s.ibuf s.ibufDraw a

/-- Every element of OUT reads as before. -/
def SameOut (s t : State) : Prop := ∀ i, outRead t.md i = outRead s.md i

/-- The state no command but SRST and BR_OPEN writes, whichever way it ends: the configuration, the latched command word
and saved cursor, the programmed window, the port addresses, IBUF, and the environment's side. -/
def SameSetup (s t : State) : Prop :=
  t.cfg = s.cfg ∧ t.cmdLatch = s.cmdLatch ∧ t.pos0 = s.pos0 ∧ t.brBaseReg = s.brBaseReg ∧ t.brLenReg = s.brLenReg ∧
  t.ibufAddr = s.ibufAddr ∧ t.outAddr = s.outAddr ∧ SameIbuf s t ∧ t.resetAsserted = s.resetAsserted ∧
  t.inputs = s.inputs ∧ t.replies = s.replies

/-- The latched window as before. -/
def SameWindow (s t : State) : Prop := t.winBase = s.winBase ∧ t.winLen = s.winLen

/-- The records and valid flags as before. -/
def SameRecords (s t : State) : Prop :=
  t.hdr = s.hdr ∧ t.si = s.si ∧ SameOut s t ∧ t.hdrValid = s.hdrValid ∧ t.siValid = s.siValid ∧ t.mdValid = s.mdValid

/-- `err` gains at most the bit of the status code. -/
def ErrOfStatus (s t : State) : Prop :=
  ∀ k, k < 9 → t.err.getLsbD k = (s.err.getLsbD k || (decide (k = t.statusCode.toNat) && decide (k ≠ 0)))

/-! ### Bit strings of the side-info block (spec/30_encoding.md R141, R142) -/

/-- The 22 bits from offset 34 of a ChannelSideInfo record, after the window_switch_flag that names the arm. -/
def armStream : SideArm → List Bool
  | .longBlock t0 t1 t2 r0 r1 =>
    [false] ++ bitString 5 t0.toNat ++ bitString 5 t1.toNat ++ bitString 5 t2.toNat ++ bitString 4 r0.toNat ++
      bitString 3 r1.toNat
  | .shortOrMixed bt mixed t0 t1 g0 g1 g2 =>
    [true] ++ bitString 2 bt.toNat ++ bitString 1 mixed.toNat ++ bitString 5 t0.toNat ++ bitString 5 t1.toNat ++
      bitString 3 g0.toNat ++ bitString 3 g1.toNat ++ bitString 3 g2.toNat

/-- A ChannelSideInfo record as its 59 bits (spec/30_encoding.md R142). -/
def channelStream (r : ChannelSideInfo) : List Bool :=
  bitString 12 r.part23Length.toNat ++ bitString 9 r.bigValues.toNat ++ bitString 8 r.globalGain.toNat ++
    bitString 4 r.scalefacCompress.toNat ++ armStream r.arm ++ bitString 1 r.preflag.toNat ++
    bitString 1 r.scalefacScale.toNat ++ bitString 1 r.count1TableSelect.toNat

/-- A side-info record as its block: 136 bits for mono, else 256 (spec/30_encoding.md R141). -/
def sideInfoStream (mono : Bool) (x : SideInfo) : List Bool :=
  if mono then
    bitString 9 x.mainDataBegin.toNat ++ bitString 5 x.privateBits.toNat ++ bitString 4 x.scfsi.ch0.toNat ++
      channelStream x.gc.q0 ++ channelStream x.gc.q2
  else
    bitString 9 x.mainDataBegin.toNat ++ bitString 3 x.privateBits.toNat ++ bitString 4 x.scfsi.ch0.toNat ++
      bitString 4 x.scfsi.ch1.toNat ++ channelStream x.gc.q0 ++ channelStream x.gc.q1 ++ channelStream x.gc.q2 ++
      channelStream x.gc.q3

/-- What a decoded record can hold: a mono one has no second channel, any other one only 3 private bits
(spec/10_state.md R42). -/
def SideInfoShape (mono : Bool) (x : SideInfo) : Prop :=
  if mono then x.scfsi.ch1 = 0 ∧ x.gc.q1 = ChannelSideInfo.zero ∧ x.gc.q3 = ChannelSideInfo.zero
  else x.privateBits.toNat < 8

/-! ### Bit strings of Huffman symbols (spec/43_huffman.md R263 to R265) -/

/-- A pair value's magnitude: the escape value 15 of a table with linbits is extended by `lin`. -/
def pairMagnitude (linbits : Nat) (mag : BitVec 4) (lin : Nat) : Nat :=
  if 0 < linbits ∧ mag = 15 then 15 + lin else mag.toNat

/-- The bits that follow the codeword for one value of a pair: linbits, then a sign bit unless the value is 0. -/
def pairExtension (linbits : Nat) (mag : BitVec 4) (lin : Nat) (negative : Bool) : List Bool :=
  (if 0 < linbits ∧ mag = 15 then bitString linbits lin else []) ++ (if mag = 0 then [] else [negative])

/-- A magnitude with its sign. -/
def signed (negative : Bool) (mag : Nat) : Int := if negative then -(mag : Int) else mag

/-- The sign bits of a quadruple's code value, in v, w, x, y order. -/
def quadSigns (u : BitVec 4) (nv nw nx ny : Bool) : List Bool :=
  (if u.getLsbD 3 then [nv] else []) ++ (if u.getLsbD 2 then [nw] else []) ++ (if u.getLsbD 1 then [nx] else []) ++
    (if u.getLsbD 0 then [ny] else [])

/-- One value of a quadruple. -/
def quadValue (u : BitVec 4) (k : Nat) (negative : Bool) : Int := signed negative (u.getLsbD k).toNat

/-- Neither of the bits that remain and the entry's code begins the other: some bit both have differs. -/
def Incompatible {α : Type} (w : Window) (lim pos : Nat) (e : CodeEntry α) : Prop :=
  ∃ j, ∃ h : j < e.code.length, j < lim - pos ∧ winBit w (pos + j) ≠ (e.code[j]).toNat

/-- The bits that remain, fewer than the entry's code has, all agree with it. -/
def EndsInside {α : Type} (w : Window) (lim pos : Nat) (e : CodeEntry α) : Prop :=
  lim - pos < e.code.length ∧
    ∀ j (h : j < e.code.length), j < lim - pos → winBit w (pos + j) = (e.code[j]).toNat

/-- Every bit string begins some code of the book or is begun by one: the engine never meets an unknown code. -/
def Covering {α : Type} (book : List (CodeEntry α)) : Prop :=
  ∀ bits : List Bool, ∃ e ∈ book, e.code <+: bits ∨ bits <+: e.code

/-- The number of bits that follow the codeword for one value of a pair. -/
def extensionLength (linbits : Nat) (mag : BitVec 4) : Nat :=
  (if 0 < linbits ∧ mag = 15 then linbits else 0) + (if mag = 0 then 0 else 1)

/-- The number of sign bits of a quadruple's code value. -/
def signCount (u : BitVec 4) : Nat :=
  (u.getLsbD 3).toNat + (u.getLsbD 2).toNat + (u.getLsbD 1).toNat + (u.getLsbD 0).toNat

/-- The rows of a codebook, the decoded value beside the code's bits. -/
def codesOf {α : Type} (book : List (CodeEntry α)) : List (α × List Nat) :=
  book.map fun e => (e.val, e.code.map Bool.toNat)

/-! ### Granule-channels -/

/-- Granule-channel `q = 2g + c` is present: both for two channels, channel 0 only for mono. -/
def Present (s : State) (q : Fin 4) : Prop := isMono s.hdr = true → q.val % 2 = 0

/-- The side-info record of granule-channel `q`. -/
def gc (s : State) (q : Fin 4) : ChannelSideInfo := s.si.gc.get q

/-- The scale-factor widths of granule-channel `q` (CFG_SLEN, spec/44_maindata.md R292). -/
def widths (s : State) (q : Fin 4) : SlenPair := s.cfg.data.slen[(gc s q).scalefacCompress.toFin]

/-- The precondition of MD_DECODE: both records valid, and a band table if some present granule-channel is long. -/
def MdReady (s : State) : Prop :=
  s.hdrValid = true ∧ s.siValid = true ∧
    ((∃ T ∈ s.cfg.data.sfbLong, T.hz = s.hdr.frequency) ∨ ∀ q, Present s q → isShort (gc s q) = true)

/-- The OUT elements of a granule-channel, by name (spec/20_memory.md R90). -/
def line (t : State) (q : Fin 4) (i : Nat) : BitVec 16 := outElement t.md (576 * q.val + i)
def factorL (t : State) (q : Fin 4) (b : Nat) : BitVec 16 := outElement t.md (0x1000 + 32 * q.val + b)
def factorS (t : State) (q : Fin 4) (b w : Nat) : BitVec 16 := outElement t.md (0x1100 + 64 * q.val + 4 * b + w)
def region1 (t : State) (q : Fin 4) : Nat := (outElement t.md (0x1200 + 4 * q.val)).toNat
def region2 (t : State) (q : Fin 4) : Nat := (outElement t.md (0x1200 + 4 * q.val + 1)).toNat
def startOf (t : State) (q : Fin 4) : Nat := (outElement t.md (0x1200 + 4 * q.val + 2)).toNat
def endOf (t : State) (q : Fin 4) : Nat := (outElement t.md (0x1200 + 4 * q.val + 3)).toNat

/-- The bit limit of granule-channel `q` that starts at `start` (spec/44_maindata.md R296). -/
def limitOf (s : State) (q : Fin 4) (start : Nat) : Nat :=
  match s.cfg.data.limitMode with
  | .span => bitsInWindow s
  | .part23 => min (bitsInWindow s) (start + (gc s q).part23Length.toNat)

/-- The cursor after granule-channel `q`, whose spectral decoding stopped at `stop` (spec/44_maindata.md R304). -/
def endFrom (s : State) (q : Fin 4) (start stop : Nat) : Nat :=
  match s.cfg.data.limitMode with
  | .span => stop
  | .part23 => limitOf s q start

/-- The group of spec/44_maindata.md R295 that a long band belongs to. -/
def bandGroup (b : Nat) : Nat := if b < 6 then 0 else if b < 11 then 1 else if b < 16 then 2 else 3

/-- Band `b` of a long granule-channel is copied from granule 0: granule 1 with the group's scfsi bit set. -/
def Shared (s : State) (q : Fin 4) (b : Nat) : Prop :=
  2 ≤ q.val ∧ scfsiBit (s.si.scfsi.get (channelOf q)) (bandGroup b) = true

open Classical in
/-- The bits a long granule-channel reads before band `b` (spec/44_maindata.md R294, R295). -/
noncomputable def longBits (s : State) (q : Fin 4) (b : Nat) : Nat :=
  ∑ j ∈ Finset.range b,
    if Shared s q j then 0 else if j < 11 then (widths s q).slen1 else (widths s q).slen2

/-- The bits of the eight long bands that a mixed granule-channel reads first (spec/44_maindata.md R293). -/
def mixedBits (s : State) (q : Fin 4) : Nat := if mixedBlockFlag (gc s q) ≠ 0 then 8 * (widths s q).slen1 else 0

/-- The bits of all of a granule-channel's scale factors. -/
noncomputable def factorBits (s : State) (q : Fin 4) : Nat :=
  if isShort (gc s q) then mixedBits s q + 9 * (widths s q).slen1 + 18 * (widths s q).slen2 else longBits s q 21

/-- MD_DECODE from `s` ended OK in `t`. -/
def MdDecoded (s t : State) : Prop := exec .mdDecode s = .next t ∧ t.statusCode = 0

/-- Every codebook that granule-channel `q` can select meets no unknown code. Table 0 has none. -/
def CoveringTables (s : State) (q : Fin 4) : Prop :=
  Covering s.cfg.data.quadBook[(gc s q).count1TableSelect.toFin] ∧
    ∀ t, t = tableSelect0 (gc s q) ∨ t = tableSelect1 (gc s q) ∨ t = tableSelect2 (gc s q) →
      t = 0 ∨ Covering s.cfg.data.pairBook[t.toFin]

/-- More bits than granule-channel `q` can take: pairs of at most 60 bits, quadruples of at most 36. -/
noncomputable def mostBits (s : State) (q : Fin 4) : Nat :=
  factorBits s q + 60 * min (gc s q).bigValues.toNat 288 + 36 * ((579 - 2 * (gc s q).bigValues.toNat) / 4)

open Classical in
/-- The same for the whole frame. -/
noncomputable def mostFrameBits (s : State) : Nat :=
  ∑ q : Fin 4, if Present s q then mostBits s q else 0

/-- The pair symbol for line `i` at cursor `p`. -/
def pairAt (s t : State) (q : Fin 4) (i lim p : Nat) : Symbol (Int × Int) :=
  decodePair s.cfg.data s.window
    (if i < region1 t q then tableSelect0 (gc s q) else if i < region2 t q then tableSelect1 (gc s q)
      else tableSelect2 (gc s q)) lim p

/-- The quadruple symbol at cursor `p`. -/
def quadAt (s : State) (q : Fin 4) (lim p : Nat) : Symbol (Quad Int) :=
  decodeQuad s.cfg.data s.window (gc s q).count1TableSelect lim p

/-- A run of `n` big-values symbols from cursor `p 0`: each starts before the limit and gives two lines
(spec/44_maindata.md R299, R300). -/
def PairRun (s t : State) (q : Fin 4) (lim n : Nat) (p : Nat → Nat) : Prop :=
  ∀ j < n, p j ≠ lim ∧ ∃ x y : Int, pairAt s t q (2 * j) lim (p j) = .ok (x, y) (p (j + 1)) ∧
    line t q (2 * j) = BitVec.ofInt 16 x ∧ line t q (2 * j + 1) = BitVec.ofInt 16 y

/-- A run of `k` count1 symbols from cursor `p 0` and line `first`: each starts before the limit and gives the lines that
exist of its four (spec/44_maindata.md R301). -/
def QuadRun (s t : State) (q : Fin 4) (lim first k : Nat) (p : Nat → Nat) : Prop :=
  ∀ j < k, p j ≠ lim ∧ ∃ v : Quad Int, quadAt s q lim (p j) = .ok v (p (j + 1)) ∧
    line t q (first + 4 * j) = BitVec.ofInt 16 v.q0 ∧ line t q (first + 4 * j + 1) = BitVec.ofInt 16 v.q1 ∧
    (first + 4 * j + 2 < 576 → line t q (first + 4 * j + 2) = BitVec.ofInt 16 v.q2 ∧
      line t q (first + 4 * j + 3) = BitVec.ofInt 16 v.q3)

/-- The band table of the frame's frequency: the first, if two have it (log 23). -/
def bandTable (s : State) : Option SfbTable := s.cfg.data.sfbLong.find? fun T => T.hz == s.hdr.frequency

/-- Entry `i` of the frame's band table, and 576 above its last entry. -/
def bandBound (s : State) (i : Nat) : Nat :=
  match bandTable s with
  | some T => T.bounds.toList.getD i 576
  | none => 576

/-- The table of line `i` of granule-channel `q` (spec/44_maindata.md R297, R299). -/
def lineTable (s : State) (q : Fin 4) (i : Nat) : BitVec 5 :=
  if i < (if isShort (gc s q) then 36 else bandBound s ((region0Count (gc s q)).toNat + 1)) then tableSelect0 (gc s q)
  else if i < (if isShort (gc s q) then 576
      else bandBound s ((region0Count (gc s q)).toNat + (region1Count (gc s q)).toNat + 2)) then tableSelect1 (gc s q)
  else tableSelect2 (gc s q)

/-- The pair symbol for line `i` of granule-channel `q` at cursor `p`. -/
def pairOf (s : State) (q : Fin 4) (i lim p : Nat) : Symbol (Int × Int) :=
  decodePair s.cfg.data s.window (lineTable s q i) lim p

/-- The spectral lines of granule-channel `q` that starts at `start`, up to a point: `n` pair symbols, each started before
the limit, take the cursor from the end of the scale factors, which fit, to `p n`. -/
def PairsTo (s : State) (q : Fin 4) (start n : Nat) (p : Nat → Nat) : Prop :=
  start + factorBits s q ≤ limitOf s q start ∧ n ≤ min (gc s q).bigValues.toNat 288 ∧ p 0 = start + factorBits s q ∧
    ∀ j < n, p j ≠ limitOf s q start ∧ ∃ v, pairOf s q (2 * j) (limitOf s q start) (p j) = .ok v (p (j + 1))

/-- All pairs, then `k` quadruple symbols that begin below line 576 and before the limit take the cursor to `r k`. -/
def QuadsTo (s : State) (q : Fin 4) (start : Nat) (p : Nat → Nat) (k : Nat) (r : Nat → Nat) : Prop :=
  PairsTo s q start (min (gc s q).bigValues.toNat 288) p ∧ r 0 = p (min (gc s q).bigValues.toNat 288) ∧
    ∀ j < k, 2 * (gc s q).bigValues.toNat + 4 * j < 576 ∧ r j ≠ limitOf s q start ∧
      ∃ v, quadAt s q (limitOf s q start) (r j) = .ok v (r (j + 1))

/-- Granule-channel `q`, started at `start`, ends without error with the cursor at `stop` (spec/44_maindata.md R300 to
R304). -/
def EndsAt (s : State) (q : Fin 4) (start stop : Nat) : Prop :=
  (∃ n p, PairsTo s q start n p ∧ n < min (gc s q).bigValues.toNat 288 ∧
    (p n = limitOf s q start ∨ pairOf s q (2 * n) (limitOf s q start) (p n) = .exhausted) ∧
    stop = endFrom s q start (p n)) ∨
  (∃ p k r, QuadsTo s q start p k r ∧
    (2 * (gc s q).bigValues.toNat + 4 * k < 576 →
      r k = limitOf s q start ∨ quadAt s q (limitOf s q start) (r k) = .exhausted) ∧
    stop = endFrom s q start (r k))

/-- Granule-channel `q`, started at `start`, meets a symbol that no codeword of its table agrees with. -/
def MeetsUnknownCode (s : State) (q : Fin 4) (start : Nat) : Prop :=
  (∃ n p, PairsTo s q start n p ∧ n < min (gc s q).bigValues.toNat 288 ∧ p n ≠ limitOf s q start ∧
    lineTable s q (2 * n) ≠ 0 ∧
    ∀ e ∈ s.cfg.data.pairBook[(lineTable s q (2 * n)).toFin], Incompatible s.window (limitOf s q start) (p n) e) ∨
  (∃ p k r, QuadsTo s q start p k r ∧ 2 * (gc s q).bigValues.toNat + 4 * k < 576 ∧ r k ≠ limitOf s q start ∧
    ∀ e ∈ s.cfg.data.quadBook[(gc s q).count1TableSelect.toFin], Incompatible s.window (limitOf s q start) (r k) e)

/-- The granule-channels before number `n` end without error, one after the other: `c q` is where granule-channel `q`
starts, and one that is not present takes no bit (spec/44_maindata.md R311). -/
def RunsThrough (s : State) (n : Nat) (c : Nat → Nat) : Prop :=
  c 0 = s.pos.toNat ∧ ∀ q : Fin 4, q.val < n →
    (Present s q → EndsAt s q (c q.val) (c (q.val + 1))) ∧ (¬ Present s q → c (q.val + 1) = c q.val)

open Classical in
/-- In PART23 mode granule-channel `q` starts after the part2_3_length bits of those present before it, or at the window's
end (spec/44_maindata.md R296, R304). -/
noncomputable def part23Start (s : State) (q : Fin 4) : Nat :=
  min (bitsInWindow s) (s.pos.toNat + ∑ p : Fin 4, if p < q ∧ Present s p then (gc s p).part23Length.toNat else 0)

/-! ### Host accesses -/

/-- The step that takes a word read at aperture offset `o` answers `v` and changes nothing else. -/
def ReadsAs (s : State) (o : Nat) (v : Word) : Prop :=
  ∀ rest, s.inputs = .busRead (s.cfg.data.regBase + o) 4 :: rest →
    step s = .next { s with inputs := rest, replies := v :: s.replies }

/-- The step that takes a word write of `d` at aperture offset `o` leads to `t`, but for the input it took. -/
def WritesTo (s : State) (o : Nat) (d : Word) (t : State) : Prop :=
  ∀ rest, s.inputs = .busWrite (s.cfg.data.regBase + o) 4 d :: rest → step s = .next { t with inputs := rest }

/-- The register offsets of spec/30_encoding.md R130. -/
def mappedOffsets : List Nat :=
  [0x00, 0x04, 0x08, 0x0C, 0x10, 0x14, 0x18, 0x1C, 0x20, 0x24, 0x28, 0x2C, 0x30, 0x34, 0x38, 0x3C, 0x40, 0x44, 0x48, 0x4C,
   0x50, 0x54, 0x58, 0x60, 0x80, 0x84, 0x88, 0x8C, 0x90, 0x94, 0x98, 0x9C, 0xA0, 0xA4, 0xA8, 0xAC, 0xB0, 0xB4, 0xB8, 0xBC]

/-- The offsets a host write changes something at. -/
def writableOffsets : List Nat := [0x00, 0x08, 0x0C, 0x10, 0x30, 0x34, 0x38]

/-- The offsets of the registers a command writes, STATUS aside, by the "Writes" line of its rule. -/
def writtenOffsets (i : Instr) : List Nat :=
  match i with
  | .nop => []
  | .brOpen => [0x14, 0x18]
  | .brRead _ => [0x14, 0x20]
  | .brPeek _ => [0x20, 0x24]
  | .brSeek _ => [0x14]
  | .hdrDecode => [0x14, 0x40, 0x44, 0x48, 0x4C, 0x50, 0x54, 0x58]
  | .siDecode =>
    [0x14, 0x60, 0x80, 0x84, 0x88, 0x8C, 0x90, 0x94, 0x98, 0x9C, 0xA0, 0xA4, 0xA8, 0xAC, 0xB0, 0xB4, 0xB8, 0xBC]
  | .huffPair _ => [0x14, 0x20, 0x24, 0x28, 0x2C]
  | .huffQuad _ => [0x14, 0x20, 0x24, 0x28, 0x2C]
  | .mdDecode => [0x14, 0x3C]
  | .srst =>
    [0x08, 0x0C, 0x10, 0x14, 0x18, 0x20, 0x24, 0x28, 0x2C, 0x30, 0x38, 0x40, 0x44, 0x48, 0x4C, 0x50, 0x54, 0x58, 0x60,
     0x80, 0x84, 0x88, 0x8C, 0x90, 0x94, 0x98, 0x9C, 0xA0, 0xA4, 0xA8, 0xAC, 0xB0, 0xB4, 0xB8, 0xBC]

/-- Words 0 to 2 of a ChannelSideInfo record, as its register layout cuts them (spec/30_encoding.md R133, with the implied
values of spec/10_state.md R43). -/
def gcWord0 (r : ChannelSideInfo) : Word := 0#3 ++ r.globalGain ++ r.bigValues ++ r.part23Length

def gcWord1 (r : ChannelSideInfo) : Word :=
  match r.arm with
  | .longBlock _ _ _ r0 r1 =>
    0#14 ++ r1 ++ r0 ++ r.count1TableSelect ++ r.scalefacScale ++ r.preflag ++ 0#1 ++ 0#2 ++ 0#1 ++ r.scalefacCompress
  | .shortOrMixed bt mixed _ _ _ _ _ =>
    0#13 ++ (if bt = 2 ∧ mixed = 0 then 12#4 ++ 8#4 else 13#4 ++ 7#4) ++ r.count1TableSelect ++ r.scalefacScale ++
      r.preflag ++ mixed ++ bt ++ 1#1 ++ r.scalefacCompress

def gcWord2 (r : ChannelSideInfo) : Word :=
  match r.arm with
  | .longBlock t0 t1 t2 _ _ => 0#17 ++ t2 ++ t1 ++ t0
  | .shortOrMixed _ _ t0 t1 g0 g1 g2 => 0#8 ++ g2 ++ g1 ++ g0 ++ 0#5 ++ t1 ++ t0

end Sys2Proof.Spec

open Sys2Proof Sys2Proof.Machine Sys2Proof.Spec

/-! ### Encoding -/

/-- R120, R121, R123: decoding the word of a legal command gives the command back, with every operand value. -/
def Obligations.EncodedCommandDecodes : Prop :=
  ∀ i : Instr, i.wellFormed = true → decodeWord (encode i) = .ok i

/-- R120, R121: a word that decodes is the one encoding of its command, so no two words mean one command. -/
def Obligations.DecodedWordIsItsEncoding : Prop :=
  ∀ (w : Word) (i : Instr), decodeWord w = .ok i → encode i = w ∧ i.wellFormed = true

/-- R121: a word of each row of the opcode map, written out from its encoding column. -/
def Obligations.OpcodeMapWordsDecode : Prop :=
  decodeWord 0b00000000_00000000_00000000_00000000 = .ok .nop ∧
  decodeWord 0b00000001_00000000_00000000_00000000 = .ok .brOpen ∧
  decodeWord 0b00000010_00000000_00000000_00_100000 = .ok (.brRead 32) ∧
  decodeWord 0b00000011_00000000_00000000_00_000101 = .ok (.brPeek 5) ∧
  decodeWord 0b00000100_00000000_10000000_00000001 = .ok (.brSeek 0x8001) ∧
  decodeWord 0b00010000_00000000_00000000_00000000 = .ok .hdrDecode ∧
  decodeWord 0b00010001_00000000_00000000_00000000 = .ok .siDecode ∧
  decodeWord 0b00100000_00000000_00000000_000_10001 = .ok (.huffPair 17) ∧
  decodeWord 0b00100001_00000000_00000000_0000000_1 = .ok (.huffQuad 1) ∧
  decodeWord 0b00110000_00000000_00000000_00000000 = .ok .mdDecode ∧
  decodeWord 0b11111111_00000000_00000000_00000000 = .ok .srst

/-- R122: the first of the three tests that fails names the error, and an ILLEGAL_CMD completion writes status, err[4] and
busy and nothing else. The hazard field openRace is the model's own. -/
def Obligations.IllegalWordEndsInItsFirstFailingTest : Prop :=
  (∀ w : Word,
    (w.extractLsb' 24 8 ∉ ([0x00, 0x01, 0x02, 0x03, 0x04, 0x10, 0x11, 0x20, 0x21, 0x30, 0xFF] : List (BitVec 8)) →
      decodeWord w = .error .unassignedOpcode) ∧
    (∀ row ∈ ([(0x00, 0xFFFFFF), (0x01, 0xFFFFFF), (0x02, 0xFFFFC0), (0x03, 0xFFFFC0), (0x04, 0xFF0000),
        (0x10, 0xFFFFFF), (0x11, 0xFFFFFF), (0x20, 0xFFFFE0), (0x21, 0xFFFFFE), (0x30, 0xFFFFFF), (0xFF, 0xFFFFFF)] :
        List (BitVec 8 × Word)),
      w.extractLsb' 24 8 = row.1 → w &&& row.2 ≠ 0 → decodeWord w = .error .reservedBitSet) ∧
    ((w.extractLsb' 24 8 = 0x02 ∨ w.extractLsb' 24 8 = 0x03) → w &&& 0xFFFFC0 = 0 → 32 < (w.extractLsb' 0 6).toNat →
      decodeWord w = .error .countTooLarge)) ∧
  (∀ (s : State) (e : DecodeError), Inv s → s.busy = true → s.tainted = false → decodeWord s.cmdLatch = .error e →
    completion s = .next
      { s with
        statusCode := 4
        statusDetail := (match e with | .unassignedOpcode => 1 | .reservedBitSet => 2 | .countTooLarge => 3)
        err := s.err ||| 0x10
        busy := false
        openRace := none })

/-! ### The machine around a command -/

/-- R353 with the scheduling of R405: when the sequencer's turn comes, a step runs the decoded command. That an empty input
list is its turn is the model's choice (log 4). -/
def Obligations.StepRunsTheDecodedCommand : Prop :=
  ∀ (s : State) (i : Instr), s.busy = true → s.tainted = false →
    (s.inputs = [] ∨ ∃ rest, s.inputs = .sequencerTurn :: rest) → decodeWord s.cmdLatch = .ok i →
    step s = exec i { s with inputs := s.inputs.tail }

/-- R352: a CMD write is accepted when idle; while busy it sets CMD_DROPPED and has no other effect. -/
def Obligations.CommandWriteIsAcceptedOrDropped : Prop :=
  ∀ (s : State) (d : Word) (rest : List Input), s.resetAsserted = false →
    s.inputs = .busWrite s.cfg.data.regBase 4 d :: rest →
    (s.busy = false → step s = .next
      { s with inputs := rest, cmdLatch := d, pos0 := s.pos, busy := true, tainted := false, openRace := none }) ∧
    (s.busy = true → step s = .next { s with inputs := rest, err := s.err ||| 0x100 })

/-- The invariant of Safety.lean is kept by every step, from every state that meets it. Its last four lines are about the
reset input and the model's own fields (log 4, 7, 8, 10, 11, 12). -/
def Obligations.StepKeepsTheInvariant : Prop :=
  ∀ s t : State, Inv s → step s = .next t → Inv t

/-- The reset state meets the invariant. -/
def Obligations.ResetMeetsTheInvariant : Prop := Inv State.reset

/-- R48, R390: asserting reset at any time leaves every register at its reset value and fresh draws in IBUF and OUT;
releasing it then leaves the block idle in that state; `State.reset` has the same values, with reset released; and SRST
gives them but keeps IBUF and OUT. That the reset input is a level, asserted and released by separate inputs, with its
level bit in the state and `State.reset` after release, is the model's choice (log 12). -/
def Obligations.ResetLeavesTheResetValues : Prop :=
  (∀ (s : State) (rest : List Input), s.inputs = .assertReset :: rest →
    ∃ t, step s = .next t ∧ RegistersReset t ∧ t.cfg = s.cfg ∧ t.resetAsserted = true ∧ t.inputs = rest ∧
      (∀ a, ibufByte t.ibuf t.ibufDraw a = (Config.freeDraw s.draws a).setWidth 8) ∧
      (∀ i, outElement t.md i = (Config.freeDraw (s.draws + 1) i).setWidth 16)) ∧
  (∀ (s : State) (rest : List Input), s.inputs = .releaseReset :: rest →
    step s = .next { s with inputs := rest, resetAsserted := false }) ∧
  (∀ (s : State) (rest : List Input), s.inputs = .assertReset :: .releaseReset :: rest →
    ∃ t, Sys2Proof.core.run 2 s = .next t ∧ RegistersReset t ∧ t.resetAsserted = false ∧ t.inputs = rest) ∧
  RegistersReset State.reset ∧ State.reset.resetAsserted = false ∧
  (∀ s : State, ∃ t, exec .srst s = .next t ∧ RegistersReset t ∧ SameIbuf s t ∧ SameOut s t)

/-- R47, R392: no command, host access or reset changes the configuration. -/
def Obligations.ConfigurationNeverChanges : Prop :=
  ∀ s t : State, step s = .next t → t.cfg = s.cfg

/-- R405's fairness, by the model's scheduling (log 4: an empty input list is the sequencer's turn): a run that takes the
environment's pending inputs without a refusal, and one more step, ends with no command running. A reset among those inputs
abandons a command; otherwise it completed. -/
def Obligations.AcceptedCommandCompletes : Prop :=
  ∀ s t : State, Sys2Proof.core.run (s.inputs.length + 1) s = .next t → t.busy = false

/-- R89, R393: a step never stops on a command; the only stops are host accesses outside the contract, and each of those
does stop. Stopping on an access outside the aperture is the model's choice (log 13). -/
def Obligations.OnlyBadAccessesAreRefused : Prop :=
  ∀ s : State,
    (∀ r, step s = .refused r →
      ∃ rest addr bytes, (s.inputs = .busRead addr bytes :: rest ∨ ∃ d, s.inputs = .busWrite addr bytes d :: rest) ∧
        (s.resetAsserted = true ∨ addr < s.cfg.data.regBase ∨ s.cfg.data.regBase + 256 ≤ addr ∨ bytes ≠ 4 ∨
          (addr - s.cfg.data.regBase) % 4 ≠ 0)) ∧
    (∀ rest addr bytes, s.inputs = .busRead addr bytes :: rest ∨ (∃ d, s.inputs = .busWrite addr bytes d :: rest) →
      (s.resetAsserted = true → step s = .refused .accessUnderReset) ∧
      (s.resetAsserted = false → (addr < s.cfg.data.regBase ∨ s.cfg.data.regBase + 256 ≤ addr) →
        step s = .refused .outsideAperture) ∧
      (s.resetAsserted = false → s.cfg.data.regBase ≤ addr → addr < s.cfg.data.regBase + 256 →
        (bytes ≠ 4 ∨ (addr - s.cfg.data.regBase) % 4 ≠ 0) → step s = .refused .accessShape)) ∧
    (∀ f, step s ≠ .fault f)

/-- R36: the cursor moves back only through the completion of a BR_SEEK, BR_OPEN or SRST and through reset; a rollback
returns it to its value at acceptance. A command whose window was written under it (R402) is set aside. -/
def Obligations.CursorMovesBackOnlyWhereStated : Prop :=
  ∀ s t : State, Inv s → s.tainted = false → step s = .next t → t.pos.toNat < s.pos.toNat →
    (∃ rest, s.inputs = .assertReset :: rest) ∨
    (s.busy = true ∧ t.busy = false ∧
      (decodeWord s.cmdLatch = .ok .brOpen ∨ decodeWord s.cmdLatch = .ok .srst ∨
        ∃ off, decodeWord s.cmdLatch = .ok (.brSeek off)))

/-! ### Control -/

/-- R340: NOP writes the status and nothing else. Its one word is 0, and any other word of its opcode is illegal. -/
def Obligations.NopOnlyWritesTheStatus : Prop :=
  (∀ s : State, exec .nop s = .next (endOk s)) ∧
  decodeWord 0x00000000 = .ok .nop ∧
  ∀ w : Word, w.extractLsb' 24 8 = 0x00 → w ≠ 0x00000000 → decodeWord w = .error .reservedBitSet

/-- R342: SRST sets every register to its reset value and keeps IBUF and OUT. What it keeps beside them is the
configuration, the reset input and the model's own lists and counters. Its one word is 0xFF000000, and any other word of
its opcode is illegal. -/
def Obligations.SrstRestoresEveryRegister : Prop :=
  (∀ s : State, exec .srst s = .next
    { State.reset with
      cfg := s.cfg, md := s.md, ibuf := s.ibuf, ibufDraw := s.ibufDraw, draws := s.draws, inputs := s.inputs,
      replies := s.replies, resetAsserted := s.resetAsserted }) ∧
  decodeWord 0xFF000000 = .ok .srst ∧
  ∀ w : Word, w.extractLsb' 24 8 = 0xFF → w ≠ 0xFF000000 → decodeWord w = .error .reservedBitSet

/-! ### The bit reader -/

/-- R85, R86, R161: window bit k is bit 7 - k mod 8 of the IBUF byte at win_base + floor(k / 8), and `MemRead(p, n)` is the
sum of the window bits, first bit most significant, an n-bit value. -/
def Obligations.MemReadIsBigEndian : Prop :=
  (∀ (s : State) (k : Nat),
    winBit s.window k =
      ((ibufByte s.ibuf s.ibufDraw (s.winBase.toNat + k / 8)).getLsbD (7 - k % 8)).toNat) ∧
  ∀ (w : Window) (p n : Nat),
    memRead w p n = ∑ j ∈ Finset.range n, winBit w (p + j) <<< (n - 1 - j) ∧ memRead w p n < 2 ^ n

/-- R166: BR_OPEN latches the programmed pair and sets the cursor to 0, or ends RANGE(1). No race is pending. Its word. -/
def Obligations.BrOpenLatchesTheProgrammedWindow : Prop :=
  decodeWord 0x01000000 = .ok .brOpen ∧
  ∀ s : State, s.openRace = none →
    (s.brBaseReg.toNat + s.brLenReg.toNat ≤ s.cfg.data.ibufBytes →
      exec .brOpen s = .next (endOk { s with winBase := s.brBaseReg, winLen := s.brLenReg, pos := 0 })) ∧
    (s.cfg.data.ibufBytes < s.brBaseReg.toNat + s.brLenReg.toNat → exec .brOpen s = .next (endError s 6 1))

/-- R402, second bullet: a write to BR_BASE or BR_LEN under a running BR_OPEN sets the register and leaves it open whether
BR_OPEN latches the old or the new value; beside the register it changes the model's own fields only. BR_OPEN then latches
the pair so left (log 11). -/
def Obligations.RacedBrOpenLatchesOldOrNew : Prop :=
  (∀ (s : State) (d : Word) (rest : List Input), s.resetAsserted = false → s.busy = true →
    decodeWord s.cmdLatch = .ok .brOpen →
    (s.inputs = .busWrite (s.cfg.data.regBase + 0x00C) 4 d :: rest →
      ∃ b, step s = .next
          { s with
            inputs := rest
            brBaseReg := d.setWidth 16
            openRace := some (b, (openPair s).2)
            draws := s.draws + 1 } ∧
        (b = (openPair s).1 ∨ b = d.setWidth 16)) ∧
    (s.inputs = .busWrite (s.cfg.data.regBase + 0x010) 4 d :: rest →
      ∃ l, step s = .next
          { s with
            inputs := rest
            brLenReg := d.setWidth 16
            openRace := some ((openPair s).1, l)
            draws := s.draws + 1 } ∧
        (l = (openPair s).2 ∨ l = d.setWidth 16))) ∧
  (∀ (s : State) (b l : BitVec 16), s.openRace = some (b, l) →
    exec .brOpen s = .next
      (if b.toNat + l.toNat ≤ s.cfg.data.ibufBytes then endOk { s with winBase := b, winLen := l, pos := 0 }
       else endError s 6 1))

/-- R168: BR_READ n, and its words. -/
def Obligations.BrReadConsumesTheNextBits : Prop :=
  (∀ n : BitVec 6, decodeWord (0x02000000 ||| n.setWidth 32) =
    if n.toNat ≤ 32 then .ok (.brRead n) else .error .countTooLarge) ∧
  ∀ (n : BitVec 6) (s : State),
    (n.toNat ≤ 32 → s.pos.toNat + n.toNat ≤ bitsInWindow s →
      exec (.brRead n) s = .next (endOk
        { s with
          res := { s.res with q0 := BitVec.ofNat 32 (nextBits s n.toNat) }
          pos := BitVec.ofNat 16 (s.pos.toNat + n.toNat) })) ∧
    (n.toNat ≤ 32 → bitsInWindow s < s.pos.toNat + n.toNat → exec (.brRead n) s = .next (endError s 1 0)) ∧
    (32 < n.toNat → exec (.brRead n) s = .next (endError s 4 3))

/-- R170: BR_PEEK n, and its words. -/
def Obligations.BrPeekLooksAheadWithoutMoving : Prop :=
  (∀ n : BitVec 6, decodeWord (0x03000000 ||| n.setWidth 32) =
    if n.toNat ≤ 32 then .ok (.brPeek n) else .error .countTooLarge) ∧
  ∀ (n : BitVec 6) (s : State),
    (n.toNat ≤ 32 → s.pos.toNat + n.toNat ≤ bitsInWindow s →
      exec (.brPeek n) s = .next (endOk
        { s with res := { s.res with q0 := BitVec.ofNat 32 (nextBits s n.toNat), q1 := 1 } })) ∧
    (n.toNat ≤ 32 → bitsInWindow s < s.pos.toNat + n.toNat →
      exec (.brPeek n) s = .next (endOk { s with res := { s.res with q0 := 0, q1 := 0 } })) ∧
    (32 < n.toNat → exec (.brPeek n) s = .next (endError s 4 3))

/-- R172: BR_SEEK off. -/
def Obligations.BrSeekMovesToTheOffset : Prop :=
  ∀ (off : BitVec 16) (s : State),
    (off.toNat ≤ bitsInWindow s → exec (.brSeek off) s = .next (endOk { s with pos := off })) ∧
    (bitsInWindow s < off.toNat → exec (.brSeek off) s = .next (endError s 6 2))

/-- R171: a successful BR_PEEK n and the BR_READ n accepted next give the same res[0]. -/
def Obligations.PeekThenReadAgree : Prop :=
  ∀ (n : BitVec 6) (s t u : State) (w : Word), exec (.brPeek n) s = .next t → t.statusCode = 0 → t.res.q1 = 1 →
    exec (.brRead n) (t.accept w) = .next u → u.statusCode = 0 ∧ u.res.q0 = t.res.q0

/-- R173 and the frame of the four reader commands, whichever way they end: the records and valid flags, IBUF, OUT, the
setup and res[2..3] are as before; res[1] only BR_PEEK writes, res[0] only BR_READ and BR_PEEK, the window only BR_OPEN;
an error leaves res as before. -/
def Obligations.ReaderCommandsFrame : Prop :=
  ∀ (i : Instr) (s t : State),
    (i = .brOpen ∨ (∃ n, i = .brRead n) ∨ (∃ n, i = .brPeek n) ∨ ∃ off, i = .brSeek off) → exec i s = .next t →
    SameSetup s t ∧ SameRecords s t ∧ ErrOfStatus s t ∧ t.res.q2 = s.res.q2 ∧ t.res.q3 = s.res.q3 ∧
    ((∀ n, i ≠ .brPeek n) → t.res.q1 = s.res.q1) ∧
    (i = .brOpen ∨ (∃ off, i = .brSeek off) ∨ t.statusCode ≠ 0 → t.res.q0 = s.res.q0) ∧
    (i ≠ .brOpen → SameWindow s t) ∧
    (∀ n, i = .brPeek n → t.statusCode = 0 → t.pos = s.pos)

/-! ### The header decoder -/

/-- R140, R192: the thirteen fields are the header word cut in order, first stream bit first. -/
def Obligations.HeaderFieldsCutTheWord : Prop :=
  ∀ h : Word,
    h = hdrSync h ++ hdrVersion h ++ hdrLayer h ++ hdrProtection h ++ hdrBitrateCode h ++ hdrFreqCode h ++ hdrPad h ++
      hdrPrivateBit h ++ hdrMode h ++ hdrModeExt h ++ hdrCopyright h ++ hdrOriginal h ++ hdrEmphasis h

/-- R198 to R201, R266 to R268, R292, R310: the default tables and candidate codebooks, as the configuration of
`State.reset` holds them (log 2). An entry that no header reads is left out (log 25). -/
def Obligations.DefaultTablesAsTabulated : Prop :=
  (List.finRange 16).map (fun k => (lookupBitrate Config.standard.data 3 (BitVec.ofFin k)).map BitVec.toNat) =
    [none, some 32000, some 64000, some 96000, some 128000, some 160000, some 192000, some 224000, some 256000,
      some 288000, some 320000, some 352000, some 384000, some 416000, some 448000, none] ∧
  (List.finRange 16).map (fun k => (lookupBitrate Config.standard.data 2 (BitVec.ofFin k)).map BitVec.toNat) =
    [none, some 32000, some 48000, some 56000, some 64000, some 80000, some 96000, some 112000, some 128000,
      some 160000, some 192000, some 224000, some 256000, some 320000, some 384000, none] ∧
  (List.finRange 16).map (fun k => (lookupBitrate Config.standard.data 1 (BitVec.ofFin k)).map BitVec.toNat) =
    [none, some 32000, some 40000, some 48000, some 56000, some 64000, some 80000, some 96000, some 112000,
      some 128000, some 160000, some 192000, some 224000, some 256000, some 320000, none] ∧
  (List.finRange 16).map (fun k => (lookupBitrate Config.standard.data 0 (BitVec.ofFin k)).map BitVec.toNat) =
    List.replicate 16 none ∧
  (List.finRange 4).map (fun k => (lookupFreq Config.standard.data 3 (BitVec.ofFin k)).map BitVec.toNat) =
    [some 44100, some 48000, some 32000, none] ∧
  (List.finRange 4).map (fun k => (lookupFreq Config.standard.data 2 (BitVec.ofFin k)).map BitVec.toNat) =
    [some 22050, some 24000, some 16000, none] ∧
  (List.finRange 4).map (fun k => (lookupFreq Config.standard.data 1 (BitVec.ofFin k)).map BitVec.toNat) =
    List.replicate 4 none ∧
  (List.finRange 4).map (fun k => (lookupFreq Config.standard.data 0 (BitVec.ofFin k)).map BitVec.toNat) =
    [some 11025, some 12000, some 8000, none] ∧
  (∀ layer : BitVec 2, layer ≠ 0 →
    lookupPadding Config.standard.data layer = (if layer = 3 then 4 else 1) ∧
    ∀ version : BitVec 2, version ≠ 1 →
      lookupSpf Config.standard.data layer version =
        if layer = 3 then 384 else if layer = 2 then 1152 else if version = 3 then 1152 else 576) ∧
  Config.standard.data.slen.toList.map (fun p => (p.slen1, p.slen2)) =
    [(0, 0), (0, 1), (0, 2), (0, 3), (3, 0), (1, 1), (1, 2), (1, 3), (2, 1), (2, 2), (2, 3), (3, 1), (3, 2), (3, 3),
      (4, 2), (4, 3)] ∧
  Config.standard.data.sfbLong.map (fun T => (T.hz.toNat, T.bounds.toList)) =
    [(44100, [0, 4, 8, 12, 16, 20, 24, 30, 36, 44, 52, 62, 74, 90, 110, 134, 162, 196, 238, 288, 342, 418, 576]),
      (48000, [0, 4, 8, 12, 16, 20, 24, 30, 36, 42, 50, 60, 72, 88, 106, 128, 156, 190, 230, 276, 330, 384, 576]),
      (32000, [0, 4, 8, 12, 16, 20, 24, 30, 36, 44, 54, 66, 82, 102, 126, 156, 194, 240, 296, 364, 448, 550, 576])] ∧
  Config.standard.data.linbits.toList.drop 1 =
    [0, 0, 0, 0, 0, 0, 0, 0, 0, 0, 0, 0, 0, 0, 0, 1, 2, 3, 4, 6, 8, 10, 13, 4, 5, 6, 7, 8, 9, 11, 13] ∧
  codesOf Config.standard.data.quadBook[0] =
    [(0b0000, [1]), (0b0001, [0, 1, 0, 1]), (0b0010, [0, 1, 0, 0]), (0b0011, [0, 0, 1, 0, 1]),
      (0b0100, [0, 1, 1, 0]), (0b0101, [0, 0, 0, 1, 0, 1]), (0b0110, [0, 0, 1, 0, 0]), (0b0111, [0, 0, 0, 1, 0, 0]),
      (0b1000, [0, 1, 1, 1]), (0b1001, [0, 0, 0, 1, 1]), (0b1010, [0, 0, 1, 1, 0]), (0b1011, [0, 0, 0, 0, 0, 0]),
      (0b1100, [0, 0, 1, 1, 1]), (0b1101, [0, 0, 0, 0, 1, 0]), (0b1110, [0, 0, 0, 0, 1, 1]),
      (0b1111, [0, 0, 0, 0, 0, 1])] ∧
  Config.standard.data.quadBook[1].length = 16 ∧
  (∀ c : BitVec 4, (15 - c, [(c.getLsbD 3).toNat, (c.getLsbD 2).toNat, (c.getLsbD 1).toNat, (c.getLsbD 0).toNat]) ∈
    codesOf Config.standard.data.quadBook[1]) ∧
  codesOf Config.standard.data.pairBook[1] =
    [((0, 0), [1]), ((0, 1), [0, 0, 1]), ((1, 0), [0, 1]), ((1, 1), [0, 0, 0])] ∧
  (List.finRange 32).all (fun t => t = 1 || Config.standard.data.pairBook[t].isEmpty) = true

/-- R190, R193, R195, R202 to R207: HDR_DECODE of the 32 bits at the cursor, every outcome. Under every configuration the
reserved layer and bitrate codes 0 and 15 fail the first lookup, the reserved version and frequency code 3 the second: that
no table gives these a value is the model's reading of the spec (log 27, DEDUCED). -/
def Obligations.HdrDecodeStoresTheHeader : Prop :=
  ∀ (s : State) (h : Word), h = BitVec.ofNat 32 (nextBits s 32) →
    (bitsInWindow s < s.pos.toNat + 32 → exec .hdrDecode s = .next (endError (noneValid s) 1 0)) ∧
    (s.pos.toNat + 32 ≤ bitsInWindow s →
      (hdrLayer h = 0 ∨ hdrBitrateCode h = 0 ∨ hdrBitrateCode h = 15 →
        exec .hdrDecode s = .next (endError (noneValid s) 2 1)) ∧
      (lookupBitrate s.cfg.data (hdrLayer h) (hdrBitrateCode h) = none →
        exec .hdrDecode s = .next (endError (noneValid s) 2 1)) ∧
      (∀ br, lookupBitrate s.cfg.data (hdrLayer h) (hdrBitrateCode h) = some br →
        (hdrVersion h = 1 ∨ hdrFreqCode h = 3 →
          exec .hdrDecode s = .next (endError (noneValid s) 2 2)) ∧
        (lookupFreq s.cfg.data (hdrVersion h) (hdrFreqCode h) = none →
          exec .hdrDecode s = .next (endError (noneValid s) 2 2)) ∧
        (∀ fr, lookupFreq s.cfg.data (hdrVersion h) (hdrFreqCode h) = some fr →
          ∀ pad frameSize headerLen siLen : Nat,
            pad = (hdrPad h).toNat * (s.cfg.data.padding[(hdrLayer h).toFin]).toNat →
            frameSize = (if hdrLayer h = 3 then 4 * (12 * br.toNat / fr.toNat) + pad
              else 144 * br.toNat / fr.toNat + pad) →
            headerLen = (if hdrProtection h = s.cfg.data.crcOnBit then 6 else 4) →
            siLen = (if hdrMode h = 3 then 17 else 32) →
            exec .hdrDecode s = .next (endOk
              { s with
                hdr :=
                  { raw := h
                    bitrate := br
                    frequency := fr
                    padding := s.cfg.data.padding[(hdrLayer h).toFin]
                    spf := s.cfg.data.spf[(hdrLayer h).toFin][(hdrVersion h).toFin]
                    frameSize := BitVec.ofNat 16 frameSize
                    crcPresent := decide (hdrProtection h = s.cfg.data.crcOnBit)
                    nch := if hdrMode h = 3 then 1 else 2
                    headerLen := BitVec.ofNat 8 headerLen
                    siLen := BitVec.ofNat 8 siLen
                    mdLen := BitVec.ofNat 16 (frameSize - (headerLen + siLen)) }
                hdrValid := true
                siValid := false
                mdValid := false
                pos := BitVec.ofNat 16 (s.pos.toNat + 32) }))))

/-- R203: every frame size fits hdr.frame_size (in any configuration, log 3), and the default tables' largest is 6913. -/
def Obligations.FrameSizeFitsItsRegister : Prop :=
  (∀ (c : Config) (layer version fcode : BitVec 2) (bcode : BitVec 4) (pad : BitVec 1) (br fr : Word),
    lookupBitrate c.data layer bcode = some br → lookupFreq c.data version fcode = some fr →
    frameSizeOf c.data layer br fr pad < 65536) ∧
  (∀ (layer version fcode : BitVec 2) (bcode : BitVec 4) (pad : BitVec 1) (br fr : Word),
    lookupBitrate Config.standard.data layer bcode = some br → lookupFreq Config.standard.data version fcode = some fr →
    frameSizeOf Config.standard.data layer br fr pad ≤ 6913) ∧
  frameSizeOf Config.standard.data 2 384000 8000 1 = 6913

/-- R208: HDR_DECODE's outcome depends only on the 32 bits at the cursor and the configuration. -/
def Obligations.HdrDecodeReadsOnlyItsBits : Prop :=
  ∀ s t u v : State, s.cfg = t.cfg → s.pos.toNat + 32 ≤ bitsInWindow s → t.pos.toNat + 32 ≤ bitsInWindow t →
    nextBits s 32 = nextBits t 32 → exec .hdrDecode s = .next u → exec .hdrDecode t = .next v →
    u.statusCode = v.statusCode ∧ u.statusDetail = v.statusDetail ∧ u.hdrValid = v.hdrValid ∧
      (u.statusCode = 0 → u.hdr = v.hdr)

/-! ### The side-info decoder -/

/-- R141, R142, R230, R232, R234: for any record, a window that holds its block at the cursor is decoded to that record. -/
def Obligations.SideInfoBlockDecodesToItsRecord : Prop :=
  ∀ (s : State) (x : SideInfo), s.hdrValid = true → SideInfoShape (isMono s.hdr) x →
    BitsAt s.window s.pos.toNat (sideInfoStream (isMono s.hdr) x) →
    s.pos.toNat + (if isMono s.hdr then 136 else 256) ≤ bitsInWindow s →
    exec .siDecode s = .next (endOk
      { s with
        si := x
        siValid := true
        mdValid := false
        pos := BitVec.ofNat 16 (s.pos.toNat + if isMono s.hdr then 136 else 256) })

/-- R230, R234, R235, R357: when SI_DECODE completes, what it leaves, and its two errors. -/
def Obligations.SiDecodeOutcomes : Prop :=
  ∀ (s : State) (bits : Nat), bits = (if isMono s.hdr then 136 else 256) →
    (s.hdrValid = true → s.pos.toNat + bits ≤ bitsInWindow s →
      ∃ x, SideInfoShape (isMono s.hdr) x ∧
        exec .siDecode s = .next (endOk
          { s with si := x, siValid := true, mdValid := false, pos := BitVec.ofNat 16 (s.pos.toNat + bits) })) ∧
    (s.hdrValid = true → bitsInWindow s < s.pos.toNat + bits →
      exec .siDecode s = .next (endError (headerOnlyValid s) 1 0)) ∧
    (s.hdrValid = false → exec .siDecode s = .next (endError s 5 1))

/-- The frame of HDR_DECODE and SI_DECODE, whichever way they end: res, the window, IBUF, OUT and the setup are as before;
HDR_DECODE leaves si, SI_DECODE leaves hdr and hdr_valid; an error leaves both records. -/
def Obligations.RecordDecodersFrame : Prop :=
  ∀ (i : Instr) (s t : State), (i = .hdrDecode ∨ i = .siDecode) → exec i s = .next t →
    SameSetup s t ∧ SameWindow s t ∧ SameOut s t ∧ t.res = s.res ∧ ErrOfStatus s t ∧
    (i = .hdrDecode → t.si = s.si) ∧ (i = .siDecode → t.hdr = s.hdr ∧ t.hdrValid = s.hdrValid) ∧
    (t.statusCode ≠ 0 → t.hdr = s.hdr ∧ t.si = s.si)

/-! ### The Huffman engine -/

/-- R263, R270: HUFF_PAIR 0 gives (0, 0), takes no bit and ends OK, even in an empty window. -/
def Obligations.TableZeroPairReadsNothing : Prop :=
  ∀ s : State, exec (.huffPair 0) s = .next (endOk { s with res := ⟨0, 0, 0, 0⟩ })

/-- R262 to R264, R270, R271: HUFF_PAIR t with a codeword of its book and the codeword's extension bits at the cursor, for
every entry of every book, every linbits value and both signs. -/
def Obligations.HuffPairDecodesItsCodeword : Prop :=
  ∀ (s : State) (t : BitVec 5) (e : CodeEntry (BitVec 4 × BitVec 4)) (lb linx liny : Nat) (nx ny : Bool)
    (bits : List Bool), t ≠ 0 → e ∈ s.cfg.data.pairBook[t.toFin] → lb = s.cfg.data.linbits[t.toFin] →
    linx < 2 ^ lb → liny < 2 ^ lb →
    bits = e.code ++ pairExtension lb e.val.1 linx nx ++ pairExtension lb e.val.2 liny ny →
    BitsAt s.window s.pos.toNat bits → s.pos.toNat + bits.length ≤ bitsInWindow s →
    exec (.huffPair t) s = .next (endOk
      { s with
        res :=
          ⟨BitVec.ofInt 32 (signed nx (pairMagnitude lb e.val.1 linx)),
           BitVec.ofInt 32 (signed ny (pairMagnitude lb e.val.2 liny)), BitVec.ofNat 32 bits.length, 0⟩
        pos := BitVec.ofNat 16 (s.pos.toNat + bits.length) })

/-- R262, R265, R272: HUFF_QUAD t with a codeword of its book and its sign bits at the cursor. -/
def Obligations.HuffQuadDecodesItsCodeword : Prop :=
  ∀ (s : State) (t : BitVec 1) (e : CodeEntry (BitVec 4)) (nv nw nx ny : Bool) (bits : List Bool),
    e ∈ s.cfg.data.quadBook[t.toFin] → bits = e.code ++ quadSigns e.val nv nw nx ny →
    BitsAt s.window s.pos.toNat bits → s.pos.toNat + bits.length ≤ bitsInWindow s →
    exec (.huffQuad t) s = .next (endOk
      { s with
        res :=
          ⟨BitVec.ofInt 32 (quadValue e.val 3 nv), BitVec.ofInt 32 (quadValue e.val 2 nw),
           BitVec.ofInt 32 (quadValue e.val 1 nx), BitVec.ofInt 32 (quadValue e.val 0 ny)⟩
        pos := BitVec.ofNat 16 (s.pos.toNat + bits.length) })

/-- R262, R269: the two errors of HUFF_PAIR and HUFF_QUAD. No codeword agrees with the bits: UNKNOWN_CODE(0). The bits end
inside a codeword, or after one but inside its extension: EXHAUSTED(0). -/
def Obligations.HuffmanCommandErrors : Prop :=
  ∀ s : State,
    (∀ t : BitVec 5, t ≠ 0 →
      ((∀ e ∈ s.cfg.data.pairBook[t.toFin], Incompatible s.window (bitsInWindow s) s.pos.toNat e) →
        exec (.huffPair t) s = .next (endError s 3 0)) ∧
      ((∃ e ∈ s.cfg.data.pairBook[t.toFin], EndsInside s.window (bitsInWindow s) s.pos.toNat e ∨
          (BitsAt s.window s.pos.toNat e.code ∧ s.pos.toNat + e.code.length ≤ bitsInWindow s ∧
            bitsInWindow s < s.pos.toNat + e.code.length +
              (extensionLength s.cfg.data.linbits[t.toFin] e.val.1 +
                extensionLength s.cfg.data.linbits[t.toFin] e.val.2))) →
        exec (.huffPair t) s = .next (endError s 1 0))) ∧
    (∀ t : BitVec 1,
      ((∀ e ∈ s.cfg.data.quadBook[t.toFin], Incompatible s.window (bitsInWindow s) s.pos.toNat e) →
        exec (.huffQuad t) s = .next (endError s 3 0)) ∧
      ((∃ e ∈ s.cfg.data.quadBook[t.toFin], EndsInside s.window (bitsInWindow s) s.pos.toNat e ∨
          (BitsAt s.window s.pos.toNat e.code ∧ s.pos.toNat + e.code.length ≤ bitsInWindow s ∧
            bitsInWindow s < s.pos.toNat + e.code.length + signCount e.val)) →
        exec (.huffQuad t) s = .next (endError s 1 0)))

/-- R265, R271, R273: the values a successful symbol command reports, and how far it moves the cursor. -/
def Obligations.EngineValuesFit : Prop :=
  ∀ s u : State, Inv s → u.statusCode = 0 →
    (∀ t, exec (.huffPair t) s = .next u →
      u.res.q0.toInt.natAbs ≤ 8206 ∧ u.res.q1.toInt.natAbs ≤ 8206 ∧
      u.pos.toNat = s.pos.toNat + u.res.q2.toNat ∧ u.pos.toNat ≤ bitsInWindow s) ∧
    (∀ t, exec (.huffQuad t) s = .next u →
      u.res.q0.toInt.natAbs ≤ 1 ∧ u.res.q1.toInt.natAbs ≤ 1 ∧ u.res.q2.toInt.natAbs ≤ 1 ∧ u.res.q3.toInt.natAbs ≤ 1 ∧
      s.pos.toNat < u.pos.toNat ∧ u.pos.toNat ≤ bitsInWindow s)

/-- The frame of HUFF_PAIR and HUFF_QUAD, whichever way they end. -/
def Obligations.HuffmanCommandsFrame : Prop :=
  ∀ (i : Instr) (s t : State), ((∃ k, i = .huffPair k) ∨ ∃ k, i = .huffQuad k) → exec i s = .next t →
    SameSetup s t ∧ SameWindow s t ∧ SameRecords s t ∧ ErrOfStatus s t ∧ (t.statusCode ≠ 0 → t.res = s.res)

/-! ### The main-data decoder -/

/-- R309, R354: the three checks MD_DECODE makes before it reads a bit, in their order. -/
def Obligations.MdDecodeChecksBeforeReading : Prop :=
  ∀ s : State,
    (s.hdrValid = false → exec .mdDecode s = .next (endError s 5 1)) ∧
    (s.hdrValid = true → s.siValid = false → exec .mdDecode s = .next (endError s 5 2)) ∧
    (s.hdrValid = true → s.siValid = true → (∃ q, Present s q ∧ isShort (gc s q) = false) →
      (∀ T ∈ s.cfg.data.sfbLong, T.hz ≠ s.hdr.frequency) → exec .mdDecode s = .next (endError (mdInvalid s) 7 1))

/-- R290, R356, R357: after its checks MD_DECODE ends OK with a record, or in one of its two stream errors, which name a
present granule-channel, clear md_valid and leave OUT a fresh draw. -/
def Obligations.MdDecodeOutcomes : Prop :=
  ∀ s : State, MdReady s →
    (∃ m p, exec .mdDecode s = .next (endOk { s with md := .record m, mdValid := true, pos := p })) ∨
    (∃ q, Present s q ∧
      (exec .mdDecode s = .next (endError { mdInvalid s with md := .drawn s.draws, draws := s.draws + 1 } 1
          (0x10 + BitVec.ofNat 8 q.val)) ∨
       exec .mdDecode s = .next (endError { mdInvalid s with md := .drawn s.draws, draws := s.draws + 1 } 3
          (0x14 + BitVec.ofNat 8 q.val))))

/-- R302, R304, R308: when MD_DECODE ends OK. First, whenever each present granule-channel ends without error from where
the one before it ended, and the cursor is then the last one's end. Second, on any bits at all, where its codebooks know
every bit string and no granule-channel reads a scale-factor bit, or (SPAN mode) the window has the bits for everything, or
(PART23 mode) each granule-channel's scale factors fit its own limit. Of two band tables of one frequency the first counts,
by the model's choice (log 23). -/
def Obligations.MdDecodeCompletes : Prop :=
  (∀ (s : State) (c : Nat → Nat), MdReady s → s.pos.toNat ≤ bitsInWindow s → RunsThrough s 4 c →
    ∃ m, exec .mdDecode s = .next (endOk { s with md := .record m, mdValid := true, pos := BitVec.ofNat 16 (c 4) })) ∧
  ∀ s : State, Inv s → MdReady s → (∀ q, Present s q → CoveringTables s q) →
    ((∀ q, Present s q → factorBits s q = 0) ∨
      (s.cfg.data.limitMode = .span ∧ s.pos.toNat + mostFrameBits s ≤ bitsInWindow s) ∨
      (s.cfg.data.limitMode = .part23 ∧
        ∀ q, Present s q → part23Start s q + factorBits s q ≤ limitOf s q (part23Start s q))) →
    ∃ m p, exec .mdDecode s = .next (endOk { s with md := .record m, mdValid := true, pos := p }) ∧
      s.pos.toNat ≤ p.toNat ∧ p.toNat ≤ bitsInWindow s

/-- R304, R311: the granule-channels run in order, each from where the one before it ended, and the frame ends where the
last one did. In PART23 mode each ends at its limit. -/
def Obligations.MdGranulesRunInOrder : Prop :=
  ∀ s t : State, Inv s → MdDecoded s t →
    startOf t 0 = s.pos.toNat ∧
    (isMono s.hdr = true → startOf t 2 = endOf t 0 ∧ t.pos.toNat = endOf t 2) ∧
    (isMono s.hdr = false →
      startOf t 1 = endOf t 0 ∧ startOf t 2 = endOf t 1 ∧ startOf t 3 = endOf t 2 ∧ t.pos.toNat = endOf t 3) ∧
    (∀ q, Present s q → startOf t q ≤ endOf t q ∧ endOf t q ≤ limitOf s q (startOf t q) ∧
      (s.cfg.data.limitMode = .part23 → endOf t q = limitOf s q (startOf t q)))

/-- R294, R295, R306: the scale factors of a long granule-channel, granule 0 or 1, band by band: read at the band's width
from its place in the stream, or shared with granule 0 and no bit read. Band 21 is 0. -/
def Obligations.MdLongScaleFactors : Prop :=
  ∀ (s t : State) (q : Fin 4), Inv s → MdDecoded s t → Present s q → isShort (gc s q) = false →
    (∀ b < 21,
      (¬ Shared s q b →
        (factorL t q b).toNat = memRead s.window (startOf t q + longBits s q b)
          (if b < 11 then (widths s q).slen1 else (widths s q).slen2)) ∧
      (Shared s q b → ∀ p : Fin 4, q.val = p.val + 2 → factorL t q b = factorL t p b)) ∧
    factorL t q 21 = 0

/-- R293: the scale factors of a short or mixed granule-channel, each from its place in the stream. -/
def Obligations.MdShortScaleFactors : Prop :=
  ∀ (s t : State) (q : Fin 4), Inv s → MdDecoded s t → Present s q → isShort (gc s q) = true →
    (mixedBlockFlag (gc s q) ≠ 0 → ∀ b < 8,
      (factorL t q b).toNat = memRead s.window (startOf t q + b * (widths s q).slen1) (widths s q).slen1) ∧
    (∀ b, 3 ≤ b → b < 6 → ∀ w < 3,
      (factorS t q b w).toNat =
        memRead s.window (startOf t q + mixedBits s q + (3 * (b - 3) + w) * (widths s q).slen1) (widths s q).slen1) ∧
    (∀ b, 6 ≤ b → b < 12 → ∀ w < 3,
      (factorS t q b w).toNat =
        memRead s.window
          (startOf t q + mixedBits s q + 9 * (widths s q).slen1 + (3 * (b - 6) + w) * (widths s q).slen2)
          (widths s q).slen2) ∧
    (∀ b < 22, (mixedBlockFlag (gc s q) = 0 ∨ 8 ≤ b) → factorL t q b = 0) ∧
    (∀ b < 13, (b < 3 ∨ b = 12) → ∀ w < 3, factorS t q b w = 0)

/-- R297, R307: the region boundaries of every granule-channel, and their order. -/
def Obligations.MdRegionBoundaries : Prop :=
  ∀ (s t : State) (q : Fin 4), Inv s → MdDecoded s t → Present s q →
    region1 t q ≤ region2 t q ∧ region2 t q ≤ 576 ∧
    (isShort (gc s q) = true → region1 t q = 36 ∧ region2 t q = 576) ∧
    (isShort (gc s q) = false → ∃ T ∈ s.cfg.data.sfbLong, T.hz = s.hdr.frequency ∧
      region1 t q = T.bounds.toList.getD ((region0Count (gc s q)).toNat + 1) 576 ∧
      region2 t q = T.bounds.toList.getD ((region0Count (gc s q)).toNat + (region1Count (gc s q)).toNat + 2) 576)

/-- R299 to R304: the spectral lines of every present granule-channel. From the cursor after the scale factors, `n` pair
symbols give lines 0 to 2n - 1; either they stop early at the limit or inside a symbol, and every later line is 0, or they
reach the last pair or line 576 and `k` quadruple symbols follow from line 2 * big_values, up to line 576 or the end of the
bits, and every later line is 0. The cursor and end_pos end there, or in PART23 mode at the limit. -/
def Obligations.MdSpectralLines : Prop :=
  ∀ (s t : State) (q : Fin 4), Inv s → MdDecoded s t → Present s q →
    ∀ bv lim, bv = (gc s q).bigValues.toNat → lim = limitOf s q (startOf t q) →
    ∃ n p, n ≤ min bv 288 ∧ p 0 = startOf t q + factorBits s q ∧ PairRun s t q lim n p ∧
      ((n < min bv 288 ∧ (p n = lim ∨ pairAt s t q (2 * n) lim (p n) = .exhausted) ∧
          (∀ i, 2 * n ≤ i → i < 576 → line t q i = 0) ∧ endOf t q = endFrom s q (startOf t q) (p n)) ∨
       (n = min bv 288 ∧ ∃ k r, r 0 = p n ∧ (∀ j < k, 2 * bv + 4 * j < 576) ∧ QuadRun s t q lim (2 * bv) k r ∧
          (2 * bv + 4 * k < 576 → r k = lim ∨ quadAt s q lim (r k) = .exhausted) ∧
          (∀ i, 2 * bv + 4 * k ≤ i → i < 576 → line t q i = 0) ∧ endOf t q = endFrom s q (startOf t q) (r k)))

/-- R303: what MD_DECODE leaves 0 beside the lines: every element of a mono frame's absent channel, and the short scale
factors of a long granule-channel. -/
def Obligations.MdZeroFill : Prop :=
  ∀ (s t : State) (q : Fin 4), MdDecoded s t → s.pos.toNat ≤ bitsInWindow s →
    (¬ Present s q →
      (∀ i < 576, line t q i = 0) ∧ (∀ b < 22, factorL t q b = 0) ∧ (∀ b < 13, ∀ w < 3, factorS t q b w = 0) ∧
      region1 t q = 0 ∧ region2 t q = 0 ∧ startOf t q = 0 ∧ endOf t q = 0) ∧
    (Present s q → isShort (gc s q) = false → ∀ b < 13, ∀ w < 3, factorS t q b w = 0)

/-- R290, R302, R351, R354: the first granule-channel that fails names MD_DECODE's stream error. Where every granule-channel
before `q` ends without error and `q` is present: scale factors of `q` past its limit are EXHAUSTED(0x10 + q), and a symbol
of `q`, of a pair or of a quadruple, that no codeword agrees with is UNKNOWN_CODE(0x14 + q). Of two band tables of one frequency the first counts, by the
model's choice (log 23). -/
def Obligations.MdFirstGranuleErrors : Prop :=
  ∀ (s : State) (c : Nat → Nat) (q : Fin 4), MdReady s → s.pos.toNat ≤ bitsInWindow s → Present s q →
    RunsThrough s q.val c →
    (limitOf s q (c q.val) < c q.val + factorBits s q →
      exec .mdDecode s = .next (endError { mdInvalid s with md := .drawn s.draws, draws := s.draws + 1 } 1
        (0x10 + BitVec.ofNat 8 q.val))) ∧
    (MeetsUnknownCode s q (c q.val) →
      exec .mdDecode s = .next (endError { mdInvalid s with md := .drawn s.draws, draws := s.draws + 1 } 3
        (0x14 + BitVec.ofNat 8 q.val)))

/-- The frame of MD_DECODE, whichever way it ends: everything but OUT, md_valid, pos and the status is as before, and OUT
too where it ends before it reads a bit. -/
def Obligations.MdDecodeFrame : Prop :=
  ∀ s t : State, exec .mdDecode s = .next t →
    SameSetup s t ∧ SameWindow s t ∧ t.res = s.res ∧ t.hdr = s.hdr ∧ t.si = s.si ∧ t.hdrValid = s.hdrValid ∧
    t.siValid = s.siValid ∧ ErrOfStatus s t ∧ (t.statusCode = 5 ∨ t.statusCode = 7 → SameOut s t)

/-! ### Errors -/

/-- R355 to R357: what a command that ends in an error leaves: the cursor at its value at acceptance, every record, result
and window register as before, OUT too unless MD_DECODE ended EXHAUSTED or UNKNOWN_CODE, and the valid flags by table. -/
def Obligations.ErrorsArePrecise : Prop :=
  ∀ (i : Instr) (s t : State), exec i s = .next t → t.statusCode ≠ 0 →
    t.pos = s.pos0 ∧ t.busy = false ∧ t.res = s.res ∧ t.hdr = s.hdr ∧ t.si = s.si ∧ SameWindow s t ∧ SameSetup s t ∧
    ErrOfStatus s t ∧
    (i = .mdDecode ∧ (t.statusCode = 1 ∨ t.statusCode = 3) ∨ SameOut s t) ∧
    (i = .hdrDecode → t.hdrValid = false ∧ t.siValid = false ∧ t.mdValid = false) ∧
    (i = .siDecode → t.statusCode = 1 → t.hdrValid = s.hdrValid ∧ t.siValid = false ∧ t.mdValid = false) ∧
    (i = .mdDecode → t.statusCode ≠ 5 → t.hdrValid = s.hdrValid ∧ t.siValid = s.siValid ∧ t.mdValid = false) ∧
    ((i = .siDecode ∨ i = .mdDecode) ∧ t.statusCode = 5 ∨ (i ≠ .hdrDecode ∧ i ≠ .siDecode ∧ i ≠ .mdDecode) →
      t.hdrValid = s.hdrValid ∧ t.siValid = s.siValid ∧ t.mdValid = s.mdValid)

/-- R39, R352, R358: a bit of ERR falls only through a host write of 1 to it, a reset or SRST, and rises only through a
completion with its code or, bit 8, through a CMD write while busy. A tainted command (R402) is set aside. -/
def Obligations.ErrBitsAreSticky : Prop :=
  ∀ (s t : State) (k : Nat), s.tainted = false → step s = .next t →
    (s.err.getLsbD k = true → t.err.getLsbD k = false →
      (∃ d rest, s.inputs = .busWrite (s.cfg.data.regBase + 8) 4 d :: rest ∧ d.getLsbD k = true) ∨
      (∃ rest, s.inputs = .assertReset :: rest) ∨
      (s.busy = true ∧ t.busy = false ∧ decodeWord s.cmdLatch = .ok .srst)) ∧
    (s.err.getLsbD k = false → t.err.getLsbD k = true →
      (s.busy = true ∧ t.busy = false ∧ k = t.statusCode.toNat ∧ 1 ≤ k ∧ k ≤ 7) ∨
      (k = 8 ∧ s.busy = true ∧ ∃ d rest, s.inputs = .busWrite s.cfg.data.regBase 4 d :: rest))

/-! ### Host accesses -/

/-- R358, R92, R94, R130: a host write to ERR clears the bits it writes 1 to; one to a programmed register or port address
sets it (R402 aside, for BR_BASE and BR_LEN under a running BR_OPEN); one to a read-only or unmapped offset changes
nothing. -/
def Obligations.HostWritesReachTheirRegisters : Prop :=
  ∀ (s : State) (d : Word), s.resetAsserted = false →
    WritesTo s 0x008 d { s with err := s.err &&& ~~~(d.extractLsb' 0 9) } ∧
    (s.busy = false ∨ decodeWord s.cmdLatch ≠ .ok .brOpen →
      WritesTo s 0x00C d { s with brBaseReg := d.extractLsb' 0 16 } ∧
      WritesTo s 0x010 d { s with brLenReg := d.extractLsb' 0 16 }) ∧
    WritesTo s 0x030 d { s with ibufAddr := d.extractLsb' 0 16 } ∧
    WritesTo s 0x038 d { s with outAddr := d.extractLsb' 0 16 } ∧
    (∀ o, o < 256 → o % 4 = 0 → o ∉ writableOffsets → WritesTo s o d s)

/-- R82, R83: the IBUF port. A write stores the low byte where the address is inside IBUF, a read gives the byte or 0, and
both advance the address. A write under a running command to a byte of its window sets the model's own field tainted, for
R402: that field and when it is set are the model's choice (log 10). -/
def Obligations.IbufPortStoresAndReads : Prop :=
  ∀ (s : State) (rest : List Input), s.resetAsserted = false →
    (∀ d, s.inputs = .busWrite (s.cfg.data.regBase + 0x034) 4 d :: rest →
      ∃ m, step s = .next
          { s with
            inputs := rest
            ibuf := m
            ibufAddr := s.ibufAddr + 1
            tainted := s.tainted || (s.busy && decide (s.ibufAddr.toNat < s.cfg.data.ibufBytes ∧
              s.winBase.toNat ≤ s.ibufAddr.toNat ∧ s.ibufAddr.toNat < s.winBase.toNat + s.winLen.toNat)) } ∧
        ∀ a, ibufByte m s.ibufDraw a =
          if a = s.ibufAddr.toNat ∧ a < s.cfg.data.ibufBytes then d.extractLsb' 0 8 else ibufByte s.ibuf s.ibufDraw a) ∧
    (s.inputs = .busRead (s.cfg.data.regBase + 0x034) 4 :: rest →
      step s = .next
        { s with
          inputs := rest
          ibufAddr := s.ibufAddr + 1
          replies := (if s.ibufAddr.toNat < s.cfg.data.ibufBytes then
              (ibufByte s.ibuf s.ibufDraw s.ibufAddr.toNat).setWidth 32 else 0) :: s.replies })

/-- R90, R91: a host read of OUT_DATA gives the element at the port's address, extended by its kind, or 0 at an unmapped
index, and advances the address. With md_valid 0 the stored element is the model's choice (R93, log 8). The hazard of a
running MD_DECODE (R401) is set aside. -/
def Obligations.OutPortReadsTheMap : Prop :=
  ∀ (s : State) (rest : List Input) (a : Nat), s.resetAsserted = false →
    (s.busy = false ∨ decodeWord s.cmdLatch ≠ .ok .mdDecode) → a = s.outAddr.toNat →
    s.inputs = .busRead (s.cfg.data.regBase + 0x03C) 4 :: rest →
    ∃ v, step s = .next { s with inputs := rest, outAddr := s.outAddr + 1, replies := v :: s.replies } ∧
      (∀ q < 4,
        (∀ i < 576, a = 576 * q + i → v = (outElement s.md a).signExtend 32) ∧
        (∀ b < 22, a = 0x1000 + 32 * q + b → v = ((outElement s.md a).extractLsb' 0 4).setWidth 32) ∧
        (∀ b < 13, ∀ w < 3, a = 0x1100 + 64 * q + 4 * b + w →
          v = ((outElement s.md a).extractLsb' 0 4).setWidth 32) ∧
        (∀ k < 2, a = 0x1200 + 4 * q + k → v = ((outElement s.md a).extractLsb' 0 10).setWidth 32) ∧
        (∀ k < 2, a = 0x1200 + 4 * q + 2 + k → v = (outElement s.md a).setWidth 32)) ∧
      ((∀ q < 4,
        (∀ i < 576, a ≠ 576 * q + i) ∧ (∀ b < 22, a ≠ 0x1000 + 32 * q + b) ∧
        (∀ b < 13, ∀ w < 3, a ≠ 0x1100 + 64 * q + 4 * b + w) ∧ (∀ k < 4, a ≠ 0x1200 + 4 * q + k)) → v = 0)

/-- R130, R131, R94: what the control, reader and port-address registers read as while no command runs, with no side
effect; CMD and every unmapped offset read 0. -/
def Obligations.ControlRegistersReadAsLaidOut : Prop :=
  ∀ s : State, s.resetAsserted = false → s.busy = false →
    ReadsAs s 0x000 0 ∧
    ReadsAs s 0x004 (0#12 ++ BitVec.ofBool s.mdValid ++ BitVec.ofBool s.siValid ++ BitVec.ofBool s.hdrValid ++ 0#1 ++
      s.statusDetail ++ s.statusCode) ∧
    ReadsAs s 0x008 (0#23 ++ s.err) ∧
    ReadsAs s 0x00C (0#16 ++ s.brBaseReg) ∧
    ReadsAs s 0x010 (0#16 ++ s.brLenReg) ∧
    ReadsAs s 0x014 (0#16 ++ s.pos) ∧
    ReadsAs s 0x018 (s.winLen ++ s.winBase) ∧
    ReadsAs s 0x01C (1#8 ++ 0#6 ++ (match s.cfg.data.limitMode with | .span => 0#1 | .part23 => 1#1) ++
      s.cfg.data.crcOnBit ++ BitVec.ofNat 16 s.cfg.data.ibufBytes) ∧
    ReadsAs s 0x020 s.res.q0 ∧ ReadsAs s 0x024 s.res.q1 ∧ ReadsAs s 0x028 s.res.q2 ∧ ReadsAs s 0x02C s.res.q3 ∧
    ReadsAs s 0x030 (0#16 ++ s.ibufAddr) ∧
    ReadsAs s 0x038 (0#16 ++ s.outAddr) ∧
    (∀ o, o < 256 → o % 4 = 0 → o ∉ mappedOffsets → ReadsAs s o 0)

/-- R130, R133 to R135, R140: what the header and side-info registers read as while no command runs, with no side
effect. -/
def Obligations.RecordRegistersReadAsLaidOut : Prop :=
  ∀ s : State, s.resetAsserted = false → s.busy = false →
    ReadsAs s 0x040 s.hdr.raw ∧
    ReadsAs s 0x044
      (s.hdr.raw.extractLsb' 0 2 ++ s.hdr.raw.extractLsb' 2 1 ++ s.hdr.raw.extractLsb' 3 1 ++
        s.hdr.raw.extractLsb' 4 2 ++ s.hdr.raw.extractLsb' 6 2 ++ s.hdr.raw.extractLsb' 8 1 ++
        s.hdr.raw.extractLsb' 9 1 ++ s.hdr.raw.extractLsb' 10 2 ++ s.hdr.raw.extractLsb' 12 4 ++
        s.hdr.raw.extractLsb' 16 1 ++ s.hdr.raw.extractLsb' 17 2 ++ s.hdr.raw.extractLsb' 19 2 ++
        s.hdr.raw.extractLsb' 21 11) ∧
    ReadsAs s 0x048 s.hdr.bitrate ∧
    ReadsAs s 0x04C s.hdr.frequency ∧
    ReadsAs s 0x050 (s.hdr.spf ++ s.hdr.frameSize) ∧
    ReadsAs s 0x054 (0#8 ++ s.hdr.siLen ++ s.hdr.headerLen ++ 0#2 ++ s.hdr.nch ++ BitVec.ofBool s.hdr.crcPresent ++
      s.hdr.padding) ∧
    ReadsAs s 0x058 (0#16 ++ s.hdr.mdLen) ∧
    ReadsAs s 0x060 (0#10 ++ s.si.scfsi.ch1 ++ s.si.scfsi.ch0 ++ s.si.privateBits ++ s.si.mainDataBegin) ∧
    (∀ q : Fin 4,
      ReadsAs s (0x080 + 16 * q.val) (gcWord0 (gc s q)) ∧ ReadsAs s (0x084 + 16 * q.val) (gcWord1 (gc s q)) ∧
      ReadsAs s (0x088 + 16 * q.val) (gcWord2 (gc s q)) ∧ ReadsAs s (0x08C + 16 * q.val) 0)

/-- R401, R94: while a command runs, a read of any aligned offset changes nothing but the two data ports' addresses and the
model's own fields; STATUS shows busy, and a register the running command does not write reads as it would if no command
ran. -/
def Obligations.BusyReadsAreOpenOnlyWhereStated : Prop :=
  ∀ (s : State) (o : Nat) (rest : List Input), s.resetAsserted = false → s.busy = true →
    s.inputs = .busRead (s.cfg.data.regBase + o) 4 :: rest →
    (o < 256 → o % 4 = 0 → ∃ v d, s.draws ≤ d ∧
      step s = .next
        { s with
          inputs := rest
          replies := v :: s.replies
          draws := d
          ibufAddr := if o = 0x034 then s.ibufAddr + 1 else s.ibufAddr
          outAddr := if o = 0x03C then s.outAddr + 1 else s.outAddr }) ∧
    (o = 4 → ∃ t v, step s = .next t ∧ t.replies = v :: s.replies ∧ v.extractLsb' 16 1 = 1 ∧ v.extractLsb' 20 12 = 0) ∧
    (o < 256 → o % 4 = 0 → o ≠ 4 → (∀ i, decodeWord s.cmdLatch = .ok i → o ∉ writtenOffsets i) →
      ∃ t u, step s = .next t ∧ step { s with busy := false } = .next u ∧ t.replies = u.replies)

/-- R164, R80, R165: a command sees IBUF only through its window. From two states that differ only in IBUF bytes outside
the window, every command does the same, and leaves the two IBUFs as they are. -/
def Obligations.CommandSeesOnlyItsWindow : Prop :=
  ∀ (i : Instr) (s : State) (m : List Host.Cell) (d : Nat),
    (∀ a, s.winBase.toNat ≤ a → a < s.winBase.toNat + s.winLen.toNat → ibufByte m d a = ibufByte s.ibuf s.ibufDraw a) →
    ∃ t, exec i s = .next t ∧ exec i { s with ibuf := m, ibufDraw := d } = .next { t with ibuf := m, ibufDraw := d }

/-- With every register at its reset value, under any configuration, which legal commands end OK, and how the others end.
R393 lists them; a Huffman command of an empty codebook ends UNKNOWN_CODE, by R262 (log 2). -/
def Obligations.BootStateOutcomes : Prop :=
  ∀ (s : State) (i : Instr), RegistersReset s → s.openRace = none → i.wellFormed = true →
    ∃ t, exec i s = .next t ∧
      (t.statusCode = 0 ↔
        i = .nop ∨ i = .brOpen ∨ i = .brRead 0 ∨ (∃ n, i = .brPeek n) ∨ i = .brSeek 0 ∨ i = .huffPair 0 ∨ i = .srst) ∧
      ((∃ n, i = .brRead n ∧ n ≠ 0) ∨ i = .hdrDecode → t.statusCode = 1) ∧
      (i = .siDecode ∨ i = .mdDecode → t.statusCode = 5 ∧ t.statusDetail = 1) ∧
      (∀ off, i = .brSeek off → off ≠ 0 → t.statusCode = 6) ∧
      (∀ k, i = .huffPair k → k ≠ 0 → t.statusCode = if s.cfg.data.pairBook[k.toFin] = [] then 3 else 1) ∧
      (∀ k, i = .huffQuad k → t.statusCode = if s.cfg.data.quadBook[k.toFin] = [] then 3 else 1) ∧
      (∀ n, i = .brPeek n → n ≠ 0 → t.res.q1 = 0)

/-! ### What a command's result depends on -/

/-- R164: a command's result is a function of the window's bits, the cursor, the records, the configuration and the command
word (and, for BR_OPEN, of the programmed pair). IBUF, the window's place in it, OUT, ERR, the results of earlier commands
and the ports do not matter. -/
def Obligations.ResultsDependOnlyOnTheInputs : Prop :=
  ∀ (i : Instr) (s t u v : State), s.cfg = t.cfg → s.winLen = t.winLen →
    (∀ k, k < bitsInWindow s → winBit s.window k = winBit t.window k) → s.pos = t.pos → s.hdr = t.hdr → s.si = t.si →
    s.hdrValid = t.hdrValid → s.siValid = t.siValid → (i = .brOpen → openPair s = openPair t) →
    exec i s = .next u → exec i t = .next v →
    u.statusCode = v.statusCode ∧ u.statusDetail = v.statusDetail ∧
    (u.statusCode = 0 →
      u.pos = v.pos ∧
      ((∃ n, i = .brRead n) ∨ (∃ n, i = .brPeek n) → u.res.q0 = v.res.q0) ∧
      ((∃ n, i = .brPeek n) → u.res.q1 = v.res.q1) ∧
      ((∃ k, i = .huffPair k) ∨ (∃ k, i = .huffQuad k) → u.res = v.res) ∧
      (i = .brOpen → u.winBase = v.winBase ∧ u.winLen = v.winLen) ∧
      (i = .hdrDecode → u.hdr = v.hdr) ∧
      (i = .siDecode → u.si = v.si) ∧
      (i = .mdDecode → u.md = v.md))

/-- R31, R352, R353, R403: a CMD write to an idle block followed by the sequencer's turn runs the command the word decodes
to, in the state the write found, with the word latched and the cursor saved. -/
def Obligations.IssuedCommandRuns : Prop :=
  ∀ (s : State) (d : Word) (i : Instr) (rest : List Input), s.resetAsserted = false → s.busy = false →
    s.inputs = .busWrite s.cfg.data.regBase 4 d :: .sequencerTurn :: rest → decodeWord d = .ok i →
    Sys2Proof.core.run 2 s = exec i
      { s with inputs := rest, cmdLatch := d, pos0 := s.pos, busy := true, tainted := false, openRace := none }
end

