-- ==== Sys2Proof/Laws/Config.lean ====
section
/-! SUPPORT. What every configuration meets, one fact per constraint of `ConfigData.ok`. -/

namespace Sys2Proof

theorem nonDecreasing_get {l : List Nat} (h : nonDecreasing l = true) {i j : Nat} (hij : i ≤ j) (hj : j < l.length) :
    l[i]'(by omega) ≤ l[j] := by
  induction l generalizing i j with
  | nil => simp at hj
  | cons a l ih =>
    cases l with
    | nil =>
      have : j = 0 := by simpa using hj
      subst this
      have : i = 0 := by omega
      subst this
      exact le_rfl
    | cons b l =>
      simp only [nonDecreasing, Bool.and_eq_true, decide_eq_true_eq] at h
      cases j with
      | zero =>
        have : i = 0 := by omega
        subst this
        exact le_rfl
      | succ j =>
        cases i with
        | zero =>
          have := ih h.2 (i := 0) (j := j) (by omega) (by simpa using hj)
          simp only [List.getElem_cons_zero, List.getElem_cons_succ] at *
          omega
        | succ i =>
          have := ih h.2 (i := i) (j := j) (by omega) (by simpa using hj)
          simpa using this

theorem SfbTable.ok_mono {t : SfbTable} (h : t.ok = true) {i j : Nat} (hij : i ≤ j) (hj : j < 23) :
    t.bounds[i] ≤ t.bounds[j] := by
  simp only [SfbTable.ok, Bool.and_eq_true] at h
  have := nonDecreasing_get h.1.1 hij (by simpa using hj)
  simpa using this

theorem SfbTable.ok_last {t : SfbTable} (h : t.ok = true) : t.bounds[22] = 576 := by
  simp only [SfbTable.ok, Bool.and_eq_true, decide_eq_true_eq] at h
  exact h.2

theorem SfbTable.ok_le {t : SfbTable} (h : t.ok = true) {i : Nat} (hi : i < 23) : t.bounds[i] ≤ 576 := by
  have h1 := SfbTable.ok_mono h (i := i) (j := 22) (by omega) (by omega)
  rw [SfbTable.ok_last h] at h1
  exact h1

namespace Config

variable (c : Config)

theorem conditions : 64 ≤ c.data.ibufBytes ∧ c.data.ibufBytes ≤ 8191 ∧
    (∀ p ∈ c.data.slen.toList, p.slen1 ≤ 4 ∧ p.slen2 ≤ 4) ∧
    (∀ t ∈ c.data.sfbLong, t.ok = true) ∧
    (∀ b ∈ c.data.pairBook.toList, bookOk b = true) ∧
    (∀ n ∈ c.data.linbits.toList, n ≤ 13) ∧
    (∀ b ∈ c.data.quadBook.toList, bookOk b = true) := by
  have h := c.ok
  simp only [ConfigData.ok, Bool.and_eq_true, decide_eq_true_eq, List.all_eq_true] at h
  obtain ⟨⟨⟨⟨⟨⟨⟨⟨⟨h1, h2⟩, h3⟩, h4⟩, h5⟩, h6⟩, h7⟩, -⟩, -⟩, -⟩ := h
  exact ⟨h1, h2, h3, h4, h5, h6, h7⟩

theorem ibufBytes_le : c.data.ibufBytes ≤ 8191 := c.conditions.2.1
theorem ibufBytes_ge : 64 ≤ c.data.ibufBytes := c.conditions.1

theorem slen_le (i : Fin 16) : c.data.slen[i].slen1 ≤ 4 ∧ c.data.slen[i].slen2 ≤ 4 :=
  c.conditions.2.2.1 _ (by simp [Fin.getElem_fin, Vector.mem_toList_iff])

theorem sfb_ok {t : SfbTable} (h : t ∈ c.data.sfbLong) : t.ok = true := c.conditions.2.2.2.1 t h

theorem pairBook_ok (i : Fin 32) : bookOk c.data.pairBook[i] = true :=
  c.conditions.2.2.2.2.1 _ (by simp [Fin.getElem_fin, Vector.mem_toList_iff])

theorem linbits_le (i : Fin 32) : c.data.linbits[i] ≤ 13 :=
  c.conditions.2.2.2.2.2.1 _ (by simp [Fin.getElem_fin, Vector.mem_toList_iff])

theorem quadBook_ok (i : Fin 2) : bookOk c.data.quadBook[i] = true :=
  c.conditions.2.2.2.2.2.2 _ (by simp [Fin.getElem_fin, Vector.mem_toList_iff])

/-- A reserved (layer, bitrate code) pair is absent. -/
theorem bitrate_reserved {l : Fin 4} {b : Fin 16} (h : bitrateReserved l b = true) : c.data.bitrate[l][b] = none := by
  have hc := c.ok
  simp only [ConfigData.ok, reservedAbsent, Bool.and_eq_true, List.all_eq_true] at hc
  simpa [h] using hc.2.1 l (List.mem_finRange l) b (List.mem_finRange b)

/-- A reserved (version, frequency code) pair is absent. -/
theorem freq_reserved {v f : Fin 4} (h : freqReserved v f = true) : c.data.freq[v][f] = none := by
  have hc := c.ok
  simp only [ConfigData.ok, reservedAbsent, Bool.and_eq_true, List.all_eq_true] at hc
  simpa [h] using hc.2.2 v (List.mem_finRange v) f (List.mem_finRange f)

/-- A present frequency is not 0. -/
theorem freq_ne_zero {v f : Fin 4} {fr : BitVec 32} (h : c.data.freq[v][f] = some fr) : fr ≠ 0 := by
  have hc := c.ok
  simp only [ConfigData.ok, Bool.and_eq_true, List.all_eq_true] at hc
  have := hc.1.1.2 c.data.freq[v] (by simp [Fin.getElem_fin, Vector.mem_toList_iff]) (some fr)
    (by rw [← h]; simp [Fin.getElem_fin, Vector.mem_toList_iff])
  simpa using this

/-- The largest frame of a present bitrate and frequency fits 16 bits. -/
theorem frame_fits {l : Fin 4} {b : Fin 16} {v f : Fin 4} {br fr : BitVec 32} (hb : c.data.bitrate[l][b] = some br)
    (hf : c.data.freq[v][f] = some fr) :
    largestFrame l.val c.data.padding[l].toNat br.toNat fr.toNat < 65536 := by
  have hc := c.ok
  simp only [ConfigData.ok, Bool.and_eq_true, List.all_eq_true] at hc
  have h1 := hc.1.2 l (List.mem_finRange l) (some br)
    (by rw [← hb]; simp [Fin.getElem_fin, Vector.mem_toList_iff])
  simp only [frameSizesFit, List.all_eq_true] at h1
  have h2 := h1 c.data.freq[v] (by simp [Fin.getElem_fin, Vector.mem_toList_iff]) (some fr)
    (by rw [← hf]; simp [Fin.getElem_fin, Vector.mem_toList_iff])
  simpa using h2

end Config

/-- The entries of a legal codebook have 1 to 32 bits. -/
theorem bookOk_length {α : Type} {b : List (CodeEntry α)} (h : bookOk b = true) {e : CodeEntry α} (he : e ∈ b) :
    1 ≤ e.code.length ∧ e.code.length ≤ 32 := by
  induction b with
  | nil => simp at he
  | cons d b ih =>
    simp only [bookOk, Bool.and_eq_true, decide_eq_true_eq] at h
    rcases List.mem_cons.mp he with he | he
    · subst he; exact h.1.1
    · exact ih h.2 he

/-- Two entries of a legal codebook of which one's code begins the other's are the same entry. -/
theorem bookOk_unique {α : Type} {b : List (CodeEntry α)} (h : bookOk b = true) {d e : CodeEntry α} (hd : d ∈ b)
    (he : e ∈ b) (hp : d.code <+: e.code) : d = e := by
  induction b with
  | nil => simp at he
  | cons f b ih =>
    simp only [bookOk, Bool.and_eq_true, decide_eq_true_eq, List.all_eq_true, Bool.not_eq_true'] at h
    obtain ⟨⟨-, hall⟩, hrest⟩ := h
    rcases List.mem_cons.mp hd with hd' | hd' <;> rcases List.mem_cons.mp he with he' | he'
    · rw [hd', he']
    · rw [hd'] at hp
      have := (hall e he').1
      rw [List.isPrefixOf_iff_prefix.mpr hp] at this
      simp at this
    · rw [he'] at hp
      have := (hall d hd').2
      rw [List.isPrefixOf_iff_prefix.mpr hp] at this
      simp at this
    · exact ih hrest hd' he'

end Sys2Proof
end

