-- ==== Sys2Proof/Laws/State.lean ====
section
/-! SUPPORT. What each shared update of the state leaves in each field, so that no proof unfolds a record update. -/

namespace Sys2Proof.Machine

/-! ### accept -/

@[simp] theorem accept_cfg (s : State) (w : Word) : (s.accept w).cfg = s.cfg := rfl
@[simp] theorem accept_busy (s : State) (w : Word) : (s.accept w).busy = true := rfl
@[simp] theorem accept_cmdLatch (s : State) (w : Word) : (s.accept w).cmdLatch = w := rfl
@[simp] theorem accept_statusCode (s : State) (w : Word) : (s.accept w).statusCode = s.statusCode := rfl
@[simp] theorem accept_statusDetail (s : State) (w : Word) : (s.accept w).statusDetail = s.statusDetail := rfl
@[simp] theorem accept_err (s : State) (w : Word) : (s.accept w).err = s.err := rfl
@[simp] theorem accept_res (s : State) (w : Word) : (s.accept w).res = s.res := rfl
@[simp] theorem accept_brBaseReg (s : State) (w : Word) : (s.accept w).brBaseReg = s.brBaseReg := rfl
@[simp] theorem accept_brLenReg (s : State) (w : Word) : (s.accept w).brLenReg = s.brLenReg := rfl
@[simp] theorem accept_winBase (s : State) (w : Word) : (s.accept w).winBase = s.winBase := rfl
@[simp] theorem accept_winLen (s : State) (w : Word) : (s.accept w).winLen = s.winLen := rfl
@[simp] theorem accept_pos (s : State) (w : Word) : (s.accept w).pos = s.pos := rfl
@[simp] theorem accept_pos0 (s : State) (w : Word) : (s.accept w).pos0 = s.pos := rfl
@[simp] theorem accept_ibufAddr (s : State) (w : Word) : (s.accept w).ibufAddr = s.ibufAddr := rfl
@[simp] theorem accept_outAddr (s : State) (w : Word) : (s.accept w).outAddr = s.outAddr := rfl
@[simp] theorem accept_hdrValid (s : State) (w : Word) : (s.accept w).hdrValid = s.hdrValid := rfl
@[simp] theorem accept_siValid (s : State) (w : Word) : (s.accept w).siValid = s.siValid := rfl
@[simp] theorem accept_mdValid (s : State) (w : Word) : (s.accept w).mdValid = s.mdValid := rfl
@[simp] theorem accept_hdr (s : State) (w : Word) : (s.accept w).hdr = s.hdr := rfl
@[simp] theorem accept_si (s : State) (w : Word) : (s.accept w).si = s.si := rfl
@[simp] theorem accept_md (s : State) (w : Word) : (s.accept w).md = s.md := rfl
@[simp] theorem accept_ibuf (s : State) (w : Word) : (s.accept w).ibuf = s.ibuf := rfl
@[simp] theorem accept_resetAsserted (s : State) (w : Word) : (s.accept w).resetAsserted = s.resetAsserted := rfl
@[simp] theorem accept_inputs (s : State) (w : Word) : (s.accept w).inputs = s.inputs := rfl
@[simp] theorem accept_replies (s : State) (w : Word) : (s.accept w).replies = s.replies := rfl
@[simp] theorem accept_draws (s : State) (w : Word) : (s.accept w).draws = s.draws := rfl
@[simp] theorem accept_ibufDraw (s : State) (w : Word) : (s.accept w).ibufDraw = s.ibufDraw := rfl
@[simp] theorem accept_tainted (s : State) (w : Word) : (s.accept w).tainted = false := rfl
@[simp] theorem accept_openRace (s : State) (w : Word) : (s.accept w).openRace = none := rfl

/-! ### finish -/

@[simp] theorem finish_cfg (s : State) : s.finish.cfg = s.cfg := rfl
@[simp] theorem finish_busy (s : State) : s.finish.busy = false := rfl
@[simp] theorem finish_cmdLatch (s : State) : s.finish.cmdLatch = s.cmdLatch := rfl
@[simp] theorem finish_statusCode (s : State) : s.finish.statusCode = 0 := rfl
@[simp] theorem finish_statusDetail (s : State) : s.finish.statusDetail = 0 := rfl
@[simp] theorem finish_err (s : State) : s.finish.err = s.err := rfl
@[simp] theorem finish_res (s : State) : s.finish.res = s.res := rfl
@[simp] theorem finish_brBaseReg (s : State) : s.finish.brBaseReg = s.brBaseReg := rfl
@[simp] theorem finish_brLenReg (s : State) : s.finish.brLenReg = s.brLenReg := rfl
@[simp] theorem finish_winBase (s : State) : s.finish.winBase = s.winBase := rfl
@[simp] theorem finish_winLen (s : State) : s.finish.winLen = s.winLen := rfl
@[simp] theorem finish_pos (s : State) : s.finish.pos = s.pos := rfl
@[simp] theorem finish_pos0 (s : State) : s.finish.pos0 = s.pos0 := rfl
@[simp] theorem finish_ibufAddr (s : State) : s.finish.ibufAddr = s.ibufAddr := rfl
@[simp] theorem finish_outAddr (s : State) : s.finish.outAddr = s.outAddr := rfl
@[simp] theorem finish_hdrValid (s : State) : s.finish.hdrValid = s.hdrValid := rfl
@[simp] theorem finish_siValid (s : State) : s.finish.siValid = s.siValid := rfl
@[simp] theorem finish_mdValid (s : State) : s.finish.mdValid = s.mdValid := rfl
@[simp] theorem finish_hdr (s : State) : s.finish.hdr = s.hdr := rfl
@[simp] theorem finish_si (s : State) : s.finish.si = s.si := rfl
@[simp] theorem finish_md (s : State) : s.finish.md = s.md := rfl
@[simp] theorem finish_ibuf (s : State) : s.finish.ibuf = s.ibuf := rfl
@[simp] theorem finish_resetAsserted (s : State) : s.finish.resetAsserted = s.resetAsserted := rfl
@[simp] theorem finish_inputs (s : State) : s.finish.inputs = s.inputs := rfl
@[simp] theorem finish_replies (s : State) : s.finish.replies = s.replies := rfl
@[simp] theorem finish_draws (s : State) : s.finish.draws = s.draws := rfl
@[simp] theorem finish_ibufDraw (s : State) : s.finish.ibufDraw = s.ibufDraw := rfl
@[simp] theorem finish_tainted (s : State) : s.finish.tainted = false := rfl
@[simp] theorem finish_openRace (s : State) : s.finish.openRace = none := rfl

/-! ### fail -/

@[simp] theorem fail_cfg (s : State) (e : CmdError) : (s.fail e).cfg = s.cfg := rfl
@[simp] theorem fail_busy (s : State) (e : CmdError) : (s.fail e).busy = false := rfl
@[simp] theorem fail_cmdLatch (s : State) (e : CmdError) : (s.fail e).cmdLatch = s.cmdLatch := rfl
@[simp] theorem fail_statusCode (s : State) (e : CmdError) : (s.fail e).statusCode = errorCode e.kind := rfl
@[simp] theorem fail_statusDetail (s : State) (e : CmdError) : (s.fail e).statusDetail = e.detail := rfl
@[simp] theorem fail_err (s : State) (e : CmdError) : (s.fail e).err = s.err ||| errMask (errorCode e.kind) := rfl
@[simp] theorem fail_res (s : State) (e : CmdError) : (s.fail e).res = s.res := rfl
@[simp] theorem fail_brBaseReg (s : State) (e : CmdError) : (s.fail e).brBaseReg = s.brBaseReg := rfl
@[simp] theorem fail_brLenReg (s : State) (e : CmdError) : (s.fail e).brLenReg = s.brLenReg := rfl
@[simp] theorem fail_winBase (s : State) (e : CmdError) : (s.fail e).winBase = s.winBase := rfl
@[simp] theorem fail_winLen (s : State) (e : CmdError) : (s.fail e).winLen = s.winLen := rfl
@[simp] theorem fail_pos (s : State) (e : CmdError) : (s.fail e).pos = s.pos0 := rfl
@[simp] theorem fail_pos0 (s : State) (e : CmdError) : (s.fail e).pos0 = s.pos0 := rfl
@[simp] theorem fail_ibufAddr (s : State) (e : CmdError) : (s.fail e).ibufAddr = s.ibufAddr := rfl
@[simp] theorem fail_outAddr (s : State) (e : CmdError) : (s.fail e).outAddr = s.outAddr := rfl
@[simp] theorem fail_hdrValid (s : State) (e : CmdError) : (s.fail e).hdrValid = s.hdrValid := rfl
@[simp] theorem fail_siValid (s : State) (e : CmdError) : (s.fail e).siValid = s.siValid := rfl
@[simp] theorem fail_mdValid (s : State) (e : CmdError) : (s.fail e).mdValid = s.mdValid := rfl
@[simp] theorem fail_hdr (s : State) (e : CmdError) : (s.fail e).hdr = s.hdr := rfl
@[simp] theorem fail_si (s : State) (e : CmdError) : (s.fail e).si = s.si := rfl
@[simp] theorem fail_md (s : State) (e : CmdError) : (s.fail e).md = s.md := rfl
@[simp] theorem fail_ibuf (s : State) (e : CmdError) : (s.fail e).ibuf = s.ibuf := rfl
@[simp] theorem fail_resetAsserted (s : State) (e : CmdError) : (s.fail e).resetAsserted = s.resetAsserted := rfl
@[simp] theorem fail_inputs (s : State) (e : CmdError) : (s.fail e).inputs = s.inputs := rfl
@[simp] theorem fail_replies (s : State) (e : CmdError) : (s.fail e).replies = s.replies := rfl
@[simp] theorem fail_draws (s : State) (e : CmdError) : (s.fail e).draws = s.draws := rfl
@[simp] theorem fail_ibufDraw (s : State) (e : CmdError) : (s.fail e).ibufDraw = s.ibufDraw := rfl
@[simp] theorem fail_tainted (s : State) (e : CmdError) : (s.fail e).tainted = false := rfl
@[simp] theorem fail_openRace (s : State) (e : CmdError) : (s.fail e).openRace = none := rfl

/-! ### scrambleOut -/

@[simp] theorem scrambleOut_cfg (s : State) : s.scrambleOut.cfg = s.cfg := rfl
@[simp] theorem scrambleOut_busy (s : State) : s.scrambleOut.busy = s.busy := rfl
@[simp] theorem scrambleOut_cmdLatch (s : State) : s.scrambleOut.cmdLatch = s.cmdLatch := rfl
@[simp] theorem scrambleOut_statusCode (s : State) : s.scrambleOut.statusCode = s.statusCode := rfl
@[simp] theorem scrambleOut_statusDetail (s : State) : s.scrambleOut.statusDetail = s.statusDetail := rfl
@[simp] theorem scrambleOut_err (s : State) : s.scrambleOut.err = s.err := rfl
@[simp] theorem scrambleOut_res (s : State) : s.scrambleOut.res = s.res := rfl
@[simp] theorem scrambleOut_brBaseReg (s : State) : s.scrambleOut.brBaseReg = s.brBaseReg := rfl
@[simp] theorem scrambleOut_brLenReg (s : State) : s.scrambleOut.brLenReg = s.brLenReg := rfl
@[simp] theorem scrambleOut_winBase (s : State) : s.scrambleOut.winBase = s.winBase := rfl
@[simp] theorem scrambleOut_winLen (s : State) : s.scrambleOut.winLen = s.winLen := rfl
@[simp] theorem scrambleOut_pos (s : State) : s.scrambleOut.pos = s.pos := rfl
@[simp] theorem scrambleOut_pos0 (s : State) : s.scrambleOut.pos0 = s.pos0 := rfl
@[simp] theorem scrambleOut_ibufAddr (s : State) : s.scrambleOut.ibufAddr = s.ibufAddr := rfl
@[simp] theorem scrambleOut_outAddr (s : State) : s.scrambleOut.outAddr = s.outAddr := rfl
@[simp] theorem scrambleOut_hdrValid (s : State) : s.scrambleOut.hdrValid = s.hdrValid := rfl
@[simp] theorem scrambleOut_siValid (s : State) : s.scrambleOut.siValid = s.siValid := rfl
@[simp] theorem scrambleOut_mdValid (s : State) : s.scrambleOut.mdValid = s.mdValid := rfl
@[simp] theorem scrambleOut_hdr (s : State) : s.scrambleOut.hdr = s.hdr := rfl
@[simp] theorem scrambleOut_si (s : State) : s.scrambleOut.si = s.si := rfl
@[simp] theorem scrambleOut_md (s : State) : s.scrambleOut.md = .drawn s.draws := rfl
@[simp] theorem scrambleOut_ibuf (s : State) : s.scrambleOut.ibuf = s.ibuf := rfl
@[simp] theorem scrambleOut_resetAsserted (s : State) : s.scrambleOut.resetAsserted = s.resetAsserted := rfl
@[simp] theorem scrambleOut_inputs (s : State) : s.scrambleOut.inputs = s.inputs := rfl
@[simp] theorem scrambleOut_replies (s : State) : s.scrambleOut.replies = s.replies := rfl
@[simp] theorem scrambleOut_draws (s : State) : s.scrambleOut.draws = s.draws + 1 := rfl
@[simp] theorem scrambleOut_ibufDraw (s : State) : s.scrambleOut.ibufDraw = s.ibufDraw := rfl
@[simp] theorem scrambleOut_tainted (s : State) : s.scrambleOut.tainted = s.tainted := rfl
@[simp] theorem scrambleOut_openRace (s : State) : s.scrambleOut.openRace = s.openRace := rfl

/-! ### resetRegisters -/

@[simp] theorem resetRegisters_cfg (s : State) : s.resetRegisters.cfg = s.cfg := rfl
@[simp] theorem resetRegisters_busy (s : State) : s.resetRegisters.busy = false := rfl
@[simp] theorem resetRegisters_cmdLatch (s : State) : s.resetRegisters.cmdLatch = 0 := rfl
@[simp] theorem resetRegisters_statusCode (s : State) : s.resetRegisters.statusCode = 0 := rfl
@[simp] theorem resetRegisters_statusDetail (s : State) : s.resetRegisters.statusDetail = 0 := rfl
@[simp] theorem resetRegisters_err (s : State) : s.resetRegisters.err = 0 := rfl
@[simp] theorem resetRegisters_res (s : State) : s.resetRegisters.res = Quad.const 0 := rfl
@[simp] theorem resetRegisters_brBaseReg (s : State) : s.resetRegisters.brBaseReg = 0 := rfl
@[simp] theorem resetRegisters_brLenReg (s : State) : s.resetRegisters.brLenReg = 0 := rfl
@[simp] theorem resetRegisters_winBase (s : State) : s.resetRegisters.winBase = 0 := rfl
@[simp] theorem resetRegisters_winLen (s : State) : s.resetRegisters.winLen = 0 := rfl
@[simp] theorem resetRegisters_pos (s : State) : s.resetRegisters.pos = 0 := rfl
@[simp] theorem resetRegisters_pos0 (s : State) : s.resetRegisters.pos0 = 0 := rfl
@[simp] theorem resetRegisters_ibufAddr (s : State) : s.resetRegisters.ibufAddr = 0 := rfl
@[simp] theorem resetRegisters_outAddr (s : State) : s.resetRegisters.outAddr = 0 := rfl
@[simp] theorem resetRegisters_hdrValid (s : State) : s.resetRegisters.hdrValid = false := rfl
@[simp] theorem resetRegisters_siValid (s : State) : s.resetRegisters.siValid = false := rfl
@[simp] theorem resetRegisters_mdValid (s : State) : s.resetRegisters.mdValid = false := rfl
@[simp] theorem resetRegisters_hdr (s : State) : s.resetRegisters.hdr = Header.zero := rfl
@[simp] theorem resetRegisters_si (s : State) : s.resetRegisters.si = SideInfo.zero := rfl
@[simp] theorem resetRegisters_md (s : State) : s.resetRegisters.md = s.md := rfl
@[simp] theorem resetRegisters_ibuf (s : State) : s.resetRegisters.ibuf = s.ibuf := rfl
@[simp] theorem resetRegisters_resetAsserted (s : State) : s.resetRegisters.resetAsserted = s.resetAsserted := rfl
@[simp] theorem resetRegisters_inputs (s : State) : s.resetRegisters.inputs = s.inputs := rfl
@[simp] theorem resetRegisters_replies (s : State) : s.resetRegisters.replies = s.replies := rfl
@[simp] theorem resetRegisters_draws (s : State) : s.resetRegisters.draws = s.draws := rfl
@[simp] theorem resetRegisters_ibufDraw (s : State) : s.resetRegisters.ibufDraw = s.ibufDraw := rfl
@[simp] theorem resetRegisters_tainted (s : State) : s.resetRegisters.tainted = false := rfl
@[simp] theorem resetRegisters_openRace (s : State) : s.resetRegisters.openRace = none := rfl

/-! ### hardReset -/

@[simp] theorem hardReset_cfg (s : State) : s.hardReset.cfg = s.cfg := rfl
@[simp] theorem hardReset_busy (s : State) : s.hardReset.busy = false := rfl
@[simp] theorem hardReset_cmdLatch (s : State) : s.hardReset.cmdLatch = 0 := rfl
@[simp] theorem hardReset_statusCode (s : State) : s.hardReset.statusCode = 0 := rfl
@[simp] theorem hardReset_statusDetail (s : State) : s.hardReset.statusDetail = 0 := rfl
@[simp] theorem hardReset_err (s : State) : s.hardReset.err = 0 := rfl
@[simp] theorem hardReset_res (s : State) : s.hardReset.res = Quad.const 0 := rfl
@[simp] theorem hardReset_brBaseReg (s : State) : s.hardReset.brBaseReg = 0 := rfl
@[simp] theorem hardReset_brLenReg (s : State) : s.hardReset.brLenReg = 0 := rfl
@[simp] theorem hardReset_winBase (s : State) : s.hardReset.winBase = 0 := rfl
@[simp] theorem hardReset_winLen (s : State) : s.hardReset.winLen = 0 := rfl
@[simp] theorem hardReset_pos (s : State) : s.hardReset.pos = 0 := rfl
@[simp] theorem hardReset_pos0 (s : State) : s.hardReset.pos0 = 0 := rfl
@[simp] theorem hardReset_ibufAddr (s : State) : s.hardReset.ibufAddr = 0 := rfl
@[simp] theorem hardReset_outAddr (s : State) : s.hardReset.outAddr = 0 := rfl
@[simp] theorem hardReset_hdrValid (s : State) : s.hardReset.hdrValid = false := rfl
@[simp] theorem hardReset_siValid (s : State) : s.hardReset.siValid = false := rfl
@[simp] theorem hardReset_mdValid (s : State) : s.hardReset.mdValid = false := rfl
@[simp] theorem hardReset_hdr (s : State) : s.hardReset.hdr = Header.zero := rfl
@[simp] theorem hardReset_si (s : State) : s.hardReset.si = SideInfo.zero := rfl
@[simp] theorem hardReset_md (s : State) : s.hardReset.md = .drawn (s.draws + 1) := rfl
@[simp] theorem hardReset_ibuf (s : State) : s.hardReset.ibuf = [] := rfl
@[simp] theorem hardReset_resetAsserted (s : State) : s.hardReset.resetAsserted = s.resetAsserted := rfl
@[simp] theorem hardReset_inputs (s : State) : s.hardReset.inputs = s.inputs := rfl
@[simp] theorem hardReset_replies (s : State) : s.hardReset.replies = s.replies := rfl
@[simp] theorem hardReset_draws (s : State) : s.hardReset.draws = s.draws + 2 := rfl
@[simp] theorem hardReset_ibufDraw (s : State) : s.hardReset.ibufDraw = s.draws := rfl
@[simp] theorem hardReset_tainted (s : State) : s.hardReset.tainted = false := rfl
@[simp] theorem hardReset_openRace (s : State) : s.hardReset.openRace = none := rfl

/-! ### invalidateFromHdr -/

@[simp] theorem invalidateFromHdr_cfg (s : State) : (invalidateFromHdr s).cfg = s.cfg := rfl
@[simp] theorem invalidateFromHdr_busy (s : State) : (invalidateFromHdr s).busy = s.busy := rfl
@[simp] theorem invalidateFromHdr_cmdLatch (s : State) : (invalidateFromHdr s).cmdLatch = s.cmdLatch := rfl
@[simp] theorem invalidateFromHdr_statusCode (s : State) : (invalidateFromHdr s).statusCode = s.statusCode := rfl
@[simp] theorem invalidateFromHdr_statusDetail (s : State) : (invalidateFromHdr s).statusDetail = s.statusDetail := rfl
@[simp] theorem invalidateFromHdr_err (s : State) : (invalidateFromHdr s).err = s.err := rfl
@[simp] theorem invalidateFromHdr_res (s : State) : (invalidateFromHdr s).res = s.res := rfl
@[simp] theorem invalidateFromHdr_brBaseReg (s : State) : (invalidateFromHdr s).brBaseReg = s.brBaseReg := rfl
@[simp] theorem invalidateFromHdr_brLenReg (s : State) : (invalidateFromHdr s).brLenReg = s.brLenReg := rfl
@[simp] theorem invalidateFromHdr_winBase (s : State) : (invalidateFromHdr s).winBase = s.winBase := rfl
@[simp] theorem invalidateFromHdr_winLen (s : State) : (invalidateFromHdr s).winLen = s.winLen := rfl
@[simp] theorem invalidateFromHdr_pos (s : State) : (invalidateFromHdr s).pos = s.pos := rfl
@[simp] theorem invalidateFromHdr_pos0 (s : State) : (invalidateFromHdr s).pos0 = s.pos0 := rfl
@[simp] theorem invalidateFromHdr_ibufAddr (s : State) : (invalidateFromHdr s).ibufAddr = s.ibufAddr := rfl
@[simp] theorem invalidateFromHdr_outAddr (s : State) : (invalidateFromHdr s).outAddr = s.outAddr := rfl
@[simp] theorem invalidateFromHdr_hdrValid (s : State) : (invalidateFromHdr s).hdrValid = false := rfl
@[simp] theorem invalidateFromHdr_siValid (s : State) : (invalidateFromHdr s).siValid = false := rfl
@[simp] theorem invalidateFromHdr_mdValid (s : State) : (invalidateFromHdr s).mdValid = false := rfl
@[simp] theorem invalidateFromHdr_hdr (s : State) : (invalidateFromHdr s).hdr = s.hdr := rfl
@[simp] theorem invalidateFromHdr_si (s : State) : (invalidateFromHdr s).si = s.si := rfl
@[simp] theorem invalidateFromHdr_md (s : State) : (invalidateFromHdr s).md = s.md := rfl
@[simp] theorem invalidateFromHdr_ibuf (s : State) : (invalidateFromHdr s).ibuf = s.ibuf := rfl
@[simp] theorem invalidateFromHdr_resetAsserted (s : State) : (invalidateFromHdr s).resetAsserted = s.resetAsserted := rfl
@[simp] theorem invalidateFromHdr_inputs (s : State) : (invalidateFromHdr s).inputs = s.inputs := rfl
@[simp] theorem invalidateFromHdr_replies (s : State) : (invalidateFromHdr s).replies = s.replies := rfl
@[simp] theorem invalidateFromHdr_draws (s : State) : (invalidateFromHdr s).draws = s.draws := rfl
@[simp] theorem invalidateFromHdr_ibufDraw (s : State) : (invalidateFromHdr s).ibufDraw = s.ibufDraw := rfl
@[simp] theorem invalidateFromHdr_tainted (s : State) : (invalidateFromHdr s).tainted = s.tainted := rfl
@[simp] theorem invalidateFromHdr_openRace (s : State) : (invalidateFromHdr s).openRace = s.openRace := rfl

/-! ### invalidateFromSi -/

@[simp] theorem invalidateFromSi_cfg (s : State) : (invalidateFromSi s).cfg = s.cfg := rfl
@[simp] theorem invalidateFromSi_busy (s : State) : (invalidateFromSi s).busy = s.busy := rfl
@[simp] theorem invalidateFromSi_cmdLatch (s : State) : (invalidateFromSi s).cmdLatch = s.cmdLatch := rfl
@[simp] theorem invalidateFromSi_statusCode (s : State) : (invalidateFromSi s).statusCode = s.statusCode := rfl
@[simp] theorem invalidateFromSi_statusDetail (s : State) : (invalidateFromSi s).statusDetail = s.statusDetail := rfl
@[simp] theorem invalidateFromSi_err (s : State) : (invalidateFromSi s).err = s.err := rfl
@[simp] theorem invalidateFromSi_res (s : State) : (invalidateFromSi s).res = s.res := rfl
@[simp] theorem invalidateFromSi_brBaseReg (s : State) : (invalidateFromSi s).brBaseReg = s.brBaseReg := rfl
@[simp] theorem invalidateFromSi_brLenReg (s : State) : (invalidateFromSi s).brLenReg = s.brLenReg := rfl
@[simp] theorem invalidateFromSi_winBase (s : State) : (invalidateFromSi s).winBase = s.winBase := rfl
@[simp] theorem invalidateFromSi_winLen (s : State) : (invalidateFromSi s).winLen = s.winLen := rfl
@[simp] theorem invalidateFromSi_pos (s : State) : (invalidateFromSi s).pos = s.pos := rfl
@[simp] theorem invalidateFromSi_pos0 (s : State) : (invalidateFromSi s).pos0 = s.pos0 := rfl
@[simp] theorem invalidateFromSi_ibufAddr (s : State) : (invalidateFromSi s).ibufAddr = s.ibufAddr := rfl
@[simp] theorem invalidateFromSi_outAddr (s : State) : (invalidateFromSi s).outAddr = s.outAddr := rfl
@[simp] theorem invalidateFromSi_hdrValid (s : State) : (invalidateFromSi s).hdrValid = s.hdrValid := rfl
@[simp] theorem invalidateFromSi_siValid (s : State) : (invalidateFromSi s).siValid = false := rfl
@[simp] theorem invalidateFromSi_mdValid (s : State) : (invalidateFromSi s).mdValid = false := rfl
@[simp] theorem invalidateFromSi_hdr (s : State) : (invalidateFromSi s).hdr = s.hdr := rfl
@[simp] theorem invalidateFromSi_si (s : State) : (invalidateFromSi s).si = s.si := rfl
@[simp] theorem invalidateFromSi_md (s : State) : (invalidateFromSi s).md = s.md := rfl
@[simp] theorem invalidateFromSi_ibuf (s : State) : (invalidateFromSi s).ibuf = s.ibuf := rfl
@[simp] theorem invalidateFromSi_resetAsserted (s : State) : (invalidateFromSi s).resetAsserted = s.resetAsserted := rfl
@[simp] theorem invalidateFromSi_inputs (s : State) : (invalidateFromSi s).inputs = s.inputs := rfl
@[simp] theorem invalidateFromSi_replies (s : State) : (invalidateFromSi s).replies = s.replies := rfl
@[simp] theorem invalidateFromSi_draws (s : State) : (invalidateFromSi s).draws = s.draws := rfl
@[simp] theorem invalidateFromSi_ibufDraw (s : State) : (invalidateFromSi s).ibufDraw = s.ibufDraw := rfl
@[simp] theorem invalidateFromSi_tainted (s : State) : (invalidateFromSi s).tainted = s.tainted := rfl
@[simp] theorem invalidateFromSi_openRace (s : State) : (invalidateFromSi s).openRace = s.openRace := rfl

/-! ### invalidateMd -/

@[simp] theorem invalidateMd_cfg (s : State) : (invalidateMd s).cfg = s.cfg := rfl
@[simp] theorem invalidateMd_busy (s : State) : (invalidateMd s).busy = s.busy := rfl
@[simp] theorem invalidateMd_cmdLatch (s : State) : (invalidateMd s).cmdLatch = s.cmdLatch := rfl
@[simp] theorem invalidateMd_statusCode (s : State) : (invalidateMd s).statusCode = s.statusCode := rfl
@[simp] theorem invalidateMd_statusDetail (s : State) : (invalidateMd s).statusDetail = s.statusDetail := rfl
@[simp] theorem invalidateMd_err (s : State) : (invalidateMd s).err = s.err := rfl
@[simp] theorem invalidateMd_res (s : State) : (invalidateMd s).res = s.res := rfl
@[simp] theorem invalidateMd_brBaseReg (s : State) : (invalidateMd s).brBaseReg = s.brBaseReg := rfl
@[simp] theorem invalidateMd_brLenReg (s : State) : (invalidateMd s).brLenReg = s.brLenReg := rfl
@[simp] theorem invalidateMd_winBase (s : State) : (invalidateMd s).winBase = s.winBase := rfl
@[simp] theorem invalidateMd_winLen (s : State) : (invalidateMd s).winLen = s.winLen := rfl
@[simp] theorem invalidateMd_pos (s : State) : (invalidateMd s).pos = s.pos := rfl
@[simp] theorem invalidateMd_pos0 (s : State) : (invalidateMd s).pos0 = s.pos0 := rfl
@[simp] theorem invalidateMd_ibufAddr (s : State) : (invalidateMd s).ibufAddr = s.ibufAddr := rfl
@[simp] theorem invalidateMd_outAddr (s : State) : (invalidateMd s).outAddr = s.outAddr := rfl
@[simp] theorem invalidateMd_hdrValid (s : State) : (invalidateMd s).hdrValid = s.hdrValid := rfl
@[simp] theorem invalidateMd_siValid (s : State) : (invalidateMd s).siValid = s.siValid := rfl
@[simp] theorem invalidateMd_mdValid (s : State) : (invalidateMd s).mdValid = false := rfl
@[simp] theorem invalidateMd_hdr (s : State) : (invalidateMd s).hdr = s.hdr := rfl
@[simp] theorem invalidateMd_si (s : State) : (invalidateMd s).si = s.si := rfl
@[simp] theorem invalidateMd_md (s : State) : (invalidateMd s).md = s.md := rfl
@[simp] theorem invalidateMd_ibuf (s : State) : (invalidateMd s).ibuf = s.ibuf := rfl
@[simp] theorem invalidateMd_resetAsserted (s : State) : (invalidateMd s).resetAsserted = s.resetAsserted := rfl
@[simp] theorem invalidateMd_inputs (s : State) : (invalidateMd s).inputs = s.inputs := rfl
@[simp] theorem invalidateMd_replies (s : State) : (invalidateMd s).replies = s.replies := rfl
@[simp] theorem invalidateMd_draws (s : State) : (invalidateMd s).draws = s.draws := rfl
@[simp] theorem invalidateMd_ibufDraw (s : State) : (invalidateMd s).ibufDraw = s.ibufDraw := rfl
@[simp] theorem invalidateMd_tainted (s : State) : (invalidateMd s).tainted = s.tainted := rfl
@[simp] theorem invalidateMd_openRace (s : State) : (invalidateMd s).openRace = s.openRace := rfl

end Sys2Proof.Machine
end

