-- ==== Sys2Proof/Laws/Reader.lean ====
section
/-! SUPPORT. The laws of the window and of the consuming read. -/

namespace Sys2Proof.Machine

theorem winBit_le_one (w : Window) (k : Nat) : winBit w k ≤ 1 := Nat.and_le_right

theorem memRead_lt (w : Window) (p n : Nat) : memRead w p n < 2 ^ n := by
  induction n with
  | zero => simp [memRead]
  | succ n ih =>
    have := winBit_le_one w (p + n)
    simp only [memRead, Nat.pow_succ]
    omega

/-- Everything a consuming read can do: it fits and gives the bits and the cursor after them, or it is exhausted. -/
theorem takeBits_eq_some {w : Window} {n lim pos v p : Nat} :
    takeBits w n lim pos = some (v, p) ↔ pos + n ≤ lim ∧ v = memRead w pos n ∧ p = pos + n := by
  unfold takeBits
  split
  · simp; omega
  · simp only [Option.some.injEq, Prod.mk.injEq]
    constructor
    · rintro ⟨rfl, rfl⟩; exact ⟨by omega, rfl, rfl⟩
    · rintro ⟨_, rfl, rfl⟩; exact ⟨rfl, rfl⟩

theorem takeBits_eq_none {w : Window} {n lim pos : Nat} : takeBits w n lim pos = none ↔ lim < pos + n := by
  unfold takeBits
  split <;> simp <;> omega

theorem takeBits_of_le {w : Window} {n lim pos : Nat} (h : pos + n ≤ lim) :
    takeBits w n lim pos = some (memRead w pos n, pos + n) := takeBits_eq_some.mpr ⟨h, rfl, rfl⟩

/-- Two windows of one length that hold the same bits. -/
structure SameBits (w v : Window) : Prop where
  len : w.len = v.len
  bits : ∀ k, k < windowEnd w → winBit w k = winBit v k

theorem SameBits.ends {w v : Window} (h : SameBits w v) : windowEnd w = windowEnd v := by simp [windowEnd, h.len]

theorem SameBits.memRead {w v : Window} (h : SameBits w v) {p n : Nat} (hp : p + n ≤ windowEnd w) :
    memRead w p n = memRead v p n := by
  induction n with
  | zero => rfl
  | succ n ih =>
    simp only [Machine.memRead, ih (by omega), h.bits (p + n) (by omega)]

theorem SameBits.takeBits {w v : Window} (h : SameBits w v) {n lim pos : Nat} (hl : lim ≤ windowEnd w) :
    takeBits w n lim pos = takeBits v n lim pos := by
  unfold Machine.takeBits
  split
  · rfl
  · rw [h.memRead (by omega)]

@[simp] theorem window_finish (s : State) : s.finish.window = s.window := rfl
@[simp] theorem window_fail (s : State) (e : CmdError) : (s.fail e).window = s.window := rfl
@[simp] theorem window_accept (s : State) (w : Word) : (s.accept w).window = s.window := rfl

/-- A cursor inside the largest window fits its register. -/
theorem cursor_toNat {p : Nat} (h : p < 65536) : (cursor p).toNat = p := by
  simp [cursor, BitVec.toNat_ofNat]; omega

end Sys2Proof.Machine
end

