-- ==== Sys2Proof/Laws/Huffman.lean ====
section
/-! SUPPORT. What the symbol engine can do: where it moves the cursor, how large its values are, and that it sees only the
window's bits below its limit. -/

namespace Sys2Proof.Machine

variable {α : Type} {w v : Window} {lim pos p : Nat}

/-- A codebook match names an entry of the book whose code fits and stands at the cursor. -/
theorem matchBook_found {book : List (CodeEntry α)} {e : CodeEntry α} (h : matchBook w book lim pos = .found e) :
    e ∈ book ∧ e.code.length ≤ lim - pos ∧ memRead w pos e.code.length = codeValue e.code := by
  unfold matchBook at h
  split at h
  · rename_i d hd
    cases h
    have := List.find?_some hd
    simp only [entryMatches, Bool.and_eq_true, decide_eq_true_eq, beq_iff_eq] at this
    exact ⟨List.mem_of_find?_eq_some hd, this.1, this.2⟩
  · split at h <;> cases h

theorem entryMatches_congr (h : SameBits w v) (hl : lim ≤ windowEnd w) :
    entryMatches (α := α) w (lim - pos) pos = entryMatches v (lim - pos) pos := by
  funext e
  unfold entryMatches
  by_cases hle : e.code.length ≤ lim - pos
  · by_cases h0 : e.code.length = 0
    · simp [h0, memRead]
    · rw [h.memRead (by omega)]
  · simp [hle]

theorem entryCutShort_congr (h : SameBits w v) (hl : lim ≤ windowEnd w) :
    entryCutShort (α := α) w (lim - pos) pos = entryCutShort v (lim - pos) pos := by
  funext e
  unfold entryCutShort
  by_cases h0 : lim - pos = 0
  · simp [h0, memRead]
  · rw [h.memRead (by omega)]

theorem matchBook_congr (h : SameBits w v) (hl : lim ≤ windowEnd w) (book : List (CodeEntry α)) :
    matchBook w book lim pos = matchBook v book lim pos := by
  unfold matchBook
  rw [entryMatches_congr h hl, entryCutShort_congr h hl]

/-- A sign bit: the value has the magnitude, and one bit is taken unless it is 0. -/
theorem takeSign_some {mag : Nat} {x : Int} (h : takeSign w lim mag pos = some (x, p)) :
    x.natAbs = mag ∧ pos ≤ p ∧ p ≤ pos + 1 ∧ (p = pos ∨ p ≤ lim) := by
  unfold takeSign at h
  split at h
  · rename_i h0
    cases h
    exact ⟨by simp [h0], by omega, by omega, .inl rfl⟩
  · split at h
    · cases h
    · rename_i b q hb
      obtain ⟨h1, h2, h3⟩ := takeBits_eq_some.mp hb
      cases h
      refine ⟨?_, by omega, by omega, .inr (by omega)⟩
      split <;> simp

/-- An escape: at most 13 linbits are taken, and the magnitude stays below 15 + 2^linbits. -/
theorem takeEscape_some {lb : Nat} {mag : BitVec 4} {m : Nat} (h : takeEscape w lb lim mag pos = some (m, p)) :
    m < 15 + 2 ^ lb ∧ pos ≤ p ∧ p ≤ pos + lb ∧ (p = pos ∨ p ≤ lim) := by
  have hm := mag.isLt
  unfold takeEscape at h
  split at h
  · rename_i h0
    split at h
    · cases h
    · rename_i b q hb
      obtain ⟨h1, h2, h3⟩ := takeBits_eq_some.mp hb
      cases h
      have := memRead_lt w pos lb
      exact ⟨by omega, by omega, by omega, .inr (by omega)⟩
  · cases h
    have : 1 ≤ 2 ^ lb := Nat.one_le_two_pow
    exact ⟨by omega, by omega, by omega, .inl rfl⟩

theorem takeValue_some {lb : Nat} {mag : BitVec 4} {x : Int} (h : takeValue w lb lim mag pos = some (x, p)) :
    x.natAbs < 15 + 2 ^ lb ∧ pos ≤ p ∧ p ≤ pos + lb + 1 ∧ (p = pos ∨ p ≤ lim) := by
  unfold takeValue at h
  split at h
  · cases h
  · rename_i m q hm
    have h1 := takeEscape_some hm
    have h2 := takeSign_some h
    omega

theorem takePair_some {lb : Nat} {xy : BitVec 4 × BitVec 4} {x y : Int}
    (h : takePair w lb lim xy pos = some ((x, y), p)) :
    x.natAbs < 15 + 2 ^ lb ∧ y.natAbs < 15 + 2 ^ lb ∧ pos ≤ p ∧ p ≤ pos + 2 * lb + 2 ∧ (p = pos ∨ p ≤ lim) := by
  unfold takePair at h
  split at h
  · cases h
  · rename_i x' q hx
    split at h
    · cases h
    · rename_i y' q' hy
      cases h
      have h1 := takeValue_some hx
      have h2 := takeValue_some hy
      omega

theorem takeQuad_some {u : BitVec 4} {q : Quad Int} (h : takeQuad w lim u pos = some (q, p)) :
    q.q0.natAbs ≤ 1 ∧ q.q1.natAbs ≤ 1 ∧ q.q2.natAbs ≤ 1 ∧ q.q3.natAbs ≤ 1 ∧ pos ≤ p ∧ p ≤ pos + 4 ∧
      (p = pos ∨ p ≤ lim) := by
  have hb : ∀ k, quadMagnitude u k ≤ 1 := fun k => by unfold quadMagnitude; cases u.getLsbD k <;> simp
  unfold takeQuad at h
  split at h
  · cases h
  split at h
  · cases h
  split at h
  · cases h
  split at h
  · cases h
  rename_i h0 _ _ _ h1 _ _ _ h2 _ _ _ h3
  cases h
  have g0 := takeSign_some h0
  have g1 := takeSign_some h1
  have g2 := takeSign_some h2
  have g3 := takeSign_some h3
  have := hb 0
  have := hb 1
  have := hb 2
  have := hb 3
  dsimp only
  omega

/-- What a decoded pair looks like: at most 60 bits, inside the limit, values within the table's reach. -/
theorem decodePair_ok {c : Config} {t : BitVec 5} {x y : Int}
    (h : decodePair c.data w t lim pos = .ok (x, y) p) (hp : pos ≤ lim) :
    x.natAbs ≤ 8206 ∧ y.natAbs ≤ 8206 ∧ pos ≤ p ∧ p ≤ lim ∧ p ≤ pos + 60 := by
  unfold decodePair at h
  split at h
  · cases h
    exact ⟨by simp, by simp, le_rfl, hp, by omega⟩
  · split at h
    · cases h
    · cases h
    · rename_i e he
      split at h
      · cases h
      · rename_i xy q hq
        cases h
        obtain ⟨hmem, hlen, -⟩ := matchBook_found he
        have hcode := bookOk_length (c.pairBook_ok t.toFin) hmem
        have hlb := c.linbits_le t.toFin
        have := takePair_some hq
        have : 2 ^ c.data.linbits[t.toFin] ≤ 2 ^ 13 := Nat.pow_le_pow_right (by omega) hlb
        omega

/-- A table other than 0 takes at least the bits of a codeword. -/
theorem decodePair_moves {c : Config} {t : BitVec 5} {x y : Int}
    (h : decodePair c.data w t lim pos = .ok (x, y) p) (ht : t ≠ 0) : pos < p := by
  unfold decodePair at h
  rw [if_neg ht] at h
  split at h
  · cases h
  · cases h
  · rename_i e he
    split at h
    · cases h
    · rename_i xy q hq
      cases h
      obtain ⟨hmem, hlen, -⟩ := matchBook_found he
      have hcode := bookOk_length (c.pairBook_ok t.toFin) hmem
      have := takePair_some hq
      omega

theorem decodeQuad_ok {c : Config} {t : BitVec 1} {q : Quad Int}
    (h : decodeQuad c.data w t lim pos = .ok q p) (hp : pos ≤ lim) :
    q.q0.natAbs ≤ 1 ∧ q.q1.natAbs ≤ 1 ∧ q.q2.natAbs ≤ 1 ∧ q.q3.natAbs ≤ 1 ∧ pos ≤ p ∧ p ≤ lim ∧ p ≤ pos + 36 := by
  unfold decodeQuad at h
  split at h
  · cases h
  · cases h
  · rename_i e he
    split at h
    · cases h
    · rename_i xy q hq
      cases h
      obtain ⟨hmem, hlen, -⟩ := matchBook_found he
      have hcode := bookOk_length (c.quadBook_ok t.toFin) hmem
      have := takeQuad_some hq
      omega

theorem takeSign_congr (h : SameBits w v) (hl : lim ≤ windowEnd w) (mag : Nat) :
    takeSign w lim mag pos = takeSign v lim mag pos := by
  unfold takeSign
  rw [h.takeBits hl]

theorem takeEscape_congr (h : SameBits w v) (hl : lim ≤ windowEnd w) (lb : Nat) (mag : BitVec 4) :
    takeEscape w lb lim mag pos = takeEscape v lb lim mag pos := by
  unfold takeEscape
  rw [h.takeBits hl]

theorem takeValue_congr (h : SameBits w v) (hl : lim ≤ windowEnd w) (lb : Nat) (mag : BitVec 4) :
    takeValue w lb lim mag pos = takeValue v lb lim mag pos := by
  simp only [takeValue, takeEscape_congr h hl, takeSign_congr h hl]

theorem takePair_congr (h : SameBits w v) (hl : lim ≤ windowEnd w) (lb : Nat) (xy : BitVec 4 × BitVec 4) :
    takePair w lb lim xy pos = takePair v lb lim xy pos := by
  simp only [takePair, takeValue_congr h hl]

theorem takeQuad_congr (h : SameBits w v) (hl : lim ≤ windowEnd w) (u : BitVec 4) :
    takeQuad w lim u pos = takeQuad v lim u pos := by
  simp only [takeQuad, takeSign_congr h hl]

theorem decodePair_congr (h : SameBits w v) (hl : lim ≤ windowEnd w) (c : ConfigData) (t : BitVec 5) :
    decodePair c w t lim pos = decodePair c v t lim pos := by
  simp only [decodePair, matchBook_congr h hl, takePair_congr h hl]

theorem decodeQuad_congr (h : SameBits w v) (hl : lim ≤ windowEnd w) (c : ConfigData) (t : BitVec 1) :
    decodeQuad c w t lim pos = decodeQuad c v t lim pos := by
  simp only [decodeQuad, matchBook_congr h hl, takeQuad_congr h hl]

end Sys2Proof.Machine
end

