-- ==== Sys2Proof/Laws/Memory.lean ====
section
/-! SUPPORT. The laws of the sparse memories: a read after a write, the frame of a write, and the canonical forms. -/

namespace Sys2Proof.Machine

variable {α : Type}

/-- Every key of the list is above `k`. -/
def keysAbove (k : Nat) (m : List (Nat × α)) : Prop := ∀ c ∈ m, k < c.1

theorem cellsRising_cons (a : Nat) (v : α) (m : List (Nat × α)) :
    cellsRising ((a, v) :: m) = true ↔ keysAbove a m ∧ cellsRising m = true := by
  induction m generalizing a v with
  | nil => simp [cellsRising, keysAbove]
  | cons c m ih =>
    obtain ⟨b, w⟩ := c
    have := ih b w
    simp only [cellsRising, Bool.and_eq_true, decide_eq_true_eq, keysAbove, List.mem_cons, forall_eq_or_imp] at *
    constructor
    · rintro ⟨hab, hr⟩
      exact ⟨⟨hab, fun c hc => lt_trans hab ((this.mp hr).1 c hc)⟩, hr⟩
    · rintro ⟨⟨hab, -⟩, hr⟩
      exact ⟨hab, hr⟩

theorem cellsGet_eq_none_of_keysAbove {m : List (Nat × α)} {k a : Nat} (h : keysAbove k m) (ha : a ≤ k) :
    cellsGet m a = none := by
  induction m with
  | nil => rfl
  | cons c m ih =>
    obtain ⟨b, w⟩ := c
    have hb : k < b := h (b, w) (by simp)
    have : b ≠ a := by omega
    simp only [cellsGet, this, if_false]
    exact ih fun c hc => h c (by simp [hc])

/-- A read after a write to the same key gives the value written. -/
@[simp] theorem cellsGet_put_same (m : List (Nat × α)) (a : Nat) (v : α) : cellsGet (cellsPut m a v) a = some v := by
  induction m with
  | nil => simp [cellsPut, cellsGet]
  | cons c m ih =>
    obtain ⟨b, w⟩ := c
    simp only [cellsPut]
    split
    · simp [cellsGet]
    · split
      · simp [cellsGet]
      · rename_i h1 h2
        have : b ≠ a := fun h => h2 h.symm
        simp [cellsGet, this, ih]

/-- A write leaves every other key alone. -/
theorem cellsGet_put_other (m : List (Nat × α)) {a b : Nat} (v : α) (h : b ≠ a) :
    cellsGet (cellsPut m a v) b = cellsGet m b := by
  induction m with
  | nil => simp [cellsPut, cellsGet, h.symm]
  | cons c m ih =>
    obtain ⟨k, w⟩ := c
    simp only [cellsPut]
    split
    · simp [cellsGet, h.symm]
    · split
      · rename_i h1 h2
        subst h2
        simp [cellsGet, h.symm]
      · simp only [cellsGet]
        split
        · rfl
        · exact ih

theorem cellsGet_put (m : List (Nat × α)) (a b : Nat) (v : α) :
    cellsGet (cellsPut m a v) b = if b = a then some v else cellsGet m b := by
  split
  · subst b; simp
  · exact cellsGet_put_other m v ‹_›

theorem mem_cellsPut {m : List (Nat × α)} {a : Nat} {v : α} {c : Nat × α} (h : c ∈ cellsPut m a v) :
    c = (a, v) ∨ c ∈ m := by
  induction m with
  | nil => simpa [cellsPut] using h
  | cons d m ih =>
    obtain ⟨b, w⟩ := d
    simp only [cellsPut] at h
    split at h
    · simpa using h
    · split at h
      · rcases List.mem_cons.mp h with h | h
        · exact .inl h
        · exact .inr (by simp [h])
      · rcases List.mem_cons.mp h with h | h
        · exact .inr (by simp [h])
        · rcases ih h with h | h
          · exact .inl h
          · exact .inr (by simp [h])

theorem mem_cellsErase {m : List (Nat × α)} {a : Nat} {c : Nat × α} (h : c ∈ cellsErase m a) : c ∈ m := by
  induction m with
  | nil => simp [cellsErase] at h
  | cons d m ih =>
    obtain ⟨b, w⟩ := d
    simp only [cellsErase] at h
    split at h
    · simp [h]
    · rcases List.mem_cons.mp h with h | h
      · simp [h]
      · simp [ih h]

theorem cellsRising_put {m : List (Nat × α)} (a : Nat) (v : α) (h : cellsRising m = true) :
    cellsRising (cellsPut m a v) = true := by
  induction m with
  | nil => simp [cellsPut, cellsRising]
  | cons c m ih =>
    obtain ⟨b, w⟩ := c
    have hb := (cellsRising_cons b w m).mp h
    simp only [cellsPut]
    split
    · rename_i hab
      refine (cellsRising_cons a v _).mpr ⟨?_, h⟩
      intro c hc
      rcases List.mem_cons.mp hc with hc | hc
      · subst hc; exact hab
      · exact lt_trans hab (hb.1 c hc)
    · split
      · rename_i h2
        subst h2
        exact (cellsRising_cons a v m).mpr ⟨hb.1, hb.2⟩
      · rename_i h1 h2
        refine (cellsRising_cons b w _).mpr ⟨?_, ih hb.2⟩
        intro c hc
        rcases mem_cellsPut hc with hc | hc
        · subst hc; simp only; omega
        · exact hb.1 c hc

theorem cellsRising_erase {m : List (Nat × α)} (a : Nat) (h : cellsRising m = true) :
    cellsRising (cellsErase m a) = true := by
  induction m with
  | nil => simp [cellsErase, cellsRising]
  | cons c m ih =>
    obtain ⟨b, w⟩ := c
    have hb := (cellsRising_cons b w m).mp h
    simp only [cellsErase]
    split
    · exact hb.2
    · exact (cellsRising_cons b w _).mpr ⟨fun c hc => hb.1 c (mem_cellsErase hc), ih hb.2⟩

theorem cellsGet_erase {m : List (Nat × α)} (h : cellsRising m = true) (a b : Nat) :
    cellsGet (cellsErase m a) b = if b = a then none else cellsGet m b := by
  induction m with
  | nil => simp [cellsErase, cellsGet]
  | cons c m ih =>
    obtain ⟨k, w⟩ := c
    have hk := (cellsRising_cons k w m).mp h
    simp only [cellsErase]
    split
    · rename_i hka
      subst hka
      split
      · rename_i hb
        subst hb
        exact cellsGet_eq_none_of_keysAbove hk.1 le_rfl
      · rename_i hb
        have : k ≠ b := fun h => hb h.symm
        simp [cellsGet, this]
    · rename_i hka
      simp only [cellsGet, ih hk.2]
      split
      · rename_i hkb
        subst hkb
        simp [hka]
      · rfl

theorem cellsGet_mem {m : List (Nat × α)} {a : Nat} {v : α} (h : cellsGet m a = some v) : (a, v) ∈ m := by
  induction m with
  | nil => simp [cellsGet] at h
  | cons c m ih =>
    obtain ⟨k, w⟩ := c
    simp only [cellsGet] at h
    split at h
    · rename_i hk
      subst hk
      simp at h
      simp [h]
    · simp [ih h]

theorem cellsGet_of_mem {m : List (Nat × α)} (h : cellsRising m = true) {a : Nat} {v : α} (hm : (a, v) ∈ m) :
    cellsGet m a = some v := by
  induction m with
  | nil => simp at hm
  | cons c m ih =>
    obtain ⟨k, w⟩ := c
    have hk := (cellsRising_cons k w m).mp h
    rcases List.mem_cons.mp hm with hm | hm
    · cases hm; simp [cellsGet]
    · have : k ≠ a := by have := hk.1 _ hm; simp only at this; omega
      simp [cellsGet, this, ih hk.2 hm]

/-- Two lists in rising order that read the same at every key are the same list. -/
theorem cells_ext {m n : List (Nat × α)} (hm : cellsRising m = true) (hn : cellsRising n = true)
    (h : ∀ a, cellsGet m a = cellsGet n a) : m = n := by
  induction m generalizing n with
  | nil =>
    cases n with
    | nil => rfl
    | cons c n => have := h c.1; simp [cellsGet] at this
  | cons c m ih =>
    obtain ⟨a, v⟩ := c
    have ha := (cellsRising_cons a v m).mp hm
    cases n with
    | nil => have := h a; simp [cellsGet] at this
    | cons d n =>
      obtain ⟨b, w⟩ := d
      have hb := (cellsRising_cons b w n).mp hn
      have hab : a = b := by
        rcases lt_trichotomy a b with hlt | heq | hgt
        · have h1 : cellsGet ((b, w) :: n) a = none := by
            have : b ≠ a := by omega
            simp only [cellsGet, this, if_false]
            exact cellsGet_eq_none_of_keysAbove hb.1 (by omega)
          have := h a
          rw [h1] at this
          simp [cellsGet] at this
        · exact heq
        · have h1 : cellsGet ((a, v) :: m) b = none := by
            have : a ≠ b := by omega
            simp only [cellsGet, this, if_false]
            exact cellsGet_eq_none_of_keysAbove ha.1 (by omega)
          have := h b
          rw [h1] at this
          simp [cellsGet] at this
      subst hab
      have hv : v = w := by have := h a; simpa [cellsGet] using this
      subst hv
      have : m = n := by
        apply ih ha.2 hb.2
        intro k
        by_cases hk : a = k
        · subst hk
          rw [cellsGet_eq_none_of_keysAbove ha.1 le_rfl, cellsGet_eq_none_of_keysAbove hb.1 le_rfl]
        · have := h k
          simpa [cellsGet, hk] using this
      rw [this]

/-! ### IBUF -/

/-- The port's store gives back the byte stored. -/
@[simp] theorem ibufByte_store_same (m : List Host.Cell) (d a : Nat) (b : Byte) :
    ibufByte (ibufStore m a b) d a = b := by
  simp [ibufByte, ibufStore]

/-- The port's store leaves every other byte alone. -/
theorem ibufByte_store_other (m : List Host.Cell) (d : Nat) {a k : Nat} (b : Byte) (h : k ≠ a) :
    ibufByte (ibufStore m a b) d k = ibufByte m d k := by
  simp [ibufByte, ibufStore, cellsGet_put_other m b h]

/-- The port's store keeps IBUF's canonical form. -/
theorem ibufStore_wf {m : List Host.Cell} {bytes a : Nat} (b : Byte) (h : Memory.wf m bytes) (ha : a < bytes) :
    Memory.wf (ibufStore m a b) bytes := by
  refine ⟨cellsRising_put a b h.1, ?_⟩
  rw [List.all_eq_true]
  intro c hc
  rcases mem_cellsPut hc with hc | hc
  · subst hc; simpa using ha
  · exact (List.all_eq_true.mp h.2) c hc

/-! ### OUT -/

theorem recordGet_put {m : List (Nat × BitVec 16)} (h : cellsRising m = true) (i k : Nat) (v : BitVec 16) :
    recordGet (recordPut m i v) k = if k = i then v else recordGet m k := by
  unfold recordPut recordGet
  split
  · rename_i hv
    subst hv
    rw [cellsGet_erase h]
    split <;> simp
  · rw [cellsGet_put]
    split <;> simp

theorem recordPut_rising {m : List (Nat × BitVec 16)} (h : cellsRising m = true) (i : Nat) (v : BitVec 16) :
    cellsRising (recordPut m i v) = true := by
  unfold recordPut
  split
  · exact cellsRising_erase i h
  · exact cellsRising_put i v h

/-- A record's canonical form, as the two facts about its list. -/
def RecordOk (m : List (Nat × BitVec 16)) : Prop := cellsRising m = true ∧ m.all recordCellOk = true

theorem recordOk_nil : RecordOk [] := ⟨rfl, rfl⟩

/-- Storing a value that fits a mapped element keeps the record's canonical form. -/
theorem recordPut_ok {m : List (Nat × BitVec 16)} (h : RecordOk m) {i : Nat} {k : OutKind} (hk : outKind i = some k)
    {v : BitVec 16} (hv : v.toNat < outLimit k) : RecordOk (recordPut m i v) := by
  refine ⟨recordPut_rising h.1 i v, ?_⟩
  rw [List.all_eq_true]
  intro c hc
  unfold recordPut at hc
  split at hc
  · exact (List.all_eq_true.mp h.2) c (mem_cellsErase hc)
  · rename_i hne
    rcases mem_cellsPut hc with hc | hc
    · subst hc
      simpa [recordCellOk, hk, hv] using hne
    · exact (List.all_eq_true.mp h.2) c hc

/-- An element of a canonical record fits its width. -/
theorem recordGet_lt {m : List (Nat × BitVec 16)} (h : RecordOk m) {i : Nat} {k : OutKind} (hk : outKind i = some k) :
    (recordGet m i).toNat < outLimit k := by
  unfold recordGet
  cases hg : cellsGet m i with
  | none => cases k <;> simp [outLimit]
  | some v =>
    have := (List.all_eq_true.mp h.2) _ (cellsGet_mem hg)
    simp only [recordCellOk, hk, Bool.and_eq_true, decide_eq_true_eq] at this
    simpa using this.2

/-- Two canonical records with the same elements are the same list. -/
theorem record_ext {m n : List (Nat × BitVec 16)} (hm : RecordOk m) (hn : RecordOk n)
    (h : ∀ i, recordGet m i = recordGet n i) : m = n := by
  have none_or : ∀ {m : List (Nat × BitVec 16)}, RecordOk m → ∀ i v, cellsGet m i = some v → v ≠ 0 := by
    intro m hm i v hv
    have := (List.all_eq_true.mp hm.2) _ (cellsGet_mem hv)
    simp only [recordCellOk, Bool.and_eq_true, bne_iff_ne] at this
    exact this.1
  refine cells_ext hm.1 hn.1 fun a => ?_
  have ha := h a
  unfold recordGet at ha
  cases h1 : cellsGet m a with
  | none =>
    cases h2 : cellsGet n a with
    | none => rfl
    | some w => rw [h1, h2] at ha; exact absurd (by simpa using ha.symm) (none_or hn a w h2)
  | some v =>
    cases h2 : cellsGet n a with
    | none => rw [h1, h2] at ha; exact absurd (by simpa using ha) (none_or hm a v h1)
    | some w => rw [h1, h2] at ha; simpa using ha

end Sys2Proof.Machine
end

