-- ==== Sys2Proof/Laws/MainData.lean ====
section
/-! SUPPORT. What each phase of MD_DECODE can do to the record and the cursor, and that it sees only the window's bits. -/

namespace Sys2Proof.Machine

/-- From a canonical record, a phase leaves a canonical record, moves the cursor forward and not past the limit, and
writes only elements of `S`. -/
structure Grows (lim : Nat) (S : Nat → Prop) (m : Record) (pos : Nat) (m' : Record) (pos' : Nat) : Prop where
  ok : RecordOk m'
  forward : pos ≤ pos'
  inside : pos ≤ lim → pos' ≤ lim
  frame : ∀ k, ¬ S k → recordGet m' k = recordGet m k

theorem Grows.refl {lim : Nat} {S : Nat → Prop} {m : Record} {pos : Nat} (h : RecordOk m) : Grows lim S m pos m pos :=
  ⟨h, le_rfl, id, fun _ _ => rfl⟩

theorem Grows.trans {lim : Nat} {S : Nat → Prop} {m m' m'' : Record} {p p' p'' : Nat} (h : Grows lim S m p m' p')
    (g : Grows lim S m' p' m'' p'') : Grows lim S m p m'' p'' :=
  ⟨g.ok, h.forward.trans g.forward, fun hl => g.inside (h.inside hl), fun k hk => (g.frame k hk).trans (h.frame k hk)⟩

theorem Grows.mono {lim : Nat} {S T : Nat → Prop} {m m' : Record} {p p' : Nat} (h : Grows lim S m p m' p')
    (hst : ∀ k, S k → T k) : Grows lim T m p m' p' :=
  ⟨h.ok, h.forward, h.inside, fun k hk => h.frame k fun hs => hk (hst k hs)⟩

/-- Storing one element. -/
theorem grows_put {lim : Nat} {S : Nat → Prop} {m : Record} {pos i : Nat} {k : OutKind} {v : BitVec 16}
    (h : RecordOk m) (hk : outKind i = some k) (hv : v.toNat < outLimit k) (hi : S i) :
    Grows lim S m pos (recordPut m i v) pos :=
  ⟨recordPut_ok h hk hv, le_rfl, id, fun j hj => by
    rw [recordGet_put h.1]
    have : j ≠ i := fun e => hj (e ▸ hi)
    simp [this]⟩

/-! ### The index sets of a granule-channel -/

def IsLine (q k : Nat) : Prop := 576 * q ≤ k ∧ k < 576 * q + 576
def IsFactor (q k : Nat) : Prop :=
  (0x1000 + 32 * q ≤ k ∧ k < 0x1000 + 32 * q + 32) ∨ (0x1100 + 64 * q ≤ k ∧ k < 0x1100 + 64 * q + 64)
def IsBook (q k : Nat) : Prop := 0x1200 + 4 * q ≤ k ∧ k < 0x1200 + 4 * q + 4
def OfGranule (q k : Nat) : Prop := IsLine q k ∨ IsFactor q k ∨ IsBook q k

theorem outKind_line {q i : Nat} (hq : q < 4) (hi : i < 576) : outKind (flIndex q i) = some .line := by
  unfold outKind flIndex
  rw [if_pos (by omega)]

theorem outKind_factorL {q b : Nat} (hq : q < 4) (hb : b < 22) : outKind (scalefacLIndex q b) = some .scaleFactor := by
  unfold outKind scalefacLIndex
  rw [if_neg (by omega), if_pos (by omega), if_pos (by omega)]

theorem outKind_factorS {q b w : Nat} (hq : q < 4) (hb : b < 13) (hw : w < 3) :
    outKind (scalefacSIndex q b w) = some .scaleFactor := by
  unfold outKind scalefacSIndex
  rw [if_neg (by omega), if_neg (by omega), if_pos (by omega), if_pos (by omega)]

theorem outKind_region1 {q : Nat} (hq : q < 4) : outKind (region1StartIndex q) = some .regionStart := by
  unfold outKind region1StartIndex
  rw [if_neg (by omega), if_neg (by omega), if_neg (by omega), if_pos (by omega), if_pos (by omega)]

theorem outKind_region2 {q : Nat} (hq : q < 4) : outKind (region2StartIndex q) = some .regionStart := by
  unfold outKind region2StartIndex
  rw [if_neg (by omega), if_neg (by omega), if_neg (by omega), if_pos (by omega), if_pos (by omega)]

theorem outKind_startPos {q : Nat} (hq : q < 4) : outKind (startPosIndex q) = some .bitPosition := by
  unfold outKind startPosIndex
  rw [if_neg (by omega), if_neg (by omega), if_neg (by omega), if_pos (by omega), if_neg (by omega)]

theorem outKind_endPos {q : Nat} (hq : q < 4) : outKind (endPosIndex q) = some .bitPosition := by
  unfold outKind endPosIndex
  rw [if_neg (by omega), if_neg (by omega), if_neg (by omega), if_pos (by omega), if_neg (by omega)]

/-! ### Scale factors -/

theorem readFactors_grows {w : Window} {lim width : Nat} {S : Nat → Prop} (hw : width ≤ 4) {slots : List Nat}
    (hs : ∀ i ∈ slots, outKind i = some .scaleFactor ∧ S i) {m m' : Record} {pos pos' : Nat} (hm : RecordOk m)
    (h : readFactors w lim width slots m pos = some (m', pos')) :
    Grows lim S m pos m' pos' ∧ pos' = pos + slots.length * width := by
  induction slots generalizing m pos with
  | nil =>
    simp only [readFactors, Option.some.injEq, Prod.mk.injEq] at h
    obtain ⟨rfl, rfl⟩ := h
    exact ⟨Grows.refl hm, by simp⟩
  | cons i slots ih =>
    simp only [readFactors] at h
    split at h
    · cases h
    · rename_i v p hv
      obtain ⟨h1, h2, h3⟩ := takeBits_eq_some.mp hv
      have hlt := memRead_lt w pos width
      have hpow : 2 ^ width ≤ 2 ^ 4 := Nat.pow_le_pow_right (by omega) hw
      have hi := hs i (by simp)
      have hput : Grows lim S m pos (recordPut m i (BitVec.ofNat 16 v)) p := by
        have := grows_put (lim := lim) (pos := pos) (S := S) hm hi.1 (v := BitVec.ofNat 16 v)
          (by simp only [outLimit, BitVec.toNat_ofNat]; omega) hi.2
        exact ⟨this.ok, by omega, fun _ => by omega, this.frame⟩
      obtain ⟨hg, hp⟩ := ih (fun j hj => hs j (by simp [hj])) hput.ok h
      refine ⟨hput.trans hg, ?_⟩
      rw [hp, h3, List.length_cons, Nat.add_mul]
      omega

theorem readFactors_congr {w v : Window} {lim : Nat} (h : SameBits w v) (hl : lim ≤ windowEnd w) (width : Nat)
    (slots : List Nat) (m : Record) (pos : Nat) :
    readFactors w lim width slots m pos = readFactors v lim width slots m pos := by
  induction slots generalizing m pos with
  | nil => rfl
  | cons i slots ih => simp only [readFactors, h.takeBits hl, ih]

theorem longSlots_ok {q lo n : Nat} (hq : q < 4) (hn : lo + n ≤ 22) :
    ∀ i ∈ longSlots q lo n, outKind i = some .scaleFactor ∧ IsFactor q i := by
  intro i hi
  simp only [longSlots, List.mem_map, List.mem_range'_1] at hi
  obtain ⟨b, hb, rfl⟩ := hi
  exact ⟨outKind_factorL hq (by omega), .inl (by unfold scalefacLIndex; omega)⟩

theorem shortSlots_ok {q lo n : Nat} (hq : q < 4) (hn : lo + n ≤ 13) :
    ∀ i ∈ shortSlots q lo n, outKind i = some .scaleFactor ∧ IsFactor q i := by
  intro i hi
  simp only [shortSlots, List.mem_flatMap, List.mem_range'_1] at hi
  obtain ⟨b, hb, hi⟩ := hi
  simp only [List.mem_cons, List.not_mem_nil, or_false] at hi
  rcases hi with rfl | rfl | rfl
  · exact ⟨outKind_factorS hq (by omega) (by omega), .inr (by unfold scalefacSIndex; omega)⟩
  · exact ⟨outKind_factorS hq (by omega) (by omega), .inr (by unfold scalefacSIndex; omega)⟩
  · exact ⟨outKind_factorS hq (by omega) (by omega), .inr (by unfold scalefacSIndex; omega)⟩

/-- A copy of `n` bands: each reads as granule 0's, and nothing else changes. -/
theorem copyFactors_get {q lo n : Nat} (hq : 2 ≤ q) (hq4 : q < 4) (hn : lo + n ≤ 22) {m : Record} (hm : RecordOk m) :
    RecordOk (copyFactors q lo n m) ∧
      (∀ b, lo ≤ b → b < lo + n →
        recordGet (copyFactors q lo n m) (scalefacLIndex q b) = recordGet m (scalefacLIndex (q - 2) b)) ∧
      (∀ k, (∀ b, lo ≤ b → b < lo + n → k ≠ scalefacLIndex q b) →
        recordGet (copyFactors q lo n m) k = recordGet m k) := by
  induction n generalizing lo m with
  | zero => exact ⟨hm, fun b h1 h2 => by omega, fun _ _ => rfl⟩
  | succ n ih =>
    have hstep : copyFactors q lo (n + 1) m =
        copyFactors q (lo + 1) n (recordPut m (scalefacLIndex q lo) (recordGet m (scalefacLIndex (q - 2) lo))) := by
      simp [copyFactors, List.range'_succ]
    have hok : RecordOk (recordPut m (scalefacLIndex q lo) (recordGet m (scalefacLIndex (q - 2) lo))) :=
      recordPut_ok hm (outKind_factorL hq4 (by omega)) (recordGet_lt hm (outKind_factorL (by omega) (by omega)))
    obtain ⟨h1, h2, h3⟩ := ih (lo := lo + 1) (by omega) hok
    rw [hstep]
    refine ⟨h1, ?_, ?_⟩
    · intro b hb1 hb2
      by_cases hb : b = lo
      · subst hb
        rw [h3 _ (fun d hd1 hd2 => by unfold scalefacLIndex; omega), recordGet_put hm.1, if_pos rfl]
      · rw [h2 b (by omega) (by omega), recordGet_put hm.1, if_neg (by unfold scalefacLIndex; omega)]
    · intro k hk
      rw [h3 k (fun d hd1 hd2 => hk d (by omega) (by omega)), recordGet_put hm.1, if_neg (hk lo le_rfl (by omega))]

theorem copyFactors_grows {q lo n lim pos : Nat} (hq : 2 ≤ q) (hq4 : q < 4) (hn : lo + n ≤ 22) {m : Record}
    (hm : RecordOk m) : Grows lim (IsFactor q) m pos (copyFactors q lo n m) pos := by
  obtain ⟨h1, -, h3⟩ := copyFactors_get hq hq4 hn hm
  refine ⟨h1, le_rfl, id, fun k hk => h3 k fun b hb1 hb2 he => hk ?_⟩
  subst he
  exact .inl (by unfold scalefacLIndex; omega)

/-- The elements of bands `lo` to `lo + n - 1` of `scalefac_l[q]`. -/
def IsBand (q lo n k : Nat) : Prop := scalefacLIndex q lo ≤ k ∧ k < scalefacLIndex q lo + n

theorem groupFactors_grows {w : Window} {shared : Bool} {width q lim lo n : Nat} (hw : width ≤ 4) (hq : 2 ≤ q)
    (hq4 : q < 4) (hn : lo + n ≤ 22) {m m' : Record} {pos pos' : Nat} (hm : RecordOk m)
    (h : groupFactors w shared width q lim lo n m pos = some (m', pos')) :
    Grows lim (IsBand q lo n) m pos m' pos' ∧
      (shared = true → pos' = pos ∧ ∀ b, lo ≤ b → b < lo + n →
        recordGet m' (scalefacLIndex q b) = recordGet m (scalefacLIndex (q - 2) b)) ∧
      (shared = false → pos' = pos + n * width) := by
  unfold groupFactors at h
  split at h
  · rename_i hs
    simp only [Option.some.injEq, Prod.mk.injEq] at h
    obtain ⟨rfl, rfl⟩ := h
    obtain ⟨h1, h2, h3⟩ := copyFactors_get hq hq4 hn hm
    refine ⟨⟨h1, le_rfl, id, fun k hk => h3 k fun b hb1 hb2 he => hk ?_⟩, fun _ => ⟨rfl, h2⟩, by simp [hs]⟩
    subst he
    exact ⟨by unfold scalefacLIndex; omega, by unfold scalefacLIndex; omega⟩
  · rename_i hs
    have hslots : ∀ i ∈ longSlots q lo n, outKind i = some .scaleFactor ∧ IsBand q lo n i := by
      intro i hi
      refine ⟨(longSlots_ok hq4 hn i hi).1, ?_⟩
      simp only [longSlots, List.mem_map, List.mem_range'_1] at hi
      obtain ⟨b, hb, rfl⟩ := hi
      exact ⟨by unfold scalefacLIndex; omega, by unfold scalefacLIndex; omega⟩
    obtain ⟨hg, hp⟩ := readFactors_grows hw hslots hm h
    refine ⟨hg, fun he => absurd he hs, fun _ => ?_⟩
    simpa [longSlots] using hp

theorem groupFactors_congr {w v : Window} {lim : Nat} (h : SameBits w v) (hl : lim ≤ windowEnd w) (shared : Bool)
    (width q lo n : Nat) (m : Record) (pos : Nat) :
    groupFactors w shared width q lim lo n m pos = groupFactors v shared width q lim lo n m pos := by
  simp only [groupFactors, readFactors_congr h hl]

theorem isBand_isFactor {q lo n k : Nat} (hn : lo + n ≤ 22) (h : IsBand q lo n k) : IsFactor q k := by
  unfold IsBand scalefacLIndex at h
  exact .inl (by omega)

/-- The group of spec/44_maindata.md R295 that a band of 0 to 20 belongs to. -/
def scfsiGroup (b : Nat) : Nat := if b < 6 then 0 else if b < 11 then 1 else if b < 16 then 2 else 3

theorem sharedFactors_grows {w : Window} {sl : SlenPair} {scfsi : BitVec 4} {q lim : Nat} (h1 : sl.slen1 ≤ 4)
    (h2 : sl.slen2 ≤ 4) (hq : 2 ≤ q) (hq4 : q < 4) {m m' : Record} {pos pos' : Nat} (hm : RecordOk m)
    (h : sharedFactors w sl scfsi q lim m pos = some (m', pos')) :
    Grows lim (IsFactor q) m pos m' pos' ∧
      (∀ b, b < 21 → scfsiBit scfsi (scfsiGroup b) = true →
        recordGet m' (scalefacLIndex q b) = recordGet m (scalefacLIndex (q - 2) b)) := by
  unfold sharedFactors at h
  split at h
  · cases h
  split at h
  · cases h
  split at h
  · cases h
  rename_i m0 p0 e0 _ m1 p1 e1 _ m2 p2 e2
  obtain ⟨g0, c0, -⟩ := groupFactors_grows h1 hq hq4 (by omega) hm e0
  obtain ⟨g1, c1, -⟩ := groupFactors_grows h1 hq hq4 (by omega) g0.ok e1
  obtain ⟨g2, c2, -⟩ := groupFactors_grows h2 hq hq4 (by omega) g1.ok e2
  obtain ⟨g3, c3, -⟩ := groupFactors_grows h2 hq hq4 (by omega) g2.ok h
  refine ⟨(((g0.mono fun k => isBand_isFactor (by omega)).trans (g1.mono fun k => isBand_isFactor (by omega))).trans
    (g2.mono fun k => isBand_isFactor (by omega))).trans (g3.mono fun k => isBand_isFactor (by omega)), ?_⟩
  intro b hb hs
  have out : ∀ lo n, (b < lo ∨ lo + n ≤ b) → ¬ IsBand q lo n (scalefacLIndex q b) := by
    intro lo n hbn hband
    unfold IsBand scalefacLIndex at hband
    omega
  have out' : ∀ lo n, lo + n ≤ 22 → ¬ IsBand q lo n (scalefacLIndex (q - 2) b) := by
    intro lo n hbn hband
    unfold IsBand scalefacLIndex at hband
    omega
  unfold scfsiGroup at hs
  split at hs
  · rw [g3.frame _ (out _ _ (by omega)), g2.frame _ (out _ _ (by omega)), g1.frame _ (out _ _ (by omega))]
    exact (c0 hs).2 b (by omega) (by omega)
  split at hs
  · rw [g3.frame _ (out _ _ (by omega)), g2.frame _ (out _ _ (by omega)), (c1 hs).2 b (by omega) (by omega),
      g0.frame _ (out' _ _ (by omega))]
  split at hs
  · rw [g3.frame _ (out _ _ (by omega)), (c2 hs).2 b (by omega) (by omega), g1.frame _ (out' _ _ (by omega)),
      g0.frame _ (out' _ _ (by omega))]
  · rw [(c3 hs).2 b (by omega) (by omega), g2.frame _ (out' _ _ (by omega)), g1.frame _ (out' _ _ (by omega)),
      g0.frame _ (out' _ _ (by omega))]

theorem longFactors_grows {w : Window} {sl : SlenPair} {q lim : Nat} (h1 : sl.slen1 ≤ 4) (h2 : sl.slen2 ≤ 4)
    (hq4 : q < 4) {m m' : Record} {pos pos' : Nat} (hm : RecordOk m)
    (h : longFactors w sl q lim m pos = some (m', pos')) :
    Grows lim (IsFactor q) m pos m' pos' ∧ pos' = pos + (11 * sl.slen1 + 10 * sl.slen2) := by
  unfold longFactors at h
  split at h
  · cases h
  rename_i m0 p0 e0
  obtain ⟨g0, e0⟩ := readFactors_grows h1 (longSlots_ok hq4 (by omega)) hm e0
  obtain ⟨g1, e1⟩ := readFactors_grows h2 (longSlots_ok hq4 (by omega)) g0.ok h
  refine ⟨g0.trans g1, ?_⟩
  simp only [longSlots, List.length_map, List.length_range'] at e0 e1
  omega

theorem shortSlots_length (q lo n : Nat) : (shortSlots q lo n).length = 3 * n := by
  simp [shortSlots, List.length_flatMap, Nat.mul_comm]

theorem shortFactors_grows {w : Window} {sl : SlenPair} {mixed : Bool} {q lim : Nat} (h1 : sl.slen1 ≤ 4)
    (h2 : sl.slen2 ≤ 4) (hq4 : q < 4) {m m' : Record} {pos pos' : Nat} (hm : RecordOk m)
    (h : shortFactors w sl mixed q lim m pos = some (m', pos')) :
    Grows lim (IsFactor q) m pos m' pos' ∧
      pos' = pos + ((if mixed then 17 else 9) * sl.slen1 + 18 * sl.slen2) := by
  unfold shortFactors at h
  split at h
  · cases h
  split at h
  · cases h
  rename_i m0 p0 e0 _ m1 p1 e1
  have hs0 : ∀ i ∈ (if mixed then longSlots q 0 8 else []), outKind i = some .scaleFactor ∧ IsFactor q i := by
    split
    · exact longSlots_ok hq4 (by omega)
    · simp
  obtain ⟨g0, e0⟩ := readFactors_grows h1 hs0 hm e0
  obtain ⟨g1, e1⟩ := readFactors_grows h1 (shortSlots_ok hq4 (by omega)) g0.ok e1
  obtain ⟨g2, e2⟩ := readFactors_grows h2 (shortSlots_ok hq4 (by omega)) g1.ok h
  refine ⟨(g0.trans g1).trans g2, ?_⟩
  rw [shortSlots_length] at e1 e2
  cases mixed
  · simp at e0 ⊢; omega
  · simp [longSlots] at e0 ⊢; omega

theorem scaleFactors_grows {c : Config} {w : Window} {si : SideInfo} {q : Fin 4} {lim : Nat} {m m' : Record}
    {pos pos' : Nat} (hm : RecordOk m) (h : scaleFactors c.data w si q lim m pos = some (m', pos')) :
    Grows lim (IsFactor q) m pos m' pos' ∧
      (2 ≤ q.val → isShort (si.gc.get q) = false → ∀ b, b < 21 →
        scfsiBit (si.scfsi.get (channelOf q)) (scfsiGroup b) = true →
        recordGet m' (scalefacLIndex q b) = recordGet m (scalefacLIndex (q.val - 2) b)) := by
  have hsl := c.slen_le (si.gc.get q).scalefacCompress.toFin
  have hq := q.isLt
  unfold scaleFactors lookupSlen at h
  split at h
  · rename_i hs
    exact ⟨(shortFactors_grows hsl.1 hsl.2 hq hm h).1, fun _ hn => by simp [hs] at hn⟩
  split at h
  · rename_i hg
    exact ⟨(longFactors_grows hsl.1 hsl.2 hq hm h).1, fun h2 => by unfold granuleOf at hg; omega⟩
  · rename_i hg
    obtain ⟨h1, h2⟩ := sharedFactors_grows hsl.1 hsl.2 (by unfold granuleOf at hg; omega) hq hm h
    exact ⟨h1, fun _ _ => h2⟩

theorem scaleFactors_congr {w v : Window} {lim : Nat} (h : SameBits w v) (hl : lim ≤ windowEnd w) (c : ConfigData)
    (si : SideInfo) (q : Fin 4) (m : Record) (pos : Nat) :
    scaleFactors c w si q lim m pos = scaleFactors c v si q lim m pos := by
  simp only [scaleFactors, shortFactors, longFactors, sharedFactors, readFactors_congr h hl, groupFactors_congr h hl]

/-! ### Regions -/

theorem lookupSfb_mem {c : ConfigData} {hz : Word} {t : Vector Nat 23} (h : lookupSfb c hz = some t) :
    ∃ s ∈ c.sfbLong, s.bounds = t := by
  unfold lookupSfb at h
  rw [Option.map_eq_some_iff] at h
  obtain ⟨s, hs, rfl⟩ := h
  exact ⟨s, List.mem_of_find?_eq_some hs, rfl⟩

theorem bandStart_le {t : SfbTable} (h : t.ok = true) (i : Nat) : bandStart t.bounds i ≤ 576 := by
  unfold bandStart
  split
  · exact SfbTable.ok_le h ‹_›
  · exact le_rfl

theorem bandStart_mono {t : SfbTable} (h : t.ok = true) {i j : Nat} (hij : i ≤ j) :
    bandStart t.bounds i ≤ bandStart t.bounds j := by
  unfold bandStart
  split
  · split
    · exact SfbTable.ok_mono h hij ‹_›
    · exact SfbTable.ok_le h ‹_›
  · rw [dif_neg (by omega)]

/-- `region1_start <= region2_start <= 576` for every kind of granule-channel. -/
theorem regions_ordered {c : Config} {hz : Word} {r : ChannelSideInfo} {r1 r2 : Nat}
    (h : regions (lookupSfb c.data hz) r = some (r1, r2)) : r1 ≤ r2 ∧ r2 ≤ 576 := by
  unfold regions at h
  split at h
  · cases h; omega
  · rw [Option.map_eq_some_iff] at h
    obtain ⟨t, ht, h⟩ := h
    obtain ⟨s, hs, rfl⟩ := lookupSfb_mem ht
    cases h
    exact ⟨bandStart_mono (c.sfb_ok hs) (by omega), bandStart_le (c.sfb_ok hs) _⟩

/-! ### Spectral lines -/

theorem putLine_grows {m : Record} {q i lim pos : Nat} (hm : RecordOk m) (hq : q < 4) (hi : i < 576) (v : Int) :
    Grows lim (IsLine q) m pos (putLine m q i v) pos :=
  grows_put hm (outKind_line hq hi) (BitVec.isLt _) ⟨by unfold flIndex; omega, by unfold flIndex; omega⟩

theorem putLineInside_grows {m : Record} {q i lim pos : Nat} (hm : RecordOk m) (hq : q < 4) (v : Int) :
    Grows lim (IsLine q) m pos (putLineInside m q i v) pos := by
  unfold putLineInside
  split
  · exact putLine_grows hm hq ‹_› v
  · exact Grows.refl hm

/-- Where a spectral loop ends, if it ends without error. -/
def LoopEnd.result : LoopEnd → Option (Record × Nat)
  | .unknownCode => none
  | .stopped m p => some (m, p)
  | .complete m p => some (m, p)

theorem bigValuesLoop_grows {c : Config} {w : Window} {table : Nat → BitVec 5} {q lim : Nat} (hq : q < 4)
    {pairs i : Nat} (heven : i % 2 = 0) {m m' : Record} {pos pos' : Nat} (hm : RecordOk m) (hp : pos ≤ lim)
    (h : (bigValuesLoop c.data w table q lim pairs i m pos).result = some (m', pos')) :
    Grows lim (IsLine q) m pos m' pos' := by
  induction pairs generalizing i m pos with
  | zero =>
    simp only [bigValuesLoop, LoopEnd.result, Option.some.injEq, Prod.mk.injEq] at h
    obtain ⟨rfl, rfl⟩ := h
    exact Grows.refl hm
  | succ pairs ih =>
    simp only [bigValuesLoop] at h
    split at h
    · simp only [LoopEnd.result, Option.some.injEq, Prod.mk.injEq] at h
      obtain ⟨rfl, rfl⟩ := h
      exact Grows.refl hm
    split at h
    · simp only [LoopEnd.result, Option.some.injEq, Prod.mk.injEq] at h
      obtain ⟨rfl, rfl⟩ := h
      exact Grows.refl hm
    rename_i hi
    split at h
    · simp [LoopEnd.result] at h
    · simp only [LoopEnd.result, Option.some.injEq, Prod.mk.injEq] at h
      obtain ⟨rfl, rfl⟩ := h
      exact Grows.refl hm
    · rename_i x y p hx
      have hd := decodePair_ok hx hp
      have g1 : Grows lim (IsLine q) m pos (putLine m q i x) pos := putLine_grows hm hq (by omega) x
      have g2 : Grows lim (IsLine q) (putLine m q i x) pos (putLine (putLine m q i x) q (i + 1) y) pos :=
        putLine_grows g1.ok hq (by omega) y
      have g3 := ih (i := i + 2) (by omega) g2.ok (by omega) h
      exact ⟨g3.ok, by have := g3.forward; omega, fun hl => g3.inside (by omega),
        fun k hk => by rw [g3.frame k hk, g2.frame k hk, g1.frame k hk]⟩

theorem bigValuesLoop_congr {w v : Window} {lim : Nat} (h : SameBits w v) (hl : lim ≤ windowEnd w) (c : ConfigData)
    (table : Nat → BitVec 5) (q pairs i : Nat) (m : Record) (pos : Nat) :
    bigValuesLoop c w table q lim pairs i m pos = bigValuesLoop c v table q lim pairs i m pos := by
  induction pairs generalizing i m pos with
  | zero => rfl
  | succ pairs ih => simp only [bigValuesLoop, decodePair_congr h hl, ih]

theorem count1Loop_grows {c : Config} {w : Window} {t : BitVec 1} {q lim : Nat} (hq : q < 4) {fuel j : Nat}
    {m m' : Record} {pos pos' : Nat} (hm : RecordOk m) (hp : pos ≤ lim)
    (h : (count1Loop c.data w t q lim fuel j m pos).result = some (m', pos')) :
    Grows lim (IsLine q) m pos m' pos' := by
  induction fuel generalizing j m pos with
  | zero =>
    simp only [count1Loop, LoopEnd.result, Option.some.injEq, Prod.mk.injEq] at h
    obtain ⟨rfl, rfl⟩ := h
    exact Grows.refl hm
  | succ fuel ih =>
    simp only [count1Loop] at h
    split at h
    · simp only [LoopEnd.result, Option.some.injEq, Prod.mk.injEq] at h
      obtain ⟨rfl, rfl⟩ := h
      exact Grows.refl hm
    split at h
    · simp only [LoopEnd.result, Option.some.injEq, Prod.mk.injEq] at h
      obtain ⟨rfl, rfl⟩ := h
      exact Grows.refl hm
    split at h
    · simp [LoopEnd.result] at h
    · simp only [LoopEnd.result, Option.some.injEq, Prod.mk.injEq] at h
      obtain ⟨rfl, rfl⟩ := h
      exact Grows.refl hm
    · rename_i v p hx
      have hd := decodeQuad_ok hx hp
      have g0 : Grows lim (IsLine q) m pos (putLineInside m q j v.q0) pos := putLineInside_grows hm hq v.q0
      have g1 := putLineInside_grows (lim := lim) (pos := pos) (i := j + 1) g0.ok hq v.q1
      have g2 := putLineInside_grows (lim := lim) (pos := pos) (i := j + 2) g1.ok hq v.q2
      have g3 := putLineInside_grows (lim := lim) (pos := pos) (i := j + 3) g2.ok hq v.q3
      have g4 := ih (j := j + 4) g3.ok (by omega) h
      have gs := ((g0.trans g1).trans g2).trans g3
      exact ⟨g4.ok, by have := g4.forward; omega, fun hl => g4.inside (by omega),
        fun k hk => by rw [g4.frame k hk, gs.frame k hk]⟩

theorem count1Loop_congr {w v : Window} {lim : Nat} (h : SameBits w v) (hl : lim ≤ windowEnd w) (c : ConfigData)
    (t : BitVec 1) (q fuel j : Nat) (m : Record) (pos : Nat) :
    count1Loop c w t q lim fuel j m pos = count1Loop c v t q lim fuel j m pos := by
  induction fuel generalizing j m pos with
  | zero => rfl
  | succ fuel ih => simp only [count1Loop, decodeQuad_congr h hl, ih]

theorem spectral_grows {c : Config} {w : Window} {r : ChannelSideInfo} {r1 r2 q lim : Nat} (hq : q < 4)
    {m m' : Record} {pos pos' : Nat} (hm : RecordOk m) (hp : pos ≤ lim)
    (h : spectral c.data w r r1 r2 q lim m pos = some (m', pos')) : Grows lim (IsLine q) m pos m' pos' := by
  unfold spectral at h
  split at h
  · cases h
  · rename_i m1 p1 he
    cases h
    exact bigValuesLoop_grows hq (i := 0) rfl hm hp (by rw [he]; rfl)
  · rename_i m1 p1 he
    have g1 := bigValuesLoop_grows (m' := m1) (pos' := p1) hq (i := 0) rfl hm hp (by rw [he]; rfl)
    split at h
    · cases h
    · rename_i m2 p2 he2
      cases h
      exact g1.trans (count1Loop_grows hq g1.ok (g1.inside hp) (by rw [he2]; rfl))
    · rename_i m2 p2 he2
      cases h
      exact g1.trans (count1Loop_grows hq g1.ok (g1.inside hp) (by rw [he2]; rfl))

theorem spectral_congr {w v : Window} {lim : Nat} (h : SameBits w v) (hl : lim ≤ windowEnd w) (c : ConfigData)
    (r : ChannelSideInfo) (r1 r2 q : Nat) (m : Record) (pos : Nat) :
    spectral c w r r1 r2 q lim m pos = spectral c v r r1 r2 q lim m pos := by
  simp only [spectral, bigValuesLoop_congr h hl, count1Loop_congr h hl]

/-! ### A granule-channel and a frame -/

theorem granuleLimit_le (mode : LimitMode) (r : ChannelSideInfo) (e pos : Nat) : granuleLimit mode r e pos ≤ e := by
  cases mode <;> simp [granuleLimit]

theorem le_granuleLimit {mode : LimitMode} {r : ChannelSideInfo} {e pos : Nat} (h : pos ≤ e) :
    pos ≤ granuleLimit mode r e pos := by
  cases mode <;> simp [granuleLimit, h]

/-- Everything a granule-channel that ends without error does. -/
structure GranuleDone (c : Config) (w : Window) (hz : Word) (si : SideInfo) (q : Fin 4) (m : Record) (pos : Nat)
    (m' : Record) (pos' : Nat) : Prop where
  grows : Grows (windowEnd w) (OfGranule q) m pos m' pos'
  startPos : recordGet m' (startPosIndex q) = cursor pos
  endPos : recordGet m' (endPosIndex q) = cursor pos'
  regions : ∃ r1 r2, regions (lookupSfb c.data hz) (si.gc.get q) = some (r1, r2) ∧
    recordGet m' (region1StartIndex q) = BitVec.ofNat 16 r1 ∧ recordGet m' (region2StartIndex q) = BitVec.ofNat 16 r2
  shared : 2 ≤ q.val → isShort (si.gc.get q) = false → ∀ b, b < 21 →
    scfsiBit (si.scfsi.get (channelOf q)) (scfsiGroup b) = true →
    recordGet m' (scalefacLIndex q b) = recordGet m' (scalefacLIndex (q.val - 2) b)

theorem decodeGranule_done {c : Config} {w : Window} {hz : Word} {si : SideInfo} {q : Fin 4} {m m' : Record}
    {pos pos' : Nat} (hm : RecordOk m) (hp : pos ≤ windowEnd w)
    (h : decodeGranule c.data w (lookupSfb c.data hz) si q m pos = .ok (m', pos')) :
    GranuleDone c w hz si q m pos m' pos' := by
  have hq := q.isLt
  unfold decodeGranule at h
  dsimp only at h
  generalize hlim : granuleLimit c.data.limitMode (si.gc.get q) (windowEnd w) pos = lim at h
  have hll : lim ≤ windowEnd w := hlim ▸ granuleLimit_le _ _ _ _
  have hpl : pos ≤ lim := hlim ▸ le_granuleLimit hp
  split at h
  · cases h
  rename_i m1 p1 hsf
  split at h
  · cases h
  rename_i r1 r2 hr
  split at h
  · cases h
  rename_i m2 p2 hsp
  cases h
  have gs : Grows lim (IsBook q) m pos (recordPut m (startPosIndex q) (cursor pos)) pos :=
    grows_put hm (outKind_startPos hq) (BitVec.isLt _) ⟨by unfold startPosIndex; omega, by unfold startPosIndex; omega⟩
  obtain ⟨gf, hshare⟩ := scaleFactors_grows gs.ok hsf
  have hord := regions_ordered hr
  have gr1 : Grows lim (IsBook q) m1 p1 (recordPut m1 (region1StartIndex q) (BitVec.ofNat 16 r1)) p1 :=
    grows_put gf.ok (outKind_region1 hq) (by simp only [outLimit, BitVec.toNat_ofNat]; omega)
      ⟨by unfold region1StartIndex; omega, by unfold region1StartIndex; omega⟩
  have gr2 := grows_put (lim := lim) (S := IsBook q) (pos := p1) gr1.ok (outKind_region2 hq) (v := BitVec.ofNat 16 r2)
    (by simp only [outLimit, BitVec.toNat_ofNat]; omega)
    ⟨by unfold region2StartIndex; omega, by unfold region2StartIndex; omega⟩
  have hp1 : p1 ≤ lim := gf.inside hpl
  have gl := spectral_grows hq gr2.ok hp1 hsp
  have hp2 : p2 ≤ lim := gl.inside hp1
  generalize hend : granuleEnd c.data.limitMode lim p2 = pe
  have hpe : p2 ≤ pe ∧ pe ≤ lim := by
    subst hend
    cases c.data.limitMode <;> simp [granuleEnd, hp2]
  have ge : Grows lim (IsBook q) m2 p2 (recordPut m2 (endPosIndex q) (cursor pe)) pe := by
    have := grows_put (lim := lim) (S := IsBook q) (pos := p2) gl.ok (outKind_endPos hq) (v := cursor pe) (BitVec.isLt _)
      ⟨by unfold endPosIndex; omega, by unfold endPosIndex; omega⟩
    exact ⟨this.ok, hpe.1, fun _ => hpe.2, this.frame⟩
  have hbook : ∀ k, IsBook q k → OfGranule q k := fun k h => .inr (.inr h)
  have hfac : ∀ k, IsFactor q k → OfGranule q k := fun k h => .inr (.inl h)
  have hline : ∀ k, IsLine q k → OfGranule q k := fun k h => .inl h
  have gall := (((((gs.mono hbook).trans (gf.mono hfac)).trans (gr1.mono hbook)).trans (gr2.mono hbook)).trans
    (gl.mono hline)).trans (ge.mono hbook)
  have notFac : ∀ k, IsBook q k → ¬ IsFactor q k := by
    intro k hk hf; unfold IsBook at hk; unfold IsFactor at hf; omega
  have notLine : ∀ k, IsBook q k → ¬ IsLine q k := by
    intro k hk hf; unfold IsBook at hk; unfold IsLine at hf; omega
  have bs : IsBook q (startPosIndex q) := ⟨by unfold startPosIndex; omega, by unfold startPosIndex; omega⟩
  have b1 : IsBook q (region1StartIndex q) := ⟨by unfold region1StartIndex; omega, by unfold region1StartIndex; omega⟩
  have b2 : IsBook q (region2StartIndex q) := ⟨by unfold region2StartIndex; omega, by unfold region2StartIndex; omega⟩
  refine ⟨⟨gall.ok, gall.forward, fun _ => by omega, gall.frame⟩, ?_, ?_, ?_, ?_⟩
  · rw [recordGet_put gl.ok.1, if_neg (by unfold startPosIndex endPosIndex; omega), gl.frame _ (notLine _ bs),
      recordGet_put gr1.ok.1, if_neg (by unfold startPosIndex region2StartIndex; omega), recordGet_put gf.ok.1,
      if_neg (by unfold startPosIndex region1StartIndex; omega), gf.frame _ (notFac _ bs), recordGet_put hm.1,
      if_pos rfl]
  · rw [recordGet_put gl.ok.1, if_pos rfl]
  · refine ⟨r1, r2, hr, ?_, ?_⟩
    · rw [recordGet_put gl.ok.1, if_neg (by unfold region1StartIndex endPosIndex; omega), gl.frame _ (notLine _ b1),
        recordGet_put gr1.ok.1, if_neg (by unfold region1StartIndex region2StartIndex; omega), recordGet_put gf.ok.1,
        if_pos rfl]
    · rw [recordGet_put gl.ok.1, if_neg (by unfold region2StartIndex endPosIndex; omega), gl.frame _ (notLine _ b2),
        recordGet_put gr1.ok.1, if_pos rfl]
  · intro h2 hns b hb hbit
    have later : ∀ d, d < 4 → recordGet (recordPut m2 (endPosIndex q) (cursor pe)) (scalefacLIndex d b) =
        recordGet m1 (scalefacLIndex d b) := by
      intro d hd
      rw [recordGet_put gl.ok.1, if_neg (by unfold scalefacLIndex endPosIndex; omega),
        gl.frame _ (by unfold IsLine scalefacLIndex; omega), recordGet_put gr1.ok.1,
        if_neg (by unfold scalefacLIndex region2StartIndex; omega), recordGet_put gf.ok.1,
        if_neg (by unfold scalefacLIndex region1StartIndex; omega)]
    rw [later q hq, later (q.val - 2) (by omega), hshare h2 hns b hb hbit,
      gf.frame (scalefacLIndex (q.val - 2) b) (by unfold IsFactor scalefacLIndex; omega)]

theorem decodeGranule_congr {w v : Window} (h : SameBits w v) (c : ConfigData) (t : Option (Vector Nat 23))
    (si : SideInfo) (q : Fin 4) (m : Record) (pos : Nat) :
    decodeGranule c w t si q m pos = decodeGranule c v t si q m pos := by
  have hl := granuleLimit_le c.limitMode (si.gc.get q) (windowEnd w) pos
  simp only [decodeGranule, ← h.ends, scaleFactors_congr h hl, spectral_congr h hl]

theorem decodeGranules_congr {w v : Window} (h : SameBits w v) (c : ConfigData) (t : Option (Vector Nat 23))
    (si : SideInfo) (qs : List (Fin 4)) (m : Record) (pos : Nat) :
    decodeGranules c w t si qs m pos = decodeGranules c v t si qs m pos := by
  induction qs generalizing m pos with
  | nil => rfl
  | cons q qs ih => simp only [decodeGranules, decodeGranule_congr h, ih]

/-- Decoding a list of granule-channels is decoding the first and then the rest. -/
theorem decodeGranules_cons {c : ConfigData} {w : Window} {t : Option (Vector Nat 23)} {si : SideInfo} {q : Fin 4}
    {qs : List (Fin 4)} {m m' : Record} {pos pos' : Nat}
    (h : decodeGranules c w t si (q :: qs) m pos = .ok (m', pos')) :
    ∃ m1 p1, decodeGranule c w t si q m pos = .ok (m1, p1) ∧ decodeGranules c w t si qs m1 p1 = .ok (m', pos') := by
  simp only [decodeGranules] at h
  split at h
  · cases h
  · exact ⟨_, _, ‹_›, h⟩

theorem decodeGranules_grows {c : Config} {w : Window} {hz : Word} {si : SideInfo} {qs : List (Fin 4)}
    {m m' : Record} {pos pos' : Nat} (hm : RecordOk m) (hp : pos ≤ windowEnd w)
    (h : decodeGranules c.data w (lookupSfb c.data hz) si qs m pos = .ok (m', pos')) :
    Grows (windowEnd w) (fun k => ∃ q ∈ qs, OfGranule q.val k) m pos m' pos' := by
  induction qs generalizing m pos with
  | nil =>
    simp only [decodeGranules, Except.ok.injEq, Prod.mk.injEq] at h
    obtain ⟨rfl, rfl⟩ := h
    exact Grows.refl hm
  | cons q qs ih =>
    obtain ⟨m1, p1, h1, h2⟩ := decodeGranules_cons h
    have g1 := (decodeGranule_done hm hp h1).grows
    have g2 := ih g1.ok (g1.inside hp) h2
    exact (g1.mono fun k hk => ⟨q, by simp, hk⟩).trans
      (g2.mono fun k ⟨r, hr, hk⟩ => ⟨r, by simp [hr], hk⟩)

theorem recordGet_nil (k : Nat) : recordGet [] k = 0 := rfl

/-- A frame decoded without error is a canonical record, and the cursor stays inside the window. -/
theorem decodeFrame_grows {c : Config} {w : Window} {hdr : Header} {si : SideInfo} {pos pos' : Nat} {m : Record}
    (hp : pos ≤ windowEnd w) (h : decodeFrame c.data w hdr si pos = .ok (m, pos')) :
    Grows (windowEnd w) (fun k => ∃ q ∈ frameOrder (isMono hdr), OfGranule q.val k) [] pos m pos' :=
  decodeGranules_grows recordOk_nil hp h

theorem decodeFrame_congr {w v : Window} (h : SameBits w v) (c : ConfigData) (hdr : Header) (si : SideInfo) (pos : Nat) :
    decodeFrame c w hdr si pos = decodeFrame c v hdr si pos := decodeGranules_congr h _ _ _ _ _ _

/-! ### The errors a frame can end in -/

/-- The stream errors of spec/44_maindata.md R290, and the band-table error that the precheck rules out. -/
theorem decodeGranule_error {c : ConfigData} {w : Window} {t : Option (Vector Nat 23)} {si : SideInfo} {q : Fin 4}
    {m : Record} {pos : Nat} {e : CmdError} (h : decodeGranule c w t si q m pos = .error e) :
    e = ⟨.exhausted, 0x10 ||| BitVec.ofNat 8 q.val⟩ ∨ e = ⟨.unknownCode, 0x14 ||| BitVec.ofNat 8 q.val⟩ ∨
      (e = ⟨.config, 1⟩ ∧ isShort (si.gc.get q) = false ∧ t = none) := by
  unfold decodeGranule at h
  dsimp only at h
  split at h
  · cases h; exact .inl rfl
  split at h
  · rename_i hr
    cases h
    refine .inr (.inr ⟨rfl, ?_⟩)
    unfold regions at hr
    split at hr
    · cases hr
    · exact ⟨Bool.eq_false_iff.mpr (by assumption), by simpa using hr⟩
  split at h
  · cases h; exact .inr (.inl rfl)
  · cases h

theorem decodeGranules_error {c : ConfigData} {w : Window} {t : Option (Vector Nat 23)} {si : SideInfo}
    {qs : List (Fin 4)} {m : Record} {pos : Nat} {e : CmdError} (h : decodeGranules c w t si qs m pos = .error e) :
    ∃ q ∈ qs, e = ⟨.exhausted, 0x10 ||| BitVec.ofNat 8 q.val⟩ ∨ e = ⟨.unknownCode, 0x14 ||| BitVec.ofNat 8 q.val⟩ ∨
      (e = ⟨.config, 1⟩ ∧ isShort (si.gc.get q) = false ∧ t = none) := by
  induction qs generalizing m pos with
  | nil => simp [decodeGranules] at h
  | cons q qs ih =>
    simp only [decodeGranules] at h
    split at h
    · rename_i e' he
      cases h
      exact ⟨q, by simp, decodeGranule_error he⟩
    · obtain ⟨r, hr, hx⟩ := ih h
      exact ⟨r, by simp [hr], hx⟩

/-- After the precheck of spec/44_maindata.md R309 a frame's only errors are stream errors. -/
theorem decodeFrame_error {c : ConfigData} {w : Window} {hdr : Header} {si : SideInfo} {pos : Nat} {e : CmdError}
    (hb : bandTableMissing c hdr si = false) (h : decodeFrame c w hdr si pos = .error e) :
    ∃ q ∈ frameOrder (isMono hdr), e = ⟨.exhausted, 0x10 ||| BitVec.ofNat 8 q.val⟩ ∨
      e = ⟨.unknownCode, 0x14 ||| BitVec.ofNat 8 q.val⟩ := by
  obtain ⟨q, hq, h1 | h1 | ⟨h1, h2, h3⟩⟩ := decodeGranules_error h
  · exact ⟨q, hq, .inl h1⟩
  · exact ⟨q, hq, .inr h1⟩
  · exfalso
    unfold bandTableMissing at hb
    rw [h3] at hb
    have : (frameOrder (isMono hdr)).any (fun q => !isShort (si.gc.get q)) = true :=
      List.any_eq_true.mpr ⟨q, hq, by simp [h2]⟩
    simp [this] at hb

end Sys2Proof.Machine
end

