-- ==== Sys2Proof/Laws/Commands.lean ====
section
/-! SUPPORT. Everything each command can do, once: the next state of every way it can end. -/

namespace Sys2Proof.Machine

theorem nop_eq (s : State) : exec .nop s = .next s.finish := rfl

theorem srst_eq (s : State) : exec .srst s = .next s.resetRegisters.finish := rfl

theorem brOpen_cases (s : State) :
    (exec .brOpen s = .next (latchWindow s (openPair s).1 (openPair s).2).finish ∧
      (openPair s).1.toNat + (openPair s).2.toNat ≤ s.cfg.data.ibufBytes) ∨
    (exec .brOpen s = .next (s.fail ⟨.range, 1⟩) ∧
      s.cfg.data.ibufBytes < (openPair s).1.toNat + (openPair s).2.toNat) := by
  simp only [exec, execBrOpen, done, raised]
  split
  · exact .inr ⟨rfl, ‹_›⟩
  · exact .inl ⟨rfl, by omega⟩

theorem brRead_cases (n : BitVec 6) (s : State) :
    (n.toNat ≤ 32 ∧ s.pos.toNat + n.toNat ≤ windowEnd s.window ∧
      exec (.brRead n) s = .next (State.finish
        { s with
          res := { s.res with q0 := BitVec.ofNat 32 (memRead s.window s.pos.toNat n.toNat) }
          pos := cursor (s.pos.toNat + n.toNat) })) ∨
    (n.toNat ≤ 32 ∧ windowEnd s.window < s.pos.toNat + n.toNat ∧
      exec (.brRead n) s = .next (s.fail ⟨.exhausted, 0⟩)) ∨
    (32 < n.toNat ∧ exec (.brRead n) s = .next (s.fail ⟨.illegalCmd, 3⟩)) := by
  simp only [exec, execBrRead, done, raised, countLegal, bitCount]
  by_cases h : n.toNat ≤ 32
  · by_cases h2 : s.pos.toNat + n.toNat ≤ windowEnd s.window
    · rw [takeBits_of_le h2]
      exact .inl ⟨h, h2, by simp [h]⟩
    · rw [takeBits_eq_none.mpr (by omega)]
      exact .inr (.inl ⟨h, by omega, by simp [h]⟩)
  · exact .inr (.inr ⟨by omega, by simp [h]⟩)

theorem brPeek_cases (n : BitVec 6) (s : State) :
    (n.toNat ≤ 32 ∧ s.pos.toNat + n.toNat ≤ windowEnd s.window ∧
      exec (.brPeek n) s = .next (State.finish
        { s with res := { s.res with q0 := BitVec.ofNat 32 (memRead s.window s.pos.toNat n.toNat), q1 := 1 } })) ∨
    (n.toNat ≤ 32 ∧ windowEnd s.window < s.pos.toNat + n.toNat ∧
      exec (.brPeek n) s = .next (State.finish { s with res := { s.res with q0 := 0, q1 := 0 } })) ∨
    (32 < n.toNat ∧ exec (.brPeek n) s = .next (s.fail ⟨.illegalCmd, 3⟩)) := by
  simp only [exec, execBrPeek, done, raised, countLegal, bitCount]
  by_cases h : n.toNat ≤ 32
  · by_cases h2 : s.pos.toNat + n.toNat ≤ windowEnd s.window
    · rw [takeBits_of_le h2]
      exact .inl ⟨h, h2, by simp [h]⟩
    · rw [takeBits_eq_none.mpr (by omega)]
      exact .inr (.inl ⟨h, by omega, by simp [h]⟩)
  · exact .inr (.inr ⟨by omega, by simp [h]⟩)

theorem brSeek_cases (off : BitVec 16) (s : State) :
    (off.toNat ≤ windowEnd s.window ∧ exec (.brSeek off) s = .next (State.finish { s with pos := off })) ∨
    (windowEnd s.window < off.toNat ∧ exec (.brSeek off) s = .next (s.fail ⟨.range, 2⟩)) := by
  simp only [exec, execBrSeek, done, raised, seekTarget]
  by_cases h : off.toNat > windowEnd s.window
  · exact .inr ⟨h, by simp [h]⟩
  · exact .inl ⟨by omega, by simp [h, cursor]⟩

theorem hdrDecode_cases (s : State) :
    (windowEnd s.window < s.pos.toNat + 32 ∧
      exec .hdrDecode s = .next ((invalidateFromHdr s).fail ⟨.exhausted, 0⟩)) ∨
    (s.pos.toNat + 32 ≤ windowEnd s.window ∧
      ((∃ e, decodeHeader s.cfg.data (BitVec.ofNat 32 (memRead s.window s.pos.toNat 32)) = .error e ∧
          exec .hdrDecode s = .next ((invalidateFromHdr s).fail e)) ∨
       (∃ h, decodeHeader s.cfg.data (BitVec.ofNat 32 (memRead s.window s.pos.toNat 32)) = .ok h ∧
          exec .hdrDecode s = .next (State.finish
            { s with
              hdr := h, hdrValid := true, siValid := false, mdValid := false
              pos := cursor (s.pos.toNat + 32) })))) := by
  simp only [exec, execHdrDecode, done, raised]
  by_cases h : s.pos.toNat + 32 ≤ windowEnd s.window
  · rw [takeBits_of_le h]
    refine .inr ⟨h, ?_⟩
    cases hd : decodeHeader s.cfg.data (BitVec.ofNat 32 (memRead s.window s.pos.toNat 32)) with
    | error e => exact .inl ⟨e, rfl, by simp [hd]⟩
    | ok v => exact .inr ⟨v, rfl, by simp [hd]⟩
  · rw [takeBits_eq_none.mpr (by omega)]
    exact .inl ⟨by omega, rfl⟩

/-- No configuration gives the reserved layer or bitrate code 0 or 15 a bitrate. -/
theorem lookupBitrate_reserved (c : Config) {layer : BitVec 2} {code : BitVec 4}
    (h : layer = 0 ∨ code = 0 ∨ code = 15) : lookupBitrate c.data layer code = none := by
  refine c.bitrate_reserved ?_
  revert layer code
  decide

/-- No configuration gives the reserved version or frequency code 3 a frequency. -/
theorem lookupFreq_reserved (c : Config) {version code : BitVec 2} (h : version = 1 ∨ code = 3) :
    lookupFreq c.data version code = none := by
  refine c.freq_reserved ?_
  revert version code
  decide

/-- The only errors of a header word. -/
theorem decodeHeader_error {c : ConfigData} {h : Word} {e : CmdError} (he : decodeHeader c h = .error e) :
    e = ⟨.invalidFieldEncoding, 1⟩ ∨ e = ⟨.invalidFieldEncoding, 2⟩ := by
  unfold decodeHeader at he
  split at he
  · cases he; exact .inl rfl
  · split at he
    · cases he; exact .inr rfl
    · cases he

/-- What a decoded header is. -/
theorem decodeHeader_ok {c : ConfigData} {h : Word} {x : Header} (hx : decodeHeader c h = .ok x) :
    ∃ br fr, lookupBitrate c (hdrLayer h) (hdrBitrateCode h) = some br ∧
      lookupFreq c (hdrVersion h) (hdrFreqCode h) = some fr ∧ x = deriveHeader c h br fr := by
  unfold decodeHeader at hx
  split at hx
  · cases hx
  · split at hx
    · cases hx
    · cases hx; exact ⟨_, _, ‹_›, ‹_›, rfl⟩

theorem siDecode_cases (s : State) :
    (s.hdrValid = false ∧ exec .siDecode s = .next (s.fail ⟨.sequence, 1⟩)) ∨
    (s.hdrValid = true ∧ windowEnd s.window < s.pos.toNat + sideInfoBits (isMono s.hdr) ∧
      exec .siDecode s = .next ((invalidateFromSi s).fail ⟨.exhausted, 0⟩)) ∨
    (s.hdrValid = true ∧ s.pos.toNat + sideInfoBits (isMono s.hdr) ≤ windowEnd s.window ∧
      exec .siDecode s = .next (State.finish
        { s with
          si := readSideInfo s.window (isMono s.hdr) s.pos.toNat
          siValid := true
          mdValid := false
          pos := cursor (s.pos.toNat + sideInfoBits (isMono s.hdr)) })) := by
  simp only [exec, execSiDecode, done, raised]
  cases s.hdrValid with
  | false => exact .inl ⟨rfl, by simp⟩
  | true =>
    by_cases h : s.pos.toNat + sideInfoBits (isMono s.hdr) > windowEnd s.window
    · exact .inr (.inl ⟨rfl, h, by simp [h]⟩)
    · exact .inr (.inr ⟨rfl, by omega, by simp [h]⟩)

theorem huffPair_cases (t : BitVec 5) (s : State) :
    (decodePair s.cfg.data s.window t (windowEnd s.window) s.pos.toNat = .unknownCode ∧
      exec (.huffPair t) s = .next (s.fail ⟨.unknownCode, 0⟩)) ∨
    (decodePair s.cfg.data s.window t (windowEnd s.window) s.pos.toNat = .exhausted ∧
      exec (.huffPair t) s = .next (s.fail ⟨.exhausted, 0⟩)) ∨
    (∃ x y p, decodePair s.cfg.data s.window t (windowEnd s.window) s.pos.toNat = .ok (x, y) p ∧
      exec (.huffPair t) s = .next (State.finish
        { s with
          res := ⟨signedWord x, signedWord y, BitVec.ofNat 32 (p - s.pos.toNat), 0⟩
          pos := cursor p })) := by
  simp only [exec, execHuffPair, done, raised]
  cases h : decodePair s.cfg.data s.window t (windowEnd s.window) s.pos.toNat with
  | unknownCode => exact .inl ⟨rfl, rfl⟩
  | exhausted => exact .inr (.inl ⟨rfl, rfl⟩)
  | ok xy p => exact .inr (.inr ⟨xy.1, xy.2, p, rfl, rfl⟩)

theorem huffQuad_cases (t : BitVec 1) (s : State) :
    (decodeQuad s.cfg.data s.window t (windowEnd s.window) s.pos.toNat = .unknownCode ∧
      exec (.huffQuad t) s = .next (s.fail ⟨.unknownCode, 0⟩)) ∨
    (decodeQuad s.cfg.data s.window t (windowEnd s.window) s.pos.toNat = .exhausted ∧
      exec (.huffQuad t) s = .next (s.fail ⟨.exhausted, 0⟩)) ∨
    (∃ v p, decodeQuad s.cfg.data s.window t (windowEnd s.window) s.pos.toNat = .ok v p ∧
      exec (.huffQuad t) s = .next (State.finish
        { s with
          res := ⟨signedWord v.q0, signedWord v.q1, signedWord v.q2, signedWord v.q3⟩
          pos := cursor p })) := by
  simp only [exec, execHuffQuad, done, raised]
  cases h : decodeQuad s.cfg.data s.window t (windowEnd s.window) s.pos.toNat with
  | unknownCode => exact .inl ⟨rfl, rfl⟩
  | exhausted => exact .inr (.inl ⟨rfl, rfl⟩)
  | ok v p => exact .inr (.inr ⟨v, p, rfl, rfl⟩)

theorem mdDecode_cases (s : State) :
    (s.hdrValid = false ∧ exec .mdDecode s = .next (s.fail ⟨.sequence, 1⟩)) ∨
    (s.hdrValid = true ∧ s.siValid = false ∧ exec .mdDecode s = .next (s.fail ⟨.sequence, 2⟩)) ∨
    (s.hdrValid = true ∧ s.siValid = true ∧
      ((bandTableMissing s.cfg.data s.hdr s.si = true ∧
          exec .mdDecode s = .next ((invalidateMd s).fail ⟨.config, 1⟩)) ∨
       (bandTableMissing s.cfg.data s.hdr s.si = false ∧
         ((∃ e, decodeFrame s.cfg.data s.window s.hdr s.si s.pos.toNat = .error e ∧
             exec .mdDecode s = .next ((invalidateMd s).scrambleOut.fail e)) ∨
          (∃ m p, decodeFrame s.cfg.data s.window s.hdr s.si s.pos.toNat = .ok (m, p) ∧
             exec .mdDecode s = .next (State.finish
               { s with md := .record m, mdValid := true, pos := cursor p })))))) := by
  simp only [exec, execMdDecode, done, raised]
  cases s.hdrValid with
  | false => exact .inl ⟨rfl, by simp⟩
  | true =>
    cases s.siValid with
    | false => exact .inr (.inl ⟨rfl, rfl, by simp⟩)
    | true =>
      refine .inr (.inr ⟨rfl, rfl, ?_⟩)
      cases hb : bandTableMissing s.cfg.data s.hdr s.si with
      | true => exact .inl ⟨rfl, by simp⟩
      | false =>
        refine .inr ⟨rfl, ?_⟩
        cases hd : decodeFrame s.cfg.data s.window s.hdr s.si s.pos.toNat with
        | error e => exact .inl ⟨e, rfl, by simp⟩
        | ok mp => exact .inr ⟨mp.1, mp.2, rfl, by simp⟩

/-- Every command answers a next state: none stops the block. -/
theorem exec_next (i : Instr) (s : State) : ∃ t, exec i s = .next t := by
  cases i with
  | nop => exact ⟨_, rfl⟩
  | srst => exact ⟨_, rfl⟩
  | brOpen => obtain ⟨h, -⟩ | ⟨h, -⟩ := brOpen_cases s <;> exact ⟨_, h⟩
  | brRead n => obtain ⟨-, -, h⟩ | ⟨-, -, h⟩ | ⟨-, h⟩ := brRead_cases n s <;> exact ⟨_, h⟩
  | brPeek n => obtain ⟨-, -, h⟩ | ⟨-, -, h⟩ | ⟨-, h⟩ := brPeek_cases n s <;> exact ⟨_, h⟩
  | brSeek off => obtain ⟨-, h⟩ | ⟨-, h⟩ := brSeek_cases off s <;> exact ⟨_, h⟩
  | hdrDecode => obtain ⟨-, h⟩ | ⟨-, ⟨_, -, h⟩ | ⟨_, -, h⟩⟩ := hdrDecode_cases s <;> exact ⟨_, h⟩
  | siDecode => obtain ⟨-, h⟩ | ⟨-, -, h⟩ | ⟨-, -, h⟩ := siDecode_cases s <;> exact ⟨_, h⟩
  | huffPair t => obtain ⟨-, h⟩ | ⟨-, h⟩ | ⟨_, _, _, -, h⟩ := huffPair_cases t s <;> exact ⟨_, h⟩
  | huffQuad t => obtain ⟨-, h⟩ | ⟨-, h⟩ | ⟨_, _, -, h⟩ := huffQuad_cases t s <;> exact ⟨_, h⟩
  | mdDecode =>
    obtain ⟨-, h⟩ | ⟨-, -, h⟩ | ⟨-, -, ⟨-, h⟩ | ⟨-, ⟨_, -, h⟩ | ⟨_, _, -, h⟩⟩⟩ := mdDecode_cases s <;> exact ⟨_, h⟩

end Sys2Proof.Machine
end

