-- ==== Sys2Proof/Laws/BitStrings.lean ====
section
/-! SUPPORT. The bit strings the statements are written in, read by the model: a window that holds a string, a codebook
matched on it, and its extension bits. -/

namespace Sys2Proof.Spec

open Sys2Proof.Machine

@[simp] theorem finish_eq_endOk (s : State) : s.finish = endOk s := rfl

theorem fail_eq_endError (s : State) (k : ErrorKind) (d : BitVec 8) : s.fail ⟨k, d⟩ = endError s (errorCode k) d := by
  cases k <;> rfl

theorem windowEnd_eq_bitsInWindow (s : State) : windowEnd s.window = bitsInWindow s := rfl

/-! ### A window that holds a bit string -/

theorem bitsAt_append {w : Window} {p : Nat} {a b : List Bool} :
    BitsAt w p (a ++ b) ↔ BitsAt w p a ∧ BitsAt w (p + a.length) b := by
  unfold BitsAt
  constructor
  · intro h
    refine ⟨fun j hj => ?_, fun j hj => ?_⟩
    · have := h j (by simp; omega); rwa [List.getElem_append_left hj] at this
    · have := h (a.length + j) (by simp; omega)
      rw [List.getElem_append_right (by omega)] at this
      simpa [Nat.add_assoc] using this
  · rintro ⟨h1, h2⟩ j hj
    by_cases h : j < a.length
    · rw [List.getElem_append_left h]; exact h1 j h
    · rw [List.getElem_append_right (by omega)]
      have := h2 (j - a.length) (by simp at hj; omega)
      rwa [show p + a.length + (j - a.length) = p + j by omega] at this

theorem bitsAt_nil (w : Window) (p : Nat) : BitsAt w p [] := fun j h => absurd h (by simp)

theorem bitsAt_cons {w : Window} {p : Nat} {b : Bool} {l : List Bool} :
    BitsAt w p (b :: l) ↔ winBit w p = b.toNat ∧ BitsAt w (p + 1) l := by
  rw [show b :: l = [b] ++ l from rfl, bitsAt_append]
  simp [BitsAt]

/-- Bits read one after another onto a number. -/
theorem memRead_code {w : Window} {p : Nat} {l : List Bool} (h : BitsAt w p l) (acc : Nat) : 
   l.foldl (fun v b => 2 * v + b.toNat) acc = acc * 2 ^ l.length + memRead w p l.length := by
  induction l using List.reverseRecOn generalizing acc with
  | nil => simp [memRead]
  | append_singleton l b ih =>
    obtain ⟨h1, h2⟩ := bitsAt_append.mp h
    have := (bitsAt_cons.mp h2).1
    rw [List.foldl_append, ih h1]
    simp only [List.foldl_cons, List.foldl_nil, List.length_append, List.length_singleton, memRead, this,
        Nat.pow_succ]
    ring

/-- The bits of a string, read as a number. -/
theorem memRead_codeValue {w : Window} {p : Nat} {l : List Bool} (h : BitsAt w p l) :
    memRead w p l.length = codeValue l := by
  have := memRead_code h 0
  simpa [codeValue] using this.symm

theorem bitString_length (n v : Nat) : (bitString n v).length = n := by
  induction n with
  | zero => rfl
  | succ n ih => simp [bitString, ih]

theorem codeValue_bitString (n v acc : Nat) : (bitString n v).foldl (fun v b => 2 * v + b.toNat) acc = acc * 2 ^ n +
    v % 2 ^ n := by
  induction n generalizing acc with
  | zero => simp [bitString, Nat.mod_one]
  | succ n ih =>
    simp only [bitString, List.foldl_cons, ih]
    have : v % 2 ^ (n+1) = v % 2 ^ n + 2 ^ n * (v.testBit n).toNat := by
      rw [Nat.toNat_testBit, Nat.pow_succ, Nat.mod_mul]
    rw [this, Nat.pow_succ]; ring

/-- A number written as a bit string reads back. -/
theorem memRead_bitString {w : Window} {p n v : Nat} (h : BitsAt w p (bitString n v)) (hv : v < 2 ^ n) :
    memRead w p n = v := by
  have := memRead_codeValue h
  rw [bitString_length] at this
  rw [this, codeValue, codeValue_bitString, Nat.mod_eq_of_lt hv]; simp

/-- A field written as a bit string reads back. -/
theorem bitsAt_field {w : Window} {p n : Nat} (v : BitVec n) (h : BitsAt w p (bitString n v.toNat)) :
    bitsAt w p n = v := by
  unfold bitsAt
  rw [memRead_bitString h v.isLt]; simp

theorem armStream_length (a : SideArm) : (armStream a).length = 23 := by
  cases a <;> simp [armStream, bitString_length]

theorem channelStream_length (a : ChannelSideInfo) : (channelStream a).length = 59 := by
  simp [channelStream, bitString_length, armStream_length]

/-- The arm of a side-info record, from its bits. -/
theorem readArm_stream {w : Window} {o : Nat} {a : SideArm} (h : BitsAt w (o+33) (armStream a)) :
    readArm w o = a := by
  unfold readArm
  cases a <;> simp only [armStream, bitsAt_append, List.length_append, bitString_length, List.length_singleton,
      Nat.add_assoc, Nat.reduceAdd, bitsAt_cons, and_assoc] at h
  · obtain ⟨h0, -, h1, h2, h3, h4, h5⟩ := h
    have h0 : bitsAt w (o + 33) 1 = 0 := by simp [bitsAt, memRead, h0]
    rw [if_neg (by rw [h0]; decide), bitsAt_field _ h1, bitsAt_field _ h2, bitsAt_field _ h3, bitsAt_field _ h4,
        bitsAt_field _ h5]
  · obtain ⟨h0, -, h1, h2, h3, h4, h5, h6, h7⟩ := h
    have h0 : bitsAt w (o + 33) 1 = 1 := by simp [bitsAt, memRead, h0]
    rw [if_pos h0, bitsAt_field _ h1, bitsAt_field _ h2, bitsAt_field _ h3, bitsAt_field _ h4, bitsAt_field _ h5,
        bitsAt_field _ h6, bitsAt_field _ h7]

/-- A side-info record, from its bits. -/
theorem readChannel_stream {w : Window} {o : Nat} {a : ChannelSideInfo} (h : BitsAt w o (channelStream a)) :
    readChannel w o = a := by
  unfold readChannel
  simp only [channelStream, bitsAt_append, List.length_append, bitString_length, armStream_length, Nat.reduceAdd,
      and_assoc] at h
  obtain ⟨h0, h1, h2, h3, h4, h5, h6, h7⟩ := h
  rw [bitsAt_field _ h0, bitsAt_field _ h1, bitsAt_field _ h2, bitsAt_field _ h3, readArm_stream h4,
      bitsAt_field _ h5, bitsAt_field _ h6, bitsAt_field _ h7]

/-! ### Two windows with the same bits -/

theorem bitsAt_congr {w v : Window} (h : SameBits w v) {p n : Nat} (hp : p + n ≤ windowEnd w) :
    bitsAt w p n = bitsAt v p n := by
  unfold bitsAt; rw [h.memRead hp]

theorem readArm_congr {w v : Window} (h : SameBits w v) {o : Nat} (hp : o + 59 ≤ windowEnd w) :
    readArm w o = readArm v o := by
  unfold readArm
  simp only [bitsAt_congr h (show o + 33 + 1 ≤ windowEnd w by omega),
      bitsAt_congr h (show o + 34 + 2 ≤ windowEnd w by omega),
      bitsAt_congr h (show o + 36 + 1 ≤ windowEnd w by omega),
      bitsAt_congr h (show o + 37 + 5 ≤ windowEnd w by omega),
      bitsAt_congr h (show o + 42 + 5 ≤ windowEnd w by omega),
      bitsAt_congr h (show o + 47 + 3 ≤ windowEnd w by omega),
      bitsAt_congr h (show o + 50 + 3 ≤ windowEnd w by omega),
      bitsAt_congr h (show o + 53 + 3 ≤ windowEnd w by omega),
      bitsAt_congr h (show o + 34 + 5 ≤ windowEnd w by omega),
      bitsAt_congr h (show o + 39 + 5 ≤ windowEnd w by omega),
      bitsAt_congr h (show o + 44 + 5 ≤ windowEnd w by omega),
      bitsAt_congr h (show o + 49 + 4 ≤ windowEnd w by omega)]

theorem readChannel_congr {w v : Window} (h : SameBits w v) {o : Nat} (hp : o + 59 ≤ windowEnd w) :
    readChannel w o = readChannel v o := by
  unfold readChannel
  rw [readArm_congr h hp, bitsAt_congr h (show o + 12 ≤ windowEnd w by omega),
      bitsAt_congr h (show o + 12 + 9 ≤ windowEnd w by omega),
      bitsAt_congr h (show o + 21 + 8 ≤ windowEnd w by omega),
      bitsAt_congr h (show o + 29 + 4 ≤ windowEnd w by omega),
      bitsAt_congr h (show o + 56 + 1 ≤ windowEnd w by omega),
      bitsAt_congr h (show o + 57 + 1 ≤ windowEnd w by omega),
      bitsAt_congr h (show o + 58 + 1 ≤ windowEnd w by omega)]

/-- A side-info block depends only on the bits of the window. -/
theorem readSideInfo_congr {w v : Window} (h : SameBits w v) {mono : Bool} {p : Nat} (hp :
    p + sideInfoBits mono ≤ windowEnd w) : readSideInfo w mono p = readSideInfo v mono p := by
  unfold readSideInfo
  cases mono <;> simp only [sideInfoBits, if_true, Bool.false_eq_true, if_false] at hp ⊢
  · rw [readChannel_congr h (show p + 20 + 59 ≤ windowEnd w by omega),
      readChannel_congr h (show p + 79 + 59 ≤ windowEnd w by omega),
      readChannel_congr h (show p + 138 + 59 ≤ windowEnd w by omega),
      readChannel_congr h (show p + 197 + 59 ≤ windowEnd w by omega),
      bitsAt_congr h (show p + 9 ≤ windowEnd w by omega), bitsAt_congr h (show p + 9 + 3 ≤ windowEnd w by omega),
      bitsAt_congr h (show p + 12 + 4 ≤ windowEnd w by omega),
      bitsAt_congr h (show p + 16 + 4 ≤ windowEnd w by omega)]
  · rw [readChannel_congr h (show p + 18 + 59 ≤ windowEnd w by omega),
      readChannel_congr h (show p + 77 + 59 ≤ windowEnd w by omega),
      bitsAt_congr h (show p + 9 ≤ windowEnd w by omega), bitsAt_congr h (show p + 9 + 5 ≤ windowEnd w by omega),
      bitsAt_congr h (show p + 14 + 4 ≤ windowEnd w by omega)]

/-! ### Codebooks -/

theorem entryMatches_of_bitsAt {α : Type} {w : Window} {lim pos : Nat} {e : CodeEntry α} (h :
    BitsAt w pos e.code) (hl : pos + e.code.length ≤ lim) : entryMatches w (lim - pos) pos e = true := by
  simp only [entryMatches, Bool.and_eq_true, decide_eq_true_eq, beq_iff_eq, memRead_codeValue h, and_true]; omega

theorem codeValue_snoc (l : List Bool) (b : Bool) : codeValue (l ++ [b]) = 2 * codeValue l + b.toNat := by
  simp [codeValue, List.foldl_append]

/-- A string with the value of the bits read is the bits. -/
theorem bitsAt_of_value {w : Window} {p : Nat} {l : List Bool} (h : memRead w p l.length = codeValue l) :
    BitsAt w p l := by
  induction l using List.reverseRecOn with
  | nil => exact bitsAt_nil w p
  | append_singleton l b ih =>
    rw [codeValue_snoc, List.length_append, List.length_singleton, memRead] at h
    have := winBit_le_one w (p + l.length)
    have hb : b.toNat ≤ 1 := by cases b <;> simp
    refine bitsAt_append.mpr ⟨ih (by omega), bitsAt_cons.mpr ⟨by omega, bitsAt_nil _ _⟩⟩

/-- A codeword at the cursor is matched: no other entry agrees with it. -/
theorem match_found {α : Type} {w : Window} {book : List (CodeEntry α)} (hbk : bookOk book = true) {lim pos :
    Nat} {e : CodeEntry α} (he : e ∈ book) (h : BitsAt w pos e.code) (hl : pos + e.code.length ≤ lim) :
    matchBook w book lim pos = .found e := by
  unfold matchBook
  have hm := entryMatches_of_bitsAt h hl
  cases hf : book.find? (entryMatches w (lim - pos) pos) with
  | none => rw [List.find?_eq_none] at hf; exact absurd hm (hf e he)
  | some d =>
    have hd := List.mem_of_find?_eq_some hf
    have hdm := List.find?_some hf
    simp only [entryMatches, Bool.and_eq_true, decide_eq_true_eq, beq_iff_eq] at hdm
    have hdb := bitsAt_of_value hdm.2
    have key : ∀ {a b : CodeEntry α}, a ∈ book → b ∈ book → BitsAt w pos a.code → BitsAt w pos b.code → a.code.length
        ≤ b.code.length → a = b := by
      intro a b ha hb h1 h2 hle
      apply bookOk_unique hbk ha hb
      rw [List.prefix_iff_eq_take]
      apply List.ext_getElem
      · simp; omega
      · intro i i1 i2
        rw [List.getElem_take]
        have g1 := h1 i i1
        have g2 := h2 i (by simp at i2; omega)
        rw [g1] at g2
        cases ha : a.code[i] <;> cases hb : b.code[i] <;> simp_all
    have : d = e := by
      rcases Nat.le_total d.code.length e.code.length with hh | hh
      · exact key hd he hdb h hh
      · exact (key he hd h hdb hh).symm
    rw [this]

/-- Bits no codeword agrees with match nothing. -/
theorem match_noMatch {α : Type} {w : Window} {book : List (CodeEntry α)} {lim pos : Nat} (h : ∀ e ∈ book,
    Incompatible w lim pos e) : matchBook w book lim pos = .noMatch := by
  have h1 : book.find? (entryMatches w (lim - pos) pos) = none := by
    rw [List.find?_eq_none]
    intro e he hm
    obtain ⟨j, hj, hl, hne⟩ := h e he
    simp only [entryMatches, Bool.and_eq_true, decide_eq_true_eq, beq_iff_eq] at hm
    exact hne (bitsAt_of_value hm.2 j hj)
  have h2 : book.any (entryCutShort w (lim - pos) pos) = false := by
    rw [List.any_eq_false]
    intro e he hm
    obtain ⟨j, hj, hl, hne⟩ := h e he
    simp only [entryCutShort, Bool.and_eq_true, decide_eq_true_eq, beq_iff_eq] at hm
    have ht : (e.code.take (lim - pos)).length = lim - pos := by simp; omega
    have := bitsAt_of_value (w := w) (p := pos) (l := e.code.take (lim - pos)) (by rw [ht]; exact hm.2) j (by omega)
    rw [List.getElem_take] at this
    exact hne this
  simp [matchBook, h1, h2]

/-- Bits that end inside a codeword cut the match short. -/
theorem match_short {α : Type} {w : Window} {book : List (CodeEntry α)} (hbk : bookOk book = true) {lim pos :
    Nat} {e} (he : e ∈ book) (h : EndsInside w lim pos e) : matchBook w book lim pos = .short := by
  have h1 : book.find? (entryMatches w (lim - pos) pos) = none := by
    rw [List.find?_eq_none]
    intro d hd hm
    simp only [entryMatches, Bool.and_eq_true, decide_eq_true_eq, beq_iff_eq] at hm
    have hb := bitsAt_of_value hm.2
    have : d = e := by
      apply bookOk_unique hbk hd he
      rw [List.prefix_iff_eq_take]
      apply List.ext_getElem
      · simp; have := h.1; omega
      · intro i i1 i2
        rw [List.getElem_take]
        have g1 := hb i i1
        have g2 := h.2 i (by have := h.1; omega) (by omega)
        rw [g1] at g2
        cases ha : d.code[i] <;> cases hb : e.code[i]'(by have := h.1; omega) <;> simp_all
    subst this
    have := h.1; omega
  have h2 : book.any (entryCutShort w (lim - pos) pos) = true := by
    rw [List.any_eq_true]
    refine ⟨e, he, ?_⟩
    simp only [entryCutShort, Bool.and_eq_true, decide_eq_true_eq, beq_iff_eq]
    refine ⟨h.1, ?_⟩
    have ht : (e.code.take (lim - pos)).length = lim - pos := by simp; have := h.1; omega
    have : BitsAt w pos (e.code.take (lim - pos)) := by
      intro j hj
      rw [List.getElem_take]
      exact h.2 j _ (by omega)
    have := memRead_codeValue this
    rwa [ht] at this
  simp [matchBook, h1, h2]

/-! ### Extension bits -/

theorem takeSign_of {w : Window} {lim mag pos : Nat} {n : Bool} (h :
    BitsAt w pos (if mag = 0 then [] else [n])) (hl : pos + (if mag = 0 then 0 else 1) ≤ lim ∨ mag = 0) :
    takeSign w lim mag pos = some (signed n mag, pos + (if mag = 0 then 0 else 1)) := by
  unfold takeSign
  by_cases h0 : mag = 0
  · subst h0; simp [signed]
  · rw [if_neg h0] at *
    rw [if_neg h0, takeBits_of_le (by omega)]
    have := (bitsAt_cons.mp h).1
    simp only [memRead, signed]
    cases n <;> simp_all

theorem takeEscape_of {w : Window} {lb lim pos lin : Nat} {mag : BitVec 4} (hlin : lin < 2 ^ lb) (h :
    BitsAt w pos (if 0 < lb ∧ mag = 15 then bitString lb lin else [])) (hl :
    pos + (if 0 < lb ∧ mag = 15 then lb else 0) ≤ lim ∨ ¬ (0 < lb ∧ mag = 15)) :
    takeEscape w lb lim mag pos = some (pairMagnitude lb mag lin, pos + (if 0 < lb ∧ mag = 15 then lb else 0)) := by
  unfold takeEscape pairMagnitude
  split
  · rename_i hc
    rw [if_pos hc] at h hl
    rw [takeBits_of_le (by rcases hl with hl | hl; exact hl; exact absurd hc hl)]
    rw [memRead_bitString h hlin, hc.2]; rfl
  · rfl

theorem pairMagnitude_eq_zero {lb lin : Nat} {mag : BitVec 4} : pairMagnitude lb mag lin = 0 ↔ mag = 0 := by
  unfold pairMagnitude
  split
  · rename_i h; simp [h.2]
  · simp [BitVec.toNat_eq]

/-- One value of a pair, from its extension bits. -/
theorem takeValue_of {w : Window} {lb lim pos lin : Nat} {mag : BitVec 4} {n : Bool} (hlin : lin < 2 ^ lb) (h :
    BitsAt w pos (pairExtension lb mag lin n)) (hl : pos + (pairExtension lb mag lin n).length ≤ lim) :
    takeValue w lb lim mag pos = some (signed n (pairMagnitude lb mag lin),
        pos + (pairExtension lb mag lin n).length) := by
  unfold pairExtension at *
  obtain ⟨h1, h2⟩ := bitsAt_append.mp h
  have hlen : (if 0 < lb ∧ mag = 15 then bitString lb lin else []).length = if 0 < lb ∧ mag = 15 then lb else 0 := by
    split <;> simp [bitString_length]
  have hlen2 : (if mag = 0 then [] else [n]).length = if mag = 0 then 0 else 1 := by
    split <;> simp
  simp only [List.length_append, hlen, hlen2] at hl h2 ⊢
  rw [takeValue, takeEscape_of hlin h1 (by omega)]
  simp only []
  rw [takeSign_of (n := n)]
  · simp only [pairMagnitude_eq_zero, Nat.add_assoc]
  · simp only [pairMagnitude_eq_zero]; exact h2
  · simp only [pairMagnitude_eq_zero]; omega

/-- One value of a quadruple, from its sign bit. -/
theorem takeSign_quad {w : Window} {lim pos : Nat} {u : BitVec 4} {k : Nat} {n : Bool} (h :
    BitsAt w pos (if u.getLsbD k then [n] else [])) (hl : pos + (if u.getLsbD k then [n] else []).length ≤ lim) :
    takeSign w lim (quadMagnitude u k) pos = some (quadValue u k n,
        pos + (if u.getLsbD k then [n] else []).length) := by
  have := takeSign_of (w := w) (lim := lim) (mag := quadMagnitude u k) (pos := pos) (n := n)
  unfold quadValue
  unfold quadMagnitude at *
  cases hk : u.getLsbD k <;> rw [hk] at h hl this <;> simp_all

theorem takeSign_cases (w : Window) (lim mag pos : Nat) : (∃ x, takeSign w lim mag pos = some (x,
    pos + if mag = 0 then 0 else 1)) ∨ (takeSign w lim mag pos = none ∧ lim < pos + if mag = 0 then 0 else 1) := by
  unfold takeSign
  split
  · exact .inl ⟨_, rfl⟩
  · by_cases h : pos + 1 ≤ lim
    · rw [takeBits_of_le h]; exact .inl ⟨_, rfl⟩
    · rw [takeBits_eq_none.mpr (by omega)]; exact .inr ⟨rfl, by omega⟩

/-- The extension bits of a value are all taken, or exhausted. -/
theorem takeValue_cases (w : Window) (lb lim : Nat) (mag : BitVec 4) (pos : Nat) : (∃ x,
    takeValue w lb lim mag pos = some (x, pos + extensionLength lb mag)) ∨ (takeValue w lb lim mag pos = none ∧ lim <
    pos + extensionLength lb mag) := by
  unfold takeValue takeEscape extensionLength
  by_cases hc : 0 < lb ∧ mag = 15
  · simp only [hc, and_self, if_true]
    obtain ⟨hc, rfl⟩ := hc
    by_cases h : pos + lb ≤ lim
    · rw [takeBits_of_le h]
      simp only []
      have := takeSign_cases w lim ((15#4).toNat + memRead w pos lb) (pos + lb)
      have h0 : ¬ ((15#4).toNat + memRead w pos lb = 0) := by simp
      rw [if_neg h0] at this
      rw [if_neg (by decide), ← Nat.add_assoc]; exact this
    · rw [takeBits_eq_none.mpr (by omega)]
      exact .inr ⟨rfl, by omega⟩
  · simp only [hc, if_false]
    have := takeSign_cases w lim mag.toNat pos
    simpa [BitVec.toNat_eq] using this

/-- Extension bits of a pair that do not fit are exhausted. -/
theorem takePair_none {w : Window} {lb lim pos : Nat} {xy : BitVec 4 × BitVec 4} (h :
    lim < pos + (extensionLength lb xy.1 + extensionLength lb xy.2)) (hp : pos ≤ lim) :
    takePair w lb lim xy pos = none := by
  unfold takePair
  obtain ⟨x, h1⟩ | ⟨h1, -⟩ := takeValue_cases w lb lim xy.1 pos <;> rw [h1]
  simp only []
  obtain ⟨y, h2⟩ | ⟨h2, -⟩ := takeValue_cases w lb lim xy.2 (pos + extensionLength lb xy.1) <;> rw [h2]
  have a := takeValue_some h1
  have b := takeValue_some h2
  omega

/-- Sign bits of a quadruple that do not fit are exhausted. -/
theorem takeQuad_none {w : Window} {lim pos : Nat} {u : BitVec 4} (h : lim < pos + signCount u) (hp : pos ≤ lim) :
    takeQuad w lim u pos = none := by
  have hq : ∀ k, (if quadMagnitude u k = 0 then 0 else 1) = (u.getLsbD k).toNat := by
    intro k; unfold quadMagnitude; cases u.getLsbD k <;> rfl
  cases hh : takeQuad w lim u pos with
  | none => rfl
  | some v =>
    have hs := takeQuad_some (q := v.1) (p := v.2) (by rw [hh])
    have : v.2 = pos + signCount u := by
      unfold takeQuad at hh
      obtain ⟨x0, h0⟩ | ⟨h0, -⟩ := takeSign_cases w lim (quadMagnitude u 3) pos <;> rw [h0] at hh
      swap; · simp at hh
      simp only [] at hh
      obtain ⟨x1, h1⟩ | ⟨h1, -⟩ := takeSign_cases w lim (quadMagnitude u 2)
          (pos + if quadMagnitude u 3 = 0 then 0 else 1) <;> rw [h1] at hh
      swap; · simp at hh
      simp only [] at hh
      obtain ⟨x2, h2⟩ | ⟨h2, -⟩ := takeSign_cases w lim (quadMagnitude u 1)
          ((pos + if quadMagnitude u 3 = 0 then 0 else 1) + if quadMagnitude u 2 = 0 then 0 else 1) <;> rw [h2] at hh
      swap; · simp at hh
      simp only [] at hh
      obtain ⟨x3, h3⟩ | ⟨h3, -⟩ := takeSign_cases w lim (quadMagnitude u 0)
          (((pos + if quadMagnitude u 3 = 0 then 0 else 1) + if quadMagnitude u 2 = 0 then 0 else 1) + if
          quadMagnitude u 1 = 0 then 0 else 1) <;> rw [h3] at hh
      swap; · simp at hh
      simp only [Option.some.injEq] at hh
      subst hh
      simp only [hq, signCount, Nat.add_assoc]
    obtain ⟨_,_,_,_,_,_,hl⟩ := hs
    omega

end Sys2Proof.Spec
end

