-- ==== Sys2Proof/Laws/Encoding.lean ====
section
/-! SUPPORT. The fields of a command word that the encoder builds. -/

namespace Sys2Proof

theorem commandWord_toNat (opcode : BitVec 8) (operand : BitVec 24) :
    (commandWord opcode operand).toNat = opcode.toNat * 2 ^ 24 + operand.toNat := by
  have h : (commandWord opcode operand).toNat = opcode.toNat <<< 24 ||| operand.toNat := BitVec.toNat_append opcode operand
  rw [h, ← Nat.shiftLeft_add_eq_or_of_lt operand.isLt, Nat.shiftLeft_eq]

@[simp] theorem commandWord_opcode (opcode : BitVec 8) (operand : BitVec 24) :
    (commandWord opcode operand).extractLsb' 24 8 = opcode := by
  apply BitVec.eq_of_toNat_eq
  rw [BitVec.extractLsb'_toNat, commandWord_toNat, Nat.shiftRight_eq_div_pow]
  have := operand.isLt
  have := opcode.isLt
  omega

@[simp] theorem commandWord_operand (opcode : BitVec 8) (operand : BitVec 24) :
    (commandWord opcode operand).extractLsb' 0 24 = operand := by
  apply BitVec.eq_of_toNat_eq
  rw [BitVec.extractLsb'_toNat, commandWord_toNat]
  have := operand.isLt
  simp only [Nat.shiftRight_zero]
  omega

/-- A field at the low end of the operand is a field of the operand. -/
theorem commandWord_low (opcode : BitVec 8) (operand : BitVec 24) {n : Nat} (hn : n ≤ 24) :
    (commandWord opcode operand).extractLsb' 0 n = operand.extractLsb' 0 n := by
  apply BitVec.eq_of_toNat_eq
  have e : 2 ^ 24 = 2 ^ n * 2 ^ (24 - n) := by rw [← Nat.pow_add]; congr 1; omega
  rw [BitVec.extractLsb'_toNat, BitVec.extractLsb'_toNat, commandWord_toNat, Nat.shiftRight_zero, Nat.shiftRight_zero, e,
    ← Nat.mul_assoc, Nat.mul_comm opcode.toNat, Nat.mul_assoc, Nat.mul_add_mod]

end Sys2Proof
end

