-- ==== Sys2Proof/Laws/Frame.lean ====
section
/-! SUPPORT. MD_DECODE from the outside: what a frame decoded without error holds, granule-channel by granule-channel, and
how its phases read the bits. -/

namespace Sys2Proof.Machine

/-! ### Scale factors: which bits each slot gets -/

/-- A run of factors: the cursor after it, and slot `i` holds the bits at its place. -/
theorem readFactors_get {w : Window} {lim width : Nat} {slots : List Nat} (hn : slots.Nodup) {m m' : Record}
    {pos pos' : Nat} (hm : cellsRising m = true) (h : readFactors w lim width slots m pos = some (m', pos')) :
    cellsRising m' = true ∧ pos' = pos + slots.length * width ∧
      (∀ k, k ∉ slots → recordGet m' k = recordGet m k) ∧
      ∀ i (hi : i < slots.length), recordGet m' slots[i] = BitVec.ofNat 16 (memRead w (pos + i * width) width) := by
  induction slots generalizing m pos with
  | nil =>
    simp only [readFactors, Option.some.injEq, Prod.mk.injEq] at h
    obtain ⟨rfl, rfl⟩ := h
    exact ⟨hm, by simp, fun _ _ => rfl, fun i hi => absurd hi (by simp)⟩
  | cons a slots ih =>
    simp only [readFactors] at h
    split at h
    · cases h
    · rename_i v p hv
      obtain ⟨-, rfl, rfl⟩ := takeBits_eq_some.mp hv
      obtain ⟨ha, hn'⟩ := List.nodup_cons.mp hn
      obtain ⟨h1, h2, h3, h4⟩ := ih hn' (recordPut_rising hm a _) h
      refine ⟨h1, ?_, ?_, ?_⟩
      · rw [h2, List.length_cons, Nat.add_mul]; omega
      · intro k hk
        simp only [List.mem_cons, not_or] at hk
        rw [h3 k hk.2, recordGet_put hm, if_neg hk.1]
      · intro i hi
        cases i with
        | zero => rw [List.getElem_cons_zero, h3 a ha, recordGet_put hm, if_pos rfl]; simp
        | succ i =>
          rw [List.getElem_cons_succ, h4 i (by simpa using hi)]
          congr 2
          rw [Nat.add_mul]; omega

/-- Factors that fit are read. -/
theorem readFactors_fits {w : Window} {lim width : Nat} {slots : List Nat} {m : Record} {pos : Nat}
    (h : pos + slots.length * width ≤ lim) :
    ∃ m', readFactors w lim width slots m pos = some (m', pos + slots.length * width) := by
  induction slots generalizing m pos with
  | nil => exact ⟨m, by simp [readFactors]⟩
  | cons a slots ih =>
    rw [List.length_cons, Nat.add_mul] at h ⊢
    obtain ⟨m', h'⟩ := ih (m := recordPut m a (BitVec.ofNat 16 (memRead w pos width))) (pos := pos + width) (by omega)
    refine ⟨m', ?_⟩
    rw [readFactors, takeBits_of_le (by omega)]
    simp only [h']
    congr 2
    omega

/-- Factors that do not fit are exhausted. -/
theorem readFactors_none {w : Window} {lim width : Nat} {slots : List Nat} {m : Record} {pos : Nat} (hp : pos ≤ lim)
    (h : lim < pos + slots.length * width) : readFactors w lim width slots m pos = none := by
  induction slots generalizing m pos with
  | nil => simp at h; omega
  | cons a slots ih =>
    rw [List.length_cons, Nat.add_mul] at h
    rw [readFactors]
    split
    · rfl
    · rename_i v p hv
      obtain ⟨h1, -, rfl⟩ := takeBits_eq_some.mp hv
      exact ih h1 (by omega)

theorem longSlots_nodup (q lo n : Nat) : (longSlots q lo n).Nodup := by
  unfold longSlots
  exact (List.nodup_range' (step := 1)).map fun a b h => by unfold scalefacLIndex at h; omega

theorem longSlots_length (q lo n : Nat) : (longSlots q lo n).length = n := by simp [longSlots]

theorem longSlots_get {q lo n i : Nat} (h : i < (longSlots q lo n).length) :
    (longSlots q lo n)[i] = scalefacLIndex q (lo + i) := by simp [longSlots]

theorem mem_longSlots {q lo n k : Nat} : k ∈ longSlots q lo n ↔ ∃ b, lo ≤ b ∧ b < lo + n ∧ k = scalefacLIndex q b := by
  simp only [longSlots, List.mem_map, List.mem_range'_1]
  constructor
  · rintro ⟨b, hb, rfl⟩; exact ⟨b, hb.1, hb.2, rfl⟩
  · rintro ⟨b, h1, h2, rfl⟩; exact ⟨b, ⟨h1, h2⟩, rfl⟩

theorem shortSlots_succ (q lo n : Nat) :
    shortSlots q lo (n + 1) =
      scalefacSIndex q lo 0 :: scalefacSIndex q lo 1 :: scalefacSIndex q lo 2 :: shortSlots q (lo + 1) n := by
  simp [shortSlots, List.range'_succ]

theorem mem_shortSlots {q lo n k : Nat} :
    k ∈ shortSlots q lo n ↔ ∃ b w, lo ≤ b ∧ b < lo + n ∧ w < 3 ∧ k = scalefacSIndex q b w := by
  simp only [shortSlots, List.mem_flatMap, List.mem_range'_1, List.mem_cons, List.not_mem_nil, or_false]
  constructor
  · rintro ⟨b, hb, rfl | rfl | rfl⟩
    · exact ⟨b, 0, hb.1, hb.2, by omega, rfl⟩
    · exact ⟨b, 1, hb.1, hb.2, by omega, rfl⟩
    · exact ⟨b, 2, hb.1, hb.2, by omega, rfl⟩
  · rintro ⟨b, w, h1, h2, h3, rfl⟩
    refine ⟨b, ⟨h1, h2⟩, ?_⟩
    obtain rfl | rfl | rfl : w = 0 ∨ w = 1 ∨ w = 2 := by omega
    · exact .inl rfl
    · exact .inr (.inl rfl)
    · exact .inr (.inr rfl)

theorem shortSlots_nodup (q lo n : Nat) : (shortSlots q lo n).Nodup := by
  induction n generalizing lo with
  | zero => simp [shortSlots]
  | succ n ih =>
    have out : ∀ w, w < 3 → scalefacSIndex q lo w ∉ shortSlots q (lo + 1) n := by
      intro w hw hmem
      obtain ⟨b, v, h1, h2, h3, h4⟩ := mem_shortSlots.mp hmem
      unfold scalefacSIndex at h4
      omega
    rw [shortSlots_succ]
    simp only [List.nodup_cons, List.mem_cons, not_or]
    refine ⟨⟨?_, ?_, out 0 (by omega)⟩, ⟨?_, out 1 (by omega)⟩, out 2 (by omega), ih (lo + 1)⟩ <;>
      unfold scalefacSIndex <;> omega

theorem shortSlots_get {q lo n b w : Nat} (hb : b < n) (hw : w < 3) (h : 3 * b + w < (shortSlots q lo n).length) :
    (shortSlots q lo n)[3 * b + w] = scalefacSIndex q (lo + b) w := by
  induction n generalizing lo b with
  | zero => omega
  | succ n ih =>
    cases b with
    | zero =>
      simp only [shortSlots_succ]
      obtain rfl | rfl | rfl : w = 0 ∨ w = 1 ∨ w = 2 := by omega
      · rfl
      · rfl
      · rfl
    | succ b =>
      have hl : 3 * b + w < (shortSlots q (lo + 1) n).length := by rw [shortSlots_length]; omega
      have := ih (lo := lo + 1) (by omega) hl
      simp only [shortSlots_succ, show 3 * (b + 1) + w = 3 * b + w + 1 + 1 + 1 by omega, List.getElem_cons_succ]
      rw [this, show lo + 1 + b = lo + (b + 1) by omega]

/-- Consecutive long bands read: band `b` holds the bits at its place, and nothing else changes. -/
theorem readLong_get {w : Window} {lim width q lo n : Nat} {m m' : Record} {pos pos' : Nat} (hm : cellsRising m = true)
    (h : readFactors w lim width (longSlots q lo n) m pos = some (m', pos')) :
    cellsRising m' = true ∧ pos' = pos + n * width ∧
      (∀ k, (∀ b, lo ≤ b → b < lo + n → k ≠ scalefacLIndex q b) → recordGet m' k = recordGet m k) ∧
      ∀ b, lo ≤ b → b < lo + n →
        recordGet m' (scalefacLIndex q b) = BitVec.ofNat 16 (memRead w (pos + (b - lo) * width) width) := by
  obtain ⟨h1, h2, h3, h4⟩ := readFactors_get (longSlots_nodup q lo n) hm h
  rw [longSlots_length] at h2
  refine ⟨h1, h2, fun k hk => h3 k fun hmem => ?_, fun b hb1 hb2 => ?_⟩
  · obtain ⟨b, hb1, hb2, rfl⟩ := mem_longSlots.mp hmem
    exact hk b hb1 hb2 rfl
  · have hl : b - lo < (longSlots q lo n).length := by rw [longSlots_length]; omega
    have := h4 (b - lo) hl
    rwa [longSlots_get, show lo + (b - lo) = b by omega] at this

/-- Consecutive short bands read, three windows each. -/
theorem readShort_get {w : Window} {lim width q lo n : Nat} {m m' : Record} {pos pos' : Nat} (hm : cellsRising m = true)
    (h : readFactors w lim width (shortSlots q lo n) m pos = some (m', pos')) :
    cellsRising m' = true ∧ pos' = pos + 3 * n * width ∧
      (∀ k, (∀ b v, lo ≤ b → b < lo + n → v < 3 → k ≠ scalefacSIndex q b v) → recordGet m' k = recordGet m k) ∧
      ∀ b v, lo ≤ b → b < lo + n → v < 3 →
        recordGet m' (scalefacSIndex q b v) =
          BitVec.ofNat 16 (memRead w (pos + (3 * (b - lo) + v) * width) width) := by
  obtain ⟨h1, h2, h3, h4⟩ := readFactors_get (shortSlots_nodup q lo n) hm h
  rw [shortSlots_length] at h2
  refine ⟨h1, h2, fun k hk => h3 k fun hmem => ?_, fun b v hb1 hb2 hv => ?_⟩
  · obtain ⟨b, v, hb1, hb2, hv, rfl⟩ := mem_shortSlots.mp hmem
    exact hk b v hb1 hb2 hv rfl
  · have hl : 3 * (b - lo) + v < (shortSlots q lo n).length := by rw [shortSlots_length]; omega
    have := h4 _ hl
    rwa [shortSlots_get (by omega) hv, show lo + (b - lo) = b by omega] at this

/-- A short or mixed granule-channel: where each factor's bits are, and that it writes nothing else. -/
theorem shortFactors_get {w : Window} {sl : SlenPair} {mixed : Bool} {q lim : Nat} (hq : q < 4) {m m' : Record}
    {pos pos' : Nat} (hm : cellsRising m = true) (h : shortFactors w sl mixed q lim m pos = some (m', pos'))
    {start : Nat} (hs : start = pos + if mixed then 8 * sl.slen1 else 0) :
    pos' = start + 9 * sl.slen1 + 18 * sl.slen2 ∧
      (mixed = true → ∀ b < 8,
        recordGet m' (scalefacLIndex q b) = BitVec.ofNat 16 (memRead w (pos + b * sl.slen1) sl.slen1)) ∧
      (∀ b v, 3 ≤ b → b < 6 → v < 3 → recordGet m' (scalefacSIndex q b v) =
        BitVec.ofNat 16 (memRead w (start + (3 * (b - 3) + v) * sl.slen1) sl.slen1)) ∧
      (∀ b v, 6 ≤ b → b < 12 → v < 3 → recordGet m' (scalefacSIndex q b v) =
        BitVec.ofNat 16 (memRead w (start + 9 * sl.slen1 + (3 * (b - 6) + v) * sl.slen2) sl.slen2)) ∧
      (∀ b < 22, (mixed = false ∨ 8 ≤ b) → recordGet m' (scalefacLIndex q b) = recordGet m (scalefacLIndex q b)) ∧
      (∀ b v, b < 13 → v < 3 → (b < 3 ∨ b = 12) →
        recordGet m' (scalefacSIndex q b v) = recordGet m (scalefacSIndex q b v)) := by
  have ls : ∀ a b v, b < 22 → scalefacLIndex q b ≠ scalefacSIndex q a v := by
    intro a b v hb; unfold scalefacLIndex scalefacSIndex; omega
  have ss : ∀ a b u v, u < 3 → v < 3 → a ≠ b → scalefacSIndex q a u ≠ scalefacSIndex q b v := by
    intro a b u v hu hv hab; unfold scalefacSIndex; omega
  unfold shortFactors at h
  split at h
  · cases h
  split at h
  · cases h
  rename_i m0 p0 e0 _ m1 p1 e1
  have h0 : cellsRising m0 = true ∧ p0 = start ∧
      (∀ k, (∀ b < 8, k ≠ scalefacLIndex q b) → recordGet m0 k = recordGet m k) ∧
      (mixed = false → ∀ k, recordGet m0 k = recordGet m k) ∧
      (mixed = true → ∀ b < 8,
        recordGet m0 (scalefacLIndex q b) = BitVec.ofNat 16 (memRead w (pos + b * sl.slen1) sl.slen1)) := by
    cases mixed with
    | false =>
      simp only [Bool.false_eq_true, if_false, readFactors, Option.some.injEq, Prod.mk.injEq] at e0 hs
      obtain ⟨rfl, rfl⟩ := e0
      exact ⟨hm, by omega, fun _ _ => rfl, fun _ _ => rfl, by simp⟩
    | true =>
      simp only [if_true] at e0 hs
      obtain ⟨h1, h2, h3, h4⟩ := readLong_get hm e0
      exact ⟨h1, by omega, fun k hk => h3 k fun b _ hb => hk b (by omega), by simp,
        fun _ b hb => h4 b (by omega) (by omega)⟩
  obtain ⟨g0, rfl, f0, n0, l0⟩ := h0
  obtain ⟨g1, q1, f1, s1⟩ := readShort_get g0 e1
  obtain ⟨g2, q2, f2, s2⟩ := readShort_get g1 h
  have long : ∀ b < 22, recordGet m' (scalefacLIndex q b) = recordGet m0 (scalefacLIndex q b) := fun b hb => by
    rw [f2 _ fun a v _ _ _ => ls a b v hb, f1 _ fun a v _ _ _ => ls a b v hb]
  refine ⟨by omega, fun hmx b hb => ?_, fun b v h1 h2 h3 => ?_, fun b v h1 h2 h3 => ?_, fun b hb hb8 => ?_,
    fun b v hb hv hb3 => ?_⟩
  · rw [long b (by omega), l0 hmx b hb]
  · rw [f2 _ fun a u ha1 ha2 hu => ss b a v u h3 hu (by omega), s1 b v h1 h2 h3]
  · rw [s2 b v h1 h2 h3, q1]
  · rw [long b hb]
    rcases hb8 with hmx | hb8
    · exact n0 hmx _
    · exact f0 _ fun d hd => by unfold scalefacLIndex; omega
  · rw [f2 _ fun a u ha1 ha2 hu => ss b a v u hv hu (by omega), f1 _ fun a u ha1 ha2 hu => ss b a v u hv hu (by omega),
      f0 _ fun d hd => (ls b d v (by omega)).symm]

/-- One group of a long granule-channel: shared, with granule 0's values and no bit read, or read. -/
theorem groupFactors_get {w : Window} {shared : Bool} {width q lim lo n : Nat} (hs : shared = true → 2 ≤ q) (hq : q < 4)
    (hn : lo + n ≤ 22) {m m' : Record} {pos pos' : Nat} (hm : RecordOk m) (hw : width ≤ 4)
    (h : groupFactors w shared width q lim lo n m pos = some (m', pos')) :
    RecordOk m' ∧ pos' = pos + (if shared then 0 else n * width) ∧
      (∀ k, (∀ b, lo ≤ b → b < lo + n → k ≠ scalefacLIndex q b) → recordGet m' k = recordGet m k) ∧
      ∀ b, lo ≤ b → b < lo + n →
        recordGet m' (scalefacLIndex q b) =
          if shared then recordGet m (scalefacLIndex (q - 2) b)
          else BitVec.ofNat 16 (memRead w (pos + (b - lo) * width) width) := by
  cases shared with
  | true =>
    simp only [groupFactors, if_true, Option.some.injEq, Prod.mk.injEq] at h
    obtain ⟨rfl, rfl⟩ := h
    obtain ⟨h1, h2, h3⟩ := copyFactors_get (hs rfl) hq hn hm
    exact ⟨h1, by simp, h3, by simpa using h2⟩
  | false =>
    simp only [groupFactors, Bool.false_eq_true, if_false] at h
    have h0 := (readFactors_grows hw (longSlots_ok hq hn) hm h).1.ok
    obtain ⟨-, h2, h3, h4⟩ := readLong_get hm.1 h
    exact ⟨h0, by simpa using h2, h3, by simpa using h4⟩

/-- The long factors of granule 0 are four groups read. -/
theorem longFactors_groups {w : Window} {sl : SlenPair} {q lim : Nat} {m : Record} {pos : Nat} :
    longFactors w sl q lim m pos = sharedFactors w sl 0 q lim m pos := by
  have split : ∀ (width lo a b : Nat) (m : Record) (pos : Nat),
      readFactors w lim width (longSlots q lo (a + b)) m pos =
        match readFactors w lim width (longSlots q lo a) m pos with
        | none => none
        | some (m, pos) => readFactors w lim width (longSlots q (lo + a) b) m pos := by
    intro width lo a b
    induction a generalizing lo with
    | zero => intro m pos; simp [longSlots, readFactors]
    | succ a ih =>
      intro m pos
      have e : longSlots q lo (a + 1 + b) = scalefacLIndex q lo :: longSlots q (lo + 1) (a + b) := by
        simp [longSlots, List.range'_succ, show a + 1 + b = a + b + 1 by omega]
      have e' : longSlots q lo (a + 1) = scalefacLIndex q lo :: longSlots q (lo + 1) a := by
        simp [longSlots, List.range'_succ]
      rw [e, e', readFactors, readFactors]
      cases takeBits w width lim pos with
      | none => rfl
      | some vp => simp only [ih, show lo + 1 + a = lo + (a + 1) by omega]
  have hb : ∀ g, scfsiBit 0 g = false := by intro g; simp [scfsiBit]
  simp only [longFactors, sharedFactors, groupFactors, hb, Bool.false_eq_true, if_false]
  rw [show longSlots q 0 11 = longSlots q 0 (6 + 5) from rfl, show longSlots q 11 10 = longSlots q 11 (5 + 5) from rfl,
    split]
  cases readFactors w lim sl.slen1 (longSlots q 0 6) m pos with
  | none => rfl
  | some x =>
    simp only [Nat.zero_add]
    cases readFactors w lim sl.slen1 (longSlots q 6 5) x.1 x.2 with
    | none => rfl
    | some y => simp only [split] <;> rfl

/-- The bits of the groups before band `b` of a long granule-channel, and of its own group before it. -/
def bitsBefore (sl : SlenPair) (scfsi : BitVec 4) (b : Nat) : Nat :=
  (if scfsiBit scfsi 0 then 0 else min b 6 * sl.slen1) + (if scfsiBit scfsi 1 then 0 else (min b 11 - 6) * sl.slen1) +
    (if scfsiBit scfsi 2 then 0 else (min b 16 - 11) * sl.slen2) +
    (if scfsiBit scfsi 3 then 0 else (min b 21 - 16) * sl.slen2)

theorem bitsBefore_zero (sl : SlenPair) (scfsi : BitVec 4) : bitsBefore sl scfsi 0 = 0 := by simp [bitsBefore]

/-- One more band: its bits, or none where it is shared. -/
theorem bitsBefore_succ (sl : SlenPair) (scfsi : BitVec 4) {b : Nat} (hb : b < 21) :
    bitsBefore sl scfsi (b + 1) = bitsBefore sl scfsi b +
      if scfsiBit scfsi (scfsiGroup b) then 0 else if b < 11 then sl.slen1 else sl.slen2 := by
  have e0 : min (b + 1) 6 = min b 6 + if b < 6 then 1 else 0 := by split <;> omega
  have e1 : min (b + 1) 11 - 6 = (min b 11 - 6) + if 6 ≤ b ∧ b < 11 then 1 else 0 := by split <;> omega
  have e2 : min (b + 1) 16 - 11 = (min b 16 - 11) + if 11 ≤ b ∧ b < 16 then 1 else 0 := by split <;> omega
  have e3 : min (b + 1) 21 - 16 = (min b 21 - 16) + if 16 ≤ b then 1 else 0 := by split <;> omega
  unfold bitsBefore scfsiGroup
  rw [e0, e1, e2, e3]
  by_cases h6 : b < 6
  · simp only [h6, show ¬ 6 ≤ b by omega, show ¬ 11 ≤ b by omega, show ¬ 16 ≤ b by omega, show b < 11 by omega, if_true,
      if_false, false_and, Nat.add_zero, Nat.add_mul, Nat.one_mul]
    split <;> omega
  by_cases h11 : b < 11
  · simp only [h6, h11, show 6 ≤ b by omega, show ¬ 11 ≤ b by omega, show ¬ 16 ≤ b by omega, if_true, if_false,
      and_self, false_and, Nat.add_zero, Nat.add_mul, Nat.one_mul]
    split <;> split <;> omega
  by_cases h16 : b < 16
  · simp only [h6, h11, h16, show 11 ≤ b by omega, show ¬ 16 ≤ b by omega, if_true, if_false, and_false, and_self,
      Nat.add_zero, Nat.add_mul, Nat.one_mul]
    split <;> split <;> split <;> omega
  · simp only [h6, h11, h16, show 16 ≤ b by omega, if_true, if_false, and_false, Nat.add_zero, Nat.add_mul, Nat.one_mul]
    split <;> split <;> split <;> split <;> omega

/-- A long granule-channel: each band is shared or holds the bits at its place, and nothing else changes. -/
theorem sharedFactors_get {w : Window} {sl : SlenPair} {scfsi : BitVec 4} {q lim : Nat} (h1 : sl.slen1 ≤ 4)
    (h2 : sl.slen2 ≤ 4) (hq : scfsi = 0 ∨ 2 ≤ q) (hq4 : q < 4) {m m' : Record} {pos pos' : Nat} (hm : RecordOk m)
    (h : sharedFactors w sl scfsi q lim m pos = some (m', pos')) :
    pos' = pos + bitsBefore sl scfsi 21 ∧
      (∀ k, (∀ b < 21, k ≠ scalefacLIndex q b) → recordGet m' k = recordGet m k) ∧
      ∀ b < 21, recordGet m' (scalefacLIndex q b) =
        if scfsiBit scfsi (scfsiGroup b) then recordGet m (scalefacLIndex (q - 2) b)
        else BitVec.ofNat 16 (memRead w (pos + bitsBefore sl scfsi b) (if b < 11 then sl.slen1 else sl.slen2)) := by
  have hs : ∀ g, scfsiBit scfsi g = true → 2 ≤ q := by
    intro g hg
    rcases hq with rfl | hq
    · simp [scfsiBit] at hg
    · exact hq
  unfold sharedFactors at h
  split at h
  · cases h
  split at h
  · cases h
  split at h
  · cases h
  rename_i m0 p0 e0 _ m1 p1 e1 _ m2 p2 e2
  obtain ⟨k0, q0, f0, g0⟩ := groupFactors_get (hs 0) hq4 (by omega) hm h1 e0
  obtain ⟨k1, q1, f1, g1⟩ := groupFactors_get (hs 1) hq4 (by omega) k0 h1 e1
  obtain ⟨k2, q2, f2, g2⟩ := groupFactors_get (hs 2) hq4 (by omega) k1 h2 e2
  obtain ⟨k3, q3, f3, g3⟩ := groupFactors_get (hs 3) hq4 (by omega) k2 h2 h
  have ne : ∀ a b, a ≠ b → scalefacLIndex q a ≠ scalefacLIndex q b := by
    intro a b hab; unfold scalefacLIndex; omega
  have ne' : ∀ a b g, a < 22 → b < 22 → scfsiBit scfsi g = true → scalefacLIndex (q - 2) a ≠ scalefacLIndex q b := by
    intro a b g ha hb hg; have := hs g hg; unfold scalefacLIndex; omega
  refine ⟨?_, fun k hk => ?_, fun b hb => ?_⟩
  · rw [q3, q2, q1, q0]
    simp only [bitsBefore, Nat.min_eq_right (show 6 ≤ 21 by omega), Nat.min_eq_right (show 11 ≤ 21 by omega),
      Nat.min_eq_right (show 16 ≤ 21 by omega), Nat.min_self, Nat.reduceSub, Nat.add_assoc]
  · rw [f3 k fun b _ _ => hk b (by omega), f2 k fun b _ _ => hk b (by omega), f1 k fun b _ _ => hk b (by omega),
      f0 k fun b _ _ => hk b (by omega)]
  · by_cases hb6 : b < 6
    · rw [f3 _ fun a _ _ => ne b a (by omega), f2 _ fun a _ _ => ne b a (by omega), f1 _ fun a _ _ => ne b a (by omega),
        g0 b (by omega) (by omega)]
      simp only [scfsiGroup, hb6, if_true, show b < 11 by omega]
      split
      · rfl
      · rename_i hn
        simp only [bitsBefore, hn, Bool.false_eq_true, if_false, Nat.min_eq_left (show b ≤ 6 by omega),
          Nat.min_eq_left (show b ≤ 11 by omega), Nat.min_eq_left (show b ≤ 16 by omega),
          Nat.min_eq_left (show b ≤ 21 by omega), show b - 6 = 0 by omega, show b - 11 = 0 by omega,
          show b - 16 = 0 by omega, Nat.zero_mul, ite_self, Nat.add_zero, Nat.sub_zero]
    by_cases hb11 : b < 11
    · rw [f3 _ fun a _ _ => ne b a (by omega), f2 _ fun a _ _ => ne b a (by omega), g1 b (by omega) (by omega)]
      simp only [scfsiGroup, hb6, hb11, if_true, if_false]
      split
      · rw [f0 _ fun a _ _ => ne' b a 1 (by omega) (by omega) ‹_›]
      · rename_i hn
        simp only [bitsBefore, hn, Bool.false_eq_true, if_false, Nat.min_eq_right (show 6 ≤ b by omega),
          Nat.min_eq_left (show b ≤ 11 by omega), Nat.min_eq_left (show b ≤ 16 by omega),
          Nat.min_eq_left (show b ≤ 21 by omega), show b - 11 = 0 by omega, show b - 16 = 0 by omega, Nat.zero_mul,
          ite_self, Nat.add_zero, q0, Nat.add_assoc]
    by_cases hb16 : b < 16
    · rw [f3 _ fun a _ _ => ne b a (by omega), g2 b (by omega) (by omega)]
      simp only [scfsiGroup, hb6, hb11, hb16, if_true, if_false]
      split
      · rw [f1 _ fun a _ _ => ne' b a 2 (by omega) (by omega) ‹_›, f0 _ fun a _ _ => ne' b a 2 (by omega) (by omega) ‹_›]
      · rename_i hn
        simp only [bitsBefore, hn, Bool.false_eq_true, if_false, Nat.min_eq_right (show 6 ≤ b by omega),
          Nat.min_eq_right (show 11 ≤ b by omega), Nat.min_eq_left (show b ≤ 16 by omega),
          Nat.min_eq_left (show b ≤ 21 by omega), show b - 16 = 0 by omega, Nat.zero_mul, ite_self, Nat.add_zero, q1, q0,
          Nat.add_assoc, Nat.reduceSub]
    · rw [g3 b (by omega) (by omega)]
      simp only [scfsiGroup, hb6, hb11, hb16, if_false]
      split
      · rw [f2 _ fun a _ _ => ne' b a 3 (by omega) (by omega) ‹_›, f1 _ fun a _ _ => ne' b a 3 (by omega) (by omega) ‹_›,
          f0 _ fun a _ _ => ne' b a 3 (by omega) (by omega) ‹_›]
      · rename_i hn
        simp only [bitsBefore, hn, Bool.false_eq_true, if_false, Nat.min_eq_right (show 6 ≤ b by omega),
          Nat.min_eq_right (show 11 ≤ b by omega), Nat.min_eq_right (show 16 ≤ b by omega),
          Nat.min_eq_left (show b ≤ 21 by omega), q2, q1, q0, Nat.add_assoc, Nat.reduceSub]

/-! ### Spectral loops, with the run of symbols they read -/

/-- The big-values loop that ends without error: `n` pairs, each stored at its lines, then the end it gives. -/
theorem bigValuesLoop_run {c : Config} {w : Window} {table : Nat → BitVec 5} {q lim : Nat} (hq : q < 4)
    {pairs i : Nat} (heven : i % 2 = 0) (hi : i ≤ 576) {m : Record} {pos : Nat} (hm : RecordOk m) (hp : pos ≤ lim)
    {e : LoopEnd} (h : bigValuesLoop c.data w table q lim pairs i m pos = e) (he : e ≠ .unknownCode) :
    ∃ (n : Nat) (p : Nat → Nat) (m' : Record), n ≤ pairs ∧ i + 2 * n ≤ 576 ∧ p 0 = pos ∧ p n ≤ lim ∧ RecordOk m' ∧
      (∀ j < n, p j ≠ lim ∧ ∃ x y, decodePair c.data w (table (i + 2 * j)) lim (p j) = .ok (x, y) (p (j + 1)) ∧
        recordGet m' (flIndex q (i + 2 * j)) = BitVec.ofInt 16 x ∧
        recordGet m' (flIndex q (i + 2 * j + 1)) = BitVec.ofInt 16 y) ∧
      (∀ k, (∀ l, i ≤ l → l < i + 2 * n → k ≠ flIndex q l) → recordGet m' k = recordGet m k) ∧
      ((e = .complete m' (p n) ∧ (n = pairs ∨ i + 2 * n = 576)) ∨
        (e = .stopped m' (p n) ∧ n < pairs ∧
          (p n = lim ∨ decodePair c.data w (table (i + 2 * n)) lim (p n) = .exhausted))) := by
  induction pairs generalizing i m pos with
  | zero =>
    rw [bigValuesLoop] at h
    exact ⟨0, fun _ => pos, m, le_rfl, by omega, rfl, hp, hm, by omega, fun _ _ => rfl, .inl ⟨h.symm, .inl rfl⟩⟩
  | succ pairs ih =>
    rw [bigValuesLoop] at h
    split at h
    · exact ⟨0, fun _ => pos, m, by omega, by omega, rfl, hp, hm, by omega, fun _ _ => rfl,
        .inr ⟨h.symm, by omega, .inl ‹_›⟩⟩
    rename_i hlim
    split at h
    · exact ⟨0, fun _ => pos, m, by omega, by omega, rfl, hp, hm, by omega, fun _ _ => rfl,
        .inl ⟨h.symm, .inr (by omega)⟩⟩
    rename_i hi6
    split at h
    · exact absurd h.symm he
    · exact ⟨0, fun _ => pos, m, by omega, by omega, rfl, hp, hm, by omega, fun _ _ => rfl,
        .inr ⟨h.symm, by omega, .inr ‹_›⟩⟩
    · rename_i x y p1 hd
      have hb := decodePair_ok hd hp
      have g1 := putLine_grows (lim := lim) (pos := pos) hm hq (i := i) (by omega) x
      have g2 := putLine_grows (lim := lim) (pos := pos) g1.ok hq (i := i + 1) (by omega) y
      obtain ⟨n, p, m', h1, h2, h3, h4, h5, h6, h7, h8⟩ := ih (i := i + 2) (by omega) (by omega) g2.ok (by omega) h
      refine ⟨n + 1, fun j => if j = 0 then pos else p (j - 1), m', by omega, by omega, by simp, by simpa using h4, h5,
        ?_, ?_, ?_⟩
      · intro j hj
        cases j with
        | zero =>
          refine ⟨by simpa using hlim, x, y, by simpa [h3] using hd, ?_, ?_⟩
          · rw [h7 _ (fun l hl1 hl2 => by unfold flIndex; omega), putLine, recordGet_put g1.ok.1,
              if_neg (by unfold flIndex; omega), putLine, recordGet_put hm.1, if_pos (by simp)]
          · rw [h7 _ (fun l hl1 hl2 => by unfold flIndex; omega), putLine, recordGet_put g1.ok.1, if_pos (by simp)]
        | succ j =>
          have := h6 j (by omega)
          simpa [Nat.mul_add, show i + 2 + 2 * j = i + (2 * j + 2) by omega] using this
      · intro k hk
        rw [h7 k (fun l hl1 hl2 => hk l (by omega) (by omega)), putLine, recordGet_put g1.ok.1,
          if_neg (hk (i + 1) (by omega) (by omega)), putLine, recordGet_put hm.1, if_neg (hk i le_rfl (by omega))]
      · have e2 : i + 2 * (n + 1) = i + 2 + 2 * n := by omega
        simp only [Nat.add_eq_zero_iff, one_ne_zero, and_false, if_false, Nat.add_sub_cancel, e2]
        rcases h8 with ⟨h8, h9⟩ | ⟨h8, h9, h10⟩
        · exact .inl ⟨h8, by omega⟩
        · exact .inr ⟨h8, by omega, h10⟩

theorem putLineInside_get {m : Record} {q i k : Nat} {v : Int} (hm : cellsRising m = true) :
    recordGet (putLineInside m q i v) k = if k = flIndex q i ∧ i < 576 then BitVec.ofInt 16 v else recordGet m k := by
  unfold putLineInside
  split
  · rw [putLine, recordGet_put hm]; simp [*]
  · simp [*]

/-- The count1 loop that ends without error: `k` quadruples, each stored at the lines that exist, then the end it gives. -/
theorem count1Loop_run {c : Config} {w : Window} {t : BitVec 1} {q lim : Nat} (hq : q < 4) {fuel j : Nat}
    (heven : j % 2 = 0) (hf : 576 ≤ j + 4 * fuel) {m : Record} {pos : Nat} (hm : RecordOk m) (hp : pos ≤ lim)
    {e : LoopEnd} (h : count1Loop c.data w t q lim fuel j m pos = e) (he : e ≠ .unknownCode) :
    ∃ (n : Nat) (p : Nat → Nat) (m' : Record), (∀ i < n, j + 4 * i < 576) ∧ p 0 = pos ∧ p n ≤ lim ∧ RecordOk m' ∧
      (∀ i < n, p i ≠ lim ∧ ∃ v : Quad Int, decodeQuad c.data w t lim (p i) = .ok v (p (i + 1)) ∧
        recordGet m' (flIndex q (j + 4 * i)) = BitVec.ofInt 16 v.q0 ∧
        recordGet m' (flIndex q (j + 4 * i + 1)) = BitVec.ofInt 16 v.q1 ∧
        (j + 4 * i + 2 < 576 → recordGet m' (flIndex q (j + 4 * i + 2)) = BitVec.ofInt 16 v.q2 ∧
          recordGet m' (flIndex q (j + 4 * i + 3)) = BitVec.ofInt 16 v.q3)) ∧
      (∀ k, (∀ l, j ≤ l → l < j + 4 * n → l < 576 → k ≠ flIndex q l) → recordGet m' k = recordGet m k) ∧
      (j + 4 * n < 576 → p n = lim ∨ decodeQuad c.data w t lim (p n) = .exhausted) ∧
      (e = .complete m' (p n) ∨ e = .stopped m' (p n)) := by
  induction fuel generalizing j m pos with
  | zero =>
    rw [count1Loop] at h
    exact ⟨0, fun _ => pos, m, by omega, rfl, hp, hm, by omega, fun _ _ => rfl, by omega, .inl h.symm⟩
  | succ fuel ih =>
    rw [count1Loop] at h
    split at h
    · exact ⟨0, fun _ => pos, m, by omega, rfl, hp, hm, by omega, fun _ _ => rfl, by omega, .inl h.symm⟩
    rename_i hj
    split at h
    · exact ⟨0, fun _ => pos, m, by omega, rfl, hp, hm, by omega, fun _ _ => rfl, fun _ => .inl ‹_›, .inr h.symm⟩
    rename_i hlim
    split at h
    · exact absurd h.symm he
    · exact ⟨0, fun _ => pos, m, by omega, rfl, hp, hm, by omega, fun _ _ => rfl, fun _ => .inr ‹_›, .inr h.symm⟩
    · rename_i v p1 hd
      have hb := decodeQuad_ok hd hp
      have g0 := putLineInside_grows (lim := lim) (pos := pos) (i := j) hm hq v.q0
      have g1 := putLineInside_grows (lim := lim) (pos := pos) (i := j + 1) g0.ok hq v.q1
      have g2 := putLineInside_grows (lim := lim) (pos := pos) (i := j + 2) g1.ok hq v.q2
      have g3 := putLineInside_grows (lim := lim) (pos := pos) (i := j + 3) g2.ok hq v.q3
      obtain ⟨n, p, m', h1, h3, h4, h5, h6, h7, h8, h9⟩ := ih (j := j + 4) (by omega) (by omega) g3.ok (by omega) h
      refine ⟨n + 1, fun i => if i = 0 then pos else p (i - 1), m', ?_, by simp, by simpa using h4, h5, ?_, ?_, ?_, ?_⟩
      · intro i hi
        cases i with
        | zero => omega
        | succ i => have := h1 i (by omega); omega
      · intro i hi
        cases i with
        | zero =>
          refine ⟨by simpa using hlim, v, by simpa [h3] using hd, ?_, ?_, fun h2 => ⟨?_, ?_⟩⟩
          · rw [h7 _ (fun l hl1 hl2 _ => by unfold flIndex; omega), putLineInside_get g2.ok.1,
              if_neg (by unfold flIndex; omega), putLineInside_get g1.ok.1, if_neg (by unfold flIndex; omega),
              putLineInside_get g0.ok.1, if_neg (by unfold flIndex; omega), putLineInside_get hm.1,
              if_pos ⟨by simp, by omega⟩]
          · rw [h7 _ (fun l hl1 hl2 _ => by unfold flIndex; omega), putLineInside_get g2.ok.1,
              if_neg (by unfold flIndex; omega), putLineInside_get g1.ok.1, if_neg (by unfold flIndex; omega),
              putLineInside_get g0.ok.1, if_pos ⟨by simp, by omega⟩]
          · rw [h7 _ (fun l hl1 hl2 _ => by unfold flIndex; omega), putLineInside_get g2.ok.1,
              if_neg (by unfold flIndex; omega), putLineInside_get g1.ok.1, if_pos ⟨by simp, by omega⟩]
          · rw [h7 _ (fun l hl1 hl2 _ => by unfold flIndex; omega), putLineInside_get g2.ok.1,
              if_pos ⟨by simp, by omega⟩]
        | succ i =>
          have := h6 i (by omega)
          simpa [Nat.mul_add, show j + 4 + 4 * i = j + (4 * i + 4) by omega] using this
      · intro k hk
        have out : ∀ d < 4, ¬ (k = flIndex q (j + d) ∧ j + d < 576) := fun d hd h => hk (j + d) (by omega) (by omega) h.2 h.1
        rw [h7 k (fun l hl1 hl2 hl3 => hk l (by omega) (by omega) hl3), putLineInside_get g2.ok.1,
          if_neg (out 3 (by omega)), putLineInside_get g1.ok.1, if_neg (out 2 (by omega)), putLineInside_get g0.ok.1,
          if_neg (out 1 (by omega)), putLineInside_get hm.1, if_neg fun h => hk j le_rfl (by omega) h.2 h.1]
      · intro hlt
        have := h8 (by omega)
        simpa using this
      · simpa using h9

/-! ### A granule-channel of a frame -/

/-- The phases of a granule-channel that ends without error. -/
theorem decodeGranule_phases {c : ConfigData} {w : Window} {t : Option (Vector Nat 23)} {si : SideInfo} {q : Fin 4}
    {m m' : Record} {pos pos' : Nat} (h : decodeGranule c w t si q m pos = .ok (m', pos')) :
    ∃ m1 p1 r1 r2 m2 p2,
      scaleFactors c w si q (granuleLimit c.limitMode (si.gc.get q) (windowEnd w) pos)
        (recordPut m (startPosIndex q) (cursor pos)) pos = some (m1, p1) ∧
      regions t (si.gc.get q) = some (r1, r2) ∧
      spectral c w (si.gc.get q) r1 r2 q (granuleLimit c.limitMode (si.gc.get q) (windowEnd w) pos)
        (recordPut (recordPut m1 (region1StartIndex q) (BitVec.ofNat 16 r1)) (region2StartIndex q) (BitVec.ofNat 16 r2))
        p1 = some (m2, p2) ∧
      pos' = granuleEnd c.limitMode (granuleLimit c.limitMode (si.gc.get q) (windowEnd w) pos) p2 ∧
      m' = recordPut m2 (endPosIndex q) (cursor pos') := by
  unfold decodeGranule at h
  dsimp only at h
  split at h
  · cases h
  rename_i m1 p1 h1
  split at h
  · cases h
  rename_i r1 r2 h2
  split at h
  · cases h
  rename_i m2 p2 h3
  cases h
  exact ⟨m1, p1, r1, r2, m2, p2, h1, h2, h3, rfl, rfl⟩

/-- Decoding a list of granule-channels, cut at one of them. -/
theorem decodeGranules_at {c : ConfigData} {w : Window} {t : Option (Vector Nat 23)} {si : SideInfo}
    {qs : List (Fin 4)} {q : Fin 4} (hq : q ∈ qs) {m m' : Record} {pos pos' : Nat}
    (h : decodeGranules c w t si qs m pos = .ok (m', pos')) :
    ∃ before after m0 p0 m1 p1, qs = before ++ q :: after ∧ decodeGranules c w t si before m pos = .ok (m0, p0) ∧
      decodeGranule c w t si q m0 p0 = .ok (m1, p1) ∧ decodeGranules c w t si after m1 p1 = .ok (m', pos') := by
  induction qs generalizing m pos with
  | nil => simp at hq
  | cons r qs ih =>
    obtain ⟨m1, p1, h1, h2⟩ := decodeGranules_cons h
    rcases List.mem_cons.mp hq with rfl | hq
    · exact ⟨[], qs, m, pos, m1, p1, rfl, rfl, h1, h2⟩
    · obtain ⟨before, after, m0, p0, m2, p2, rfl, h3, h4, h5⟩ := ih hq h2
      refine ⟨r :: before, after, m0, p0, m2, p2, rfl, ?_, h4, h5⟩
      simp only [decodeGranules, h1, h3]

theorem ofGranule_unique {q r k : Nat} (hq : q < 4) (hr : r < 4) (h1 : OfGranule q k) (h2 : OfGranule r k) : q = r := by
  unfold OfGranule IsLine IsFactor IsBook at h1 h2
  omega

/-- A present granule-channel of a frame decoded without error: the record and cursor before it and after it, with its own
elements 0 before it and final after it, and granule 0's final before granule 1. -/
theorem decodeFrame_granule {c : Config} {w : Window} {hdr : Header} {si : SideInfo} {pos pos' : Nat} {m : Record}
    (hp : pos ≤ windowEnd w) (h : decodeFrame c.data w hdr si pos = .ok (m, pos')) {q : Fin 4}
    (hq : q ∈ frameOrder (isMono hdr)) :
    ∃ m0 p0 m1 p1, RecordOk m0 ∧ p0 ≤ windowEnd w ∧
      decodeGranule c.data w (lookupSfb c.data hdr.frequency) si q m0 p0 = .ok (m1, p1) ∧
      (∀ k, OfGranule q.val k → recordGet m0 k = 0) ∧ (∀ k, OfGranule q.val k → recordGet m k = recordGet m1 k) ∧
      (∀ k, OfGranule (q.val - 2) k → 2 ≤ q.val → recordGet m k = recordGet m0 k) := by
  obtain ⟨before, after, m0, p0, m1, p1, hqs, h1, h2, h3⟩ := decodeGranules_at hq h
  have g1 := decodeGranules_grows recordOk_nil hp h1
  have g2 := (decodeGranule_done g1.ok (g1.inside hp) h2).grows
  have g3 := decodeGranules_grows g2.ok (g2.inside (g1.inside hp)) h3
  have nd : (frameOrder (isMono hdr)).Nodup := by unfold frameOrder; split <;> decide
  have below : ∀ r ∈ after, q.val < r.val := by
    have hs : (frameOrder (isMono hdr)).Pairwise (fun a b => a.val < b.val) := by unfold frameOrder; split <;> decide
    rw [hqs, List.pairwise_append] at hs
    exact (List.pairwise_cons.mp hs.2.1).1
  rw [hqs] at nd
  have notBefore : q ∉ before := fun hb => (List.nodup_append.mp nd).2.2 q hb q (by simp) rfl
  refine ⟨m0, p0, m1, p1, g1.ok, g1.inside hp, h2, ?_, ?_, ?_⟩
  · intro k hk
    rw [g1.frame k, recordGet_nil]
    rintro ⟨r, hr, hrk⟩
    have := ofGranule_unique q.isLt r.isLt hk hrk
    exact notBefore (Fin.ext this ▸ hr)
  · intro k hk
    refine g3.frame k ?_
    rintro ⟨r, hr, hrk⟩
    have := ofGranule_unique q.isLt r.isLt hk hrk
    have := below r hr
    omega
  · intro k hk h2q
    rw [g3.frame k, g2.frame k]
    · intro hk'
      have := ofGranule_unique (by omega) q.isLt hk hk'
      omega
    · rintro ⟨r, hr, hrk⟩
      have := ofGranule_unique (by omega) r.isLt hk hrk
      have := below r hr
      omega

end Sys2Proof.Machine
end

