-- ==== Sys2Proof/Laws/Granules.lean ====
section
/-! SUPPORT. MD_DECODE in the words of the statements: a frame decoded without error seen from its OUT elements, when a
granule-channel ends without error, how many bits it takes, and which error a frame ends in. -/

namespace Sys2Proof.Spec

open Sys2Proof.Machine

theorem mem_frameOrder {s : State} {q : Fin 4} : q ∈ frameOrder (isMono s.hdr) ↔ Present s q := by
  unfold Present frameOrder
  cases isMono s.hdr <;> fin_cases q <;> simp

/-- The window of a state that meets the invariant ends inside the cursor's range. -/
theorem windowEnd_lt {s : State} (h : Inv s) : windowEnd s.window ≤ 65528 := by
  have := h.windowInside
  have := s.cfg.ibufBytes_le
  simp only [windowEnd, State.window]; omega

/-- After the precondition of MD_DECODE the band-table check passes. -/
theorem MdReady.bandTable {s : State} (h : MdReady s) : bandTableMissing s.cfg.data s.hdr s.si = false := by
  obtain ⟨-, -, hT⟩ := h
  unfold bandTableMissing
  rw [Bool.and_eq_false_iff]
  rcases hT with ⟨T, hT, hz⟩ | hT
  · right
    simp only [lookupSfb, Option.isNone_map, Option.isNone_eq_false_iff, List.find?_isSome]
    exact ⟨T, hT, by simp [hz]⟩
  · left
    rw [List.any_eq_false]
    intro q hq
    have : isShort (s.si.gc.get q) = true := hT q (mem_frameOrder.mp hq)
    simp [this]

/-- After the precondition of MD_DECODE every present granule-channel has its region boundaries. -/
theorem MdReady.regions {s : State} (h : MdReady s) {q : Fin 4} (hq : Present s q) :
    ∃ r1 r2, Machine.regions (lookupSfb s.cfg.data s.hdr.frequency) (s.si.gc.get q) = some (r1, r2) := by
  unfold Machine.regions
  split
  · exact ⟨_, _, rfl⟩
  · rename_i hs
    have hb := h.bandTable
    cases hl : lookupSfb s.cfg.data s.hdr.frequency with
    | some T => exact ⟨_, _, rfl⟩
    | none =>
      exfalso
      unfold bandTableMissing at hb
      rw [hl] at hb
      have : (frameOrder (isMono s.hdr)).any (fun q => !isShort (s.si.gc.get q)) = true :=
        List.any_eq_true.mpr ⟨q, mem_frameOrder.mpr hq, by simpa using hs⟩
      simp [this] at hb

/-- An MD_DECODE that ended OK decoded a frame into OUT. -/
theorem MdDecoded.frame {s t : State} (h : MdDecoded s t) :
    ∃ m p, decodeFrame s.cfg.data s.window s.hdr s.si s.pos.toNat = .ok (m, p) ∧ t.md = .record m ∧ t.pos = cursor p := by
  obtain ⟨h, h0⟩ := h
  obtain ⟨-, g⟩ | ⟨-, -, g⟩ | ⟨-, -, ⟨-, g⟩ | ⟨h3, ⟨e, h4, g⟩ | ⟨m, p, h4, g⟩⟩⟩ := mdDecode_cases s <;>
    rw [g] at h <;> cases h
  · simp [State.fail, errorCode] at h0
  · simp [State.fail, errorCode] at h0
  · simp [State.fail, errorCode] at h0
  · obtain ⟨q, -, rfl | rfl⟩ := decodeFrame_error h3 h4 <;> simp [State.fail, errorCode] at h0
  · exact ⟨m, p, h4, rfl, rfl⟩

theorem outElement_of_record {t : State} {m : List (Nat × BitVec 16)} (h : t.md = .record m) (i : Nat) :
    outElement t.md i = recordGet m i := by rw [h]; rfl

theorem ofGranule_book (q k : Nat) (h : k < 4) : OfGranule q (0x1200 + 4 * q + k) := .inr (.inr ⟨by omega, by omega⟩)

theorem isFactor_short {q b w : Nat} (hb : b < 13) (hw : w < 3) : IsFactor q (0x1100 + 64 * q + 4 * b + w) :=
  .inr ⟨by omega, by omega⟩

theorem isFactor_long {q b : Nat} (hb : b < 22) : IsFactor q (0x1000 + 32 * q + b) := .inl ⟨by omega, by omega⟩

theorem widths_le (s : State) (q : Fin 4) : (widths s q).slen1 ≤ 4 ∧ (widths s q).slen2 ≤ 4 := s.cfg.slen_le _

/-- A scale factor's bits fit their element. -/
theorem factor_toNat {w : Window} {p n : Nat} (h : n ≤ 4) : (BitVec.ofNat 16 (memRead w p n)).toNat = memRead w p n := by
  rw [BitVec.toNat_ofNat, Nat.mod_eq_of_lt]
  have := memRead_lt w p n
  have : 2 ^ n ≤ 2 ^ 4 := Nat.pow_le_pow_right (by omega) h
  omega

/-- A present granule-channel of a frame decoded without error: its cursors, the records between its phases, and where its
OUT elements come from. -/
structure GranuleRun (s t : State) (q : Fin 4) (p0 pa pb : Nat) (m0 ma mc mb : Record) (r1 r2 : Nat) : Prop where
  start : startOf t q = (cursor p0).toNat
  startInside : p0 ≤ limitOf s q p0
  limitInside : limitOf s q p0 ≤ windowEnd s.window
  before : RecordOk m0
  factors : scaleFactors s.cfg.data s.window s.si q (limitOf s q p0) m0 p0 = some (ma, pa)
  factorsOk : RecordOk ma
  factorsForward : p0 ≤ pa
  factorsInside : pa ≤ limitOf s q p0
  regions : Machine.regions (lookupSfb s.cfg.data s.hdr.frequency) (gc s q) = some (r1, r2)
  linesBefore : RecordOk mc
  linesZero : ∀ k, IsLine q k → recordGet mc k = 0
  lines : spectral s.cfg.data s.window (gc s q) r1 r2 q (limitOf s q p0) mc pa = some (mb, pb)
  endPos : endOf t q = (cursor (granuleEnd s.cfg.data.limitMode (limitOf s q p0) pb)).toNat
  endForward : p0 ≤ pb
  endInside : pb ≤ limitOf s q p0
  factorZero : ∀ k, IsFactor q k → recordGet m0 k = 0
  factorOut : ∀ k, IsFactor q k → outElement t.md k = recordGet ma k
  earlierFactor : 2 ≤ q.val → ∀ k, IsFactor (q.val - 2) k → outElement t.md k = recordGet m0 k
  lineOut : ∀ k, IsLine q k → outElement t.md k = recordGet mb k
  region1Out : region1 t q = r1
  region2Out : region2 t q = r2

theorem granuleRun {s t : State} {q : Fin 4} (hi : s.pos.toNat ≤ bitsInWindow s) (h : MdDecoded s t) (hq : Present s q) :
    ∃ p0 pa pb m0 ma mc mb r1 r2, GranuleRun s t q p0 pa pb m0 ma mc mb r1 r2 := by
  obtain ⟨m, p, hf, hm, -⟩ := h.frame
  obtain ⟨m0, p0, m1, p1, hok, hp, hg, h0, h1, h2⟩ := decodeFrame_granule hi hf (mem_frameOrder.mpr hq)
  have hd := decodeGranule_done hok hp hg
  obtain ⟨ma, pa, r1, r2, mb, pb, e1, e2, e3, rfl, rfl⟩ := decodeGranule_phases hg
  have hlt := q.isLt
  rw [show granuleLimit s.cfg.data.limitMode (s.si.gc.get q) (windowEnd s.window) p0 = limitOf s q p0 from rfl] at e1 e3
  have hll : limitOf s q p0 ≤ windowEnd s.window := granuleLimit_le _ (s.si.gc.get q) _ p0
  have hpl : p0 ≤ limitOf s q p0 := le_granuleLimit (mode := s.cfg.data.limitMode) (r := s.si.gc.get q) hp
  have gs := grows_put (lim := limitOf s q p0) (pos := p0) (S := IsBook q) hok (outKind_startPos hlt) (v := cursor p0)
    (BitVec.isLt _) ⟨by unfold startPosIndex; omega, by unfold startPosIndex; omega⟩
  obtain ⟨gf, -⟩ := scaleFactors_grows gs.ok e1
  have hord := regions_ordered e2
  have gr1 : Grows (limitOf s q p0) (IsBook q) ma pa (recordPut ma (region1StartIndex q) (BitVec.ofNat 16 r1)) pa :=
    grows_put gf.ok (outKind_region1 hlt) (by simp only [outLimit, BitVec.toNat_ofNat]; omega)
      ⟨by unfold region1StartIndex; omega, by unfold region1StartIndex; omega⟩
  have gr2 := grows_put (lim := limitOf s q p0) (S := IsBook q) (pos := pa) gr1.ok (outKind_region2 hlt)
    (v := BitVec.ofNat 16 r2) (by simp only [outLimit, BitVec.toNat_ofNat]; omega)
    ⟨by unfold region2StartIndex; omega, by unfold region2StartIndex; omega⟩
  have hpa := gf.inside hpl
  have gl := spectral_grows hlt gr2.ok hpa e3
  have nb : ∀ k, (IsFactor q k ∨ IsLine q k) → ¬ IsBook q k := by
    intro k hk hb; unfold IsBook at hb; unfold IsFactor IsLine at hk; omega
  have nb' : ∀ k, IsFactor (q.val - 2) k → ¬ IsBook q k := by
    intro k hk hb; unfold IsBook at hb; unfold IsFactor at hk; omega
  have lf : ∀ k, IsLine q k → ¬ IsFactor q k := by
    intro k hk hf; unfold IsFactor at hf; unfold IsLine at hk; omega
  have ge : ∀ v k, ¬ IsBook q k → recordGet (recordPut mb (endPosIndex q) v) k = recordGet mb k := by
    intro v k hk
    rw [recordGet_put gl.ok.1, if_neg]
    intro he
    exact hk (he ▸ ⟨by unfold endPosIndex; omega, by unfold endPosIndex; omega⟩)
  have outE := outElement_of_record hm
  refine ⟨p0, pa, pb, _, ma, _, mb, r1, r2,
    { start := ?_, startInside := hpl, limitInside := hll, before := gs.ok, factors := e1, factorsOk := gf.ok
      factorsForward := gf.forward, factorsInside := hpa, regions := e2, linesBefore := gr2.ok, linesZero := ?_
      lines := e3, endPos := ?_, endForward := gf.forward.trans gl.forward, endInside := gl.inside hpa
      factorZero := ?_, factorOut := ?_, earlierFactor := ?_, lineOut := ?_, region1Out := ?_, region2Out := ?_ }⟩
  · have : outElement t.md (0x1200 + 4 * q.val + 2) = cursor p0 := by
      rw [outE, h1 _ (ofGranule_book q.val 2 (by omega)), ← hd.startPos]; rfl
    rw [startOf, this]
  · intro i hi
    rw [gr2.frame _ (nb _ (.inr hi)), gr1.frame _ (nb _ (.inr hi)), gf.frame _ (lf _ hi), gs.frame _ (nb _ (.inr hi)),
      h0 _ (.inl hi)]
  · have : outElement t.md (0x1200 + 4 * q.val + 3) =
        cursor (granuleEnd s.cfg.data.limitMode (limitOf s q p0) pb) := by
      rw [outE, h1 _ (ofGranule_book q.val 3 (by omega))]
      exact hd.endPos
    rw [endOf, this]
  · intro k hk
    rw [gs.frame _ (nb _ (.inl hk)), h0 _ (.inr (.inl hk))]
  · intro k hk
    rw [outE, h1 _ (.inr (.inl hk)), ge _ _ (nb _ (.inl hk)), gl.frame _ (fun h => lf _ h hk),
      gr2.frame _ (nb _ (.inl hk)), gr1.frame _ (nb _ (.inl hk))]
  · intro h2q k hk
    rw [outE, h2 k (.inr (.inl hk)) h2q, gs.frame _ (nb' _ hk)]
  · intro k hk
    rw [outE, h1 _ (.inl hk), ge _ _ (nb _ (.inr hk))]
  · obtain ⟨r1', r2', hr, e1, -⟩ := hd.regions
    rw [e2] at hr
    cases hr
    have : outElement t.md (0x1200 + 4 * q.val) = BitVec.ofNat 16 r1 := by
      rw [outE, h1 _ (by simpa using ofGranule_book q.val 0 (by omega)), ← e1]; rfl
    rw [region1, this, BitVec.toNat_ofNat]; omega
  · obtain ⟨r1', r2', hr, -, e1⟩ := hd.regions
    rw [e2] at hr
    cases hr
    have : outElement t.md (0x1200 + 4 * q.val + 1) = BitVec.ofNat 16 r2 := by
      rw [outE, h1 _ (ofGranule_book q.val 1 (by omega)), ← e1]; rfl
    rw [region2, this, BitVec.toNat_ofNat]; omega

/-! ### Scale factors, in the statements' words -/

/-- The scfsi nibble that counts for a long granule-channel: granule 0 shares nothing. -/
def usedScfsi (s : State) (q : Fin 4) : BitVec 4 := if 2 ≤ q.val then s.si.scfsi.get (channelOf q) else 0

theorem shared_iff (s : State) (q : Fin 4) (b : Nat) : Shared s q b ↔ scfsiBit (usedScfsi s q) (scfsiGroup b) = true := by
  unfold Shared usedScfsi
  split
  · rename_i h; simp only [h, true_and]; rfl
  · rename_i h; simp [h, scfsiBit]

theorem longBits_eq (s : State) (q : Fin 4) {b : Nat} (hb : b ≤ 21) :
    longBits s q b = bitsBefore (widths s q) (usedScfsi s q) b := by
  induction b with
  | zero => rw [bitsBefore_zero]; simp [longBits]
  | succ b ih =>
    have ih := ih (by omega)
    unfold longBits at ih ⊢
    rw [Finset.sum_range_succ, ih, bitsBefore_succ _ _ (by omega)]
    simp only [shared_iff]

/-- The phase of a long granule-channel, whichever granule it is in. -/
theorem scaleFactors_long {s : State} {q : Fin 4} (hs : isShort (gc s q) = false) (w : Window) (lim : Nat) (m : Record)
    (pos : Nat) :
    scaleFactors s.cfg.data w s.si q lim m pos = sharedFactors w (widths s q) (usedScfsi s q) q lim m pos := by
  have hlt := q.isLt
  rw [scaleFactors, if_neg (by rw [show isShort (s.si.gc.get q) = false from hs]; simp)]
  unfold usedScfsi
  split
  · rename_i hg
    rw [longFactors_groups, if_neg (by unfold granuleOf at hg; omega)]
    rfl
  · rename_i hg
    rw [if_pos (by unfold granuleOf at hg; omega)]
    rfl

theorem usedScfsi_cases (s : State) (q : Fin 4) : usedScfsi s q = 0 ∨ 2 ≤ q.val := by
  unfold usedScfsi
  split
  · exact .inr ‹_›
  · exact .inl rfl

/-- The phase of a short or mixed granule-channel. -/
theorem scaleFactors_short {s : State} {q : Fin 4} (hs : isShort (gc s q) = true) (w : Window) (lim : Nat) (m : Record)
    (pos : Nat) :
    scaleFactors s.cfg.data w s.si q lim m pos =
      shortFactors w (widths s q) (mixedBlockFlag (gc s q) != 0) q lim m pos := by
  rw [scaleFactors, if_pos (show isShort (s.si.gc.get q) = true from hs)]
  rfl

theorem mixedBits_eq (s : State) (q : Fin 4) :
    mixedBits s q = if (mixedBlockFlag (gc s q) != 0) = true then 8 * (widths s q).slen1 else 0 := by
  unfold mixedBits
  by_cases hm : mixedBlockFlag (gc s q) = 0
  · rw [if_neg (by simp [hm]), if_neg (by simp [hm])]
  · rw [if_pos hm, if_pos (by simpa using hm)]

/-- Scale factors that end without error take exactly their bits. -/
theorem scaleFactors_length {s : State} {q : Fin 4} {lim : Nat} {m m' : Record} {p p' : Nat} (hm : RecordOk m)
    (h : scaleFactors s.cfg.data s.window s.si q lim m p = some (m', p')) : p' = p + factorBits s q := by
  unfold factorBits
  have sl := widths_le s q
  cases hs : isShort (gc s q) with
  | false =>
    rw [scaleFactors_long hs] at h
    obtain ⟨g1, -⟩ := sharedFactors_get sl.1 sl.2 (usedScfsi_cases s q) q.isLt hm h
    rw [if_neg (by simp), longBits_eq s q le_rfl, g1]
  | true =>
    rw [scaleFactors_short hs] at h
    obtain ⟨g1, -⟩ := shortFactors_get q.isLt hm.1 h rfl
    rw [if_pos rfl, mixedBits_eq, g1]
    omega

theorem groupFactors_fits {w : Window} {shared : Bool} {width q lim lo n : Nat} {m : Record} {pos : Nat}
    (h : pos + (if shared = true then 0 else n * width) ≤ lim) :
    ∃ m', groupFactors w shared width q lim lo n m pos =
      some (m', pos + if shared = true then 0 else n * width) := by
  unfold groupFactors
  cases shared with
  | true => simp
  | false =>
    simp only [Bool.false_eq_true, if_false] at h ⊢
    have := readFactors_fits (w := w) (lim := lim) (width := width) (slots := longSlots q lo n) (m := m) (pos := pos)
      (by rw [longSlots_length]; exact h)
    rwa [longSlots_length] at this

/-- Scale factors that fit are read. -/
theorem scaleFactors_fits (s : State) (q : Fin 4) {lim p : Nat} (m : Record) (h : p + factorBits s q ≤ lim) :
    ∃ m', scaleFactors s.cfg.data s.window s.si q lim m p = some (m', p + factorBits s q) := by
  unfold factorBits at h ⊢
  cases hs : isShort (gc s q) with
  | false =>
    rw [hs, if_neg (by simp), longBits_eq s q le_rfl] at h
    rw [scaleFactors_long hs, if_neg (by simp), longBits_eq s q le_rfl]
    generalize usedScfsi s q = sc at h ⊢
    unfold bitsBefore at h ⊢
    simp only [Nat.min_eq_right (show 6 ≤ 21 by omega), Nat.min_eq_right (show 11 ≤ 21 by omega),
      Nat.min_eq_right (show 16 ≤ 21 by omega), Nat.min_self, Nat.reduceSub] at h ⊢
    obtain ⟨ma, h1⟩ := groupFactors_fits (w := s.window) (shared := scfsiBit sc 0) (width := (widths s q).slen1) (q := q)
      (lim := lim) (lo := 0) (n := 6) (m := m) (pos := p) (by omega)
    generalize hpa : (p + if scfsiBit sc 0 = true then 0 else 6 * (widths s q).slen1) = pa at h1
    obtain ⟨mb, h2⟩ := groupFactors_fits (w := s.window) (shared := scfsiBit sc 1) (width := (widths s q).slen1) (q := q)
      (lim := lim) (lo := 6) (n := 5) (m := ma) (pos := pa) (by omega)
    generalize hpb : (pa + if scfsiBit sc 1 = true then 0 else 5 * (widths s q).slen1) = pb at h2
    obtain ⟨mc, h3⟩ := groupFactors_fits (w := s.window) (shared := scfsiBit sc 2) (width := (widths s q).slen2) (q := q)
      (lim := lim) (lo := 11) (n := 5) (m := mb) (pos := pb) (by omega)
    generalize hpc : (pb + if scfsiBit sc 2 = true then 0 else 5 * (widths s q).slen2) = pc at h3
    obtain ⟨md, h4⟩ := groupFactors_fits (w := s.window) (shared := scfsiBit sc 3) (width := (widths s q).slen2) (q := q)
      (lim := lim) (lo := 16) (n := 5) (m := mc) (pos := pc) (by omega)
    refine ⟨md, ?_⟩
    simp only [sharedFactors, h1, h2, h3, h4]
    congr 2
    omega
  | true =>
    rw [hs, if_pos rfl] at h
    rw [scaleFactors_short hs, if_pos rfl]
    have e0 : mixedBits s q =
        (if (mixedBlockFlag (gc s q) != 0) = true then longSlots q 0 8 else []).length * (widths s q).slen1 := by
      rw [mixedBits_eq]
      split
      · rw [longSlots_length]
      · simp
    obtain ⟨ma, h1⟩ := readFactors_fits (w := s.window) (lim := lim) (width := (widths s q).slen1)
      (slots := if (mixedBlockFlag (gc s q) != 0) = true then longSlots q 0 8 else []) (m := m) (pos := p)
      (by rw [← e0]; omega)
    obtain ⟨mb, h2⟩ := readFactors_fits (w := s.window) (lim := lim) (width := (widths s q).slen1)
      (slots := shortSlots q 3 3) (m := ma) (pos := p + mixedBits s q) (by rw [shortSlots_length]; omega)
    obtain ⟨mc, h3⟩ := readFactors_fits (w := s.window) (lim := lim) (width := (widths s q).slen2)
      (slots := shortSlots q 6 6) (m := mb) (pos := p + mixedBits s q + 9 * (widths s q).slen1)
      (by rw [shortSlots_length]; omega)
    rw [← e0] at h1
    rw [shortSlots_length] at h2 h3
    refine ⟨mc, ?_⟩
    simp only [shortFactors, h1, h2, h3]
    congr 2
    omega

/-- Scale factors that do not fit are exhausted. -/
theorem scaleFactors_none (s : State) (q : Fin 4) {lim p : Nat} {m : Record} (hm : RecordOk m) (hp : p ≤ lim)
    (h : lim < p + factorBits s q) : scaleFactors s.cfg.data s.window s.si q lim m p = none := by
  cases hsf : scaleFactors s.cfg.data s.window s.si q lim m p with
  | none => rfl
  | some x =>
    have h1 := (scaleFactors_grows hm hsf).1.inside hp
    have h2 := scaleFactors_length hm hsf
    omega

/-! ### Codebooks that know every bit string -/

/-- The `n` bits at window position `p`. -/
def windowBits (w : Window) (p n : Nat) : List Bool := (List.range n).map fun j => decide (winBit w (p + j) = 1)

theorem windowBits_length (w : Window) (p n : Nat) : (windowBits w p n).length = n := by simp [windowBits]

theorem bitsAt_windowBits (w : Window) (p n : Nat) : BitsAt w p (windowBits w p n) := by
  intro j hj
  rw [windowBits_length] at hj
  have := winBit_le_one w (p + j)
  simp only [windowBits, List.getElem_map, List.getElem_range]
  rcases Nat.le_one_iff_eq_zero_or_eq_one.mp this with h | h <;> simp [h]

theorem matchBook_covering {α : Type} {w : Window} {book : List (CodeEntry α)} (h : Covering book) (lim pos : Nat) :
    matchBook w book lim pos ≠ .noMatch := by
  obtain ⟨e, he, h⟩ := h (windowBits w pos (lim - pos))
  have hb := bitsAt_windowBits w pos (lim - pos)
  have hl := windowBits_length w pos (lim - pos)
  have key : entryMatches w (lim - pos) pos e = true ∨ entryCutShort w (lim - pos) pos e = true := by
    rcases h with ⟨r, hr⟩ | ⟨r, hr⟩
    · left
      rw [← hr] at hb hl
      rw [List.length_append] at hl
      simp only [entryMatches, Bool.and_eq_true, decide_eq_true_eq, beq_iff_eq]
      exact ⟨by omega, memRead_codeValue (bitsAt_append.mp hb).1⟩
    · have hm := memRead_codeValue hb
      rw [hl] at hm
      have h2 : e.code.take (lim - pos) = windowBits w pos (lim - pos) := by rw [← hr, List.take_left' hl]
      have h3 : e.code.length = lim - pos + r.length := by rw [← hr, List.length_append, hl]
      by_cases hlt : lim - pos < e.code.length
      · right
        simp only [entryCutShort, Bool.and_eq_true, decide_eq_true_eq, beq_iff_eq]
        exact ⟨hlt, by rw [h2]; exact hm⟩
      · left
        have h4 : e.code.length = lim - pos := by omega
        have h5 : e.code = windowBits w pos (lim - pos) := by rw [← h2, List.take_of_length_le (by omega)]
        simp only [entryMatches, Bool.and_eq_true, decide_eq_true_eq, beq_iff_eq]
        exact ⟨by omega, by rw [h4, h5]; exact hm⟩
  unfold matchBook
  split
  · simp
  · rename_i hf
    rw [List.find?_eq_none] at hf
    rcases key with h | h
    · exact absurd h (hf e he)
    · rw [if_pos (List.any_eq_true.mpr ⟨e, he, h⟩)]; simp

theorem decodePair_known {c : ConfigData} {w : Window} {t : BitVec 5} (h : t = 0 ∨ Covering c.pairBook[t.toFin])
    (lim pos : Nat) : decodePair c w t lim pos ≠ .unknownCode := by
  unfold decodePair
  split
  · simp
  · rename_i h0
    split
    · rename_i hm; exact absurd hm (matchBook_covering (h.resolve_left h0) _ _)
    · simp
    · split <;> simp

theorem decodeQuad_known {c : ConfigData} {w : Window} {t : BitVec 1} (h : Covering c.quadBook[t.toFin])
    (lim pos : Nat) : decodeQuad c w t lim pos ≠ .unknownCode := by
  unfold decodeQuad
  split
  · rename_i hm; exact absurd hm (matchBook_covering h _ _)
  · simp
  · split <;> simp

theorem bigValuesLoop_known {c : ConfigData} {w : Window} {table : Nat → BitVec 5}
    (h : ∀ i, table i = 0 ∨ Covering c.pairBook[(table i).toFin]) (q lim pairs i : Nat) (m : Record) (pos : Nat) :
    bigValuesLoop c w table q lim pairs i m pos ≠ .unknownCode := by
  induction pairs generalizing i m pos with
  | zero => simp [bigValuesLoop]
  | succ n ih =>
    rw [bigValuesLoop]
    split
    · simp
    split
    · simp
    split
    · rename_i hd; exact absurd hd (decodePair_known (h i) _ _)
    · simp
    · exact ih _ _ _

theorem count1Loop_known {c : ConfigData} {w : Window} {t : BitVec 1} (h : Covering c.quadBook[t.toFin])
    (q lim fuel j : Nat) (m : Record) (pos : Nat) : count1Loop c w t q lim fuel j m pos ≠ .unknownCode := by
  induction fuel generalizing j m pos with
  | zero => simp [count1Loop]
  | succ n ih =>
    rw [count1Loop]
    split
    · simp
    split
    · simp
    split
    · rename_i hd; exact absurd hd (decodeQuad_known h _ _)
    · simp
    · exact ih _ _ _

/-! ### How many bits the spectral loops take -/

theorem bigValuesLoop_length {c : Config} {w : Window} {table : Nat → BitVec 5} {q lim pairs i : Nat} {m m' : Record}
    {pos pos' : Nat} (hp : pos ≤ lim)
    (h : (bigValuesLoop c.data w table q lim pairs i m pos).result = some (m', pos')) :
    pos' ≤ pos + 60 * min pairs ((577 - i) / 2) ∧ pos' ≤ lim := by
  induction pairs generalizing i m pos with
  | zero => simp [bigValuesLoop, LoopEnd.result] at h; omega
  | succ n ih =>
    rw [bigValuesLoop] at h
    split at h
    · simp [LoopEnd.result] at h; omega
    split at h
    · simp [LoopEnd.result] at h; omega
    split at h
    · simp [LoopEnd.result] at h
    · simp [LoopEnd.result] at h; omega
    · rename_i hd
      have := decodePair_ok hd hp
      have := ih (by omega) h
      omega

theorem count1Loop_length {c : Config} {w : Window} {t : BitVec 1} {q lim fuel j : Nat} {m m' : Record} {pos pos' : Nat}
    (hp : pos ≤ lim) (h : (count1Loop c.data w t q lim fuel j m pos).result = some (m', pos')) :
    pos' ≤ pos + 36 * ((579 - j) / 4) ∧ pos' ≤ lim := by
  induction fuel generalizing j m pos with
  | zero => simp [count1Loop, LoopEnd.result] at h; omega
  | succ n ih =>
    rw [count1Loop] at h
    split at h
    · simp [LoopEnd.result] at h; omega
    split at h
    · simp [LoopEnd.result] at h; omega
    split at h
    · simp [LoopEnd.result] at h
    · simp [LoopEnd.result] at h; omega
    · rename_i hd
      have := decodeQuad_ok hd hp
      have := ih (by omega) h
      omega

/-- With codebooks that know every bit string, the spectral lines end without error. -/
theorem spectral_known {c : Config} {w : Window} {r : ChannelSideInfo} {r1 r2 q lim : Nat} {m : Record} {pos : Nat}
    (hp : pos ≤ lim)
    (h1 : ∀ i, tableFor r r1 r2 i = 0 ∨ Covering c.data.pairBook[(tableFor r r1 r2 i).toFin])
    (h2 : Covering c.data.quadBook[r.count1TableSelect.toFin]) :
    ∃ m' p', spectral c.data w r r1 r2 q lim m pos = some (m', p') ∧ p' ≤ lim ∧
      p' ≤ pos + 60 * min r.bigValues.toNat 288 + 36 * ((579 - 2 * r.bigValues.toNat) / 4) := by
  unfold spectral
  cases hb : bigValuesLoop c.data w (tableFor r r1 r2) q lim r.bigValues.toNat 0 m pos with
  | unknownCode => exact absurd hb (bigValuesLoop_known h1 _ _ _ _ _ _)
  | stopped m' p' =>
    have := bigValuesLoop_length hp (by rw [hb]; rfl)
    exact ⟨m', p', rfl, this.2, by omega⟩
  | complete m' p' =>
    have := bigValuesLoop_length hp (by rw [hb]; rfl)
    cases hc : count1Loop c.data w r.count1TableSelect q lim 144 (2 * r.bigValues.toNat) m' p' with
    | unknownCode => exact absurd hc (count1Loop_known h2 _ _ _ _ _ _)
    | stopped m2 p2 =>
      have h3 := count1Loop_length this.2 (by rw [hc]; rfl)
      exact ⟨m2, p2, by simp [hc], h3.2, by omega⟩
    | complete m2 p2 =>
      have h3 := count1Loop_length this.2 (by rw [hc]; rfl)
      exact ⟨m2, p2, by simp [hc], h3.2, by omega⟩

/-! ### Spectral symbols, one after the other -/

/-- The big-values loop after `n` pair symbols, each started before the limit: `n` pairs fewer, `2n` lines on. -/
theorem bigValuesLoop_pairs {c : ConfigData} {w : Window} {table : Nat → BitVec 5} {q lim n : Nat} {p : Nat → Nat}
    (h : ∀ j < n, p j ≠ lim ∧ ∃ v, decodePair c w (table (2 * j)) lim (p j) = .ok v (p (j + 1))) (hn : n ≤ 288)
    (pairs : Nat) (m : Record) :
    ∃ m', bigValuesLoop c w table q lim (pairs + n) 0 m (p 0) = bigValuesLoop c w table q lim pairs (2 * n) m' (p n) := by
  induction n generalizing pairs with
  | zero => exact ⟨m, rfl⟩
  | succ n ih =>
    obtain ⟨m', hm⟩ := ih (fun j hj => h j (by omega)) (by omega) (pairs + 1)
    obtain ⟨hp, ⟨x, y⟩, hv⟩ := h n (by omega)
    refine ⟨putLine (putLine m' q (2 * n) x) q (2 * n + 1) y, ?_⟩
    rw [show pairs + (n + 1) = pairs + 1 + n by omega, hm, bigValuesLoop, if_neg hp, if_neg (by omega), hv]
    rfl

/-- The count1 loop after `k` quadruple symbols that begin below line 576 and before the limit. -/
theorem count1Loop_quads {c : ConfigData} {w : Window} {t : BitVec 1} {q lim first k : Nat} {r : Nat → Nat}
    (h : ∀ j < k, first + 4 * j < 576 ∧ r j ≠ lim ∧ ∃ v, decodeQuad c w t lim (r j) = .ok v (r (j + 1)))
    (fuel : Nat) (m : Record) :
    ∃ m', count1Loop c w t q lim (fuel + k) first m (r 0) = count1Loop c w t q lim fuel (first + 4 * k) m' (r k) := by
  induction k generalizing fuel with
  | zero => exact ⟨m, rfl⟩
  | succ k ih =>
    obtain ⟨m', hm⟩ := ih (fun j hj => h j (by omega)) (fuel + 1)
    obtain ⟨h1, h2, v, hv⟩ := h k (by omega)
    refine ⟨putLineInside (putLineInside (putLineInside (putLineInside m' q (first + 4 * k) v.q0) q (first + 4 * k + 1)
      v.q1) q (first + 4 * k + 2) v.q2) q (first + 4 * k + 3) v.q3, ?_⟩
    rw [show fuel + (k + 1) = fuel + 1 + k by omega, hm, count1Loop, if_neg (by omega), if_neg h2, hv]
    rfl

/-- The statements' table of a line is the decoder's. -/
theorem lineTable_eq {s : State} {q : Fin 4} {r1 r2 : Nat}
    (h : Machine.regions (lookupSfb s.cfg.data s.hdr.frequency) (gc s q) = some (r1, r2)) (i : Nat) :
    lineTable s q i = tableFor (gc s q) r1 r2 i := by
  unfold Machine.regions lookupSfb at h
  unfold lineTable tableFor bandBound bandTable
  split at h
  · rename_i hs
    cases h
    simp only [hs, if_true]
  · rename_i hs
    cases hT : s.cfg.data.sfbLong.find? fun T => T.hz == s.hdr.frequency with
    | none => simp [hT] at h
    | some T =>
      simp only [hT, Option.map_some, Option.some.injEq, Prod.mk.injEq] at h
      obtain ⟨rfl, rfl⟩ := h
      have e : ∀ i, T.bounds.toList.getD i 576 = bandStart T.bounds i := by
        intro i
        unfold bandStart
        split
        · rename_i hi; rw [List.getD_eq_getElem _ _ (by simpa using hi)]; simp
        · rename_i hi; rw [List.getD_eq_default _ _ (by simpa using hi)]
      simp only [hs, Bool.false_eq_true, if_false, e]

variable {s : State} {q : Fin 4} {start r1 r2 : Nat}

/-- The big-values loop at the symbol after `PairsTo`. -/
theorem PairsTo.loop {n : Nat} {p : Nat → Nat} (h : PairsTo s q start n p)
    (hr : Machine.regions (lookupSfb s.cfg.data s.hdr.frequency) (gc s q) = some (r1, r2)) (m : Record) :
    ∃ m', bigValuesLoop s.cfg.data s.window (tableFor (gc s q) r1 r2) q (limitOf s q start) (gc s q).bigValues.toNat 0 m
        (start + factorBits s q) =
      bigValuesLoop s.cfg.data s.window (tableFor (gc s q) r1 r2) q (limitOf s q start)
        ((gc s q).bigValues.toNat - n) (2 * n) m' (p n) := by
  obtain ⟨-, hn, h0, h⟩ := h
  simp only [pairOf, lineTable_eq hr] at h
  obtain ⟨m', hm⟩ := bigValuesLoop_pairs (q := q) h (by omega) ((gc s q).bigValues.toNat - n) m
  exact ⟨m', by rw [← hm, ← h0, Nat.sub_add_cancel (by omega)]⟩

/-- Where all pairs are decoded the spectral lines go on in the count1 loop, at the symbol after `QuadsTo`. -/
theorem QuadsTo.loop {k : Nat} {p r : Nat → Nat} (h : QuadsTo s q start p k r)
    (hr : Machine.regions (lookupSfb s.cfg.data s.hdr.frequency) (gc s q) = some (r1, r2)) (m : Record) :
    ∃ m', spectral s.cfg.data s.window (gc s q) r1 r2 q (limitOf s q start) m (start + factorBits s q) =
      (count1Loop s.cfg.data s.window (gc s q).count1TableSelect q (limitOf s q start) (144 - k)
        (2 * (gc s q).bigValues.toNat + 4 * k) m' (r k)).result := by
  obtain ⟨hp, h0, hk⟩ := h
  obtain ⟨m1, h1⟩ := hp.loop hr m
  have hk144 : k ≤ 144 := by
    rcases Nat.eq_zero_or_pos k with h | h
    · omega
    · have := (hk (k - 1) (by omega)).1; omega
  obtain ⟨m2, h2⟩ := count1Loop_quads (q := q) (fuel := 144 - k) (fun j hj => hk j hj) m1
  have done : ∀ (fuel j : Nat) (m : Record) (pos : Nat), 576 ≤ j →
      count1Loop s.cfg.data s.window (gc s q).count1TableSelect q (limitOf s q start) fuel j m pos = .complete m pos := by
    intro fuel j m pos hj
    cases fuel with
    | zero => rfl
    | succ fuel => rw [count1Loop, if_pos hj]
  unfold spectral
  rw [h1]
  rcases Nat.lt_or_ge 288 (gc s q).bigValues.toNat with hb | hb
  · have hk0 : k = 0 := by
      rcases Nat.eq_zero_or_pos k with h | h
      · exact h
      · have := (hk 0 h).1; omega
    subst hk0
    refine ⟨m1, ?_⟩
    rw [min_eq_right (by omega)] at h0 ⊢
    obtain ⟨b, hb⟩ : ∃ b, (gc s q).bigValues.toNat - 288 = b + 1 := ⟨_, (Nat.succ_pred (by omega)).symm⟩
    rw [hb, bigValuesLoop, done _ _ _ _ (by omega), h0]
    by_cases hl : p 288 = limitOf s q start
    · rw [if_pos hl]; rfl
    · rw [if_neg hl, if_pos (by omega)]; simp only [done _ _ _ _ (show 576 ≤ 2 * (gc s q).bigValues.toNat by omega)]; rfl
  · refine ⟨m2, ?_⟩
    rw [min_eq_left hb] at h0 ⊢
    rw [Nat.sub_self, bigValuesLoop]
    simp only []
    rw [← h2, Nat.sub_add_cancel hk144, h0]
    cases count1Loop s.cfg.data s.window (gc s q).count1TableSelect q (limitOf s q start) 144
      (2 * (gc s q).bigValues.toNat) m1 (p (gc s q).bigValues.toNat) <;> rfl

/-- The lines of a granule-channel that ends without error. -/
theorem EndsAt.spectral {stop : Nat} (h : EndsAt s q start stop)
    (hr : Machine.regions (lookupSfb s.cfg.data s.hdr.frequency) (gc s q) = some (r1, r2)) (m : Record) :
    start + factorBits s q ≤ limitOf s q start ∧
      ∃ mb p, Machine.spectral s.cfg.data s.window (gc s q) r1 r2 q (limitOf s q start) m (start + factorBits s q) =
        some (mb, p) ∧ endFrom s q start p = stop := by
  rcases h with ⟨n, p, hp, hn, hend, rfl⟩ | ⟨p, k, r, hk, hend, rfl⟩
  · obtain ⟨mb, hb⟩ := hp.loop hr m
    obtain ⟨b, hbv⟩ : ∃ b, (gc s q).bigValues.toNat - n = b + 1 := ⟨_, (Nat.succ_pred (by omega)).symm⟩
    refine ⟨hp.1, mb, p n, ?_, rfl⟩
    rw [Machine.spectral, hb, hbv, bigValuesLoop]
    by_cases hl : p n = limitOf s q start
    · rw [if_pos hl]
    · have h := hend.resolve_left hl
      rw [pairOf, lineTable_eq hr] at h
      rw [if_neg hl, if_neg (by omega), h]
  · obtain ⟨mb, hb⟩ := hk.loop hr m
    refine ⟨hk.1.1, mb, r k, ?_, rfl⟩
    rw [hb]
    cases 144 - k with
    | zero => rfl
    | succ fuel =>
      rw [count1Loop]
      by_cases h5 : 576 ≤ 2 * (gc s q).bigValues.toNat + 4 * k
      · rw [if_pos h5]; rfl
      rw [if_neg h5]
      by_cases hl : r k = limitOf s q start
      · rw [if_pos hl]; rfl
      · have h := (hend (by omega)).resolve_left hl
        rw [quadAt] at h
        rw [if_neg hl, h]
        rfl

/-- The lines of a granule-channel that meets an unknown code. -/
theorem MeetsUnknownCode.spectral (h : MeetsUnknownCode s q start)
    (hr : Machine.regions (lookupSfb s.cfg.data s.hdr.frequency) (gc s q) = some (r1, r2)) (m : Record) :
    start + factorBits s q ≤ limitOf s q start ∧
      Machine.spectral s.cfg.data s.window (gc s q) r1 r2 q (limitOf s q start) m (start + factorBits s q) = none := by
  rcases h with ⟨n, p, hp, hn, hl, ht, hbook⟩ | ⟨p, k, r, hk, h5, hl, hbook⟩
  · obtain ⟨mb, hb⟩ := hp.loop hr m
    obtain ⟨b, hbv⟩ : ∃ b, (gc s q).bigValues.toNat - n = b + 1 := ⟨_, (Nat.succ_pred (by omega)).symm⟩
    refine ⟨hp.1, ?_⟩
    rw [Machine.spectral, hb, hbv, bigValuesLoop, if_neg hl, if_neg (by omega), ← lineTable_eq hr, decodePair, if_neg ht,
      match_noMatch hbook]
  · obtain ⟨mb, hb⟩ := hk.loop hr m
    obtain ⟨b, hbv⟩ : ∃ b, 144 - k = b + 1 := ⟨_, (Nat.succ_pred (by omega)).symm⟩
    refine ⟨hk.1.1, ?_⟩
    rw [hb, hbv, count1Loop, if_neg (by omega), if_neg hl, decodeQuad, match_noMatch hbook]
    rfl

/-! ### A granule-channel and the frame before it -/

/-- A granule-channel that ends without error. -/
theorem EndsAt.decodeGranule {stop : Nat} (h : EndsAt s q start stop) (hr : MdReady s) (hq : Present s q) (m : Record) :
    ∃ m', Machine.decodeGranule s.cfg.data s.window (lookupSfb s.cfg.data s.hdr.frequency) s.si q m start =
      .ok (m', stop) := by
  obtain ⟨r1, r2, e⟩ := hr.regions hq
  obtain ⟨ma, hsf⟩ := scaleFactors_fits s q (recordPut m (startPosIndex q) (cursor start)) (h.spectral e m).1
  obtain ⟨-, mb, p, hsp, rfl⟩ := h.spectral e (recordPut (recordPut ma (region1StartIndex q) (BitVec.ofNat 16 r1))
    (region2StartIndex q) (BitVec.ofNat 16 r2))
  refine ⟨recordPut mb (endPosIndex q) (cursor (endFrom s q start p)), ?_⟩
  rw [show limitOf s q start = granuleLimit s.cfg.data.limitMode (s.si.gc.get q) (windowEnd s.window) start from rfl]
    at hsf hsp
  simp only [Machine.decodeGranule, hsf, e]
  rw [gc] at hsp
  rw [hsp]
  rfl

/-- A granule-channel that meets an unknown code. -/
theorem MeetsUnknownCode.decodeGranule (h : MeetsUnknownCode s q start) (hr : MdReady s) (hq : Present s q)
    (m : Record) :
    Machine.decodeGranule s.cfg.data s.window (lookupSfb s.cfg.data s.hdr.frequency) s.si q m start =
      .error ⟨.unknownCode, 0x14 ||| BitVec.ofNat 8 q.val⟩ := by
  obtain ⟨r1, r2, e⟩ := hr.regions hq
  obtain ⟨ma, hsf⟩ := scaleFactors_fits s q (recordPut m (startPosIndex q) (cursor start)) (h.spectral e m).1
  have hsp := (h.spectral e (recordPut (recordPut ma (region1StartIndex q) (BitVec.ofNat 16 r1))
    (region2StartIndex q) (BitVec.ofNat 16 r2))).2
  rw [show limitOf s q start = granuleLimit s.cfg.data.limitMode (s.si.gc.get q) (windowEnd s.window) start from rfl]
    at hsf hsp
  simp only [Machine.decodeGranule, hsf, e]
  rw [gc] at hsp
  rw [hsp]

/-- A granule-channel whose scale factors do not fit. -/
theorem decodeGranule_exhausted {m : Record} (hm : RecordOk m) (hs : start ≤ bitsInWindow s)
    (h : limitOf s q start < start + factorBits s q) :
    Machine.decodeGranule s.cfg.data s.window (lookupSfb s.cfg.data s.hdr.frequency) s.si q m start =
      .error ⟨.exhausted, 0x10 ||| BitVec.ofNat 8 q.val⟩ := by
  have hsf := scaleFactors_none s q (m := recordPut m (startPosIndex q) (cursor start))
    (recordPut_ok hm (outKind_startPos q.isLt) (BitVec.isLt _))
    (le_granuleLimit (mode := s.cfg.data.limitMode) (r := s.si.gc.get q) (e := windowEnd s.window) hs) h
  simp only [Machine.decodeGranule, hsf]

/-- Decoding two lists of granule-channels, the second from where the first ended. -/
theorem decodeGranules_append {c : ConfigData} {w : Window} {t : Option (Vector Nat 23)} {si : SideInfo}
    (a b : List (Fin 4)) (m : Record) (pos : Nat) :
    decodeGranules c w t si (a ++ b) m pos =
      match decodeGranules c w t si a m pos with
      | .error e => .error e
      | .ok (m, pos) => decodeGranules c w t si b m pos := by
  induction a generalizing m pos with
  | nil => rfl
  | cons q a ih =>
    simp only [List.cons_append, decodeGranules]
    cases decodeGranule c w t si q m pos with
    | error e => rfl
    | ok x => exact ih x.1 x.2

/-- The granule-channels of a frame before number `n`. -/
def granulesBefore (s : State) (n : Nat) : List (Fin 4) := (frameOrder (isMono s.hdr)).filter fun p => p.val < n

/-- One more granule-channel, where it is present. -/
theorem granulesBefore_succ (s : State) (q : Fin 4) :
    (Present s q → granulesBefore s (q.val + 1) = granulesBefore s q.val ++ [q]) ∧
      (¬ Present s q → granulesBefore s (q.val + 1) = granulesBefore s q.val) := by
  rw [← mem_frameOrder]
  unfold granulesBefore
  generalize isMono s.hdr = mono
  revert mono q
  decide

theorem granulesBefore_four (s : State) : granulesBefore s 4 = frameOrder (isMono s.hdr) := by
  unfold granulesBefore
  cases isMono s.hdr <;> rfl

/-- A present granule-channel's place in the decode order. -/
theorem frameOrder_at {s : State} {q : Fin 4} (hq : Present s q) :
    ∃ rest, frameOrder (isMono s.hdr) = granulesBefore s q.val ++ q :: rest := by
  refine ⟨(frameOrder (isMono s.hdr)).filter fun p => q.val < p.val, ?_⟩
  rw [← mem_frameOrder] at hq
  unfold granulesBefore
  revert hq
  generalize isMono s.hdr = mono
  revert mono q
  decide

/-- The granule-channels before number `n` decode, one from where the other ended. -/
theorem granules_run {n : Nat} {c : Nat → Nat} (h0 : c 0 = s.pos.toNat) (hs : s.pos.toNat ≤ bitsInWindow s) (hn : n ≤ 4)
    (hstep : ∀ q : Fin 4, q.val < n → c q.val ≤ bitsInWindow s →
      (Present s q → ∀ m, ∃ m', decodeGranule s.cfg.data s.window (lookupSfb s.cfg.data s.hdr.frequency) s.si q m
        (c q.val) = .ok (m', c (q.val + 1))) ∧ (¬ Present s q → c (q.val + 1) = c q.val)) :
    ∃ m, decodeGranules s.cfg.data s.window (lookupSfb s.cfg.data s.hdr.frequency) s.si (granulesBefore s n) []
      s.pos.toNat = .ok (m, c n) ∧ RecordOk m ∧ c n ≤ bitsInWindow s := by
  induction n with
  | zero => exact ⟨[], by rw [h0]; simp [granulesBefore, decodeGranules], recordOk_nil, by omega⟩
  | succ n ih =>
    obtain ⟨m, h1, h2, h3⟩ := ih (by omega) fun q hq => hstep q (by omega)
    obtain ⟨hp, ha⟩ := hstep ⟨n, by omega⟩ (by simp) h3
    have hg := granulesBefore_succ s ⟨n, by omega⟩
    by_cases hq : Present s ⟨n, by omega⟩
    · obtain ⟨m', hm'⟩ := hp hq m
      have hall : decodeGranules s.cfg.data s.window (lookupSfb s.cfg.data s.hdr.frequency) s.si
          (granulesBefore s (n + 1)) [] s.pos.toNat = .ok (m', c (n + 1)) := by
        rw [hg.1 hq, decodeGranules_append, h1]
        simp only [decodeGranules, hm']
      have hgr := decodeGranules_grows recordOk_nil hs hall
      exact ⟨m', hall, hgr.ok, hgr.inside hs⟩
    · exact ⟨m, by rw [hg.2 hq, ha hq]; exact h1, h2, by rw [ha hq]; exact h3⟩

/-- The same in the statements' words. -/
theorem RunsThrough.granules {n : Nat} {c : Nat → Nat} (h : RunsThrough s n c) (hn : n ≤ 4) (hr : MdReady s)
    (hs : s.pos.toNat ≤ bitsInWindow s) :
    ∃ m, decodeGranules s.cfg.data s.window (lookupSfb s.cfg.data s.hdr.frequency) s.si (granulesBefore s n) []
      s.pos.toNat = .ok (m, c n) ∧ RecordOk m ∧ c n ≤ bitsInWindow s :=
  granules_run h.1 hs hn fun q hq _ => ⟨fun hp m => ((h.2 q hq).1 hp).decodeGranule hr hp m, (h.2 q hq).2⟩

/-- The first granule-channel that fails names the frame's error. -/
theorem RunsThrough.decodeFrame_error {c : Nat → Nat} (h : RunsThrough s q.val c) (hr : MdReady s)
    (hs : s.pos.toNat ≤ bitsInWindow s) (hq : Present s q) {e : CmdError}
    (he : c q.val ≤ bitsInWindow s → ∀ m, RecordOk m →
      decodeGranule s.cfg.data s.window (lookupSfb s.cfg.data s.hdr.frequency) s.si q m (c q.val) = .error e) :
    decodeFrame s.cfg.data s.window s.hdr s.si s.pos.toNat = .error e := by
  obtain ⟨m, h1, h2, h3⟩ := h.granules (by omega) hr hs
  obtain ⟨rest, hrest⟩ := frameOrder_at hq
  rw [decodeFrame, hrest, decodeGranules_append, h1]
  simp only [decodeGranules, he h3 m h2]

/-! ### MD_DECODE from its frame -/

/-- After its checks MD_DECODE ends as the frame does. -/
theorem MdReady.exec_error {s : State} (hr : MdReady s) {e : CmdError}
    (h : decodeFrame s.cfg.data s.window s.hdr s.si s.pos.toNat = .error e) :
    exec .mdDecode s = .next (endError { mdInvalid s with md := .drawn s.draws, draws := s.draws + 1 }
      (errorCode e.kind) e.detail) := by
  have hb := hr.bandTable
  obtain ⟨hh, hs, -⟩ := hr
  have he := fail_eq_endError (invalidateMd s).scrambleOut e.kind e.detail
  simp only [exec, execMdDecode, hh, hs, hb, h, Bool.not_true, Bool.false_eq_true, if_false]
  exact congrArg _ he

theorem MdReady.exec_ok {s : State} (hr : MdReady s) {m : Record} {p : Nat}
    (h : decodeFrame s.cfg.data s.window s.hdr s.si s.pos.toNat = .ok (m, p)) :
    exec .mdDecode s = .next (endOk { s with md := .record m, mdValid := true, pos := cursor p }) := by
  have hb := hr.bandTable
  obtain ⟨hh, hs, -⟩ := hr
  simp only [exec, execMdDecode, hh, hs, hb, h, Bool.not_true, Bool.false_eq_true, if_false]
  rfl

/-- A granule-channel whose scale factors fit and whose codebooks know every bit string ends without error. -/
theorem CoveringTables.decodeGranule {s : State} {q : Fin 4} {start : Nat} (hc : CoveringTables s q) (hr : MdReady s)
    (hq : Present s q) (hf : start + factorBits s q ≤ limitOf s q start) (m : Record) :
    ∃ m' stop, Machine.decodeGranule s.cfg.data s.window (lookupSfb s.cfg.data s.hdr.frequency) s.si q m start =
        .ok (m', stop) ∧ stop ≤ bitsInWindow s ∧
      (s.cfg.data.limitMode = .span → stop ≤ start + mostBits s q) ∧
      (s.cfg.data.limitMode = .part23 → stop = limitOf s q start) := by
  have hl : limitOf s q start ≤ bitsInWindow s :=
    granuleLimit_le s.cfg.data.limitMode (s.si.gc.get q) (windowEnd s.window) start
  obtain ⟨r1, r2, e⟩ := hr.regions hq
  obtain ⟨ma, hsf⟩ := scaleFactors_fits s q (recordPut m (startPosIndex q) (cursor start)) hf
  obtain ⟨mb, p, hsp, h2, h3⟩ := spectral_known (w := s.window) (q := q.val) (r1 := r1) (r2 := r2) (r := s.si.gc.get q)
    (m := recordPut (recordPut ma (region1StartIndex q) (BitVec.ofNat 16 r1)) (region2StartIndex q) (BitVec.ofNat 16 r2))
    hf (fun i => hc.2 _ (by
      unfold tableFor
      split
      · exact .inl rfl
      · split
        · exact .inr (.inl rfl)
        · exact .inr (.inr rfl))) hc.1
  have hend : granuleEnd s.cfg.data.limitMode (limitOf s q start) p ≤ bitsInWindow s := by
    unfold granuleEnd; split <;> omega
  refine ⟨recordPut mb (endPosIndex q) (cursor (granuleEnd s.cfg.data.limitMode (limitOf s q start) p)),
    granuleEnd s.cfg.data.limitMode (limitOf s q start) p, ?_, hend, fun hm => ?_, fun hm => ?_⟩
  · rw [show limitOf s q start = granuleLimit s.cfg.data.limitMode (s.si.gc.get q) (windowEnd s.window) start from rfl]
      at hsf hsp ⊢
    simp only [Machine.decodeGranule, hsf, e, hsp]
  · rw [hm]
    unfold mostBits
    exact le_of_le_of_eq h3 (by unfold gc; omega)
  · rw [hm]; rfl

end Sys2Proof.Spec
end

