-- ==== Sys2Proof/Laws/PerInstr.lean ====
section
/-! SUPPORT. Statements about each instruction as syntax, one lemma per constructor. -/

namespace Sys2Proof.Laws.OpcodeRow

/-- The encoder's word stands in the opcode map's row of this command, with its own operand, and sets none of the operand
bits that row reserves (spec/30_encoding.md R121). -/
def Statement (i : Instr) : Prop :=
  ∃ reserved, opcodeRow (encode i) = some (i, reserved) ∧ (encode i).extractLsb' 0 24 &&& reserved = 0

theorem nop : Statement .nop := ⟨0xFFFFFF, by decide, by decide⟩
theorem brOpen : Statement .brOpen := ⟨0xFFFFFF, by decide, by decide⟩
theorem hdrDecode : Statement .hdrDecode := ⟨0xFFFFFF, by decide, by decide⟩
theorem siDecode : Statement .siDecode := ⟨0xFFFFFF, by decide, by decide⟩
theorem mdDecode : Statement .mdDecode := ⟨0xFFFFFF, by decide, by decide⟩
theorem srst : Statement .srst := ⟨0xFFFFFF, by decide, by decide⟩

theorem brRead (n : BitVec 6) : Statement (.brRead n) := by
  refine ⟨0xFFFFC0, ?_, ?_⟩ <;> revert n <;> decide

theorem brPeek (n : BitVec 6) : Statement (.brPeek n) := by
  refine ⟨0xFFFFC0, ?_, ?_⟩ <;> revert n <;> decide

theorem huffPair (t : BitVec 5) : Statement (.huffPair t) := by
  refine ⟨0xFFFFE0, ?_, ?_⟩ <;> revert t <;> decide

theorem huffQuad (t : BitVec 1) : Statement (.huffQuad t) := by
  refine ⟨0xFFFFFE, ?_, ?_⟩ <;> revert t <;> decide

theorem brSeek (off : BitVec 16) : Statement (.brSeek off) := by
  have hf : (off.setWidth 24).extractLsb' 0 16 = off := by
    ext i hi
    simp [show i < 24 by omega, BitVec.getLsbD_eq_getElem hi]
  refine ⟨0xFF0000, ?_, ?_⟩
  · simp only [opcodeRow, opcodeOf, encode, commandWord_opcode]
    show some (Instr.brSeek ((commandWord 0x04 (off.setWidth 24)).extractLsb' 0 16), _) = _
    rw [commandWord_low _ _ (by omega), hf]
  · rw [encode, commandWord_operand]
    apply BitVec.eq_of_getLsbD_eq
    intro i hi
    interval_cases i <;> simp

end Sys2Proof.Laws.OpcodeRow
end

