-- ==== Sys2Proof/Laws/Steps.lean ====
section
/-! SUPPORT. What the parts of a step can do: a command, the sequencer's turn, a host access, and a run of steps. -/

namespace Sys2Proof.Machine

/-- Whichever way a command ends: the configuration and the environment's side are as before, and it is over. -/
theorem exec_keeps {i : Instr} {s t : State} (h : exec i s = .next t) :
    t.cfg = s.cfg ∧ t.inputs = s.inputs ∧ t.busy = false ∧ t.replies = s.replies := by
  cases i with
  | nop => rw [nop_eq] at h; cases h; exact ⟨rfl, rfl, rfl, rfl⟩
  | srst => rw [srst_eq] at h; cases h; exact ⟨rfl, rfl, rfl, rfl⟩
  | brOpen => obtain ⟨g, -⟩ | ⟨g, -⟩ := brOpen_cases s <;> rw [g] at h <;> cases h <;> exact ⟨rfl, rfl, rfl, rfl⟩
  | brRead n =>
    obtain ⟨-, -, g⟩ | ⟨-, -, g⟩ | ⟨-, g⟩ := brRead_cases n s <;> rw [g] at h <;> cases h <;>
      exact ⟨rfl, rfl, rfl, rfl⟩
  | brPeek n =>
    obtain ⟨-, -, g⟩ | ⟨-, -, g⟩ | ⟨-, g⟩ := brPeek_cases n s <;> rw [g] at h <;> cases h <;>
      exact ⟨rfl, rfl, rfl, rfl⟩
  | brSeek off =>
    obtain ⟨-, g⟩ | ⟨-, g⟩ := brSeek_cases off s <;> rw [g] at h <;> cases h <;> exact ⟨rfl, rfl, rfl, rfl⟩
  | hdrDecode =>
    obtain ⟨-, g⟩ | ⟨-, ⟨_, -, g⟩ | ⟨_, -, g⟩⟩ := hdrDecode_cases s <;> rw [g] at h <;> cases h <;>
      exact ⟨rfl, rfl, rfl, rfl⟩
  | siDecode =>
    obtain ⟨-, g⟩ | ⟨-, -, g⟩ | ⟨-, -, g⟩ := siDecode_cases s <;> rw [g] at h <;> cases h <;>
      exact ⟨rfl, rfl, rfl, rfl⟩
  | huffPair k =>
    obtain ⟨-, g⟩ | ⟨-, g⟩ | ⟨_, _, _, -, g⟩ := huffPair_cases k s <;> rw [g] at h <;> cases h <;>
      exact ⟨rfl, rfl, rfl, rfl⟩
  | huffQuad k =>
    obtain ⟨-, g⟩ | ⟨-, g⟩ | ⟨_, _, -, g⟩ := huffQuad_cases k s <;> rw [g] at h <;> cases h <;>
      exact ⟨rfl, rfl, rfl, rfl⟩
  | mdDecode =>
    obtain ⟨-, g⟩ | ⟨-, -, g⟩ | ⟨-, -, ⟨-, g⟩ | ⟨-, ⟨_, -, g⟩ | ⟨_, _, -, g⟩⟩⟩ := mdDecode_cases s <;>
      rw [g] at h <;> cases h <;> exact ⟨rfl, rfl, rfl, rfl⟩

theorem drawnOutcome_keeps (s : State) :
    (drawnOutcome s).cfg = s.cfg ∧ (drawnOutcome s).inputs = s.inputs ∧ (drawnOutcome s).busy = false := by
  refine ⟨?_, ?_, rfl⟩ <;> (simp only [drawnOutcome, drawnResults, drawnSetup]; split <;> rfl)

/-- A completion ends the command. -/
theorem completion_keeps {s t : State} (h : completion s = .next t) :
    t.cfg = s.cfg ∧ t.inputs = s.inputs ∧ t.busy = false := by
  unfold completion at h
  split at h
  · cases h; exact drawnOutcome_keeps s
  · split at h
    · cases h; exact ⟨rfl, rfl, rfl⟩
    · obtain ⟨a, b, c, -⟩ := exec_keeps h; exact ⟨a, b, c⟩

theorem sequencerTurn_keeps {s t : State} (h : sequencerTurn s = .next t) :
    t.cfg = s.cfg ∧ t.inputs = s.inputs ∧ t.busy = false := by
  unfold sequencerTurn at h
  split at h
  · exact completion_keeps h
  · rename_i hb
    cases h
    exact ⟨rfl, rfl, by simpa using hb⟩

/-- The sequencer's turn never stops. -/
theorem sequencerTurn_next (s : State) : ∃ t, sequencerTurn s = .next t := by
  unfold sequencerTurn completion
  split
  · split
    · exact ⟨_, rfl⟩
    · split
      · exact ⟨_, rfl⟩
      · exact exec_next _ _
  · exact ⟨_, rfl⟩

/-! ### Host accesses -/

/-- A word access inside the aperture is legal. -/
theorem accessOffset_ok {s : State} (h : s.resetAsserted = false) {o : Nat} (ho : o < 256) (h4 : o % 4 = 0) :
    accessOffset s (s.cfg.data.regBase + o) 4 = .ok o := by
  unfold accessOffset
  rw [if_neg (by simp [h]), if_neg (by omega), if_neg (by omega)]
  congr 1
  omega

theorem hostRead_cases (addr bytes : Nat) (s : State) :
    (∃ e, accessOffset s addr bytes = .error e ∧ hostRead addr bytes s = .refused e) ∨
    (∃ o t, accessOffset s addr bytes = .ok o ∧ hostRead addr bytes s = .next t) := by
  unfold hostRead
  cases h : accessOffset s addr bytes with
  | error e => exact .inl ⟨e, rfl, rfl⟩
  | ok o =>
    refine .inr ⟨o, ?_⟩
    simp only []
    cases regAt o <;> simp

theorem hostWrite_cases (addr bytes : Nat) (d : Word) (s : State) :
    (∃ e, accessOffset s addr bytes = .error e ∧ hostWrite addr bytes d s = .refused e) ∨
    (∃ o t, accessOffset s addr bytes = .ok o ∧ hostWrite addr bytes d s = .next t) := by
  unfold hostWrite
  cases h : accessOffset s addr bytes with
  | error e => exact .inl ⟨e, rfl, rfl⟩
  | ok o =>
    refine .inr ⟨o, ?_⟩
    simp only []
    cases regAt o <;> simp

/-- A write to a register leaves the configuration, the pending inputs and the cursor. -/
theorem writeReg_keeps (s : State) (r : Reg) (d : Word) :
    (writeReg s r d).cfg = s.cfg ∧ (writeReg s r d).inputs = s.inputs ∧ (writeReg s r d).pos = s.pos := by
  cases r <;> simp only [writeReg, writeCmd, writeBrBase, writeBrLen, writeIbufData] <;> (try split) <;>
    first | exact ⟨rfl, rfl, rfl⟩ | exact ⟨trivial, trivial, trivial⟩

/-- A read of a register leaves the configuration, the pending inputs, the cursor and ERR. -/
theorem readReg_keeps (s : State) (r : Reg) :
    (readReg s r).cfg = s.cfg ∧ (readReg s r).inputs = s.inputs ∧ (readReg s r).pos = s.pos ∧ (readReg s r).err = s.err := by
  unfold readReg
  split <;> cases r <;> exact ⟨rfl, rfl, rfl, rfl⟩

/-- The side effect of a read at an offset: only the two data ports have one. -/
theorem afterRead_at {o : Nat} {r : Reg} (h : regAt o = some r) (s : State) :
    afterRead s r =
      { s with
        ibufAddr := if o = 0x034 then s.ibufAddr + 1 else s.ibufAddr
        outAddr := if o = 0x03C then s.outAddr + 1 else s.outAddr } := by
  by_cases e1 : o = 0x034
  · subst e1; cases h; rfl
  by_cases e2 : o = 0x03C
  · subst e2; cases h; rfl
  rw [if_neg e1, if_neg e2]
  unfold afterRead
  split
  · exfalso; unfold regAt at h; split at h <;> simp_all
  · exfalso; unfold regAt at h; split at h <;> simp_all
  · rfl

theorem regAt_cmd {o : Nat} (h : regAt o = some .cmd) : o = 0 := by
  unfold regAt at h
  split at h <;> simp_all

theorem regAt_err {o : Nat} (h : regAt o = some .err) : o = 8 := by
  unfold regAt at h
  split at h <;> simp_all

/-! ### The invariant does not look at the pending inputs -/

theorem Inv.setInputs {s : State} (h : Inv s) (l : List Input) : Inv { s with inputs := l } :=
  ⟨h.1, h.2, h.3, h.4, h.5, h.6, h.7, h.8, h.9, h.10, h.11, h.12, h.13, h.14, h.15⟩

end Sys2Proof.Machine

/-! ### Runs of the core, one step at a time -/

namespace Sys2Proof

theorem run_next (M : Host.Core) {s u : M.State} (k : Nat) (h : M.step s = .next u) : M.run (k + 1) s = M.run k u := by
  rw [Host.Core.run, h]

theorem core_run_next {s u : Machine.State} (k : Nat) (h : Machine.step s = .next u) :
    Sys2Proof.core.run (k + 1) s = Sys2Proof.core.run k u := run_next Sys2Proof.core k h

theorem run_succ {M : Host.Core} {s t : M.State} {k : Nat} (h : M.run (k + 1) s = .next t) :
    ∃ u, M.step s = .next u ∧ M.run k u = .next t := by
  rw [Host.Core.run] at h
  split at h
  · exact ⟨_, ‹_›, h⟩
  · cases h
  · cases h

theorem core_run_succ {s t : Machine.State} {k : Nat} (h : Sys2Proof.core.run (k + 1) s = .next t) :
    ∃ u, Machine.step s = .next u ∧ Sys2Proof.core.run k u = .next t := run_succ (M := Sys2Proof.core) h

end Sys2Proof
end

