-- ==== Sys2Proof/Machine/Assembler.lean ====
section
/-! DEFINITION. The assembler syntax and the pseudo-commands (spec/30_encoding.md R124, R125). A line is a list of
characters. -/

namespace Sys2Proof.Machine

/-- The characters before a comment. -/
def stripComment (line : List Char) : List Char := line.takeWhile (· != ';')

/-- The words of a line, separated by blanks; `cur` is the word being read, in reverse. -/
def splitWords : List Char → List Char → List (List Char)
  | [], cur => if cur.isEmpty then [] else [cur.reverse]
  | ch :: rest, cur =>
    if ch = ' ' ∨ ch = '\t' then
      if cur.isEmpty then splitWords rest [] else cur.reverse :: splitWords rest []
    else splitWords rest (ch :: cur)

/-- The value of a digit below `base`. -/
def digitValue (base : Nat) (ch : Char) : Option Nat :=
  let n := ch.toNat
  let v :=
    if 48 ≤ n ∧ n ≤ 57 then n - 48
    else if 97 ≤ n ∧ n ≤ 102 then n - 87
    else if 65 ≤ n ∧ n ≤ 70 then n - 55
    else base
  if v < base then some v else none

/-- A number of one or more digits. -/
def digitsValue (base : Nat) : List Char → Option Nat → Option Nat
  | [], acc => acc
  | ch :: rest, acc =>
    match digitValue base ch with
    | none => none
    | some d => digitsValue base rest (some (acc.getD 0 * base + d))

/-- A decimal or `0x` hexadecimal number. -/
def numberValue (w : List Char) : Option Nat :=
  match w with
  | '0' :: 'x' :: rest => digitsValue 16 rest none
  | _ => digitsValue 10 w none

/-- The opcode of a mnemonic without an operand. -/
def plainOpcode (m : List Char) : Option (BitVec 8) :=
  if m = "NOP".toList then some 0x00
  else if m = "BR_OPEN".toList then some 0x01
  else if m = "HDR_DECODE".toList then some 0x10
  else if m = "SI_DECODE".toList then some 0x11
  else if m = "MD_DECODE".toList then some 0x30
  else if m = "SRST".toList then some 0xFF
  else none

/-- The opcode of a mnemonic with one operand. BR_SKIP is BR_READ (spec/30_encoding.md R125). -/
def operandOpcode (m : List Char) : Option (BitVec 8) :=
  if m = "BR_READ".toList then some 0x02
  else if m = "BR_SKIP".toList then some 0x02
  else if m = "BR_PEEK".toList then some 0x03
  else if m = "BR_SEEK".toList then some 0x04
  else if m = "HUFF_PAIR".toList then some 0x20
  else if m = "HUFF_QUAD".toList then some 0x21
  else none

/-- CRC_SKIP is BR_READ 16 (spec/30_encoding.md R125). -/
def crcSkip : Instr := .brRead 16

/-- BR_SKIP n is BR_READ n (spec/30_encoding.md R125). -/
def brSkip (n : BitVec 6) : Instr := .brRead n

/-- The word of one assembler line: `opcode << 24 | operand` (spec/30_encoding.md R124), or none where the line is no
command. DESIGN CHOICE, safe (log 26): the spec does not say what an operand wider than its field or outside its legal
range gives; here any operand below 2^24 is placed as it is, and the word may then be an illegal one. -/
def assembleLine (line : List Char) : Option Word :=
  match splitWords (stripComment line) [] with
  | [m] =>
    if m = "CRC_SKIP".toList then some (encode crcSkip)
    else (plainOpcode m).map fun op => commandWord op 0
  | [m, arg] =>
    match operandOpcode m, numberValue arg with
    | some op, some v => if v < 2 ^ 24 then some (commandWord op (BitVec.ofNat 24 v)) else none
    | _, _ => none
  | _ => none

end Sys2Proof.Machine
end

