-- ==== Sys2Proof/Machine/HostProgram.lean ====
section
/-! DEFINITION. The host's side, for a reader who drives the model: the accesses of spec/60_exceptions.md R376 to R380 as
input lists. They bind the host program, not the block (spec/00_scope.md R6). -/

namespace Sys2Proof.Machine

/-- The sync test a conforming host uses (spec/60_exceptions.md R376, spec/90_conflicts.md C1). -/
def isSync (b1 b2 : Byte) : Bool := b1 == 0xFF && (b2 &&& 0xE0) == 0xE0

/-- A word write to the register at an aperture offset. -/
def hostSet (c : ConfigData) (offset : Nat) (d : Word) : Input := .busWrite (c.regBase + offset) 4 d

/-- A word read of the register at an aperture offset. -/
def hostGet (c : ConfigData) (offset : Nat) : Input := .busRead (c.regBase + offset) 4

/-- Issue a command and let it complete before the next access (spec/30_encoding.md R125, WAIT). -/
def hostIssue (c : ConfigData) (i : Instr) : List Input := [hostSet c 0x000 (encode i), .sequencerTurn]

/-- Fill IBUF from address `a` (spec/20_memory.md R82). -/
def hostFill (c : ConfigData) (a : BitVec 16) (bytes : List Byte) : List Input :=
  hostSet c 0x030 (a.setWidth 32) :: bytes.map fun b => hostSet c 0x034 (b.setWidth 32)

/-- Open a window. -/
def hostOpen (c : ConfigData) (base len : BitVec 16) : List Input :=
  [hostSet c 0x00C (base.setWidth 32), hostSet c 0x010 (len.setWidth 32)] ++ hostIssue c .brOpen

/-- The header and side-info part of the frame sequence (spec/60_exceptions.md R377, R380); `crc` is
`hdr.crc_present`, which the host reads after HDR_DECODE. -/
def hostHeaderPart (c : ConfigData) (base len : BitVec 16) (crc : Bool) : List Input :=
  hostOpen c base len ++ hostIssue c .hdrDecode ++ (if crc then hostIssue c crcSkip else []) ++ hostIssue c .siDecode

/-- The main-data part of the frame sequence (spec/60_exceptions.md R378, R380). -/
def hostMainDataPart (c : ConfigData) (base len : BitVec 16) : List Input :=
  hostOpen c base len ++ hostIssue c .mdDecode

end Sys2Proof.Machine
end

