-- ==== Sys2Proof/Tests/Slice0.lean ====
section
/-! SUPPORT. The model's own tests, each about one step or one command, with results worked out in
spec/95_test_vectors.md or written out from the encoding tables, and a witness for every statement that has hypotheses. -/

namespace Sys2Proof.Tests

open Sys2Proof.Machine Sys2Proof.Spec

/-! ### The test configuration TC of spec/95_test_vectors.md section 0, and small states -/

/-- The synthetic codebook of TC's table 16. -/
def book16 : PairBook := [row 1 1 (0, 0), row 2 1 (15, 1), row 3 1 (1, 15), row 3 0 (15, 15)]

/-- TC, with a book for table 3 and a second count1 book that do not know every bit string. -/
def tcData (mode : LimitMode) (base : Nat) (quad1 : QuadBook) : ConfigData :=
  { ConfigData.standard with
    regBase := base
    limitMode := mode
    pairBook := (ConfigData.standard.pairBook.set 16 book16).set 3 [row 2 3 (0, 0)]
    linbits := (Vector.replicate 32 0).set 16 1
    quadBook := #v[quadTableA, quad1] }

set_option maxRecDepth 8000 in
theorem tcData_ok : (tcData .span 0 quadTableB).ok = true := by decide
set_option maxRecDepth 8000 in
theorem tcData_part23_ok : (tcData .part23 0 quadTableB).ok = true := by decide
set_option maxRecDepth 8000 in
theorem tcData_based_ok : (tcData .span 0x400 quadTableB).ok = true := by decide
set_option maxRecDepth 8000 in
theorem tcData_partial_ok : (tcData .span 0 [row 2 3 0]).ok = true := by decide

def tc : Config := ⟨tcData .span 0 quadTableB, tcData_ok⟩
def tcPart23 : Config := ⟨tcData .part23 0 quadTableB, tcData_part23_ok⟩
/-- TC with the aperture at 0x400. -/
def tcBased : Config := ⟨tcData .span 0x400 quadTableB, tcData_based_ok⟩
/-- TC with a count1 table 1 of one codeword. -/
def tcPartial : Config := ⟨tcData .span 0 [row 2 3 0], tcData_partial_ok⟩

/-- Bytes from address 0 on. -/
def cells (bytes : List Nat) : List Host.Cell := bytes.zipIdx.map fun x => (x.2, BitVec.ofNat 8 x.1)

/-- A command is running in a window on these bytes, with the cursor at `pos`. -/
def ready (c : Config) (bytes : List Nat) (pos : Nat) : State :=
  { State.reset with
    cfg := c
    ibuf := cells bytes
    winLen := BitVec.ofNat 16 bytes.length
    pos := BitVec.ofNat 16 pos
    pos0 := BitVec.ofNat 16 pos
    busy := true }

/-- The same with the two records of a frame. -/
def framed (c : Config) (header : Word) (si : List Nat) (bytes : List Nat) : State :=
  let h := match decodeHeader c.data header with
    | .ok h => h
    | .error _ => Header.zero
  { ready c bytes 0 with
    hdr := h
    hdrValid := true
    si := readSideInfo ⟨cells si, 0, 0, si.length⟩ (isMono h) 0
    siValid := true }

/-- The state a command leaves. -/
def after (i : Instr) (s : State) : State :=
  match exec i s with
  | .next t => t
  | _ => s

theorem exec_after (i : Instr) (s : State) : exec i s = .next (after i s) := by
  obtain ⟨t, h⟩ := exec_next i s
  simp [after, h]

/-- The state a step leaves. -/
def stepped (s : State) : State :=
  match step s with
  | .next t => t
  | _ => s

/-- The step does not stop. -/
def goesOn (s : State) : Bool :=
  match step s with
  | .next _ => true
  | _ => false

theorem step_stepped {s : State} (h : goesOn s = true) : step s = .next (stepped s) := by
  unfold goesOn at h
  unfold stepped
  split at h
  · rename_i t ht; rw [ht]
  · cases h

/-- Status code and detail. -/
def status (s : State) : BitVec 8 × BitVec 8 := (s.statusCode, s.statusDetail)

/-- The invariant, as a test. -/
def invCheck (s : State) : Bool :=
  decide (s.winBase.toNat + s.winLen.toNat ≤ s.cfg.data.ibufBytes) && decide (s.pos.toNat ≤ 8 * s.winLen.toNat) &&
  (!s.busy || s.pos0 == s.pos) && (!s.siValid || s.hdrValid) && (!s.mdValid || s.siValid) &&
  decide ((s.statusCode, s.statusDetail) ∈ statusPairs) && !s.err.getLsbD 0 &&
  (!s.hdrValid || s.hdr.nch == 1 || s.hdr.nch == 2) &&
  (!s.siValid || !isMono s.hdr ||
    (s.si.scfsi.ch1 == 0 && s.si.gc.q1 == ChannelSideInfo.zero && s.si.gc.q3 == ChannelSideInfo.zero)) &&
  decide (Memory.wf s.ibuf s.cfg.data.ibufBytes) && (!s.resetAsserted || !s.busy) &&
  (s.busy || (!s.tainted && s.openRace == none)) && decide (s.ibufDraw < s.draws) &&
  decide (s.md = .drawn 1) && decide (1 < s.draws)

theorem inv_of_check {s : State} (h : invCheck s = true) : Inv s := by
  simp only [invCheck, Bool.and_eq_true, Bool.or_eq_true, Bool.not_eq_true', decide_eq_true_eq, beq_iff_eq] at h
  obtain ⟨⟨⟨⟨⟨⟨⟨⟨⟨⟨⟨⟨⟨⟨h1, h2⟩, h3⟩, h4⟩, h5⟩, h6⟩, h7⟩, h8⟩, h9⟩, h10⟩, h11⟩, h12⟩, h13⟩, h14⟩, h15⟩ := h
  refine ⟨h1, h2, fun h => ?_, fun h => ?_, fun h => ?_, h6, h7, fun h => ?_, fun h g => ?_, h10, ?_, fun h => ?_,
    fun h => ?_, h13, ?_⟩
  · simpa [h] using h3
  · simpa [h] using h4
  · simpa [h] using h5
  · simpa [h] using h8
  · simpa [h, g, and_assoc] using h9
  · rw [h14]; trivial
  · simpa [h] using h11
  · simpa [h] using h12
  · intro n hn; rw [h14] at hn; cases hn; exact h15

/-! ### WellFormed (spec/30_encoding.md R122) -/

theorem test_read_33_is_refused : (Instr.brRead 33).wellFormed = false := by decide
theorem test_peek_33_is_refused : (Instr.brPeek 33).wellFormed = false := by decide

/-! ### Decoding, from words written out with spec/30_encoding.md R121 -/

theorem test_decode_nop : decodeWord 0b00000000_000000000000000000000000 = .ok .nop := by decide
theorem test_decode_brOpen : decodeWord 0b00000001_000000000000000000000000 = .ok .brOpen := by decide
theorem test_decode_brRead : decodeWord 0b00000010_000000000000000000_010000 = .ok (.brRead 16) := by decide
theorem test_decode_brPeek : decodeWord 0b00000011_000000000000000000_100000 = .ok (.brPeek 32) := by decide
theorem test_decode_brSeek : decodeWord 0b00000100_00000000_0000000000011000 = .ok (.brSeek 24) := by decide
theorem test_decode_hdrDecode : decodeWord 0b00010000_000000000000000000000000 = .ok .hdrDecode := by decide
theorem test_decode_siDecode : decodeWord 0b00010001_000000000000000000000000 = .ok .siDecode := by decide
theorem test_decode_huffPair : decodeWord 0b00100000_0000000000000000000_10000 = .ok (.huffPair 16) := by decide
theorem test_decode_huffQuad : decodeWord 0b00100001_00000000000000000000000_0 = .ok (.huffQuad 0) := by decide
theorem test_decode_mdDecode : decodeWord 0b00110000_000000000000000000000000 = .ok .mdDecode := by decide
theorem test_decode_srst : decodeWord 0b11111111_000000000000000000000000 = .ok .srst := by decide

/-- spec/95_test_vectors.md CT-1 to CT-7, HQ-14. -/
theorem test_decode_illegal :
    decodeWord 0x05000000 = .error .unassignedOpcode ∧ decodeWord 0x02000040 = .error .reservedBitSet ∧
    decodeWord 0x02000021 = .error .countTooLarge ∧ decodeWord 0x04010000 = .error .reservedBitSet ∧
    decodeWord 0x20000020 = .error .reservedBitSet ∧ decodeWord 0x10000001 = .error .reservedBitSet ∧
    decodeWord 0x05000021 = .error .unassignedOpcode ∧ decodeWord 0x21000002 = .error .reservedBitSet := by decide

/-- spec/30_encoding.md R124, R125. -/
theorem test_assemble_line :
    assembleLine "BR_READ 11 ; sync".toList = some 0x0200000B ∧ assembleLine "CRC_SKIP".toList = some 0x02000010 := by
  decide

/-! ### One command each, spec/95_test_vectors.md -/

/-- The NOP example of spec/45_control.md R340. -/
theorem test_nop :
    status (after .nop { ready tc [] 0 with statusCode := 1, statusDetail := 1, err := 2 }) = (0, 0) ∧
    (after .nop { ready tc [] 0 with statusCode := 1, statusDetail := 1, err := 2 }).err = 2 := by decide

/-- BR-14. -/
theorem test_brOpen_at_the_end :
    let t := after .brOpen { ready tc [] 0 with brBaseReg := 8000, brLenReg := 191 }
    status t = (0, 0) ∧ t.winBase = 8000 ∧ t.winLen = 191 ∧ t.pos = 0 := by decide
/-- BR-15. -/
theorem test_brOpen_past_the_end :
    let t := after .brOpen { ready tc [] 0 with brBaseReg := 8000, brLenReg := 192 }
    status t = (6, 1) ∧ t.winLen = 0 ∧ t.err = 0x40 := by decide

/-- BR-4. -/
theorem test_brRead_32 :
    let t := after (.brRead 32) (ready tc [0x12, 0x34, 0x56, 0x78, 0x9A] 3)
    status t = (0, 0) ∧ t.res.q0 = 0x91A2B3C4 ∧ t.pos = 35 := by decide
/-- BR-9. -/
theorem test_brRead_exhausted :
    let t := after (.brRead 1) (ready tc [0x12, 0x34, 0x56, 0x78, 0x9A] 40)
    status t = (1, 0) ∧ t.err = 2 ∧ t.pos = 40 := by decide

/-- BR-6. -/
theorem test_brPeek_5 :
    let t := after (.brPeek 5) (ready tc [0x12, 0x34, 0x56, 0x78, 0x9A] 35)
    status t = (0, 0) ∧ t.res.q0 = 0x1A ∧ t.res.q1 = 1 ∧ t.pos = 35 := by decide
/-- BR-5. -/
theorem test_brPeek_past_the_end :
    let t := after (.brPeek 6) (ready tc [0x12, 0x34, 0x56, 0x78, 0x9A] 35)
    status t = (0, 0) ∧ t.res.q0 = 0 ∧ t.res.q1 = 0 ∧ t.pos = 35 := by decide

/-- BR-10. -/
theorem test_brSeek_end :
    let t := after (.brSeek 40) (ready tc [0x12, 0x34, 0x56, 0x78, 0x9A] 0)
    status t = (0, 0) ∧ t.pos = 40 := by decide
/-- BR-11. -/
theorem test_brSeek_past_the_end :
    let t := after (.brSeek 41) (ready tc [0x12, 0x34, 0x56, 0x78, 0x9A] 40)
    status t = (6, 2) ∧ t.err = 0x40 ∧ t.pos = 40 := by decide

/-- HD-3. -/
theorem test_hdrDecode_mono :
    let t := after .hdrDecode (ready tc [0xFF, 0xFB, 0x90, 0xC0] 0)
    status t = (0, 0) ∧ hdrFieldsWord t.hdr = 0x0309BFFF ∧ hdrAuxWord t.hdr = 0x00110619 ∧ t.hdr.mdLen = 0x18A := by
        decide
/-- spec/41_header.md R193, R206: a table with a value for bitrate code 0 or for the reserved version is no configuration. -/
theorem test_reserved_rows_are_refused :
    reservedAbsent { ConfigData.standard with bitrate := defaultBitrate.set 1 (Vector.replicate 16 (kbps 32)) } = false ∧
    reservedAbsent { ConfigData.standard with freq := defaultFreq.set 1 (Vector.replicate 4 (hertz 8000)) } = false := by
  decide

/-- HD-7. -/
theorem test_hdrDecode_layer1 :
    let t := after .hdrDecode (ready tc [0xFF, 0xFF, 0x90, 0x00] 0)
    hdrSizeWord t.hdr = 0x01800138 ∧ hdrAuxWord t.hdr = 0x0020062C ∧ t.pos = 32 := by decide

def si1 : List Nat := [0xFF, 0xD6, 0x82, 0x94, 0x05, 0x18, 0xA0, 0xC0, 0x00, 0x08, 0x2D, 0x00, 0xF2, 0x27, 0x03,
    0x02, 0x9E]
def si2 : List Nat :=
  [0x00, 0x5F, 0x6F, 0xFF, 0xFF, 0xFF, 0xFB, 0xFE, 0xEF, 0xFE, 0x00, 0x20, 0x10, 0x11, 0xB8, 0xCB, 0x8A, 0x00, 0x00,
   0x00, 0x00, 0x1C, 0x00, 0x00, 0x00, 0x00, 0x00, 0x00, 0x00, 0x00, 0x00, 0x00]

/-- A valid mono header (HD-3), and a valid stereo one (HD-1). -/
def headerOf (w : List Nat) : Header := (after .hdrDecode (ready tc w 0)).hdr
def monoHeader (s : State) : State := { s with hdr := headerOf [0xFF, 0xFB, 0x90, 0xC0], hdrValid := true }
def stereoHeader (s : State) : State := { s with hdr := headerOf [0xFF, 0xFB, 0xB0, 0x00], hdrValid := true }

/-- SI-1. -/
theorem test_siDecode_mono :
    let t := after .siDecode (monoHeader (ready tc si1 0))
    siGlobalWord t.si = 0x0002ABFF ∧ siGcWord t.si.gc.q0 0 = 0x118020A5 ∧ siGcWord t.si.gc.q2 1 = 0x00064359 ∧
    siGcWord t.si.gc.q2 2 = 0x00688201 ∧ t.pos = 136 := by decide
/-- SI-2. -/
theorem test_siDecode_stereo :
    let t := after .siDecode (stereoHeader (ready tc si2 0))
    siGlobalWord t.si = 0x001BCA00 ∧ siGcWord t.si.gc.q0 1 = 0x0003FF0F ∧ siGcWord t.si.gc.q1 1 = 0x0006B8B1 ∧
    siGcWord t.si.gc.q1 2 = 0x00A38251 ∧ t.pos = 256 := by decide

/-- HP-18: `000 1 1 0 0` at the end of a byte. -/
theorem test_huffPair_linbits :
    let t := after (.huffPair 16) (ready tc [0b0_0001100] 1)
    status t = (0, 0) ∧ t.res = ⟨0xFFFFFFF0, 0x0000000F, 7, 0⟩ ∧ t.pos = 8 := by decide
/-- HP-21: the last sign bit is missing. -/
theorem test_huffPair_exhausted :
    let t := after (.huffPair 16) (ready tc [0b00_000110] 2)
    status t = (1, 0) ∧ t.pos = 2 ∧ t.res = ⟨0, 0, 0, 0⟩ := by decide

/-- HQ-3: `0000 1010`, table B. -/
theorem test_huffQuad_b :
    let t := after (.huffQuad 1) (ready tc [0b0000_1010] 0)
    status t = (0, 0) ∧ t.res = ⟨0xFFFFFFFF, 1, 0xFFFFFFFF, 1⟩ ∧ t.pos = 8 := by decide
/-- HQ-9: `00101 1 0`, table A. -/
theorem test_huffQuad_a :
    let t := after (.huffQuad 0) (ready tc [0b0_00101_1_0] 1)
    t.res = ⟨0, 0, 0xFFFFFFFF, 1⟩ ∧ t.pos = 8 := by decide

def md1Side : List Nat :=
  [0x00, 0x02, 0x80, 0x76, 0x40, 0x00, 0xA0, 0x80, 0x00, 0x08, 0x15, 0x80, 0xC0, 0x14, 0x18, 0x00, 0x00]
def md1Data : List Nat := [0xB2, 0xEA, 0x6B, 0x0E, 0x4F, 0x36, 0xD6, 0x0A, 0xC6]
def md1 (c : Config) : State := framed c 0xFFFB90C0 md1Side md1Data
def md2 : State :=
  framed tcPart23 0xFFFB9400
    [0x00, 0x05, 0x00, 0x2B, 0x00, 0x80, 0x40, 0x21, 0x08, 0x02, 0x03, 0x20, 0x20, 0x01, 0xC0, 0xC0, 0x00, 0x00,
     0x54, 0x00, 0x01, 0x00, 0x84, 0x20, 0x08, 0x13, 0x80, 0x40, 0x17, 0x42, 0x10, 0x01]
    [0x9C, 0x6C, 0x6E, 0x9A, 0x57, 0xB6, 0x26, 0x74, 0x7E, 0x4E, 0xB7, 0xD9, 0xAA, 0xF1, 0x95, 0x32, 0xFF]
def md5 : State :=
  framed tc 0xFFFB90C0 [0, 0, 0, 0x30, 8, 0, 0, 0x84, 0x20, 0, 0, 0, 0, 0, 0, 0, 0] [0xA0]

set_option maxRecDepth 20000 in
/-- MD-1. -/
theorem test_mdDecode_span :
    let t := after .mdDecode (md1 tc)
    status t = (0, 0) ∧ t.pos = 66 ∧
    (List.range 6).map (fun i => (line t 2 i).toInt) = [0, 0, 0, -1, 16, -1] ∧
    (List.range 22).map (fun b => (factorL t 2 b).toNat) =
      [1, 0, 1, 1, 0, 0, 1, 1, 0, 0, 1, 0, 1, 0, 1, 0, 0, 0, 1, 1, 1, 0] ∧
    [region1 t 2, region2 t 2, startOf t 2, endOf t 2] = [4, 8, 29, 66] := by decide

set_option maxRecDepth 20000 in
/-- MD-2. -/
theorem test_mdDecode_part23 :
    let t := after .mdDecode md2
    status t = (0, 0) ∧ t.pos = 128 ∧ (line t 3 1).toInt = 1 ∧ (line t 1 2).toInt = -1 ∧
    (List.range 3).map (fun w => (factorS t 3 11 w).toNat) = [0, 1, 1] ∧
    (List.range 22).map (fun b => (factorL t 2 b).toNat) =
      [3, 2, 1, 0, 3, 2, 3, 0, 1, 2, 3, 1, 0, 1, 1, 0, 1, 1, 0, 1, 0, 0] ∧
    [region1 t 3, region2 t 3, startOf t 3, endOf t 3] = [36, 576, 89, 128] := by decide

set_option maxRecDepth 8000 in
/-- MD-5: the third pair's last bit is missing, so it is undone and the rest is zero. -/
theorem test_mdDecode_short_stream :
    let t := after .mdDecode md5
    status t = (0, 0) ∧ t.pos = 4 ∧ (List.range 8).map (fun i => (line t 0 i).toInt) = [0, 0, 1, 0, 0, 0, 0, 0] ∧
    [startOf t 0, endOf t 0, startOf t 2, endOf t 2] = [0, 4, 4, 4] := by decide

/-- CT-12: SRST in the state CT-11 leaves. -/
theorem test_srst :
    let s := { ready tc [0x55] 4 with err := 0x100, res := ⟨1, 2, 3, 4⟩, hdrValid := true }
    let t := after .srst s
    status t = (0, 0) ∧ t.err = 0 ∧ t.winLen = 0 ∧ t.pos = 0 ∧ t.res = ⟨0, 0, 0, 0⟩ ∧ t.hdrValid = false ∧
    t.ibuf = s.ibuf := by decide

/-! ### The machine around a command -/

/-- CT-11: a CMD write while busy. -/
theorem test_dropped :
    let t := stepped { ready tc [] 0 with inputs := [.busWrite 0 4 0xFF000000] }
    t.err = 0x100 ∧ t.cmdLatch = 0 ∧ t.busy = true := by decide

/-- spec/30_encoding.md R130 for TC's 8191 bytes. Vector CT-17 prints 0xFFFF in the low half, and the rule wins. -/
theorem test_param : paramWord tc.data = 0x01011FFF := by decide

/-- CT-18: 0x1FFE is the last byte of IBUF. -/
theorem test_ibuf_last_byte :
    let t := stepped { ready tc [] 0 with ibufAddr := 0x1FFE, inputs := [.busWrite 0x34 4 0xAB] }
    let u := stepped { ready tc [] 0 with ibufAddr := 0x1FFF, inputs := [.busWrite 0x34 4 0xCD] }
    t.ibuf = [(0x1FFE, 0xAB)] ∧ t.ibufAddr = 0x1FFF ∧ u.ibuf = [] ∧ u.ibufAddr = 0x2000 := by decide

/-- CT-19. -/
theorem test_ibuf_address_wraps :
    let t := stepped { ready tc [] 0 with ibufAddr := 0xFFFF, inputs := [.busRead 0x34 4] }
    t.replies = [0] ∧ t.ibufAddr = 0 := by decide

/-- CT-20, CT-21: elements of the record MD-1 leaves, and an unmapped index. -/
theorem test_out_kinds :
    outRead (.record [(0x483, 0xFFFF), (0x484, 0x10)]) 0x483 = 0xFFFFFFFF ∧
    outRead (.record [(0x483, 0xFFFF), (0x484, 0x10)]) 0x484 = 0x10 ∧ outRead (.record []) 0x1016 = 0 := by decide

/-- The first instruction after reset: the host's way in. -/
theorem test_fetch_word : (stepped (State.reset.withFetchWord 32 0x0200_0021)).statusDetail = 3 := by decide
theorem test_table_word : decodeTableWord 32 0x0400_0018 = some (.brSeek 24) := by decide

/-! ### Witnesses: a concrete input for every set of hypotheses a statement has -/

theorem witness_EncodedCommandDecodes :
    (Instr.brRead 32).wellFormed = true ∧ (Instr.huffPair 31).wellFormed = true := by
  decide

theorem witness_DecodedWordIsItsEncoding : decodeWord 0x02000020 = .ok (.brRead 32) := by decide

theorem witness_IllegalWordEndsInItsFirstFailingTest_opcode :
    (0x05000000 : Word).extractLsb' 24 8 ∉
      ([0x00, 0x01, 0x02, 0x03, 0x04, 0x10, 0x11, 0x20, 0x21, 0x30, 0xFF] : List (BitVec 8)) := by decide
theorem witness_IllegalWordEndsInItsFirstFailingTest_reserved :
    (0x02000040 : Word).extractLsb' 24 8 = 0x02 ∧ (0x02000040 : Word) &&& 0xFFFFC0 ≠ 0 := by decide
theorem witness_IllegalWordEndsInItsFirstFailingTest_count :
    (0x03000021 : Word).extractLsb' 24 8 = 0x03 ∧ (0x03000021 : Word) &&& 0xFFFFC0 = 0 ∧
    32 < ((0x03000021 : Word).extractLsb' 0 6).toNat := by decide

/-- A running command in a window that meets the invariant. -/
def running (w : Word) : State := { ready tc [0xA5, 0x5A, 0xFF, 0x00] 8 with cmdLatch := w }

theorem running_inv (w : Word) : Inv (running w) := by
  have h : Inv (running 0) := inv_of_check (by decide)
  cases h
  constructor <;> assumption

/-- spec/30_encoding.md R130: HDR_AUX has no bit 7, 6 or above 23, and they read 0 under a running HDR_DECODE too. -/
theorem test_busy_unused_bits (d : Word) :
    busyValue (running 0x10000000) .hdrAux d = some (d &&& 0x00FFFF3F) := rfl

theorem witness_IllegalWordEndsInItsFirstFailingTest_completion :
    Inv (running 0x02000021) ∧ (running 0x02000021).busy = true ∧ (running 0x02000021).tainted = false ∧
    decodeWord (running 0x02000021).cmdLatch = .error .countTooLarge := ⟨running_inv _, by decide⟩

theorem witness_StepRunsTheDecodedCommand :
    (running 0x02000008).busy = true ∧ (running 0x02000008).tainted = false ∧ (running 0x02000008).inputs = [] ∧
    decodeWord (running 0x02000008).cmdLatch = .ok (.brRead 8) := by decide
theorem witness_StepRunsTheDecodedCommand_turn :
    let s := { running 0x02000008 with inputs := [.sequencerTurn] }
    s.busy = true ∧ s.tainted = false ∧ (∃ rest, s.inputs = .sequencerTurn :: rest) ∧
    decodeWord s.cmdLatch = .ok (.brRead 8) := ⟨rfl, rfl, ⟨_, rfl⟩, by decide⟩

/-- An idle block of TC with these inputs to come. -/
def idle (inputs : List Input) : State := { running 0 with busy := false, inputs := inputs }
/-- A block of TC running a command, with these inputs to come. -/
def busyWith (w : Word) (inputs : List Input) : State := { running w with inputs := inputs }

theorem witness_CommandWriteIsAcceptedOrDropped :
    let s := idle [.busWrite 0 4 0x01000000]
    s.resetAsserted = false ∧ s.inputs = .busWrite s.cfg.data.regBase 4 0x01000000 :: [] ∧ s.busy = false := by decide
theorem witness_CommandWriteIsAcceptedOrDropped_busy :
    let s := busyWith 0 [.busWrite 0 4 0x01000000]
    s.resetAsserted = false ∧ s.inputs = .busWrite s.cfg.data.regBase 4 0x01000000 :: [] ∧ s.busy = true := by decide

theorem witness_StepKeepsTheInvariant :
    Inv (running 0x04000020) ∧ step (running 0x04000020) = .next (stepped (running 0x04000020)) ∧
    (stepped (running 0x04000020)).pos = 32 :=
  ⟨running_inv _, step_stepped (by decide), by decide⟩

theorem witness_ResetLeavesTheResetValues :
    (busyWith 0x30000000 [.assertReset]).inputs = .assertReset :: [] ∧
    (idle [.releaseReset]).inputs = .releaseReset :: [] ∧
    (busyWith 0x30000000 [.assertReset, .releaseReset]).inputs = .assertReset :: .releaseReset :: [] := ⟨rfl, rfl, rfl⟩

theorem witness_ConfigurationNeverChanges :
    step (idle [.assertReset]) = .next (stepped (idle [.assertReset])) := step_stepped (by decide)

theorem witness_AcceptedCommandCompletes :
    let s := busyWith 0x02000008 [.busRead 4 4]
    s.busy = true ∧ Sys2Proof.core.run (s.inputs.length + 1) s = .next (stepped (stepped s)) := ⟨rfl, rfl⟩

theorem witness_OnlyBadAccessesAreRefused : step (idle [.busRead 2 4]) = .refused .accessShape := rfl
theorem witness_OnlyBadAccessesAreRefused_underReset :
    let s := { idle [.busRead 4 4] with resetAsserted := true }
    s.inputs = .busRead 4 4 :: [] ∧ s.resetAsserted = true := ⟨rfl, rfl⟩
theorem witness_OnlyBadAccessesAreRefused_below :
    let s := { idle [.busRead 0x3FC 4] with cfg := tcBased }
    s.inputs = .busRead 0x3FC 4 :: [] ∧ s.resetAsserted = false ∧ 0x3FC < s.cfg.data.regBase := by decide
theorem witness_OnlyBadAccessesAreRefused_above :
    let s := { idle [.busWrite 0x500 4 1] with cfg := tcBased }
    (∃ d, s.inputs = .busWrite 0x500 4 d :: []) ∧ s.resetAsserted = false ∧ s.cfg.data.regBase + 256 ≤ 0x500 :=
  ⟨⟨1, rfl⟩, rfl, by decide⟩
theorem witness_OnlyBadAccessesAreRefused_halfword :
    let s := { idle [.busRead 0x4FC 2] with cfg := tcBased }
    s.inputs = .busRead 0x4FC 2 :: [] ∧ s.resetAsserted = false ∧ s.cfg.data.regBase ≤ 0x4FC ∧
    0x4FC < s.cfg.data.regBase + 256 := by decide
theorem witness_OnlyBadAccessesAreRefused_misaligned :
    let s := { idle [.busRead 0x4FF 4] with cfg := tcBased }
    s.inputs = .busRead 0x4FF 4 :: [] ∧ s.resetAsserted = false ∧ s.cfg.data.regBase ≤ 0x4FF ∧
    0x4FF < s.cfg.data.regBase + 256 ∧ (0x4FF - s.cfg.data.regBase) % 4 ≠ 0 := by decide

/-- The cursor moves back from 8. -/
theorem witness_CursorMovesBackOnlyWhereStated :
    ∀ s ∈ [running 0x04000000, running 0x01000000, running 0xFF000000, idle [.assertReset]],
      Inv s ∧ s.tainted = false ∧ step s = .next (stepped s) ∧ (stepped s).pos.toNat < s.pos.toNat := by
  intro s hs
  simp only [List.mem_cons, List.mem_nil_iff, or_false] at hs
  rcases hs with rfl | rfl | rfl | rfl
  all_goals exact ⟨inv_of_check (by decide), by decide, step_stepped (by decide), by decide⟩

theorem witness_NopOnlyWritesTheStatus :
    (0x00000001 : Word).extractLsb' 24 8 = 0x00 ∧ (0x00000001 : Word) ≠ 0x00000000 := by decide

theorem witness_SrstRestoresEveryRegister :
    (0xFF800000 : Word).extractLsb' 24 8 = 0xFF ∧ (0xFF800000 : Word) ≠ 0xFF000000 := by decide

theorem witness_BrOpenLatchesTheProgrammedWindow :
    let s := { running 0x01000000 with brBaseReg := 8000, brLenReg := 191 }
    s.openRace = none ∧ s.brBaseReg.toNat + s.brLenReg.toNat ≤ s.cfg.data.ibufBytes := by decide
theorem witness_BrOpenLatchesTheProgrammedWindow_range :
    let s := { running 0x01000000 with brBaseReg := 8000, brLenReg := 192 }
    s.openRace = none ∧ s.cfg.data.ibufBytes < s.brBaseReg.toNat + s.brLenReg.toNat := by decide

theorem witness_RacedBrOpenLatchesOldOrNew_base :
    let s := busyWith 0x01000000 [.busWrite 0x0C 4 7]
    s.resetAsserted = false ∧ s.busy = true ∧ decodeWord s.cmdLatch = .ok .brOpen ∧
    s.inputs = .busWrite (s.cfg.data.regBase + 0x00C) 4 7 :: [] := by decide
theorem witness_RacedBrOpenLatchesOldOrNew_length :
    let s := busyWith 0x01000000 [.busWrite 0x10 4 7]
    s.resetAsserted = false ∧ s.busy = true ∧ decodeWord s.cmdLatch = .ok .brOpen ∧
    s.inputs = .busWrite (s.cfg.data.regBase + 0x010) 4 7 :: [] := by decide
theorem witness_RacedBrOpenLatchesOldOrNew_pair :
    { running 0x01000000 with openRace := some (7, 9) }.openRace = some (7, 9) := rfl

/-- Four bytes at cursor 0: 32 bits fit exactly. -/
theorem witness_BrReadConsumesTheNextBits :
    let s := ready tc [1, 2, 3, 4] 0
    (32 : BitVec 6).toNat ≤ 32 ∧ s.pos.toNat + (32 : BitVec 6).toNat ≤ bitsInWindow s := by decide
theorem witness_BrReadConsumesTheNextBits_exhausted :
    let s := ready tc [1, 2, 3, 4] 1
    (32 : BitVec 6).toNat ≤ 32 ∧ bitsInWindow s < s.pos.toNat + (32 : BitVec 6).toNat := by decide
theorem witness_BrReadConsumesTheNextBits_count : 32 < (33 : BitVec 6).toNat := by decide

theorem witness_BrPeekLooksAheadWithoutMoving :
    let s := ready tc [1, 2, 3, 4] 0
    (32 : BitVec 6).toNat ≤ 32 ∧ s.pos.toNat + (32 : BitVec 6).toNat ≤ bitsInWindow s := by decide
theorem witness_BrPeekLooksAheadWithoutMoving_short :
    let s := ready tc [1, 2, 3, 4] 1
    (32 : BitVec 6).toNat ≤ 32 ∧ bitsInWindow s < s.pos.toNat + (32 : BitVec 6).toNat := by decide
theorem witness_BrPeekLooksAheadWithoutMoving_count : 32 < (33 : BitVec 6).toNat := by decide

theorem witness_BrSeekMovesToTheOffset :
    (32 : BitVec 16).toNat ≤ bitsInWindow (ready tc [1, 2, 3, 4] 0) := by decide
theorem witness_BrSeekMovesToTheOffset_range :
    bitsInWindow (ready tc [1, 2, 3, 4] 0) < (33 : BitVec 16).toNat := by decide

theorem witness_PeekThenReadAgree :
    let s := ready tc [1, 2, 3, 4] 0
    let t := after (.brPeek 32) s
    exec (.brPeek 32) s = .next t ∧ t.statusCode = 0 ∧ t.res.q1 = 1 ∧
    exec (.brRead 32) (t.accept 0) = .next (after (.brRead 32) (t.accept 0)) :=
  ⟨exec_after .., by decide, by decide, exec_after ..⟩

theorem witness_ReaderCommandsFrame :
    let s := ready tc [1, 2, 3, 4] 0
    exec .brOpen s = .next (after .brOpen s) ∧ exec (.brRead 8) s = .next (after (.brRead 8) s) ∧
    exec (.brSeek 3) s = .next (after (.brSeek 3) s) ∧ exec (.brPeek 9) s = .next (after (.brPeek 9) s) ∧
    (after (.brPeek 9) s).statusCode = 0 ∧
    exec (.brRead 33) s = .next (after (.brRead 33) s) ∧ (after (.brRead 33) s).statusCode ≠ 0 :=
  ⟨exec_after .., exec_after .., exec_after .., exec_after .., by decide, exec_after .., by decide⟩

theorem witness_HdrDecodeStoresTheHeader_exhausted :
    let s := ready tc [0xFF, 0xFB, 0x90, 0xC0] 1
    bitsInWindow s < s.pos.toNat + 32 := by decide
/-- HD-15, free format, and a reserved layer. -/
theorem witness_HdrDecodeStoresTheHeader_reserved :
    let s := ready tc [0xFF, 0xFB, 0x00, 0x00] 0
    let t := ready tc [0xFF, 0xF9, 0x90, 0x00] 0
    s.pos.toNat + 32 ≤ bitsInWindow s ∧ hdrBitrateCode (BitVec.ofNat 32 (nextBits s 32)) = 0 ∧
    t.pos.toNat + 32 ≤ bitsInWindow t ∧ hdrLayer (BitVec.ofNat 32 (nextBits t 32)) = 0 := by decide
/-- A reserved version, and frequency code 3, with a bitrate present. -/
theorem witness_HdrDecodeStoresTheHeader_reservedVersion :
    ∀ x ∈ [[0xFF, 0xEB, 0x90, 0x00], [0xFF, 0xFB, 0x9C, 0x00]],
      let s := ready tc x 0
      let h := BitVec.ofNat 32 (nextBits s 32)
      s.pos.toNat + 32 ≤ bitsInWindow s ∧ lookupBitrate s.cfg.data (hdrLayer h) (hdrBitrateCode h) = some 128000 ∧
      (hdrVersion h = 1 ∨ hdrFreqCode h = 3) := by decide
theorem witness_HdrDecodeStoresTheHeader_bitrate :
    let s := ready tc [0xFF, 0xFB, 0xF0, 0x00] 0
    let h := BitVec.ofNat 32 (nextBits s 32)
    s.pos.toNat + 32 ≤ bitsInWindow s ∧ lookupBitrate s.cfg.data (hdrLayer h) (hdrBitrateCode h) = none := by decide
theorem witness_HdrDecodeStoresTheHeader_frequency :
    let s := ready tc [0xFF, 0xFB, 0x9C, 0x00] 0
    let h := BitVec.ofNat 32 (nextBits s 32)
    s.pos.toNat + 32 ≤ bitsInWindow s ∧ lookupBitrate s.cfg.data (hdrLayer h) (hdrBitrateCode h) = some 128000 ∧
    lookupFreq s.cfg.data (hdrVersion h) (hdrFreqCode h) = none := by decide
/-- HD-3, mono with a padding bit, and HD-7, Layer I with no CRC. -/
theorem witness_HdrDecodeStoresTheHeader_ok :
    let s := ready tc [0xFF, 0xFB, 0x92, 0xC0] 0
    let h := BitVec.ofNat 32 (nextBits s 32)
    s.pos.toNat + 32 ≤ bitsInWindow s ∧ hdrLayer h = 1 ∧
    lookupBitrate s.cfg.data (hdrLayer h) (hdrBitrateCode h) = some 128000 ∧
    lookupFreq s.cfg.data (hdrVersion h) (hdrFreqCode h) = some 44100 := by decide
theorem witness_HdrDecodeStoresTheHeader_layer1 :
    let s := ready tc [0xFF, 0xFE, 0x92, 0x00] 0
    let h := BitVec.ofNat 32 (nextBits s 32)
    s.pos.toNat + 32 ≤ bitsInWindow s ∧ hdrLayer h = 3 ∧
    lookupBitrate s.cfg.data (hdrLayer h) (hdrBitrateCode h) = some 288000 ∧
    lookupFreq s.cfg.data (hdrVersion h) (hdrFreqCode h) = some 44100 := by decide

theorem witness_FrameSizeFitsItsRegister :
    lookupBitrate Config.standard.data 2 14 = some 384000 ∧ lookupFreq Config.standard.data 0 2 = some 8000 := by decide

theorem witness_HdrDecodeReadsOnlyItsBits :
    let s := ready tc [0xFF, 0xFB, 0x90, 0xC0] 0
    let t := ready tc [0x80, 0x7F, 0xFD, 0xC8, 0x60, 0x00] 9
    s.cfg = t.cfg ∧ s.pos.toNat + 32 ≤ bitsInWindow s ∧ t.pos.toNat + 32 ≤ bitsInWindow t ∧
    nextBits s 32 = nextBits t 32 ∧ exec .hdrDecode s = .next (after .hdrDecode s) ∧
    exec .hdrDecode t = .next (after .hdrDecode t) ∧ (after .hdrDecode s).statusCode = 0 :=
  ⟨rfl, by decide, by decide, by decide, exec_after .., exec_after .., by decide⟩

set_option maxRecDepth 4000 in
/-- The blocks of SI-1 and SI-2, which end where the window ends. -/
theorem witness_SideInfoBlockDecodesToItsRecord_mono :
    let s := monoHeader (ready tc si1 0)
    let x := (after .siDecode s).si
    s.hdrValid = true ∧ isMono s.hdr = true ∧ SideInfoShape true x ∧
    BitsAt s.window s.pos.toNat (sideInfoStream true x) ∧ s.pos.toNat + 136 ≤ bitsInWindow s := by
  refine ⟨rfl, by decide, by unfold SideInfoShape; decide, by unfold BitsAt; decide, by decide⟩
set_option maxRecDepth 4000 in
theorem witness_SideInfoBlockDecodesToItsRecord_stereo :
    let s := stereoHeader (ready tc si2 0)
    let x := (after .siDecode s).si
    s.hdrValid = true ∧ isMono s.hdr = false ∧ SideInfoShape false x ∧
    BitsAt s.window s.pos.toNat (sideInfoStream false x) ∧ s.pos.toNat + 256 ≤ bitsInWindow s := by
  refine ⟨rfl, by decide, by unfold SideInfoShape; decide, by unfold BitsAt; decide, by decide⟩

theorem witness_SiDecodeOutcomes :
    let s := monoHeader (ready tc si1 0)
    isMono s.hdr = true ∧ s.hdrValid = true ∧ s.pos.toNat + 136 ≤ bitsInWindow s := by decide
theorem witness_SiDecodeOutcomes_exhausted :
    let s := stereoHeader (ready tc si2 1)
    isMono s.hdr = false ∧ s.hdrValid = true ∧ bitsInWindow s < s.pos.toNat + 256 := by decide
theorem witness_SiDecodeOutcomes_sequence : (ready tc si1 0).hdrValid = false := by decide

theorem witness_RecordDecodersFrame :
    let s := monoHeader (ready tc si1 0)
    let t := ready tc [0xFF, 0xFB, 0xF0, 0x00] 0
    exec .hdrDecode s = .next (after .hdrDecode s) ∧ exec .siDecode s = .next (after .siDecode s) ∧
    exec .hdrDecode t = .next (after .hdrDecode t) ∧ (after .hdrDecode t).statusCode ≠ 0 :=
  ⟨exec_after .., exec_after .., exec_after .., by decide⟩

/-- HP-18: codeword 000, linbits and sign `1 1` of x, `0 0` of y. -/
theorem witness_HuffPairDecodesItsCodeword_linbits :
    let s := ready tc [0b0_000_1_1_0_0] 1
    let e : CodeEntry (BitVec 4 × BitVec 4) := row 3 0 (15, 15)
    (16 : BitVec 5) ≠ 0 ∧ e ∈ s.cfg.data.pairBook[(16 : BitVec 5).toFin] ∧
    1 = s.cfg.data.linbits[(16 : BitVec 5).toFin] ∧
    BitsAt s.window s.pos.toNat (e.code ++ pairExtension 1 15 1 true ++ pairExtension 1 15 0 false) ∧
    s.pos.toNat + 7 ≤ bitsInWindow s := by
  refine ⟨by decide, by decide, by decide, by unfold BitsAt; decide, by decide⟩
/-- Table 1, `000 0 1`. -/
theorem witness_HuffPairDecodesItsCodeword_plain :
    let s := ready tc [0b000_000_0_1] 3
    let e : CodeEntry (BitVec 4 × BitVec 4) := row 3 0 (1, 1)
    (1 : BitVec 5) ≠ 0 ∧ e ∈ s.cfg.data.pairBook[(1 : BitVec 5).toFin] ∧ 0 = s.cfg.data.linbits[(1 : BitVec 5).toFin] ∧
    BitsAt s.window s.pos.toNat (e.code ++ pairExtension 0 1 0 false ++ pairExtension 0 1 0 true) ∧
    s.pos.toNat + 5 ≤ bitsInWindow s := by
  refine ⟨by decide, by decide, by decide, by unfold BitsAt; decide, by decide⟩

/-- HQ-3. -/
theorem witness_HuffQuadDecodesItsCodeword :
    let s := ready tc [0b0000_1010] 0
    let e : CodeEntry (BitVec 4) := row 4 0 15
    e ∈ s.cfg.data.quadBook[(1 : BitVec 1).toFin] ∧
    BitsAt s.window s.pos.toNat (e.code ++ quadSigns 15 true false true false) ∧
    s.pos.toNat + 8 ≤ bitsInWindow s := by
  refine ⟨by decide, by unfold BitsAt; decide, by decide⟩

theorem witness_HuffmanCommandErrors_pairUnknown :
    let s := ready tc [0] 6
    (3 : BitVec 5) ≠ 0 ∧ s.cfg.data.pairBook[(3 : BitVec 5).toFin] ≠ [] ∧
    ∀ e ∈ s.cfg.data.pairBook[(3 : BitVec 5).toFin], Incompatible s.window (bitsInWindow s) s.pos.toNat e := by
  refine ⟨by decide, by decide, fun e he => ?_⟩
  obtain rfl : e = row 2 3 (0, 0) := by simpa using (show e ∈ ([row 2 3 (0, 0)] : PairBook) from he)
  exact ⟨0, by decide, by decide, by decide⟩
/-- HP-11: `00`, table 1. -/
theorem witness_HuffmanCommandErrors_pairEnds :
    let s := ready tc [0] 6
    ∃ e ∈ s.cfg.data.pairBook[(1 : BitVec 5).toFin], EndsInside s.window (bitsInWindow s) s.pos.toNat e :=
  ⟨row 3 0 (1, 1), by decide, by unfold EndsInside; decide⟩
/-- HP-12: `01`, table 1, its sign bit missing. -/
theorem witness_HuffmanCommandErrors_pairExtension :
    let s := ready tc [1] 6
    let e : CodeEntry (BitVec 4 × BitVec 4) := row 2 1 (1, 0)
    e ∈ s.cfg.data.pairBook[(1 : BitVec 5).toFin] ∧ BitsAt s.window s.pos.toNat e.code ∧
    s.pos.toNat + e.code.length ≤ bitsInWindow s ∧
    bitsInWindow s < s.pos.toNat + e.code.length + (extensionLength 0 1 + extensionLength 0 0) :=
  ⟨by decide, by unfold BitsAt; decide, by decide, by decide⟩
theorem witness_HuffmanCommandErrors_quadUnknown :
    let s := ready tcPartial [0] 6
    s.cfg.data.quadBook[(1 : BitVec 1).toFin] ≠ [] ∧
    ∀ e ∈ s.cfg.data.quadBook[(1 : BitVec 1).toFin], Incompatible s.window (bitsInWindow s) s.pos.toNat e := by
  refine ⟨by decide, fun e he => ?_⟩
  obtain rfl : e = row 2 3 0 := by simpa using (show e ∈ ([row 2 3 0] : QuadBook) from he)
  exact ⟨0, by decide, by decide, by decide⟩
/-- HQ-5: `111`, table B. -/
theorem witness_HuffmanCommandErrors_quadEnds :
    let s := ready tc [7] 5
    ∃ e ∈ s.cfg.data.quadBook[(1 : BitVec 1).toFin], EndsInside s.window (bitsInWindow s) s.pos.toNat e :=
  ⟨row 4 15 0, by decide, by unfold EndsInside; decide⟩
/-- Table B, `0000 101`: the last of four sign bits is missing. -/
theorem witness_HuffmanCommandErrors_quadExtension :
    let s := ready tc [0b0_0000_101] 1
    let e : CodeEntry (BitVec 4) := row 4 0 15
    e ∈ s.cfg.data.quadBook[(1 : BitVec 1).toFin] ∧ BitsAt s.window s.pos.toNat e.code ∧
    s.pos.toNat + e.code.length ≤ bitsInWindow s ∧ bitsInWindow s < s.pos.toNat + e.code.length + signCount 15 :=
  ⟨by decide, by unfold BitsAt; decide, by decide, by decide⟩

theorem witness_EngineValuesFit_pair :
    let s := ready tc [0b0_000_1_1_0_0] 1
    Inv s ∧ exec (.huffPair 16) s = .next (after (.huffPair 16) s) ∧ (after (.huffPair 16) s).statusCode = 0 :=
  ⟨inv_of_check (by decide), exec_after .., by decide⟩
theorem witness_EngineValuesFit_quad :
    let s := ready tc [0b0000_1010] 0
    Inv s ∧ exec (.huffQuad 1) s = .next (after (.huffQuad 1) s) ∧ (after (.huffQuad 1) s).statusCode = 0 :=
  ⟨inv_of_check (by decide), exec_after .., by decide⟩

theorem witness_HuffmanCommandsFrame :
    let s := ready tc [0b0000_1010] 4
    exec (.huffQuad 1) s = .next (after (.huffQuad 1) s) ∧ exec (.huffPair 2) s = .next (after (.huffPair 2) s) ∧
    (after (.huffPair 2) s).statusCode ≠ 0 := ⟨exec_after .., exec_after .., by decide⟩

/-- A short granule-channel's record: no mixed block, one table for both regions. -/
def shortChannel (big : BitVec 9) (compress : BitVec 4) (table : BitVec 5) (count1 : BitVec 1) : ChannelSideInfo :=
  { ChannelSideInfo.zero with
    bigValues := big
    scalefacCompress := compress
    arm := .shortOrMixed 2 0 table table 0 0 0
    count1TableSelect := count1 }

/-- A frame of four records. -/
def frameOf (c : Config) (header : List Nat) (r : Quad ChannelSideInfo) (bytes : List Nat) : State :=
  { ready c bytes 0 with
    hdr := headerOf header
    hdrValid := true
    si := { SideInfo.zero with gc := r }
    siValid := true }

/-- A mono frame, the same record for both granules. -/
def monoFrame (c : Config) (header : List Nat) (r : ChannelSideInfo) (bytes : List Nat) : State :=
  frameOf c header ⟨r, ChannelSideInfo.zero, r, ChannelSideInfo.zero⟩ bytes

/-- Headers of 44100 Hz and of 22050 Hz, which has no band table. -/
def header44 : List Nat := [0xFF, 0xFB, 0x90, 0xC0]
def header22 : List Nat := [0xFF, 0xF3, 0x90, 0xC0]
/-- A stereo header of 44100 Hz. -/
def headerStereo : List Nat := [0xFF, 0xFB, 0xB0, 0x00]

theorem witness_MdDecodeChecksBeforeReading_header : (ready tc [] 0).hdrValid = false := rfl
theorem witness_MdDecodeChecksBeforeReading_sideInfo :
    (monoHeader (ready tc [] 0)).hdrValid = true ∧ (monoHeader (ready tc [] 0)).siValid = false := ⟨rfl, rfl⟩
theorem witness_MdDecodeChecksBeforeReading_table :
    let s := monoFrame tc header22 ChannelSideInfo.zero [0]
    s.hdrValid = true ∧ s.siValid = true ∧ (∃ q, Present s q ∧ isShort (gc s q) = false) ∧
    ∀ T ∈ s.cfg.data.sfbLong, T.hz ≠ s.hdr.frequency :=
  ⟨rfl, rfl, ⟨2, by unfold Present; decide, by decide⟩, by decide⟩

theorem witness_MdDecodeOutcomes_table : MdReady (md1 tc) :=
  ⟨rfl, rfl, .inl ⟨ConfigData.standard.sfbLong[0], by decide, by decide⟩⟩
theorem witness_MdDecodeOutcomes_short : MdReady (monoFrame tc header22 (shortChannel 1 0 0 1) [0]) :=
  ⟨rfl, rfl, .inr (by unfold Present; decide)⟩

/-- Every bit string begins a code of table B or is begun by one. -/
theorem quadTableB_covering : Covering quadTableB := by
  intro bits
  match bits with
  | [] => exact ⟨row 4 0 15, by decide, .inr List.nil_prefix⟩
  | [a] =>
    exact ⟨⟨[a, false, false, false], if a then 7 else 15⟩, by cases a <;> decide, .inr ⟨[false, false, false], rfl⟩⟩
  | [a, b] =>
    exact ⟨⟨[a, b, false, false], (if a then 0 else 8) + (if b then 3 else 7)⟩, by cases a <;> cases b <;> decide,
      .inr ⟨[false, false], rfl⟩⟩
  | [a, b, c] =>
    exact ⟨⟨[a, b, c, false], (if a then 0 else 8) + (if b then 0 else 4) + (if c then 1 else 3)⟩,
      by cases a <;> cases b <;> cases c <;> decide, .inr ⟨[false], rfl⟩⟩
  | a :: b :: c :: d :: rest =>
    exact ⟨⟨[a, b, c, d],
        (if a then 0 else 8) + (if b then 0 else 4) + (if c then 0 else 2) + (if d then 0 else 1)⟩,
      by cases a <;> cases b <;> cases c <;> cases d <;> decide, .inl ⟨rest, rfl⟩⟩

theorem pairTable1_covering : Covering pairTable1 := by
  intro bits
  match bits with
  | [] => exact ⟨row 1 1 (0, 0), by decide, .inr List.nil_prefix⟩
  | true :: rest => exact ⟨row 1 1 (0, 0), by decide, .inl ⟨rest, rfl⟩⟩
  | [false] => exact ⟨row 2 1 (1, 0), by decide, .inr ⟨[true], rfl⟩⟩
  | false :: true :: rest => exact ⟨row 2 1 (1, 0), by decide, .inl ⟨rest, rfl⟩⟩
  | [false, false] => exact ⟨row 3 1 (0, 1), by decide, .inr ⟨[true], rfl⟩⟩
  | false :: false :: true :: rest => exact ⟨row 3 1 (0, 1), by decide, .inl ⟨rest, rfl⟩⟩
  | false :: false :: false :: rest => exact ⟨row 3 0 (1, 1), by decide, .inl ⟨rest, rfl⟩⟩

/-- A frame of short granules with scale factors, in 8191 bytes whatever they hold. -/
def wideFrame : State :=
  { monoFrame tc header44 (shortChannel 511 15 1 1) [] with winLen := 8191 }

/-- No granule-channel of this frame reads a scale factor. -/
def bareFrame : State := monoFrame tcPart23 header44 (shortChannel 511 0 1 1) [0x55]

/-- The same with scale factors of 90 bits in each granule-channel's 90 bits. -/
def fittedFrame : State :=
  monoFrame tcPart23 header44 { shortChannel 511 15 1 1 with part23Length := 90 } (List.replicate 23 0x55)

theorem tables_covering {s : State} (q : Fin 4) (hc : s.cfg.data.pairBook[1] = pairTable1)
    (hq : s.cfg.data.quadBook[1] = quadTableB) (h : (gc s q).count1TableSelect = 1) (h0 : tableSelect0 (gc s q) = 1)
    (h1 : tableSelect1 (gc s q) = 1) (h2 : tableSelect2 (gc s q) = 0) : CoveringTables s q := by
  simp only [CoveringTables, h, h0, h1, h2]
  refine ⟨?_, fun t ht => ?_⟩
  · show Covering s.cfg.data.quadBook[1]
    rw [hq]
    exact quadTableB_covering
  · obtain rfl | rfl | rfl : t = 1 ∨ t = 1 ∨ t = 0 := ht
    · right
      show Covering s.cfg.data.pairBook[1]
      rw [hc]
      exact pairTable1_covering
    · right
      show Covering s.cfg.data.pairBook[1]
      rw [hc]
      exact pairTable1_covering
    · exact .inl rfl

theorem present_mono {s : State} (h : isMono s.hdr = true) {q : Fin 4} (hq : Present s q) : q = 0 ∨ q = 2 := by
  have := hq h
  fin_cases q <;> simp_all

theorem witness_MdDecodeCompletes_window :
    Inv wideFrame ∧ MdReady wideFrame ∧ (∀ q, Present wideFrame q → CoveringTables wideFrame q) ∧
    wideFrame.cfg.data.limitMode = .span ∧
    wideFrame.pos.toNat + mostFrameBits wideFrame ≤ bitsInWindow wideFrame := by
  refine ⟨inv_of_check (by decide), ⟨rfl, rfl, .inr (by unfold Present; decide)⟩, fun q hq => ?_, rfl, ?_⟩
  · obtain rfl | rfl := present_mono (by decide) hq <;> exact tables_covering _ rfl rfl rfl rfl rfl rfl
  · have h (q : Fin 4) (hq : Present wideFrame q) : mostBits wideFrame q ≤ 20000 := by
      obtain rfl | rfl := present_mono (by decide) hq
      · simp only [mostBits, factorBits, if_pos (show isShort (gc wideFrame 0) = true by decide)]; decide
      · simp only [mostBits, factorBits, if_pos (show isShort (gc wideFrame 2) = true by decide)]; decide
    have h1 : ¬ Present wideFrame 1 := by unfold Present; decide
    have h3 : ¬ Present wideFrame 3 := by unfold Present; decide
    have h0 : Present wideFrame 0 := by unfold Present; decide
    have h2 : Present wideFrame 2 := by unfold Present; decide
    have := h 0 h0
    have := h 2 h2
    have e : bitsInWindow wideFrame = 65528 := by decide
    have p : wideFrame.pos.toNat = 0 := by decide
    rw [mostFrameBits, Fin.sum_univ_four, if_pos h0, if_neg h1, if_pos h2, if_neg h3, e, p]
    omega

theorem witness_MdDecodeCompletes_noFactors :
    Inv bareFrame ∧ MdReady bareFrame ∧ (∀ q, Present bareFrame q → CoveringTables bareFrame q) ∧
    ∀ q, Present bareFrame q → factorBits bareFrame q = 0 := by
  refine ⟨inv_of_check (by decide), ⟨rfl, rfl, .inr (by unfold Present; decide)⟩, fun q hq => ?_, fun q hq => ?_⟩
  · obtain rfl | rfl := present_mono (by decide) hq <;> exact tables_covering _ rfl rfl rfl rfl rfl rfl
  · obtain rfl | rfl := present_mono (by decide) hq
    · rw [factorBits, if_pos (by decide)]; decide
    · rw [factorBits, if_pos (by decide)]; decide

theorem witness_MdDecodeCompletes_limits :
    Inv fittedFrame ∧ MdReady fittedFrame ∧ (∀ q, Present fittedFrame q → CoveringTables fittedFrame q) ∧
    fittedFrame.cfg.data.limitMode = .part23 ∧
    ∀ q, Present fittedFrame q → factorBits fittedFrame q = 90 ∧
      part23Start fittedFrame q + factorBits fittedFrame q = limitOf fittedFrame q (part23Start fittedFrame q) := by
  have h0 : Present fittedFrame 0 := by unfold Present; decide
  have h1 : ¬ Present fittedFrame 1 := by unfold Present; decide
  refine ⟨inv_of_check (by decide), ⟨rfl, rfl, .inr (by unfold Present; decide)⟩, fun q hq => ?_, rfl, fun q hq => ?_⟩
  · obtain rfl | rfl := present_mono (by decide) hq <;> exact tables_covering _ rfl rfl rfl rfl rfl rfl
  · have hf : factorBits fittedFrame q = 90 := by
      obtain rfl | rfl := present_mono (by decide) hq <;> rw [factorBits, if_pos (by decide)] <;> decide
    refine ⟨hf, ?_⟩
    rw [hf]
    obtain rfl | rfl := present_mono (by decide) hq <;> simp [part23Start, Fin.sum_univ_four, h0, h1] <;> decide

/-- MD-5: granule 0 ends inside its third pair, granule 1, a long one, inside its first quadruple. -/
theorem witness_MdDecodeCompletes_runs :
    MdReady md5 ∧ md5.pos.toNat ≤ bitsInWindow md5 ∧ RunsThrough md5 4 fun n => if n = 0 then 0 else 4 := by
  refine ⟨⟨rfl, rfl, .inl ⟨ConfigData.standard.sfbLong[0], by decide, by decide⟩⟩, by decide, rfl, fun q _ => ?_⟩
  have f0 : factorBits md5 0 = 0 := by rw [factorBits, if_neg (by decide), longBits_eq _ _ le_rfl]; decide
  have f2 : factorBits md5 2 = 0 := by rw [factorBits, if_neg (by decide), longBits_eq _ _ le_rfl]; decide
  refine ⟨fun hq => ?_, fun hq => ?_⟩
  · obtain rfl | rfl := present_mono (by decide) hq
    · refine .inl ⟨2, fun j => [0, 1, 4].getD j 0, ⟨by rw [f0]; decide, by decide, by rw [f0]; rfl, fun j hj => ?_⟩,
        by decide, .inr (by decide), by decide⟩
      interval_cases j
      · exact ⟨by decide, (0, 0), by decide⟩
      · exact ⟨by decide, (1, 0), by decide⟩
    · exact .inr ⟨fun _ => 4, 0, fun _ => 4,
        ⟨⟨by rw [f2]; decide, by decide, by rw [f2]; rfl, fun j hj => absurd hj (Nat.not_lt_zero j)⟩, rfl,
          fun j hj => absurd hj (Nat.not_lt_zero j)⟩, fun _ => .inr (by decide), by decide⟩
  · have : q.val ≠ 0 := by
      rintro h; exact hq fun _ => by rw [h]
    simp [this]

/-- MD-1 is a mono frame in SPAN mode, MD-2 a stereo one in PART23 mode. -/
theorem md1_inv : Inv (md1 tc) := inv_of_check (by decide)
theorem md2_inv : Inv md2 := inv_of_check (by decide)
set_option maxRecDepth 20000 in
theorem md1_decoded : MdDecoded (md1 tc) (after .mdDecode (md1 tc)) := ⟨exec_after .., by decide⟩
set_option maxRecDepth 20000 in
theorem md2_decoded : MdDecoded md2 (after .mdDecode md2) := ⟨exec_after .., by decide⟩

theorem witness_MdGranulesRunInOrder_mono :
    Inv (md1 tc) ∧ MdDecoded (md1 tc) (after .mdDecode (md1 tc)) ∧ isMono (md1 tc).hdr = true ∧
    Present (md1 tc) 2 := ⟨md1_inv, md1_decoded, by decide, by unfold Present; decide⟩
theorem witness_MdGranulesRunInOrder_stereo :
    Inv md2 ∧ MdDecoded md2 (after .mdDecode md2) ∧ isMono md2.hdr = false ∧ Present md2 3 ∧
    md2.cfg.data.limitMode = .part23 := ⟨md2_inv, md2_decoded, by decide, by unfold Present; decide, by decide⟩

/-- Granule 1 of MD-1 shares its first and third groups: the bands at each group's ends. -/
theorem witness_MdLongScaleFactors :
    Inv (md1 tc) ∧ MdDecoded (md1 tc) (after .mdDecode (md1 tc)) ∧ Present (md1 tc) 2 ∧
    isShort (gc (md1 tc) 2) = false ∧ (∀ b ∈ [0, 5, 11, 15], Shared (md1 tc) 2 b) ∧
    ∀ b ∈ [6, 10, 16, 20], ¬ Shared (md1 tc) 2 b :=
  ⟨md1_inv, md1_decoded, by unfold Present; decide, by decide, by unfold Shared; decide, by unfold Shared; decide⟩

theorem witness_MdShortScaleFactors :
    Inv md2 ∧ MdDecoded md2 (after .mdDecode md2) ∧ Present md2 1 ∧ isShort (gc md2 1) = true ∧
    mixedBlockFlag (gc md2 1) = 0 ∧ Present md2 3 ∧ isShort (gc md2 3) = true ∧ mixedBlockFlag (gc md2 3) ≠ 0 :=
  ⟨md2_inv, md2_decoded, by unfold Present; decide, by decide, by decide, by unfold Present; decide, by decide,
    by decide⟩

theorem witness_MdRegionBoundaries :
    Inv md2 ∧ MdDecoded md2 (after .mdDecode md2) ∧ Present md2 0 ∧ isShort (gc md2 0) = false ∧ Present md2 1 ∧
    isShort (gc md2 1) = true :=
  ⟨md2_inv, md2_decoded, by unfold Present; decide, by decide, by unfold Present; decide, by decide⟩

theorem witness_MdSpectralLines :
    Inv (md1 tc) ∧ MdDecoded (md1 tc) (after .mdDecode (md1 tc)) ∧ Present (md1 tc) 0 ∧ Present (md1 tc) 2 :=
  ⟨md1_inv, md1_decoded, by unfold Present; decide, by unfold Present; decide⟩

theorem witness_MdZeroFill :
    MdDecoded (md1 tc) (after .mdDecode (md1 tc)) ∧ (md1 tc).pos.toNat ≤ bitsInWindow (md1 tc) ∧
    ¬ Present (md1 tc) 3 ∧ Present (md1 tc) 0 ∧ isShort (gc (md1 tc) 0) = false :=
  ⟨md1_decoded, by decide, by unfold Present; decide, by unfold Present; decide, by decide⟩

/-- 90 bits of scale factors, and 8 or 88 to read them from. -/
theorem witness_MdFirstGranuleErrors_scaleFactors :
    ∀ bytes ∈ [[0], [1, 2, 3, 4, 5, 6, 7, 8, 9, 10, 11]],
      let s := monoFrame tc header44 (shortChannel 0 15 0 0) bytes
      MdReady s ∧ s.pos.toNat ≤ bitsInWindow s ∧ Present s 0 ∧ (RunsThrough s 0 fun _ => 0) ∧
      limitOf s 0 0 < 0 + factorBits s 0 := by
  intro bytes hb
  simp only [List.mem_cons, List.mem_nil_iff, or_false] at hb
  obtain rfl | rfl := hb <;>
    exact ⟨⟨rfl, rfl, .inr (by unfold Present; decide)⟩, by decide, by unfold Present; decide,
      ⟨rfl, fun q hq => absurd hq (Nat.not_lt_zero _)⟩, by rw [factorBits, if_pos (by decide)]; decide⟩

/-- A stereo frame whose first three granule-channels have no bit, and whose last has 89 for 90 bits of scale factors. -/
def lateFrame (r : ChannelSideInfo) : State :=
  frameOf tcPart23 headerStereo ⟨shortChannel 0 0 0 1, shortChannel 1 0 1 0, shortChannel 0 0 0 0, r⟩
    (List.replicate 12 0)

/-- Whatever its last record, the first three granule-channels end at bit 0. -/
theorem lateFrame_runs (r : ChannelSideInfo) : RunsThrough (lateFrame r) 3 fun _ => 0 := by
  refine ⟨rfl, fun q hq => ⟨fun _ => ?_, fun _ => rfl⟩⟩
  obtain rfl | rfl | rfl : q = 0 ∨ q = 1 ∨ q = 2 := by omega
  · have f : factorBits (lateFrame r) 0 = 0 := by rw [factorBits, if_pos (by rfl)]; rfl
    exact .inr ⟨fun _ => 0, 0, fun _ => 0,
      ⟨⟨by rw [f]; exact Nat.zero_le _, le_rfl, by rw [f], fun j hj => absurd hj (Nat.not_lt_zero j)⟩, rfl,
        fun j hj => absurd hj (Nat.not_lt_zero j)⟩, fun _ => .inl rfl, rfl⟩
  · have f : factorBits (lateFrame r) 1 = 0 := by rw [factorBits, if_pos (by rfl)]; rfl
    exact .inl ⟨0, fun _ => 0, ⟨by rw [f]; exact Nat.zero_le _, Nat.zero_le _, by rw [f], fun j hj => absurd hj (Nat.not_lt_zero j)⟩,
      Nat.zero_lt_one, .inl rfl, rfl⟩
  · have f : factorBits (lateFrame r) 2 = 0 := by rw [factorBits, if_pos (by rfl)]; rfl
    exact .inr ⟨fun _ => 0, 0, fun _ => 0,
      ⟨⟨by rw [f]; exact Nat.zero_le _, le_rfl, by rw [f], fun j hj => absurd hj (Nat.not_lt_zero j)⟩, rfl,
        fun j hj => absurd hj (Nat.not_lt_zero j)⟩, fun _ => .inl rfl, rfl⟩

theorem witness_MdFirstGranuleErrors_lateScaleFactors :
    let s := lateFrame { shortChannel 0 15 0 0 with part23Length := 89 }
    MdReady s ∧ s.pos.toNat ≤ bitsInWindow s ∧ Present s 3 ∧ (RunsThrough s 3 fun _ => 0) ∧
    limitOf s 3 0 < 0 + factorBits s 3 :=
  ⟨⟨rfl, rfl, .inr (by unfold Present; decide)⟩, by decide, by unfold Present; decide, lateFrame_runs _,
    by rw [factorBits, if_pos (by decide)]; decide⟩
theorem witness_MdFirstGranuleErrors_latePair :
    let s := lateFrame { shortChannel 1 0 3 0 with part23Length := 1 }
    MdReady s ∧ s.pos.toNat ≤ bitsInWindow s ∧ Present s 3 ∧ (RunsThrough s 3 fun _ => 0) ∧ MeetsUnknownCode s 3 0 := by
  refine ⟨⟨rfl, rfl, .inr (by unfold Present; decide)⟩, by decide, by unfold Present; decide, lateFrame_runs _, .inl ?_⟩
  have f : factorBits (lateFrame { shortChannel 1 0 3 0 with part23Length := 1 }) 3 = 0 := by
    rw [factorBits, if_pos (by decide)]; decide
  refine ⟨0, fun _ => 0, ⟨by rw [f]; decide, by decide, by rw [f], fun j hj => absurd hj (Nat.not_lt_zero j)⟩, by decide,
    by decide, by decide, fun e he => ?_⟩
  obtain rfl : e = row 2 3 (0, 0) := by simpa using (show e ∈ ([row 2 3 (0, 0)] : PairBook) from he)
  exact ⟨0, by decide, by decide, by decide⟩

/-- A long granule-channel: two pairs of table 1 below line 4, and the first pair of region 1, whose table knows no code
that begins with 0. -/
theorem witness_MdFirstGranuleErrors_longPair :
    let s := monoFrame tc header44 { ChannelSideInfo.zero with bigValues := 3, arm := .longBlock 1 3 1 0 0 } [0b11_000000]
    MdReady s ∧ s.pos.toNat ≤ bitsInWindow s ∧ Present s 0 ∧ isShort (gc s 0) = false ∧ (RunsThrough s 0 fun _ => 0) ∧
    MeetsUnknownCode s 0 0 := by
  intro s
  have f : factorBits s 0 = 0 := by rw [factorBits, if_neg (by decide), longBits_eq _ _ le_rfl]; decide
  refine ⟨⟨rfl, rfl, .inl ⟨ConfigData.standard.sfbLong[0], by decide, by decide⟩⟩, by decide, by unfold Present; decide,
    by decide, ⟨rfl, fun q hq => absurd hq (Nat.not_lt_zero _)⟩, .inl ?_⟩
  refine ⟨2, fun j => [0, 1, 2].getD j 0, ⟨by rw [f]; decide, by decide, by rw [f]; rfl, fun j hj => ?_⟩, by decide,
    by decide, by decide, fun e he => ?_⟩
  · interval_cases j
    · exact ⟨by decide, (0, 0), by decide⟩
    · exact ⟨by decide, (0, 0), by decide⟩
  · obtain rfl : e = row 2 3 (0, 0) := by simpa using (show e ∈ ([row 2 3 (0, 0)] : PairBook) from he)
    exact ⟨0, by decide, by decide, by decide⟩

/-- 286 pairs of table 0 take no bit, and the one quadruple that begins below line 576 has no codeword. -/
theorem witness_MdFirstGranuleErrors_quad :
    let s := monoFrame tcPartial header44 (shortChannel 286 0 0 1) [0]
    MdReady s ∧ s.pos.toNat ≤ bitsInWindow s ∧ Present s 0 ∧ (RunsThrough s 0 fun _ => 0) ∧ MeetsUnknownCode s 0 0 := by
  intro s
  have f : factorBits s 0 = 0 := by rw [factorBits, if_pos (by decide)]; decide
  have hl : 0 ≠ limitOf s 0 0 := by decide
  have t (i : Nat) : lineTable s 0 i = 0 := by
    rw [lineTable, show tableSelect0 (gc s 0) = 0 from rfl, show tableSelect1 (gc s 0) = 0 from rfl,
      show tableSelect2 (gc s 0) = 0 from rfl, ite_self, ite_self]
  refine ⟨⟨rfl, rfl, .inr (by unfold Present; decide)⟩, by decide, by unfold Present; decide,
    ⟨rfl, fun q hq => absurd hq (Nat.not_lt_zero _)⟩, .inr ?_⟩
  refine ⟨fun _ => 0, 0, fun _ => 0, ⟨⟨by rw [f]; decide, le_rfl, by rw [f], fun j _ => ⟨hl, (0, 0), ?_⟩⟩, rfl,
    fun j hj => absurd hj (Nat.not_lt_zero j)⟩, by decide, by decide, fun e he => ?_⟩
  · rw [pairOf, t]; rfl
  · obtain rfl : e = row 2 3 0 := by simpa using (show e ∈ ([row 2 3 0] : QuadBook) from he)
    exact ⟨0, by decide, by decide, by decide⟩

theorem witness_MdDecodeFrame :
    exec .mdDecode (md1 tc) = .next (after .mdDecode (md1 tc)) ∧
    (after .mdDecode (ready tc [] 0)).statusCode = 5 ∧
    (after .mdDecode (monoFrame tc header22 ChannelSideInfo.zero [0])).statusCode = 7 :=
  ⟨exec_after .., by decide, by decide⟩

theorem witness_ErrorsArePrecise :
    let s := ready tc [0] 8
    ∀ x ∈ [(Instr.brRead 1, s, 1), (.hdrDecode, s, 1), (.siDecode, monoHeader s, 1), (.siDecode, s, 5),
        (.mdDecode, s, 5), (.mdDecode, monoFrame tc header22 ChannelSideInfo.zero [0], 7),
        (.mdDecode, monoFrame tc header44 (shortChannel 0 15 0 0) [0], 1),
        (.mdDecode, monoFrame tc header44 (shortChannel 1 0 3 0) [0], 3)],
      exec x.1 x.2.1 = .next (after x.1 x.2.1) ∧ (after x.1 x.2.1).statusCode = x.2.2 := by
  intro s x hx
  refine ⟨exec_after .., ?_⟩
  revert x
  decide

/-- An ERR write, a reset and SRST clear bit 6. -/
theorem witness_ErrBitsAreSticky_falls :
    ∀ s ∈ [{ idle [.busWrite 8 4 0x40] with err := 0x1FE }, { busyWith 0 [.assertReset] with err := 0x1FE },
        { running 0xFF000000 with err := 0x1FE }],
      s.tainted = false ∧ step s = .next (stepped s) ∧ s.err.getLsbD 6 = true ∧
      (stepped s).err.getLsbD 6 = false := by
  intro s hs
  simp only [List.mem_cons, List.mem_nil_iff, or_false] at hs
  obtain rfl | rfl | rfl := hs <;> exact ⟨rfl, step_stepped (by decide), by decide, by decide⟩
/-- The lowest and the highest code's bit, and CMD_DROPPED. -/
theorem witness_ErrBitsAreSticky_rises :
    ∀ x ∈ [(running 0x02000020, 1), (monoFrame tc header22 ChannelSideInfo.zero [0], 7),
        (busyWith 0 [.busWrite 0 4 0], 8)],
      let s := if x.2 = 7 then { x.1 with cmdLatch := 0x30000000 } else x.1
      s.tainted = false ∧ step s = .next (stepped s) ∧ s.err.getLsbD x.2 = false ∧
      (stepped s).err.getLsbD x.2 = true := by
  intro x hx
  simp only [List.mem_cons, List.mem_nil_iff, or_false] at hx
  obtain rfl | rfl | rfl := hx <;> exact ⟨by decide, step_stepped (by decide), by decide, by decide⟩

theorem witness_HostWritesReachTheirRegisters :
    let s := busyWith 0x02000008 [.busWrite 0x10 4 0xFFFF1234]
    s.resetAsserted = false ∧ decodeWord s.cmdLatch ≠ .ok .brOpen ∧
    s.inputs = .busWrite (s.cfg.data.regBase + 0x010) 4 0xFFFF1234 :: [] := by decide
theorem witness_HostWritesReachTheirRegisters_ignored :
    ∀ o ∈ [0x004, 0x03C, 0x05C, 0x0FC], o < 256 ∧ o % 4 = 0 ∧ o ∉ writableOffsets ∧
      (idle [.busWrite o 4 1]).inputs = .busWrite ((idle []).cfg.data.regBase + o) 4 1 :: [] := by decide

/-- The last byte of IBUF, and the first address past it. -/
theorem witness_IbufPortStoresAndReads :
    ∀ a ∈ ([0x1FFE, 0x1FFF] : List (BitVec 16)),
      let s := { idle [.busWrite 0x34 4 0x1AB] with ibufAddr := a }
      let t := { idle [.busRead 0x34 4] with ibufAddr := a }
      s.resetAsserted = false ∧ s.inputs = .busWrite (s.cfg.data.regBase + 0x034) 4 0x1AB :: [] ∧
      t.resetAsserted = false ∧ t.inputs = .busRead (t.cfg.data.regBase + 0x034) 4 :: [] :=
  fun _ _ => ⟨rfl, rfl, rfl, rfl⟩

/-- The last index of each kind of element of granule-channel 3, and unmapped ones beside them. -/
theorem witness_OutPortReadsTheMap :
    ∀ a ∈ [576 * 3 + 575, 0x1000 + 32 * 3 + 21, 0x1100 + 64 * 3 + 4 * 12 + 2, 0x1200 + 4 * 3 + 1,
        0x1200 + 4 * 3 + 2 + 1,
        576 * 4, 0x1000 + 22, 0x1100 + 3, 0x1100 + 4 * 13, 0x1210, 0xFFFF],
      let s := { idle [.busRead 0x3C 4] with outAddr := BitVec.ofNat 16 a }
      s.resetAsserted = false ∧ s.busy = false ∧ a = s.outAddr.toNat ∧
      s.inputs = .busRead (s.cfg.data.regBase + 0x03C) 4 :: [] := by decide
theorem witness_OutPortReadsTheMap_unmapped :
    ∀ a ∈ [576 * 4, 0x1000 + 22, 0x1100 + 3, 0x1100 + 4 * 13, 0x1210, 0xFFFF], ∀ q < 4,
      (∀ i < 576, a ≠ 576 * q + i) ∧ (∀ b < 22, a ≠ 0x1000 + 32 * q + b) ∧
      (∀ b < 13, ∀ w < 3, a ≠ 0x1100 + 64 * q + 4 * b + w) ∧ (∀ k < 4, a ≠ 0x1200 + 4 * q + k) := by
  intro a ha q hq
  simp only [List.mem_cons, List.mem_nil_iff, or_false] at ha
  refine ⟨?_, ?_, ?_, ?_⟩ <;> intros <;> omega

theorem witness_ControlRegistersReadAsLaidOut :
    ∀ o ∈ [0x000, 0x038, 0x05C, 0x0FC],
      let s := idle [.busRead o 4]
      s.resetAsserted = false ∧ s.busy = false ∧ s.inputs = .busRead (s.cfg.data.regBase + o) 4 :: [] := by decide
theorem witness_ControlRegistersReadAsLaidOut_unmapped :
    ∀ o ∈ [0x05C, 0x064, 0x07C, 0x0C0, 0x0FC], o < 256 ∧ o % 4 = 0 ∧ o ∉ mappedOffsets := by decide

theorem witness_RecordRegistersReadAsLaidOut :
    ∀ o ∈ [0x040, 0x060, 0x080, 0x0BC],
      let s := idle [.busRead o 4]
      s.resetAsserted = false ∧ s.busy = false ∧ s.inputs = .busRead (s.cfg.data.regBase + o) 4 :: [] := by decide

/-- The two data ports and an unmapped offset under MD_DECODE. -/
theorem witness_BusyReadsAreOpenOnlyWhereStated_anyOffset :
    ∀ o ∈ [0x034, 0x03C, 0x05C, 0x0FC],
      let s := busyWith 0x30000000 [.busRead o 4]
      s.resetAsserted = false ∧ s.busy = true ∧ s.inputs = .busRead (s.cfg.data.regBase + o) 4 :: [] ∧ o < 256 ∧
      o % 4 = 0 := by decide
theorem witness_BusyReadsAreOpenOnlyWhereStated :
    let s := busyWith 0x02000008 [.busRead 4 4]
    s.resetAsserted = false ∧ s.busy = true ∧ s.inputs = .busRead (s.cfg.data.regBase + 4) 4 :: [] := by decide
/-- RES1 under BR_READ, and BR_POS under an illegal word. -/
theorem witness_BusyReadsAreOpenOnlyWhereStated_current :
    ∀ x ∈ [((0x02000008 : Word), 0x24), (0x05000000, 0x14)],
      let s := busyWith x.1 [.busRead x.2 4]
      s.resetAsserted = false ∧ s.busy = true ∧ s.inputs = .busRead (s.cfg.data.regBase + x.2) 4 :: [] ∧ x.2 < 256 ∧
      x.2 % 4 = 0 ∧ x.2 ≠ 4 ∧ ∀ i, decodeWord s.cmdLatch = .ok i → x.2 ∉ writtenOffsets i := by
  intro x hx
  simp only [List.mem_cons, List.mem_nil_iff, or_false] at hx
  obtain rfl | rfl := hx
  · refine ⟨rfl, rfl, by decide, by decide, by decide, by decide, fun i hi => ?_⟩
    obtain rfl : Instr.brRead 8 = i := Except.ok.inj (show Except.ok (Instr.brRead 8) = Except.ok i from hi)
    decide
  · refine ⟨rfl, rfl, by decide, by decide, by decide, by decide, fun i hi => ?_⟩
    cases (show Except.error DecodeError.unassignedOpcode = Except.ok i from hi)

/-- A window on the first two of four bytes, and another memory from the third on. -/
theorem witness_CommandSeesOnlyItsWindow :
    let s := { ready tc [1, 2, 3, 4] 0 with winLen := 2 }
    cells [1, 2, 9] ≠ s.ibuf ∧
    ∀ a, s.winBase.toNat ≤ a → a < s.winBase.toNat + s.winLen.toNat →
      ibufByte (cells [1, 2, 9]) 5 a = ibufByte s.ibuf s.ibufDraw a := by
  refine ⟨by decide, fun a _ ha => ?_⟩
  have : a < 2 := ha
  interval_cases a <;> rfl

theorem witness_BootStateOutcomes :
    RegistersReset State.reset ∧ State.reset.openRace = none ∧
    ∀ i ∈ [Instr.brRead 32, .brSeek 1, .huffPair 1, .huffPair 2, .huffQuad 1, .brPeek 1], i.wellFormed = true :=
  ⟨by unfold RegistersReset; decide, rfl, by decide⟩

/-- The same two bytes at another place of IBUF, with another programmed pair, ERR, results and OUT. -/
theorem witness_ResultsDependOnlyOnTheInputs :
    let s := ready tc [0xAB, 0xCD] 3
    let t :=
      { ready tc [0, 0xAB, 0xCD] 3 with
        winBase := 1, winLen := 2, err := 2, res := ⟨1, 2, 3, 4⟩, md := .drawn 0, brLenReg := 9 }
    s.cfg = t.cfg ∧ s.winLen = t.winLen ∧ (∀ k, k < bitsInWindow s → winBit s.window k = winBit t.window k) ∧
    s.pos = t.pos ∧ s.hdr = t.hdr ∧ s.si = t.si ∧ s.hdrValid = t.hdrValid ∧ s.siValid = t.siValid ∧
    (Instr.brRead 13 = .brOpen → openPair s = openPair t) ∧ exec (.brRead 13) s = .next (after (.brRead 13) s) ∧
    exec (.brRead 13) t = .next (after (.brRead 13) t) ∧ (after (.brRead 13) s).statusCode = 0 :=
  ⟨rfl, rfl, by decide, rfl, rfl, rfl, rfl, rfl, by simp, exec_after .., exec_after .., by decide⟩
/-- The same for BR_OPEN, with the same programmed pair. -/
theorem witness_ResultsDependOnlyOnTheInputs_open :
    let s := running 0x01000000
    let t := { running 0x01000000 with err := 2 }
    openPair s = openPair t ∧ exec .brOpen s = .next (after .brOpen s) ∧ exec .brOpen t = .next (after .brOpen t) ∧
    (after .brOpen s).statusCode = 0 := ⟨rfl, exec_after .., exec_after .., by decide⟩

theorem witness_IssuedCommandRuns :
    let s := idle [.busWrite 0 4 0x02000008, .sequencerTurn]
    s.resetAsserted = false ∧ s.busy = false ∧
    s.inputs = .busWrite s.cfg.data.regBase 4 0x02000008 :: .sequencerTurn :: [] ∧
    decodeWord 0x02000008 = .ok (.brRead 8) := by decide

end Sys2Proof.Tests
end

section
/-! What a step can do, said once: the sequencer's turn, a host access or the reset input. -/

namespace Sys2Proof.Machine

/-! ### One step -/

/-- Everything a step that answers a next state can be, with `l` the inputs it leaves pending. -/
inductive StepCase (s : State) : State → Prop where
  /-- an idle block's turn, or a write to an unmapped offset -/
  | unchanged (l : List Input) : StepCase s { s with inputs := l }
  /-- a read of an unmapped offset -/
  | readUnmapped (l : List Input) : StepCase s (State.reply { s with inputs := l } 0)
  | read (l : List Input) (r : Reg) : StepCase s (readReg { s with inputs := l } r)
  | write (l : List Input) (o : Nat) (r : Reg) (d : Word) (released : s.resetAsserted = false)
      (next : s.inputs = .busWrite (s.cfg.data.regBase + o) 4 d :: l) (mapped : regAt o = some r) :
      StepCase s (writeReg { s with inputs := l } r d)
  | complete (l : List Input) (t : State) (running : s.busy = true)
      (ends : completion { s with inputs := l } = .next t) : StepCase s t
  | assertReset (l : List Input) (next : s.inputs = .assertReset :: l) : StepCase s (assertReset { s with inputs := l })
  | releaseReset (l : List Input) : StepCase s (releaseReset { s with inputs := l })

/-- A legal access is one word at its offset, with reset released. -/
theorem accessOffset_eq_ok {s : State} {addr bytes o : Nat} (h : accessOffset s addr bytes = .ok o) :
    s.resetAsserted = false ∧ bytes = 4 ∧ addr = s.cfg.data.regBase + o := by
  unfold accessOffset at h
  split at h
  · cases h
  split at h
  · cases h
  split at h
  · cases h
  · cases h
    exact ⟨by simpa using ‹¬ s.resetAsserted = true›, by omega, by omega⟩

theorem sequencerTurn_stepCase {s t : State} {l : List Input} (h : sequencerTurn { s with inputs := l } = .next t) :
    StepCase s t := by
  unfold sequencerTurn at h
  split at h
  · exact .complete l t ‹_› h
  · cases h; exact .unchanged l

theorem hostRead_stepCase {s t : State} {l : List Input} {addr bytes : Nat}
    (h : hostRead addr bytes { s with inputs := l } = .next t) : StepCase s t := by
  unfold hostRead at h
  split at h
  · cases h
  split at h
  · cases h; exact .readUnmapped l
  · cases h; exact .read l _

theorem hostWrite_stepCase {s t : State} {l : List Input} {addr bytes : Nat} {d : Word}
    (hin : s.inputs = .busWrite addr bytes d :: l) (h : hostWrite addr bytes d { s with inputs := l } = .next t) :
    StepCase s t := by
  unfold hostWrite at h
  split at h
  · cases h
  rename_i o ho
  obtain ⟨hreset, rfl, rfl⟩ := accessOffset_eq_ok ho
  split at h
  · cases h; exact .unchanged l
  · cases h; exact .write l o _ d hreset hin ‹_›

/-- Every step is one of the cases. -/
theorem step_stepCase {s t : State} (h : step s = .next t) : StepCase s t := by
  unfold step nextStep at h
  split at h
  · exact sequencerTurn_stepCase (l := s.inputs) h
  · rename_i x l hin
    cases x with
    | busRead addr bytes => exact hostRead_stepCase h
    | busWrite addr bytes d => exact hostWrite_stepCase hin h
    | sequencerTurn => exact sequencerTurn_stepCase h
    | assertReset => cases h; exact .assertReset l hin
    | releaseReset => cases h; exact .releaseReset l

/-- The step of a host write to a mapped offset, reset released. -/
theorem step_write {s : State} {o : Nat} {r : Reg} {d : Word} {l : List Input} (hreset : s.resetAsserted = false)
    (hin : s.inputs = .busWrite (s.cfg.data.regBase + o) 4 d :: l) (ho : o < 256) (h4 : o % 4 = 0)
    (hr : regAt o = some r) : step s = .next (writeReg { s with inputs := l } r d) := by
  have hoff : accessOffset { s with inputs := l } (s.cfg.data.regBase + o) 4 = .ok o :=
    accessOffset_ok (s := { s with inputs := l }) hreset ho h4
  unfold step nextStep
  rw [hin]
  simp only [takeInput, hostWrite, hoff, hr]

/-- The sequencer's turn of a running, untainted command whose word decodes is that command. -/
theorem step_turn {s : State} {i : Instr} {l : List Input} (hin : s.inputs = .sequencerTurn :: l)
    (hbusy : s.busy = true) (htaint : s.tainted = false) (hi : decodeWord s.cmdLatch = .ok i) :
    step s = exec i { s with inputs := l } := by
  unfold step nextStep
  rw [hin]
  simp only [takeInput, sequencerTurn, completion, hbusy, htaint, hi, if_true, Bool.false_eq_true, if_false]

theorem step_assertReset {s : State} {l : List Input} (hin : s.inputs = .assertReset :: l) :
    step s = .next (assertReset { s with inputs := l }) := by
  unfold step nextStep
  rw [hin]
  rfl

theorem step_releaseReset {s : State} {l : List Input} (hin : s.inputs = .releaseReset :: l) :
    step s = .next (releaseReset { s with inputs := l }) := by
  unfold step nextStep
  rw [hin]
  rfl

/-! ### Host accesses -/

theorem afterRead_writes (s : State) (r : Reg) : ∃ a b, afterRead s r = { s with ibufAddr := a, outAddr := b } := by
  unfold afterRead
  split <;> exact ⟨_, _, rfl⟩

/-- A read of a register moves at most the port addresses, the replies and the draw counter. -/
theorem readReg_writes (s : State) (r : Reg) : ∃ a b v n, s.draws ≤ n ∧
    readReg s r = { s with ibufAddr := a, outAddr := b, replies := v, draws := n } := by
  unfold readReg
  split
  · obtain ⟨a, b, h⟩ := afterRead_writes { s with draws := s.draws + 1 } r
    exact ⟨a, b, _, s.draws + 1, Nat.le_succ _, by rw [h]; rfl⟩
  · obtain ⟨a, b, h⟩ := afterRead_writes s r
    exact ⟨a, b, _, s.draws, le_rfl, by rw [h]; rfl⟩

/-- A write of a register reaches ERR only at ERR itself and, while a command runs, at CMD. -/
theorem writeReg_err (s : State) (r : Reg) (d : Word) :
    (writeReg s r d).err = s.err ∨ (r = .err ∧ (writeReg s r d).err = clearErr s.err d) ∨
      (r = .cmd ∧ s.busy = true ∧ (writeReg s r d).err = s.err ||| cmdDroppedMask) := by
  cases r with
  | err => exact .inr (.inl ⟨rfl, rfl⟩)
  | cmd =>
    by_cases hb : s.busy = true
    · exact .inr (.inr ⟨rfl, hb, by simp only [writeReg, writeCmd, hb, if_true]⟩)
    · exact .inl (by simp only [writeReg, writeCmd, hb, if_false, Bool.false_eq_true, accept_err])
  | brBase => left; simp only [writeReg, writeBrBase]; split <;> rfl
  | brLen => left; simp only [writeReg, writeBrLen]; split <;> rfl
  | ibufData => left; simp only [writeReg, writeIbufData]; split <;> rfl
  | _ => exact .inl rfl

end Sys2Proof.Machine
end

section
/-! How a command ends: what its completion keeps of the invariant, where it moves the cursor and what it does to ERR. -/

namespace Sys2Proof.Machine

/-! ### The part of the invariant that holds while a command writes its results -/

/-- The lines of `Inv` that neither a status nor the life of a command touches. -/
structure Sound (s : State) : Prop where
  windowInside : s.winBase.toNat + s.winLen.toNat ≤ s.cfg.data.ibufBytes
  cursorInside : s.pos.toNat ≤ windowEnd s.window
  siNeedsHdr : s.siValid = true → s.hdrValid = true
  mdNeedsSi : s.mdValid = true → s.siValid = true
  errBitZero : s.err.getLsbD 0 = false
  channels : s.hdrValid = true → s.hdr.nch = 1 ∨ s.hdr.nch = 2
  absentChannel : s.siValid = true → isMono s.hdr = true →
    s.si.scfsi.ch1 = 0 ∧ s.si.gc.q1 = ChannelSideInfo.zero ∧ s.si.gc.q3 = ChannelSideInfo.zero
  ibufCanonical : Memory.wf s.ibuf s.cfg.data.ibufBytes
  outCanonical : s.md.wf
  ibufDrawTaken : s.ibufDraw < s.draws
  outDrawTaken : ∀ n, s.md = .drawn n → n < s.draws

theorem Inv.sound {s : State} (h : Inv s) : Sound s where
  windowInside := h.windowInside
  cursorInside := h.cursorInside
  siNeedsHdr := h.siNeedsHdr
  mdNeedsSi := h.mdNeedsSi
  errBitZero := h.errBitZero
  channels := h.channels
  absentChannel := h.absentChannel
  ibufCanonical := h.ibufCanonical
  outCanonical := h.outCanonical
  ibufDrawTaken := h.ibufDrawTaken
  outDrawTaken := h.outDrawTaken

/-- An idle block with a listed status and no hazard needs no more than `Sound`. -/
theorem Sound.inv {s : State} (h : Sound s) (hbusy : s.busy = false)
    (hstatus : (s.statusCode, s.statusDetail) ∈ statusPairs) (htaint : s.tainted = false) (hrace : s.openRace = none) :
    Inv s where
  windowInside := h.windowInside
  cursorInside := h.cursorInside
  cursorSaved hb := by simp [hbusy] at hb
  siNeedsHdr := h.siNeedsHdr
  mdNeedsSi := h.mdNeedsSi
  statusListed := hstatus
  errBitZero := h.errBitZero
  channels := h.channels
  absentChannel := h.absentChannel
  ibufCanonical := h.ibufCanonical
  outCanonical := h.outCanonical
  resetIdle _ := hbusy
  hazardRuns _ := ⟨htaint, hrace⟩
  ibufDrawTaken := h.ibufDrawTaken
  outDrawTaken := h.outDrawTaken

section Sound
variable {s : State} (h : Sound s)
include h

/-- The window's end is far below what the cursor register holds (P_IBUF_BYTES is at most 8191). -/
theorem Sound.windowEnd_lt : windowEnd s.window < 65536 := by
  have := s.cfg.ibufBytes_le
  have := h.windowInside
  simp only [windowEnd, State.window]
  omega

/-- A cursor inside the window is stored as it is. -/
theorem Sound.cursor_toNat {p : Nat} (hp : p ≤ windowEnd s.window) : (cursor p).toNat = p :=
  Machine.cursor_toNat (hp.trans_lt h.windowEnd_lt)

theorem Sound.setRes (r : Quad Word) : Sound { s with res := r } := { h with }

theorem Sound.setPos {p : BitVec 16} (hp : p.toNat ≤ windowEnd s.window) : Sound { s with pos := p } :=
  { h with cursorInside := hp }

theorem Sound.setCursor {p : Nat} (hp : p ≤ windowEnd s.window) : Sound { s with pos := cursor p } :=
  h.setPos ((h.cursor_toNat hp).trans_le hp)

theorem Sound.latchWindow {base len : BitVec 16} (hw : base.toNat + len.toNat ≤ s.cfg.data.ibufBytes) :
    Sound (latchWindow s base len) :=
  { h with windowInside := hw, cursorInside := Nat.zero_le _ }

theorem Sound.invalidateMd : Sound (invalidateMd s) := { h with mdNeedsSi := fun hv => by simp at hv }

theorem Sound.invalidateFromSi : Sound (invalidateFromSi s) :=
  { h with
    siNeedsHdr := fun hv => by simp at hv
    mdNeedsSi := fun hv => by simp at hv
    absentChannel := fun hv => by simp at hv }

theorem Sound.invalidateFromHdr : Sound (invalidateFromHdr s) :=
  { h with
    siNeedsHdr := fun hv => by simp at hv
    mdNeedsSi := fun hv => by simp at hv
    channels := fun hv => by simp at hv
    absentChannel := fun hv => by simp at hv }

theorem Sound.scrambleOut : Sound s.scrambleOut :=
  { h with
    outCanonical := trivial
    ibufDrawTaken := Nat.lt_succ_of_lt h.ibufDrawTaken
    outDrawTaken := fun n hn => by cases hn; exact Nat.lt_succ_self _ }

theorem Sound.setHeader {x : Header} (hx : x.nch = 1 ∨ x.nch = 2) :
    Sound { s with hdr := x, hdrValid := true, siValid := false, mdValid := false } :=
  { h with
    siNeedsHdr := fun hv => by simp at hv
    mdNeedsSi := fun hv => by simp at hv
    channels := fun _ => hx
    absentChannel := fun hv => by simp at hv }

theorem Sound.setSideInfo {x : SideInfo} (hv : s.hdrValid = true)
    (hx : isMono s.hdr = true → x.scfsi.ch1 = 0 ∧ x.gc.q1 = ChannelSideInfo.zero ∧ x.gc.q3 = ChannelSideInfo.zero) :
    Sound { s with si := x, siValid := true, mdValid := false } :=
  { h with
    siNeedsHdr := fun _ => hv
    mdNeedsSi := fun hm => by simp at hm
    absentChannel := fun _ => hx }

theorem Sound.setRecord {m : Record} (hv : s.siValid = true) (hm : RecordOk m) :
    Sound { s with md := .record m, mdValid := true } :=
  { h with
    mdNeedsSi := fun _ => hv
    outCanonical := hm
    outDrawTaken := fun n hn => by cases hn }

theorem Sound.resetRegisters : Sound s.resetRegisters :=
  { h with
    windowInside := Nat.zero_le _
    cursorInside := Nat.zero_le _
    siNeedsHdr := fun hv => by simp at hv
    mdNeedsSi := fun hv => by simp at hv
    errBitZero := by simp
    channels := fun hv => by simp at hv
    absentChannel := fun hv => by simp at hv }

end Sound

/-! ### The two ways a command ends -/

/-- A status code and detail that the block can report (spec/60_exceptions.md R351). -/
abbrev CmdError.Listed (e : CmdError) : Prop := (errorCode e.kind, e.detail) ∈ statusPairs

/-- What command `i` from `s` has written, as `u`, when it ends OK. -/
structure DoneAs (i : Instr) (s u : State) : Prop where
  sound : Sound s → Sound u
  err : u.err = s.err ∨ (i = .srst ∧ u.err = 0)
  forward : Sound s → s.pos.toNat ≤ u.pos.toNat ∨ i = .brOpen ∨ i = .srst ∨ ∃ off, i = .brSeek off

/-- What a command from `s` has written, as `u`, when it fails: valid flags and OUT at most. -/
structure FailedAs (s u : State) : Prop where
  sound : Sound s → Sound u
  err : u.err = s.err
  pos0 : u.pos0 = s.pos0
  window : u.window = s.window

theorem FailedAs.refl (s : State) : FailedAs s s := ⟨id, rfl, rfl, rfl⟩
theorem FailedAs.invalidateMd (s : State) : FailedAs s (invalidateMd s) := ⟨Sound.invalidateMd, rfl, rfl, rfl⟩
theorem FailedAs.invalidateFromSi (s : State) : FailedAs s (invalidateFromSi s) :=
  ⟨Sound.invalidateFromSi, rfl, rfl, rfl⟩
theorem FailedAs.invalidateFromHdr (s : State) : FailedAs s (invalidateFromHdr s) :=
  ⟨Sound.invalidateFromHdr, rfl, rfl, rfl⟩
theorem FailedAs.scrambleOut (s : State) : FailedAs s (Machine.invalidateMd s).scrambleOut :=
  ⟨fun h => h.invalidateMd.scrambleOut, rfl, rfl, rfl⟩

/-- How the command that a word decodes to ends: OK from what it wrote, or in a listed error. An illegal word always ends
in an error. -/
inductive CommandEnd (decoded : Except DecodeError Instr) (s : State) : State → Prop where
  | ok (i : Instr) (u : State) (decodes : decoded = .ok i) (wrote : DoneAs i s u) : CommandEnd decoded s u.finish
  | error (u : State) (e : CmdError) (wrote : FailedAs s u) (listed : e.Listed) : CommandEnd decoded s (u.fail e)

/-- A command that ends OK with the cursor moved on to `p`, in the same window. -/
theorem DoneAs.advance {i : Instr} {s u : State} {p : Nat} (hpos : u.pos = cursor p) (herr : u.err = s.err)
    (hw : u.window = s.window) (hu : Sound s → Sound { u with pos := s.pos })
    (hp : Sound s → s.pos.toNat ≤ p ∧ p ≤ windowEnd s.window) : DoneAs i s u where
  sound h := (hu h).setPos (p := u.pos) (by
    rw [hpos, h.cursor_toNat (hp h).2]
    exact (hp h).2.trans_eq (congrArg windowEnd hw.symm))
  err := .inl herr
  forward h := .inl (by rw [hpos, h.cursor_toNat (hp h).2]; exact (hp h).1)

/-! ### What the decoders store -/

theorem deriveHeader_nch (c : ConfigData) (h br fr : Word) :
    (deriveHeader c h br fr).nch = 1 ∨ (deriveHeader c h br fr).nch = 2 := by
  simp only [deriveHeader, channelCount]
  split
  · exact .inl rfl
  · exact .inr rfl

theorem readSideInfo_mono (w : Window) (p : Nat) :
    (readSideInfo w true p).scfsi.ch1 = 0 ∧ (readSideInfo w true p).gc.q1 = ChannelSideInfo.zero ∧
      (readSideInfo w true p).gc.q3 = ChannelSideInfo.zero := ⟨rfl, rfl, rfl⟩

theorem decodeHeader_error_listed {c : ConfigData} {h : Word} {e : CmdError} (he : decodeHeader c h = .error e) :
    e.Listed := by
  obtain rfl | rfl := decodeHeader_error he <;> decide

/-- The stream errors of every granule-channel are listed. -/
theorem streamError_listed (q : Fin 4) : (CmdError.mk .exhausted (0x10 ||| BitVec.ofNat 8 q.val)).Listed ∧
    (CmdError.mk .unknownCode (0x14 ||| BitVec.ofNat 8 q.val)).Listed := by
  revert q
  decide

theorem decodeFrame_error_listed {c : ConfigData} {w : Window} {hdr : Header} {si : SideInfo} {pos : Nat}
    {e : CmdError} (hb : bandTableMissing c hdr si = false) (h : decodeFrame c w hdr si pos = .error e) : e.Listed := by
  obtain ⟨q, -, rfl | rfl⟩ := decodeFrame_error hb h
  · exact (streamError_listed q).1
  · exact (streamError_listed q).2

/-! ### Every completion -/

/-- Every command ends in one of the two ways. -/
theorem exec_end (i : Instr) (s : State) : ∃ t, exec i s = .next t ∧ CommandEnd (.ok i) s t := by
  cases i with
  | nop => exact ⟨_, nop_eq s, .ok _ s rfl ⟨id, .inl rfl, fun _ => .inl le_rfl⟩⟩
  | srst =>
    exact ⟨_, srst_eq s, .ok _ _ rfl ⟨Sound.resetRegisters, .inr ⟨rfl, rfl⟩, fun _ => .inr (.inr (.inl rfl))⟩⟩
  | brOpen =>
    obtain ⟨g, hle⟩ | ⟨g, -⟩ := brOpen_cases s
    · exact ⟨_, g, .ok _ _ rfl ⟨fun h => h.latchWindow hle, .inl rfl, fun _ => .inr (.inl rfl)⟩⟩
    · exact ⟨_, g, .error s _ (.refl s) (by decide)⟩
  | brRead n =>
    obtain ⟨-, hle, g⟩ | ⟨-, -, g⟩ | ⟨-, g⟩ := brRead_cases n s
    · exact ⟨_, g, .ok _ _ rfl (.advance rfl rfl rfl (fun h => h.setRes _)
        fun _ => ⟨Nat.le_add_right _ _, hle⟩)⟩
    · exact ⟨_, g, .error s _ (.refl s) (by decide)⟩
    · exact ⟨_, g, .error s _ (.refl s) (by decide)⟩
  | brPeek n =>
    obtain ⟨-, -, g⟩ | ⟨-, -, g⟩ | ⟨-, g⟩ := brPeek_cases n s
    · exact ⟨_, g, .ok _ _ rfl ⟨fun h => h.setRes _, .inl rfl, fun _ => .inl le_rfl⟩⟩
    · exact ⟨_, g, .ok _ _ rfl ⟨fun h => h.setRes _, .inl rfl, fun _ => .inl le_rfl⟩⟩
    · exact ⟨_, g, .error s _ (.refl s) (by decide)⟩
  | brSeek off =>
    obtain ⟨hle, g⟩ | ⟨-, g⟩ := brSeek_cases off s
    · exact ⟨_, g, .ok _ _ rfl ⟨fun h => h.setPos hle, .inl rfl, fun _ => .inr (.inr (.inr ⟨off, rfl⟩))⟩⟩
    · exact ⟨_, g, .error s _ (.refl s) (by decide)⟩
  | hdrDecode =>
    obtain ⟨-, g⟩ | ⟨hle, ⟨e, he, g⟩ | ⟨x, hx, g⟩⟩ := hdrDecode_cases s
    · exact ⟨_, g, .error _ _ (.invalidateFromHdr s) (by decide)⟩
    · exact ⟨_, g, .error _ _ (.invalidateFromHdr s) (decodeHeader_error_listed he)⟩
    · obtain ⟨br, fr, -, -, rfl⟩ := decodeHeader_ok hx
      exact ⟨_, g, .ok _ _ rfl (.advance rfl rfl rfl
        (fun h => h.setHeader (deriveHeader_nch _ _ br fr)) fun _ => ⟨Nat.le_add_right _ _, hle⟩)⟩
  | siDecode =>
    obtain ⟨-, g⟩ | ⟨-, -, g⟩ | ⟨hv, hle, g⟩ := siDecode_cases s
    · exact ⟨_, g, .error s _ (.refl s) (by decide)⟩
    · exact ⟨_, g, .error _ _ (.invalidateFromSi s) (by decide)⟩
    · exact ⟨_, g, .ok _ _ rfl (.advance rfl rfl rfl
        (fun h => h.setSideInfo hv fun hm => by rw [hm]; exact readSideInfo_mono _ _)
        fun _ => ⟨Nat.le_add_right _ _, hle⟩)⟩
  | huffPair k =>
    obtain ⟨-, g⟩ | ⟨-, g⟩ | ⟨x, y, p, hd, g⟩ := huffPair_cases k s
    · exact ⟨_, g, .error s _ (.refl s) (by decide)⟩
    · exact ⟨_, g, .error s _ (.refl s) (by decide)⟩
    · refine ⟨_, g, .ok _ _ rfl (.advance rfl rfl rfl (fun h => h.setRes _) fun h => ?_)⟩
      obtain ⟨-, -, hge, hle, -⟩ := decodePair_ok hd h.cursorInside
      exact ⟨hge, hle⟩
  | huffQuad k =>
    obtain ⟨-, g⟩ | ⟨-, g⟩ | ⟨v, p, hd, g⟩ := huffQuad_cases k s
    · exact ⟨_, g, .error s _ (.refl s) (by decide)⟩
    · exact ⟨_, g, .error s _ (.refl s) (by decide)⟩
    · refine ⟨_, g, .ok _ _ rfl (.advance rfl rfl rfl (fun h => h.setRes _) fun h => ?_)⟩
      obtain ⟨-, -, -, -, hge, hle, -⟩ := decodeQuad_ok hd h.cursorInside
      exact ⟨hge, hle⟩
  | mdDecode =>
    obtain ⟨-, g⟩ | ⟨-, -, g⟩ | ⟨-, hv, ⟨-, g⟩ | ⟨hb, ⟨e, he, g⟩ | ⟨m, p, hd, g⟩⟩⟩ := mdDecode_cases s
    · exact ⟨_, g, .error s _ (.refl s) (by decide)⟩
    · exact ⟨_, g, .error s _ (.refl s) (by decide)⟩
    · exact ⟨_, g, .error _ _ (.invalidateMd s) (by decide)⟩
    · exact ⟨_, g, .error _ _ (.scrambleOut s) (decodeFrame_error_listed hb he)⟩
    · have hgrows := fun h : Sound s => decodeFrame_grows h.cursorInside hd
      exact ⟨_, g, .ok _ _ rfl (.advance rfl rfl rfl (fun h => h.setRecord hv (hgrows h).ok)
        fun h => ⟨(hgrows h).forward, (hgrows h).inside h.cursorInside⟩)⟩

/-- The completion of a command whose window was not written under it. -/
theorem completion_end {s t : State} (htaint : s.tainted = false) (h : completion s = .next t) :
    CommandEnd (decodeWord s.cmdLatch) s t := by
  unfold completion at h
  rw [if_neg (by simp [htaint])] at h
  split at h
  · rename_i e _
    cases h
    exact .error s _ (.refl s) (by cases e <;> decide)
  · rename_i i hi
    obtain ⟨u, hu, hend⟩ := exec_end i s
    cases hu.symm.trans h
    rwa [hi]

end Sys2Proof.Machine
end

section
/-! The invariant of the block: what keeps it, one lemma per kind of step. -/

namespace Sys2Proof.Machine

/-! ### Completions -/

/-- The bit a status code sets is its own, and only codes 1 to 7 have one (spec/10_state.md R39). -/
theorem errMask_getLsbD_true {code : BitVec 8} {k : Nat} (h : (errMask code).getLsbD k = true) :
    k = code.toNat ∧ 1 ≤ k ∧ k ≤ 7 := by
  unfold errMask at h
  split at h
  · simp only [BitVec.getLsbD_shiftLeft, BitVec.getLsbD_one, Bool.and_eq_true, Bool.not_eq_true', decide_eq_true_eq,
      decide_eq_false_iff_not] at h
    omega
  · simp at h

theorem errMask_getLsbD_zero (code : BitVec 8) : (errMask code).getLsbD 0 = false :=
  Bool.eq_false_iff.mpr fun h => by have := errMask_getLsbD_true h; omega

theorem okStatus_listed : ((0, 0) : BitVec 8 × BitVec 8) ∈ statusPairs := by decide

theorem Sound.finish_inv {s : State} (h : Sound s) : Inv s.finish :=
  Sound.inv { h with } rfl okStatus_listed rfl rfl

theorem Sound.fail_inv {s : State} {e : CmdError} (h : Sound s) (hpos0 : s.pos0.toNat ≤ windowEnd s.window)
    (he : e.Listed) : Inv (s.fail e) :=
  Sound.inv { h with
    cursorInside := hpos0
    errBitZero := by rw [fail_err, BitVec.getLsbD_or, h.errBitZero, errMask_getLsbD_zero]; rfl } rfl he rfl rfl

/-- A command that ends leaves the invariant: on an error the cursor saved is the one it started from. -/
theorem CommandEnd.inv {decoded : Except DecodeError Instr} {s t : State} (hend : CommandEnd decoded s t)
    (h : Inv s) (hbusy : s.busy = true) : Inv t := by
  cases hend with
  | ok i u decodes wrote => exact (wrote.sound h.sound).finish_inv
  | error u e wrote listed =>
    refine (wrote.sound h.sound).fail_inv ?_ listed
    rw [wrote.pos0, wrote.window, h.cursorSaved hbusy]
    exact h.sound.cursorInside

/-! ### The drawn outcome of a tainted command keeps within the limits of log 10 -/

theorem drawnUpTo_le (n k bound : Nat) : drawnUpTo n k bound ≤ bound := Nat.le_of_lt_succ (Nat.mod_lt _ (by omega))

theorem drawnStatus_listed (n k : Nat) : drawnStatus n k ∈ statusPairs := by
  have hlt : (Config.freeDraw n k).toNat % 21 < statusPairs.length := Nat.mod_lt _ (by decide)
  rw [drawnStatus, List.getD_eq_getElem _ _ hlt]
  exact List.getElem_mem hlt

theorem drawnHeader_nch (n : Nat) : (drawnHeader n true).nch = 1 ∨ (drawnHeader n true).nch = 2 := by
  simp only [drawnHeader, if_true]
  split
  · exact .inl rfl
  · exact .inr rfl

theorem drawnWindow_inside (n : Nat) (s : State) :
    (drawnWindow n s).winBase.toNat + (drawnWindow n s).winLen.toNat ≤ s.cfg.data.ibufBytes := by
  have hcfg := s.cfg.ibufBytes_le
  have hlen := drawnUpTo_le n 40 s.cfg.data.ibufBytes
  have hbase := drawnUpTo_le n 41 (s.cfg.data.ibufBytes - drawnUpTo n 40 s.cfg.data.ibufBytes)
  simp only [drawnWindow, BitVec.toNat_ofNat]
  omega

/-- What a tainted command's setup leaves for its results to build on. -/
structure DrawnOver (s u : State) : Prop where
  windowInside : u.winBase.toNat + u.winLen.toNat ≤ u.cfg.data.ibufBytes
  errBitZero : u.err.getLsbD 0 = false
  ibufCanonical : Memory.wf u.ibuf u.cfg.data.ibufBytes
  ibufDraw : u.ibufDraw = s.ibufDraw

theorem drawnSetup_over {s : State} (h : Inv s) (n : Nat) : DrawnOver s (drawnSetup n s) := by
  unfold drawnSetup
  split
  · exact ⟨drawnWindow_inside n s, h.errBitZero, h.ibufCanonical, rfl⟩
  · exact ⟨drawnWindow_inside n s, by simp, h.ibufCanonical, rfl⟩
  · exact ⟨h.windowInside, h.errBitZero, h.ibufCanonical, rfl⟩

theorem drawnResults_sound {s u : State} {n : Nat} (h : DrawnOver s u) (hdraw : s.ibufDraw < n) :
    Sound (drawnResults n u) where
  windowInside := h.windowInside
  cursorInside := by
    have hcfg := u.cfg.ibufBytes_le
    have hwin := h.windowInside
    have hpos := drawnUpTo_le n 5 (8 * u.winLen.toNat)
    simp only [windowEnd, State.window, drawnResults, BitVec.toNat_ofNat]
    omega
  siNeedsHdr hv := by
    simp only [drawnResults, Bool.and_eq_true] at hv ⊢
    exact hv.1
  mdNeedsSi hv := by
    simp only [drawnResults, Bool.and_eq_true] at hv ⊢
    exact hv.1
  errBitZero := by
    simp only [drawnResults, BitVec.getLsbD_or, h.errBitZero, errMask_getLsbD_zero, Bool.or_false]
  channels hv := by
    have hflag : drawnFlag n 6 = true := hv
    simp only [drawnResults, hflag]
    exact drawnHeader_nch n
  absentChannel hv hm := by
    have hflags : (drawnFlag n 6 && drawnFlag n 7) = true := hv
    have hmono : isMono (drawnHeader n (drawnFlag n 6)) = true := hm
    simp only [drawnResults, hflags, hmono, drawnSideInfo, Bool.and_true, if_true, and_self]
  ibufCanonical := h.ibufCanonical
  outCanonical := trivial
  ibufDrawTaken := by
    have heq : (drawnResults n u).ibufDraw = s.ibufDraw := h.ibufDraw
    rw [heq]
    exact Nat.lt_add_right 2 hdraw
  outDrawTaken k hk := by cases hk; exact Nat.lt_succ_self _

theorem drawnOutcome_inv {s : State} (h : Inv s) : Inv (drawnOutcome s) :=
  (drawnResults_sound (drawnSetup_over h s.draws) h.ibufDrawTaken).inv rfl (drawnStatus_listed _ _) rfl rfl

/-- Every completion of a running command keeps the invariant. -/
theorem completion_inv {s t : State} (h : Inv s) (hbusy : s.busy = true) (hend : completion s = .next t) : Inv t := by
  cases htaint : s.tainted with
  | true =>
    unfold completion at hend
    rw [if_pos htaint] at hend
    cases hend
    exact drawnOutcome_inv h
  | false => exact (completion_end htaint hend).inv h hbusy

/-! ### Host accesses and the reset input -/

/-- The registers the host programs and the replies are outside the invariant, draws may be taken at any time, and a
running command may be marked raced or tainted. -/
theorem Inv.setHostSide {s : State} (h : Inv s) (ibufAddr outAddr brBase brLen : BitVec 16) (replies : List Word)
    {tainted : Bool} {race : Option (BitVec 16 × BitVec 16)} {n : Nat}
    (hidle : s.busy = false → tainted = false ∧ race = none) (hn : s.draws ≤ n) :
    Inv { s with
      ibufAddr := ibufAddr, outAddr := outAddr, brBaseReg := brBase, brLenReg := brLen, replies := replies, draws := n
      tainted := tainted, openRace := race } :=
  { h with
    hazardRuns := hidle
    ibufDrawTaken := h.ibufDrawTaken.trans_le hn
    outDrawTaken := fun k hk => (h.outDrawTaken k hk).trans_le hn }

theorem Inv.setPorts {s : State} (h : Inv s) (ibufAddr outAddr brBase brLen : BitVec 16) (replies : List Word) {n : Nat}
    (hn : s.draws ≤ n) :
    Inv { s with
      ibufAddr := ibufAddr, outAddr := outAddr, brBaseReg := brBase, brLenReg := brLen, replies := replies, draws := n } :=
  h.setHostSide ibufAddr outAddr brBase brLen replies h.hazardRuns hn

theorem Inv.setErr {s : State} (h : Inv s) {e : BitVec 9} (he : e.getLsbD 0 = false) : Inv { s with err := e } :=
  { h with errBitZero := he }

theorem Inv.accept {s : State} (h : Inv s) (hreset : s.resetAsserted = false) (w : Word) : Inv (s.accept w) :=
  { h with
    cursorSaved := fun _ => rfl
    resetIdle := fun hr => by simp [hreset] at hr
    hazardRuns := fun hb => by simp at hb }

theorem Inv.setIbuf {s : State} (h : Inv s) {m : List Host.Cell} (hm : Memory.wf m s.cfg.data.ibufBytes) :
    Inv { s with ibuf := m } :=
  { h with ibufCanonical := hm }

theorem readReg_inv {s : State} (h : Inv s) (r : Reg) : Inv (readReg s r) := by
  obtain ⟨a, b, v, n, hn, hr⟩ := readReg_writes s r
  rw [hr]
  exact h.setPorts a b _ _ v hn

theorem writeCmd_inv {s : State} (h : Inv s) (hreset : s.resetAsserted = false) (d : Word) : Inv (writeCmd s d) := by
  unfold writeCmd
  split
  · exact h.setErr (by rw [BitVec.getLsbD_or, h.errBitZero]; rfl)
  · exact h.accept hreset d

theorem openRunning_busy {s : State} (h : openRunning s = true) : s.busy = true := (Bool.and_eq_true_iff.mp h).1

theorem writeBrBase_inv {s : State} (h : Inv s) (d : Word) : Inv (writeBrBase s d) := by
  unfold writeBrBase
  split
  · exact h.setHostSide _ _ _ _ _ (by simp [openRunning_busy ‹_›]) (Nat.le_succ _)
  · exact h.setPorts _ _ _ _ _ le_rfl

theorem writeBrLen_inv {s : State} (h : Inv s) (d : Word) : Inv (writeBrLen s d) := by
  unfold writeBrLen
  split
  · exact h.setHostSide _ _ _ _ _ (by simp [openRunning_busy ‹_›]) (Nat.le_succ _)
  · exact h.setPorts _ _ _ _ _ le_rfl

theorem writeIbufData_inv {s : State} (h : Inv s) (d : Word) : Inv (writeIbufData s d) := by
  unfold writeIbufData
  split
  · refine (h.setIbuf (ibufStore_wf (d.setWidth 8) h.ibufCanonical ‹_›)).setHostSide _ _ _ _ _ (fun hb => ?_) le_rfl
    obtain ⟨htaint, hrace⟩ := h.hazardRuns hb
    have hidle : s.busy = false := hb
    exact ⟨by simp [htaint, hidle], hrace⟩
  · exact h.setPorts _ _ _ _ _ le_rfl

theorem writeReg_inv {s : State} (h : Inv s) (hreset : s.resetAsserted = false) (r : Reg) (d : Word) :
    Inv (writeReg s r d) := by
  cases r with
  | cmd => exact writeCmd_inv h hreset d
  | err => exact h.setErr (by rw [clearErr, BitVec.getLsbD_and, h.errBitZero, Bool.false_and])
  | brBase => exact writeBrBase_inv h d
  | brLen => exact writeBrLen_inv h d
  | ibufAddr => exact h.setPorts _ _ _ _ _ le_rfl
  | ibufData => exact writeIbufData_inv h d
  | outAddr => exact h.setPorts _ _ _ _ _ le_rfl
  | _ => exact h

/-- A hardware reset establishes the invariant, whatever the state before it. -/
theorem hardReset_inv (s : State) : Inv s.hardReset where
  windowInside := Nat.zero_le _
  cursorInside := Nat.zero_le _
  cursorSaved hb := by simp at hb
  siNeedsHdr hv := by simp at hv
  mdNeedsSi hv := by simp at hv
  statusListed := okStatus_listed
  errBitZero := by simp
  channels hv := by simp at hv
  absentChannel hv := by simp at hv
  ibufCanonical := ⟨rfl, rfl⟩
  outCanonical := trivial
  resetIdle _ := rfl
  hazardRuns _ := ⟨rfl, rfl⟩
  ibufDrawTaken := by simp
  outDrawTaken n hn := by cases hn; exact Nat.lt_succ_self _

theorem assertReset_inv (s : State) : Inv (assertReset s) := { hardReset_inv s with resetIdle := fun _ => rfl }

theorem releaseReset_inv {s : State} (h : Inv s) : Inv (releaseReset s) := { h with resetIdle := fun hr => by cases hr }

/-- Settles O7: each kind of step keeps the invariant, and a completion does so by the way its command ended. -/
theorem stepKeepsTheInvariant : Obligations.StepKeepsTheInvariant := by
  intro s t h hstep
  cases step_stepCase hstep with
  | unchanged l => exact h.setInputs l
  | readUnmapped l => exact (h.setInputs l).setPorts _ _ _ _ _ le_rfl
  | read l r => exact readReg_inv (h.setInputs l) r
  | write l o r d released next mapped => exact writeReg_inv (h.setInputs l) released r d
  | complete l t running ends => exact completion_inv (h.setInputs l) running ends
  | assertReset l next => exact assertReset_inv _
  | releaseReset l => exact releaseReset_inv (h.setInputs l)

end Sys2Proof.Machine
end

section
/-! The state's statements beside the invariant: reset, the configuration, the cursor, ERR, and issuing a command. -/

namespace Sys2Proof.Machine

open Sys2Proof.Spec

/-! ### Reset -/

/-- Settles O8: the reset state is what a hardware reset makes of the state before its two draws. -/
theorem resetMeetsTheInvariant : Obligations.ResetMeetsTheInvariant :=
  hardReset_inv { State.reset with draws := 0 }

theorem resetRegisters_registersReset (s : State) : RegistersReset s.resetRegisters :=
  ⟨rfl, rfl, rfl, rfl, rfl, rfl, rfl, rfl, rfl, rfl, rfl, rfl, rfl, rfl, rfl, rfl, rfl, rfl, rfl⟩

/-- Settles O9: both resets write the registers by `State.resetRegisters`; they differ in IBUF, OUT and the level bit. -/
theorem resetLeavesTheResetValues : Obligations.ResetLeavesTheResetValues := by
  refine ⟨fun s rest hin => ?_, fun s rest hin => step_releaseReset hin, fun s rest hin => ?_,
    resetRegisters_registersReset State.reset, rfl, fun s => ?_⟩
  · exact ⟨_, step_assertReset hin, resetRegisters_registersReset s, rfl, rfl, rfl, fun _ => rfl, fun _ => rfl⟩
  · refine ⟨releaseReset { assertReset { s with inputs := .releaseReset :: rest } with inputs := rest }, ?_,
      resetRegisters_registersReset s, rfl, rfl⟩
    rw [core_run_next 1 (step_assertReset hin), core_run_next 0 (step_releaseReset rfl)]
    rfl
  · exact ⟨_, srst_eq s, resetRegisters_registersReset s, fun _ => rfl, fun _ => rfl⟩

/-! ### The configuration -/

/-- Settles O10: no kind of step writes the configuration. -/
theorem configurationNeverChanges : Obligations.ConfigurationNeverChanges := by
  intro s t hstep
  cases step_stepCase hstep with
  | unchanged l => rfl
  | readUnmapped l => rfl
  | read l r => exact (readReg_keeps _ r).1
  | write l o r d released next mapped => exact (writeReg_keeps _ r d).1
  | complete l t running ends => exact (completion_keeps ends).1
  | assertReset l next => rfl
  | releaseReset l => rfl

/-! ### The cursor -/

/-- A command other than BR_OPEN, SRST and BR_SEEK does not move the cursor back, and a rollback returns it to where it
stood. -/
theorem CommandEnd.forward {decoded : Except DecodeError Instr} {s t : State} (hend : CommandEnd decoded s t)
    (h : Sound s) (hsaved : s.pos0 = s.pos) :
    s.pos.toNat ≤ t.pos.toNat ∨ decoded = .ok .brOpen ∨ decoded = .ok .srst ∨ ∃ off, decoded = .ok (.brSeek off) := by
  cases hend with
  | ok i u decodes wrote =>
    subst decodes
    obtain hle | rfl | rfl | ⟨off, rfl⟩ := wrote.forward h
    · exact .inl hle
    · exact .inr (.inl rfl)
    · exact .inr (.inr (.inl rfl))
    · exact .inr (.inr (.inr ⟨off, rfl⟩))
  | error u e wrote listed => exact .inl (by rw [fail_pos, wrote.pos0, hsaved])

/-- Settles O13: host accesses leave the cursor, and a completion moves it forward but for the three commands. -/
theorem cursorMovesBackOnlyWhereStated : Obligations.CursorMovesBackOnlyWhereStated := by
  intro s t h htaint hstep hback
  have stays : t.pos ≠ s.pos := fun heq => by simp [heq] at hback
  cases step_stepCase hstep with
  | unchanged l => exact absurd rfl stays
  | readUnmapped l => exact absurd rfl stays
  | read l r => exact absurd (readReg_keeps _ r).2.2.1 stays
  | write l o r d released next mapped => exact absurd (writeReg_keeps _ r d).2.2 stays
  | complete l t running ends =>
    have hl := h.setInputs l
    refine .inr ⟨running, (completion_keeps ends).2.2, ?_⟩
    have hend := completion_end (s := { s with inputs := l }) htaint ends
    exact (hend.forward hl.sound (hl.cursorSaved running)).resolve_left (Nat.not_le.mpr hback)
  | assertReset l next => exact .inl ⟨l, next⟩
  | releaseReset l => exact absurd rfl stays

/-! ### ERR -/

theorem clearErr_getLsbD (err : BitVec 9) (d : Word) (k : Nat) :
    (clearErr err d).getLsbD k = (err.getLsbD k && !d.getLsbD k) := by
  by_cases hk : k < 9
  · simp [clearErr, hk]
  · simp [clearErr, BitVec.getLsbD_of_ge err k (by omega)]

theorem cmdDroppedMask_getLsbD_true {k : Nat} (h : cmdDroppedMask.getLsbD k = true) : k = 8 := by
  have only : ∀ k < 9, cmdDroppedMask.getLsbD k = true → k = 8 := by decide
  exact only k (BitVec.lt_of_getLsbD h) h

/-- Everything a step can do to ERR while the running command, if there is one, is not tainted. -/
inductive ErrChange (s t : State) : Prop where
  | kept (err : t.err = s.err)
  | cleared (d : Word) (l : List Input) (next : s.inputs = .busWrite (s.cfg.data.regBase + 8) 4 d :: l)
      (err : t.err = clearErr s.err d)
  | dropped (d : Word) (l : List Input) (running : s.busy = true)
      (next : s.inputs = .busWrite s.cfg.data.regBase 4 d :: l) (err : t.err = s.err ||| cmdDroppedMask)
  | reset (l : List Input) (next : s.inputs = .assertReset :: l) (err : t.err = 0)
  | srst (running : s.busy = true) (idle : t.busy = false) (decodes : decodeWord s.cmdLatch = .ok .srst) (err : t.err = 0)
  | failed (running : s.busy = true) (idle : t.busy = false) (err : t.err = s.err ||| errMask t.statusCode)

theorem CommandEnd.err {decoded : Except DecodeError Instr} {s t : State} (hend : CommandEnd decoded s t) :
    t.err = s.err ∨ (decoded = .ok .srst ∧ t.err = 0) ∨ t.err = s.err ||| errMask t.statusCode := by
  cases hend with
  | ok i u decodes wrote =>
    obtain herr | ⟨rfl, herr⟩ := wrote.err
    · exact .inl herr
    · exact .inr (.inl ⟨decodes, herr⟩)
  | error u e wrote listed => exact .inr (.inr (by rw [fail_err, wrote.err, fail_statusCode]))

theorem step_errChange {s t : State} (htaint : s.tainted = false) (hstep : step s = .next t) : ErrChange s t := by
  cases step_stepCase hstep with
  | unchanged l => exact .kept rfl
  | readUnmapped l => exact .kept rfl
  | read l r => exact .kept (readReg_keeps _ r).2.2.2
  | write l o r d released next mapped =>
    obtain herr | ⟨rfl, herr⟩ | ⟨rfl, hbusy, herr⟩ := writeReg_err { s with inputs := l } r d
    · exact .kept herr
    · obtain rfl := regAt_err mapped
      exact .cleared d l next herr
    · obtain rfl := regAt_cmd mapped
      exact .dropped d l hbusy next herr
  | complete l t running ends =>
    have idle : t.busy = false := (completion_keeps ends).2.2
    obtain herr | ⟨decodes, herr⟩ | herr := (completion_end (s := { s with inputs := l }) htaint ends).err
    · exact .kept herr
    · exact .srst running idle decodes herr
    · exact .failed running idle herr
  | assertReset l next => exact .reset l next rfl
  | releaseReset l => exact .kept rfl

/-- Settles O50: which bits each change of ERR can move. -/
theorem errBitsAreSticky : Obligations.ErrBitsAreSticky := by
  intro s t k htaint hstep
  cases step_errChange htaint hstep with
  | kept err => rw [err]; exact ⟨fun h1 h0 => by simp [h1] at h0, fun h0 h1 => by simp [h0] at h1⟩
  | cleared d l next err =>
    rw [err, clearErr_getLsbD]
    exact ⟨fun h1 h0 => .inl ⟨d, l, next, by simpa [h1] using h0⟩, fun h0 h1 => by simp [h0] at h1⟩
  | dropped d l running next err =>
    rw [err, BitVec.getLsbD_or]
    refine ⟨fun h1 h0 => by simp [h1] at h0, fun h0 h1 => .inr ⟨?_, running, d, l, next⟩⟩
    rw [h0, Bool.false_or] at h1
    exact cmdDroppedMask_getLsbD_true h1
  | reset l next err => rw [err]; exact ⟨fun _ _ => .inr (.inl ⟨l, next⟩), fun _ h1 => by simp at h1⟩
  | srst running idle decodes err =>
    rw [err]
    exact ⟨fun _ _ => .inr (.inr ⟨running, idle, decodes⟩), fun _ h1 => by simp at h1⟩
  | failed running idle err =>
    rw [err, BitVec.getLsbD_or]
    refine ⟨fun h1 h0 => by simp [h1] at h0, fun h0 h1 => .inl ⟨running, idle, ?_⟩⟩
    rw [h0, Bool.false_or] at h1
    exact errMask_getLsbD_true h1

/-! ### Issuing a command -/

theorem writeCmd_idle {s : State} (h : s.busy = false) (d : Word) : writeCmd s d = s.accept d := by
  rw [writeCmd, if_neg (by simp [h])]

/-- Settles O60: the write is an acceptance, and the turn then executes the latched word. -/
theorem issuedCommandRuns : Obligations.IssuedCommandRuns := by
  intro s d i rest hreset hidle hin hi
  have hwrite : step s = .next (State.accept { s with inputs := .sequencerTurn :: rest } d) := by
    rw [← writeCmd_idle (s := { s with inputs := .sequencerTurn :: rest }) hidle d]
    exact step_write (o := 0) (r := .cmd) hreset hin (by decide) (by decide) rfl
  have hturn := step_turn (s := State.accept { s with inputs := .sequencerTurn :: rest } d) rfl rfl rfl hi
  obtain ⟨t, ht⟩ := exec_next i
    { s with inputs := rest, cmdLatch := d, pos0 := s.pos, busy := true, tainted := false, openRace := none }
  rw [core_run_next 1 hwrite, core_run_next 0 (hturn.trans ht), ht]
  rfl

end Sys2Proof.Machine
end

section
/-! The host's access contract and its two data ports: which accesses are refused, and what a read or a write of IBUF_DATA
and a read of OUT_DATA do. -/

namespace Sys2Proof.Machine

/-! ### The contract of an access -/

theorem accessOffset_underReset {s : State} (h : s.resetAsserted = true) (addr bytes : Nat) :
    accessOffset s addr bytes = .error .accessUnderReset := by
  rw [accessOffset, if_pos h]

theorem accessOffset_outside {s : State} {addr : Nat} (h : s.resetAsserted = false)
    (ha : addr < s.cfg.data.regBase ∨ s.cfg.data.regBase + 256 ≤ addr) (bytes : Nat) :
    accessOffset s addr bytes = .error .outsideAperture := by
  rw [accessOffset, if_neg (by simp [h]), if_pos ha]

theorem accessOffset_misshapen {s : State} {addr bytes : Nat} (h : s.resetAsserted = false)
    (hlo : s.cfg.data.regBase ≤ addr) (hhi : addr < s.cfg.data.regBase + 256)
    (hshape : bytes ≠ 4 ∨ (addr - s.cfg.data.regBase) % 4 ≠ 0) :
    accessOffset s addr bytes = .error .accessShape := by
  rw [accessOffset, if_neg (by simp [h]), if_neg (by omega), if_pos hshape]

/-- An access with no offset breaks one of the contract's conditions. -/
theorem accessOffset_eq_error {s : State} {addr bytes : Nat} {e : Refusal} (h : accessOffset s addr bytes = .error e) :
    s.resetAsserted = true ∨ addr < s.cfg.data.regBase ∨ s.cfg.data.regBase + 256 ≤ addr ∨ bytes ≠ 4 ∨
      (addr - s.cfg.data.regBase) % 4 ≠ 0 := by
  by_contra hok
  simp only [not_or, Bool.not_eq_true, Nat.not_lt, Nat.not_le, not_not] at hok
  obtain ⟨hreset, hlo, hhi, rfl, h4⟩ := hok
  have hoff := accessOffset_ok hreset (o := addr - s.cfg.data.regBase) (by omega) h4
  rw [Nat.add_sub_cancel' hlo, h] at hoff
  cases hoff

/-- The next input is a host access of `bytes` bytes at `addr`, a read or a write. -/
def NextAccess (s : State) (addr bytes : Nat) (rest : List Input) : Prop :=
  s.inputs = .busRead addr bytes :: rest ∨ ∃ d, s.inputs = .busWrite addr bytes d :: rest

/-- A step with an input pending takes it. -/
theorem step_takeInput {s : State} {x : Input} {l : List Input} (hin : s.inputs = x :: l) :
    step s = takeInput x { s with inputs := l } := by
  rw [step, nextStep, hin]

/-- A step refuses exactly the accesses that have no offset, with the reason for that. -/
theorem step_eq_refused_iff {s : State} {e : Refusal} : step s = .refused e ↔
    ∃ rest addr bytes, NextAccess s addr bytes rest ∧ accessOffset s addr bytes = .error e := by
  constructor
  · intro h
    unfold step nextStep at h
    split at h
    next =>
      obtain ⟨t, ht⟩ := sequencerTurn_next s
      cases ht.symm.trans h
    next x l hin =>
      cases x with
      | busRead addr bytes =>
        obtain ⟨e', hoff, hread⟩ | ⟨_, t, _, hread⟩ := hostRead_cases addr bytes { s with inputs := l } <;>
          cases hread.symm.trans h
        exact ⟨l, addr, bytes, .inl hin, hoff⟩
      | busWrite addr bytes d =>
        obtain ⟨e', hoff, hwrite⟩ | ⟨_, t, _, hwrite⟩ := hostWrite_cases addr bytes d { s with inputs := l } <;>
          cases hwrite.symm.trans h
        exact ⟨l, addr, bytes, .inr ⟨d, hin⟩, hoff⟩
      | sequencerTurn =>
        obtain ⟨t, ht⟩ := sequencerTurn_next { s with inputs := l }
        cases ht.symm.trans h
      | assertReset => cases h
      | releaseReset => cases h
  · rintro ⟨l, addr, bytes, hin, hoff⟩
    replace hoff : accessOffset { s with inputs := l } addr bytes = .error e := hoff
    obtain hin | ⟨d, hin⟩ := hin
    · rw [step_takeInput hin, takeInput, hostRead, hoff]
    · rw [step_takeInput hin, takeInput, hostWrite, hoff]

/-- Settles O12: a step refuses exactly the accesses without an offset, and those break the contract. -/
theorem onlyBadAccessesAreRefused : Obligations.OnlyBadAccessesAreRefused := by
  intro s
  refine ⟨fun r h => ?_, fun rest addr bytes hin => ?_, fun f => nomatch f⟩
  · obtain ⟨rest, addr, bytes, hin, hoff⟩ := step_eq_refused_iff.mp h
    exact ⟨rest, addr, bytes, hin, accessOffset_eq_error hoff⟩
  · have refuse {e : Refusal} (hoff : accessOffset s addr bytes = .error e) : step s = .refused e :=
      step_eq_refused_iff.mpr ⟨rest, addr, bytes, hin, hoff⟩
    exact ⟨fun h => refuse (accessOffset_underReset h addr bytes), fun h ha => refuse (accessOffset_outside h ha bytes),
      fun h hlo hhi hshape => refuse (accessOffset_misshapen h hlo hhi hshape)⟩

/-! ### A read that gives the current value -/

/-- The step of a host read of a mapped offset, reset released. -/
theorem step_read {s : State} {o : Nat} {r : Reg} {l : List Input} (hreset : s.resetAsserted = false)
    (hin : s.inputs = .busRead (s.cfg.data.regBase + o) 4 :: l) (ho : o < 256) (h4 : o % 4 = 0)
    (hr : regAt o = some r) : step s = .next (readReg { s with inputs := l } r) := by
  have hoff : accessOffset { s with inputs := l } (s.cfg.data.regBase + o) 4 = .ok o :=
    accessOffset_ok (s := { s with inputs := l }) hreset ho h4
  rw [step_takeInput hin, takeInput, hostRead, hoff]
  simp only [hr]

/-- A register's content does not depend on the pending inputs. -/
theorem regValue_setInputs (s : State) (l : List Input) (r : Reg) :
    regValue { s with inputs := l } r = regValue s r := by
  cases r <;> rfl

/-- A read of any register but STATUS gives the current value when no command runs or the running one does not write the
register. -/
theorem readReg_current {s : State} {r : Reg} (hr : r ≠ .status) (h : s.busy = false ∨ runningWrites s r = false) :
    readReg s r = (afterRead s r).reply (regValue s r) := by
  have hnone (d : Word) : busyValue s r d = none := by
    obtain h | h := h <;> simp [busyValue, h, hr]
  rw [readReg, hnone]

/-- The step of such a read. -/
theorem step_read_current {s : State} {o : Nat} {r : Reg} {l : List Input} (hreset : s.resetAsserted = false)
    (hin : s.inputs = .busRead (s.cfg.data.regBase + o) 4 :: l) (ho : o < 256) (h4 : o % 4 = 0) (hr : regAt o = some r)
    (hstatus : r ≠ .status) (h : s.busy = false ∨ runningWrites s r = false) :
    step s = .next ((afterRead { s with inputs := l } r).reply (regValue s r)) := by
  rw [step_read hreset hin ho h4 hr, readReg_current hstatus (s := { s with inputs := l }) h,
    regValue_setInputs]

/-- No command writes IBUF. -/
theorem runningWrites_ibufData (s : State) : runningWrites s .ibufData = false := by
  unfold runningWrites
  split
  next i _ => cases i <;> rfl
  next => rfl

/-- Only MD_DECODE writes OUT. -/
theorem runningWrites_outData {s : State} (h : decodeWord s.cmdLatch ≠ .ok .mdDecode) :
    runningWrites s .outData = false := by
  unfold runningWrites
  split
  next i hi =>
    cases i with
    | mdDecode => exact absurd hi h
    | _ => rfl
  next => rfl

/-! ### The IBUF port -/

theorem ibufByte_store (m : List Host.Cell) (draw a k : Nat) (b : Byte) :
    ibufByte (ibufStore m a b) draw k = if k = a then b else ibufByte m draw k := by
  split
  next h => rw [h, ibufByte_store_same]
  next h => exact ibufByte_store_other m draw b h

/-- The memory a write to IBUF_DATA leaves. -/
def ibufWritten (s : State) (d : Word) : List Host.Cell :=
  if s.ibufAddr.toNat < s.cfg.data.ibufBytes then ibufStore s.ibuf s.ibufAddr.toNat (d.setWidth 8) else s.ibuf

theorem ibufByte_ibufWritten (s : State) (d : Word) (a : Nat) : ibufByte (ibufWritten s d) s.ibufDraw a =
    if a = s.ibufAddr.toNat ∧ a < s.cfg.data.ibufBytes then d.setWidth 8 else ibufByte s.ibuf s.ibufDraw a := by
  unfold ibufWritten
  split
  next hin =>
    rw [ibufByte_store]
    exact if_congr ⟨fun h => ⟨h, h ▸ hin⟩, And.left⟩ rfl rfl
  next hout => rw [if_neg (by rintro ⟨rfl, hin⟩; exact hout hin)]

theorem writeIbufData_eq (s : State) (d : Word) : writeIbufData s d =
    { s with
      ibuf := ibufWritten s d
      ibufAddr := s.ibufAddr + 1
      tainted := s.tainted || (s.busy && decide (s.ibufAddr.toNat < s.cfg.data.ibufBytes ∧
        s.winBase.toNat ≤ s.ibufAddr.toNat ∧ s.ibufAddr.toNat < s.winBase.toNat + s.winLen.toNat)) } := by
  unfold writeIbufData ibufWritten
  split
  next hin => simp [hin, insideWindow]
  next hout => simp [hout]

/-- Settles O52: a port access steps to the port's operation, and no command writes IBUF_DATA, so that a read gives the
byte even while one runs. -/
theorem ibufPortStoresAndReads : Obligations.IbufPortStoresAndReads := by
  intro s rest hreset
  refine ⟨fun d hin => ⟨ibufWritten s d, ?_, fun a => ?_⟩, fun hin => ?_⟩
  · rw [step_write (o := 0x034) (r := .ibufData) hreset hin (by decide) (by decide) rfl, writeReg, writeIbufData_eq]
    rfl
  · rw [ibufByte_ibufWritten, BitVec.setWidth_eq_extractLsb' (by decide)]
  · rw [step_read_current (o := 0x034) (r := .ibufData) hreset hin (by decide) (by decide) rfl (by decide)
      (.inr (runningWrites_ibufData s))]
    rfl

/-! ### The OUT port -/

theorem outKind_regionStart {q k : Nat} (hq : q < 4) (hk : k < 2) :
    outKind (0x1200 + 4 * q + k) = some .regionStart := by
  obtain rfl | rfl : k = 0 ∨ k = 1 := by omega
  · exact outKind_region1 hq
  · exact outKind_region2 hq

theorem outKind_bitPosition {q k : Nat} (hq : q < 4) (hk : k < 2) :
    outKind (0x1200 + 4 * q + 2 + k) = some .bitPosition := by
  obtain rfl | rfl : k = 0 ∨ k = 1 := by omega
  · exact outKind_startPos hq
  · exact outKind_endPos hq

/-- An index that is no element of a granule-channel is unmapped. -/
theorem outKind_eq_none {a : Nat} (h : ∀ q < 4,
    (∀ i < 576, a ≠ 576 * q + i) ∧ (∀ b < 22, a ≠ 0x1000 + 32 * q + b) ∧
    (∀ b < 13, ∀ w < 3, a ≠ 0x1100 + 64 * q + 4 * b + w) ∧ (∀ k < 4, a ≠ 0x1200 + 4 * q + k)) :
    outKind a = none := by
  have hline : ¬ a < 0x900 := by
    intro ha
    obtain ⟨line, -, -, -⟩ := h (a / 576) (by omega)
    exact line (a % 576) (by omega) (by omega)
  have hlong : ¬ ((0x1000 ≤ a ∧ a < 0x1080) ∧ (a - 0x1000) % 32 < 22) := by
    intro ha
    obtain ⟨-, long, -, -⟩ := h ((a - 0x1000) / 32) (by omega)
    exact long ((a - 0x1000) % 32) (by omega) (by omega)
  have hshort : ¬ ((0x1100 ≤ a ∧ a < 0x1200) ∧ (a - 0x1100) % 64 / 4 < 13 ∧ (a - 0x1100) % 4 < 3) := by
    rintro ⟨ha, hb, hw⟩
    obtain ⟨-, -, short, -⟩ := h ((a - 0x1100) / 64) (by omega)
    exact short ((a - 0x1100) % 64 / 4) hb ((a - 0x1100) % 4) hw (by omega)
  have hbook : ¬ (0x1200 ≤ a ∧ a < 0x1210) := by
    intro ha
    obtain ⟨-, -, -, book⟩ := h ((a - 0x1200) / 4) (by omega)
    exact book ((a - 0x1200) % 4) (by omega) (by omega)
  unfold outKind
  rw [if_neg hline, if_neg hbook]
  split_ifs with h1 h2 h3 h4
  · exact absurd ⟨h1, h2⟩ hlong
  · rfl
  · exact absurd ⟨h3, h4⟩ hshort
  · rfl
  · rfl

theorem outRead_mapped {i : Nat} {k : OutKind} (h : outKind i = some k) (md : OutMem) :
    outRead md i = outExtend k (outElement md i) := by
  rw [outRead, h]

theorem outRead_unmapped {i : Nat} (h : outKind i = none) (md : OutMem) : outRead md i = 0 := by
  rw [outRead, h]

theorem outExtend_scaleFactor (v : BitVec 16) : outExtend .scaleFactor v = (v.extractLsb' 0 4).setWidth 32 := by
  rw [outExtend, BitVec.setWidth_eq_extractLsb' (by decide : 4 ≤ 16)]

theorem outExtend_regionStart (v : BitVec 16) : outExtend .regionStart v = (v.extractLsb' 0 10).setWidth 32 := by
  rw [outExtend, BitVec.setWidth_eq_extractLsb' (by decide : 10 ≤ 16)]

/-- Settles O53: with no MD_DECODE running the read gives `outRead` at the port's address, which the map of R90 fixes by
the kind of the index. -/
theorem outPortReadsTheMap : Obligations.OutPortReadsTheMap := by
  rintro s rest a hreset hidle rfl hin
  refine ⟨outRead s.md s.outAddr.toNat, ?_, fun q hq => ⟨?_, ?_, ?_, ?_, ?_⟩, fun h => ?_⟩
  · rw [step_read_current (o := 0x03C) (r := .outData) hreset hin (by decide) (by decide) rfl (by decide)
      (hidle.imp_right runningWrites_outData)]
    rfl
  · intro i hi ha
    rw [ha]
    exact outRead_mapped (outKind_line hq hi) s.md
  · intro b hb ha
    rw [ha, ← outExtend_scaleFactor]
    exact outRead_mapped (outKind_factorL hq hb) s.md
  · intro b hb w hw ha
    rw [ha, ← outExtend_scaleFactor]
    exact outRead_mapped (outKind_factorS hq hb hw) s.md
  · intro k hk ha
    rw [ha, ← outExtend_regionStart]
    exact outRead_mapped (outKind_regionStart hq hk) s.md
  · intro k hk ha
    rw [ha]
    exact outRead_mapped (outKind_bitPosition hq hk) s.md
  · exact outRead_unmapped (outKind_eq_none h) s.md

end Sys2Proof.Machine
end

section
/-! The command encoding: what a row of the opcode map says of a word, and the decoder and the encoder as each other's
inverse. -/

namespace Sys2Proof

/-! ### The decoder's tests on a word of an assigned opcode -/

theorem decodeWord_of_row {w : Word} {i : Instr} {reserved : BitVec 24} (h : opcodeRow w = some (i, reserved)) :
    decodeWord w =
      if w.extractLsb' 0 24 &&& reserved ≠ 0 then .error .reservedBitSet
      else if i.wellFormed then .ok i else .error .countTooLarge := by
  rw [decodeWord, h]

theorem decodeWord_of_no_row {w : Word} (h : opcodeRow w = none) : decodeWord w = .error .unassignedOpcode := by
  rw [decodeWord, h]

/-- A word decodes exactly when its row is the command's, the row's reserved bits are clear and the command is legal. -/
theorem decodeWord_eq_ok_iff {w : Word} {i : Instr} : decodeWord w = .ok i ↔
    ∃ reserved, opcodeRow w = some (i, reserved) ∧ w.extractLsb' 0 24 &&& reserved = 0 ∧ i.wellFormed = true := by
  constructor
  · intro h
    cases hrow : opcodeRow w with
    | none => rw [decodeWord_of_no_row hrow] at h; cases h
    | some row =>
      obtain ⟨j, reserved⟩ := row
      rw [decodeWord_of_row hrow] at h
      split_ifs at h with hclear hlegal
      cases h
      exact ⟨reserved, rfl, not_not.mp hclear, hlegal⟩
  · rintro ⟨reserved, hrow, hclear, hlegal⟩
    rw [decodeWord_of_row hrow, if_neg (not_not.mpr hclear), if_pos hlegal]

/-! ### Decoding an encoded command -/

/-- Every command's word stands in the command's own row, with no reserved bit set. -/
theorem encode_row (i : Instr) : Laws.OpcodeRow.Statement i := by
  cases i with
  | nop => exact Laws.OpcodeRow.nop
  | brOpen => exact Laws.OpcodeRow.brOpen
  | brRead n => exact Laws.OpcodeRow.brRead n
  | brPeek n => exact Laws.OpcodeRow.brPeek n
  | brSeek off => exact Laws.OpcodeRow.brSeek off
  | hdrDecode => exact Laws.OpcodeRow.hdrDecode
  | siDecode => exact Laws.OpcodeRow.siDecode
  | huffPair t => exact Laws.OpcodeRow.huffPair t
  | huffQuad t => exact Laws.OpcodeRow.huffQuad t
  | mdDecode => exact Laws.OpcodeRow.mdDecode
  | srst => exact Laws.OpcodeRow.srst

/-- Settles O1: the word of a command passes the three tests in the command's own row. -/
theorem encodedCommandDecodes : Obligations.EncodedCommandDecodes := by
  intro i hlegal
  obtain ⟨reserved, hrow, hclear⟩ := encode_row i
  exact decodeWord_eq_ok_iff.mpr ⟨reserved, hrow, hclear, hlegal⟩

/-- Settles O3: the decoder runs on the eleven words. -/
theorem opcodeMapWordsDecode : Obligations.OpcodeMapWordsDecode := by
  refine ⟨?_, ?_, ?_, ?_, ?_, ?_, ?_, ?_, ?_, ?_, ?_⟩ <;> decide

/-! ### Encoding a decoded command -/

/-- The width of a command's operand sub-field (spec/30_encoding.md R121). -/
def operandWidth : Instr → Nat
  | .brRead _ => 6
  | .brPeek _ => 6
  | .brSeek _ => 16
  | .huffPair _ => 5
  | .huffQuad _ => 1
  | _ => 0

theorem opcodeOf_eq_ofNat {w : Word} {k : Nat} (h : (opcodeOf w).toNat = k) : opcodeOf w = BitVec.ofNat 8 k := by
  rw [← h, BitVec.ofNat_toNat, BitVec.setWidth_eq]

/-- A row's command has the word's opcode and operand sub-field, and the operand bits above the sub-field are
reserved. -/
theorem opcodeRow_eq_some {w : Word} {i : Instr} {reserved : BitVec 24} (h : opcodeRow w = some (i, reserved)) :
    encode i = commandWord (opcodeOf w) ((w.extractLsb' 0 (operandWidth i)).setWidth 24) ∧
      reserved = BitVec.allOnes 24 <<< operandWidth i := by
  unfold opcodeRow at h
  split at h
  case h_12 => cases h
  all_goals
    rename_i hop
    cases h
    rw [opcodeOf_eq_ofNat hop]
    exact ⟨by simp [encode, operandWidth], by simp only [operandWidth]; decide⟩

/-- The two fields of a word make it up. -/
theorem commandWord_fields (w : Word) : commandWord (opcodeOf w) (w.extractLsb' 0 24) = w := by
  apply BitVec.eq_of_toNat_eq
  rw [commandWord_toNat, opcodeOf, BitVec.extractLsb'_toNat, BitVec.extractLsb'_toNat, Nat.shiftRight_eq_div_pow,
    Nat.shiftRight_zero]
  omega

/-- Where the bits above a sub-field are clear, the sub-field is the whole operand. -/
theorem subfield_eq_operand {w : Word} {n : Nat} (h : w.extractLsb' 0 24 &&& BitVec.allOnes 24 <<< n = 0) :
    (w.extractLsb' 0 n).setWidth 24 = w.extractLsb' 0 24 := by
  ext k hk
  have hclear := congrArg (·.getLsbD k) h
  simpa [-BitVec.reduceAllOnes, BitVec.getLsbD_allOnes, hk, show k - n < 24 by omega] using hclear

/-- Settles O2: the encoder puts back the opcode and the sub-field that the row took from the word, and the
word has nothing else. -/
theorem decodedWordIsItsEncoding : Obligations.DecodedWordIsItsEncoding := by
  intro w i h
  obtain ⟨reserved, hrow, hclear, hlegal⟩ := decodeWord_eq_ok_iff.mp h
  obtain ⟨hword, rfl⟩ := opcodeRow_eq_some hrow
  exact ⟨by rw [hword, subfield_eq_operand hclear, commandWord_fields], hlegal⟩

/-! ### Illegal words (spec/30_encoding.md R122) -/

/-- The assigned opcodes, each with the bits of a word that its row reserves (spec/30_encoding.md R121). -/
def opcodeMap : List (BitVec 8 × Word) :=
  [(0x00, 0xFFFFFF), (0x01, 0xFFFFFF), (0x02, 0xFFFFC0), (0x03, 0xFFFFC0), (0x04, 0xFF0000), (0x10, 0xFFFFFF),
   (0x11, 0xFFFFFF), (0x20, 0xFFFFE0), (0x21, 0xFFFFFE), (0x30, 0xFFFFFF), (0xFF, 0xFFFFFF)]

/-- A word of an assigned opcode has a row, which reserves the bits the map lists. -/
theorem opcodeRow_of_mem {w : Word} : ∀ row ∈ opcodeMap, opcodeOf w = row.1 →
    ∃ i reserved, opcodeRow w = some (i, reserved) ∧ reserved.setWidth 32 = row.2 := by
  simp only [opcodeMap, List.forall_mem_cons, List.not_mem_nil, false_imp_iff, implies_true, and_true]
  refine ⟨?_, ?_, ?_, ?_, ?_, ?_, ?_, ?_, ?_, ?_, ?_⟩
  all_goals
    intro h
    rw [opcodeRow, h]
    exact ⟨_, _, rfl, by decide⟩

theorem opcodeOf_encode_mem (i : Instr) : opcodeOf (encode i) ∈ opcodeMap.map Prod.fst := by
  cases i <;> rw [encode, opcodeOf, commandWord_opcode] <;> decide

/-- A word with a row has the opcode of the row's command. -/
theorem opcodeOf_encode_of_row {w : Word} {i : Instr} {reserved : BitVec 24} (h : opcodeRow w = some (i, reserved)) :
    opcodeOf (encode i) = opcodeOf w := by
  rw [(opcodeRow_eq_some h).1, opcodeOf, commandWord_opcode]

theorem opcodeRow_eq_none {w : Word} (h : opcodeOf w ∉ opcodeMap.map Prod.fst) : opcodeRow w = none := by
  cases hrow : opcodeRow w with
  | none => rfl
  | some row => exact absurd (opcodeOf_encode_of_row hrow ▸ opcodeOf_encode_mem row.1) h

/-- A mask of operand bits meets a word where it meets the word's operand. -/
theorem and_setWidth_eq_zero_iff (w : Word) (reserved : BitVec 24) :
    w &&& reserved.setWidth 32 = 0 ↔ w.extractLsb' 0 24 &&& reserved = 0 := by
  have hmask : w &&& reserved.setWidth 32 = (w.extractLsb' 0 24 &&& reserved).setWidth 32 := by
    ext k hk
    by_cases hlow : k < 24
    · simp [hlow, BitVec.getLsbD_eq_getElem hk]
    · simp [hlow, BitVec.getLsbD_of_ge reserved k (by omega)]
  rw [hmask]
  exact ⟨fun h => by simpa using congrArg (BitVec.setWidth 24) h, fun h => by rw [h]; rfl⟩

theorem decodeWord_reservedBitSet {w : Word} {row : BitVec 8 × Word} (hrow : row ∈ opcodeMap)
    (hop : opcodeOf w = row.1) (hset : w &&& row.2 ≠ 0) : decodeWord w = .error .reservedBitSet := by
  obtain ⟨i, reserved, hi, hmask⟩ := opcodeRow_of_mem row hrow hop
  rw [decodeWord_of_row hi, if_pos (by rwa [← hmask, Ne, and_setWidth_eq_zero_iff] at hset)]

/-- The row of BR_READ or BR_PEEK, whose operand is a read width. -/
theorem opcodeRow_of_count {w : Word} (h : opcodeOf w = 0x02 ∨ opcodeOf w = 0x03) :
    ∃ i, opcodeRow w = some (i, 0xFFFFC0) ∧ i.wellFormed = decide ((w.extractLsb' 0 6).toNat ≤ 32) := by
  obtain h | h := h
  all_goals
    rw [opcodeRow, h]
    exact ⟨_, rfl, rfl⟩

theorem decodeWord_countTooLarge {w : Word} (hop : opcodeOf w = 0x02 ∨ opcodeOf w = 0x03) (hclear : w &&& 0xFFFFC0 = 0)
    (hcount : 32 < (w.extractLsb' 0 6).toNat) : decodeWord w = .error .countTooLarge := by
  obtain ⟨i, hi, hlegal⟩ := opcodeRow_of_count hop
  rw [decodeWord_of_row hi, if_neg (not_not.mpr ((and_setWidth_eq_zero_iff w 0xFFFFC0).mp hclear)), hlegal,
    if_neg (by simpa using hcount)]

end Sys2Proof

namespace Sys2Proof.Machine

/-- The completion of an illegal word. -/
theorem completion_illegal {s : State} {e : DecodeError} (htaint : s.tainted = false)
    (he : decodeWord s.cmdLatch = .error e) : completion s = .next (s.fail ⟨.illegalCmd, e.detail⟩) := by
  simp only [completion, htaint, he, raised, Bool.false_eq_true, if_false]

/-- Settles O4: each word fails the test its opcode's row puts it to, and a failed command's rollback leaves the cursor
of a running one where it is. -/
theorem illegalWordEndsInItsFirstFailingTest : Obligations.IllegalWordEndsInItsFirstFailingTest := by
  refine ⟨fun w => ⟨fun hop => decodeWord_of_no_row (opcodeRow_eq_none hop),
    fun row hrow hop hset => decodeWord_reservedBitSet hrow hop hset,
    fun hop hclear hcount => decodeWord_countTooLarge hop hclear hcount⟩, ?_⟩
  intro s e h hbusy htaint he
  rw [completion_illegal htaint he, State.fail, h.cursorSaved hbusy]
  cases e <;> simp [htaint, errorCode, errMask, DecodeError.detail]

end Sys2Proof.Machine
end

section
/-! The register aperture: the offset of each register, and what a host write to it and an idle read of it do. -/

namespace Sys2Proof.Machine

open Sys2Proof.Spec

/-! ### The register map (spec/30_encoding.md R130) -/

/-- The aperture offset of a register. -/
def regOffset : Reg → Nat
  | .cmd => 0x000
  | .status => 0x004
  | .err => 0x008
  | .brBase => 0x00C
  | .brLen => 0x010
  | .brPos => 0x014
  | .brWin => 0x018
  | .param => 0x01C
  | .res k => 0x020 + 4 * k.val
  | .ibufAddr => 0x030
  | .ibufData => 0x034
  | .outAddr => 0x038
  | .outData => 0x03C
  | .hdrRaw => 0x040
  | .hdrFields => 0x044
  | .hdrBitrate => 0x048
  | .hdrFreq => 0x04C
  | .hdrSize => 0x050
  | .hdrAux => 0x054
  | .hdrMdlen => 0x058
  | .siGlobal => 0x060
  | .siGc q w => 0x080 + 16 * q.val + 4 * w.val

@[simp] theorem regAt_regOffset (r : Reg) : regAt (regOffset r) = some r := by
  cases r with
  | res k => revert k; decide
  | siGc q w => revert q w; decide
  | _ => rfl

/-- A mapped offset is its register's. -/
theorem regOffset_of_regAt {o : Nat} {r : Reg} (h : regAt o = some r) : regOffset r = o := by
  unfold regAt at h
  split at h
  case h_25 =>
    split at h
    · cases h
      simp only [regOffset, Fin.val_ofNat]
      omega
    · cases h
  all_goals
    cases h
    rfl

theorem regOffset_mem_mappedOffsets (r : Reg) : regOffset r ∈ mappedOffsets := by
  cases r with
  | res k => revert k; decide
  | siGc q w => revert q w; decide
  | _ => decide

theorem mappedOffsets_aligned : ∀ o ∈ mappedOffsets, o < 256 ∧ o % 4 = 0 := by decide

theorem regAt_eq_none {o : Nat} (h : o ∉ mappedOffsets) : regAt o = none := by
  cases hr : regAt o with
  | none => rfl
  | some r => exact absurd (regOffset_of_regAt hr ▸ regOffset_mem_mappedOffsets r) h

/-! ### Writes -/

/-- A write to a register leads to what `writeReg` makes of the state, whatever inputs follow. -/
theorem writesTo_reg {s t : State} {d : Word} (hreset : s.resetAsserted = false) (r : Reg)
    (h : ∀ l, writeReg { s with inputs := l } r d = { t with inputs := l }) : WritesTo s (regOffset r) d t := by
  intro l hin
  obtain ⟨hlt, halign⟩ := mappedOffsets_aligned _ (regOffset_mem_mappedOffsets r)
  rw [step_write hreset hin hlt halign (regAt_regOffset r), h]

theorem writesTo_unmapped {s : State} {o : Nat} {d : Word} (hreset : s.resetAsserted = false) (ho : o < 256)
    (h4 : o % 4 = 0) (hr : regAt o = none) : WritesTo s o d s := by
  intro l hin
  have hoff : accessOffset { s with inputs := l } (s.cfg.data.regBase + o) 4 = .ok o :=
    accessOffset_ok (s := { s with inputs := l }) hreset ho h4
  rw [step_takeInput hin, takeInput, hostWrite, hoff]
  simp only [hr]

theorem openRunning_eq_false {s : State} (h : s.busy = false ∨ decodeWord s.cmdLatch ≠ .ok .brOpen) :
    openRunning s = false := by
  obtain h | h := h
  · rw [openRunning, h, Bool.false_and]
  · unfold openRunning
    split
    next hi => exact absurd hi h
    next => rw [Bool.and_false]

/-- A write to a register at no writable offset is ignored. -/
theorem writeReg_readOnly {r : Reg} (h : regOffset r ∉ writableOffsets) (s : State) (d : Word) :
    writeReg s r d = s := by
  cases r with
  | cmd | err | brBase | brLen | ibufAddr | ibufData | outAddr => exact absurd (by decide) h
  | _ => rfl

/-- Settles O51: each writable register by `writeReg`, every other offset because its register, if it has one,
is read-only. -/
theorem hostWritesReachTheirRegisters : Obligations.HostWritesReachTheirRegisters := by
  intro s d hreset
  have low16 : d.setWidth 16 = d.extractLsb' 0 16 := BitVec.setWidth_eq_extractLsb' (by decide)
  have low9 : d.setWidth 9 = d.extractLsb' 0 9 := BitVec.setWidth_eq_extractLsb' (by decide)
  refine ⟨writesTo_reg hreset .err fun l => ?_, fun hopen => ⟨writesTo_reg hreset .brBase fun l => ?_,
    writesTo_reg hreset .brLen fun l => ?_⟩, writesTo_reg hreset .ibufAddr fun l => ?_,
    writesTo_reg hreset .outAddr fun l => ?_, fun o ho h4 hro => ?_⟩
  · rw [writeReg, clearErr, low9]
  · rw [writeReg, writeBrBase, openRunning_eq_false (s := { s with inputs := l }) hopen, low16]
    rfl
  · rw [writeReg, writeBrLen, openRunning_eq_false (s := { s with inputs := l }) hopen, low16]
    rfl
  · rw [writeReg, low16]
  · rw [writeReg, low16]
  · cases hr : regAt o with
    | none => exact writesTo_unmapped hreset ho h4 hr
    | some r =>
      obtain rfl := regOffset_of_regAt hr
      exact writesTo_reg hreset r fun l => writeReg_readOnly hro _ d

/-! ### Reads while no command runs -/

/-- An idle read gives the register's value. -/
theorem readReg_idle {s : State} (hidle : s.busy = false) (r : Reg) :
    readReg s r = (afterRead s r).reply (regValue s r) := by
  have hnone (d : Word) : busyValue s r d = none := by simp [busyValue, hidle]
  rw [readReg, hnone]

/-- An idle read of a register that is no data port gives the register's value and changes nothing else. -/
theorem readsAs_reg {s : State} {v : Word} {o : Nat} (hreset : s.resetAsserted = false) (hidle : s.busy = false)
    (r : Reg) (ho : regOffset r = o) (hport : ∀ t, afterRead t r = t) (hv : regValue s r = v) : ReadsAs s o v := by
  subst ho
  intro l hin
  obtain ⟨hlt, halign⟩ := mappedOffsets_aligned _ (regOffset_mem_mappedOffsets r)
  rw [step_read hreset hin hlt halign (regAt_regOffset r), readReg_idle (s := { s with inputs := l }) hidle, hport,
    regValue_setInputs, hv, State.reply]

theorem readsAs_unmapped {s : State} {o : Nat} (hreset : s.resetAsserted = false) (ho : o < 256) (h4 : o % 4 = 0)
    (hr : regAt o = none) : ReadsAs s o 0 := by
  intro l hin
  have hoff : accessOffset { s with inputs := l } (s.cfg.data.regBase + o) 4 = .ok o :=
    accessOffset_ok (s := { s with inputs := l }) hreset ho h4
  rw [step_takeInput hin, takeInput, hostRead, hoff]
  simp only [hr, State.reply]

end Sys2Proof.Machine
end

section
/-! The layouts of the register words: each is the concatenation of its fields, the unused bits 0. -/

namespace Sys2Proof.Machine

open Sys2Proof.Spec

/-! ### A concatenation is the or of its fields, each at its place -/

theorem fieldAt_getLsbD {n : Nat} (v : BitVec n) {k i : Nat} (hi : i < 32) :
    (fieldAt v k).getLsbD i = (decide (k ≤ i) && v.getLsbD (i - k)) := by
  by_cases hk : k ≤ i
  · simp [fieldAt, hi, hk, Nat.not_lt.mpr hk]
  · simp [fieldAt, hi, hk, Nat.lt_of_not_le hk]

theorem fieldAt_append {n m : Nat} (x : BitVec n) (y : BitVec m) (k : Nat) :
    fieldAt (x ++ y) k = fieldAt y k ||| fieldAt x (m + k) := by
  apply BitVec.eq_of_getLsbD_eq
  intro i hi
  rw [BitVec.getLsbD_or, fieldAt_getLsbD _ hi, fieldAt_getLsbD _ hi, fieldAt_getLsbD _ hi, BitVec.getLsbD_append]
  by_cases hk : k ≤ i
  · by_cases hlow : i - k < m
    · simp [hk, hlow, show ¬ m + k ≤ i by omega]
    · simp [hk, hlow, show m + k ≤ i by omega, show i - k - m = i - (m + k) by omega,
        BitVec.getLsbD_of_ge y (i - k) (by omega)]
  · simp [hk, show ¬ m + k ≤ i by omega]

@[simp] theorem fieldAt_zero (n k : Nat) : fieldAt (0#n) k = 0 := by simp [fieldAt]

theorem fieldAt_word (v : Word) : fieldAt v 0 = v := by simp [fieldAt]

/-- A word is the concatenation of its fields when it is their or. -/
theorem eq_of_fieldAt {w v : Word} (h : w = fieldAt v 0) : w = v := by rw [h, fieldAt_word]

@[simp] theorem fieldAt_zero_shiftLeft {n : Nat} (v : BitVec n) (k : Nat) : fieldAt v 0 <<< k = fieldAt v k := by
  simp [fieldAt]

theorem flagAt_eq_fieldAt (b : Bool) (k : Nat) : flagAt b k = fieldAt (BitVec.ofBool b) k := by
  cases b <;> simp [flagAt, fieldAt]

theorem setWidth_word {n : Nat} (v : BitVec n) : v.setWidth 32 = fieldAt v 0 := (BitVec.shiftLeft_zero _).symm

/-- A number that fits `k` bits as a field of that width. -/
theorem ofNat_word {n k : Nat} (h : n < 2 ^ k) : BitVec.ofNat 32 n = fieldAt (BitVec.ofNat k n) 0 := by
  rw [← setWidth_word]
  apply BitVec.eq_of_toNat_eq
  rw [BitVec.toNat_setWidth, BitVec.toNat_ofNat, BitVec.toNat_ofNat, Nat.mod_eq_of_lt h]

theorem fieldAt_setWidth {n m : Nat} (v : BitVec n) (h : n ≤ m) (k : Nat) :
    fieldAt (v.setWidth m) k = fieldAt v k := by
  rw [fieldAt, fieldAt, BitVec.setWidth_setWidth (by omega)]

/-! ### The layouts (spec/30_encoding.md R130 to R135) -/

theorem hdrFieldsWord_eq (h : Header) : hdrFieldsWord h =
    hdrEmphasis h.raw ++ hdrOriginal h.raw ++ hdrCopyright h.raw ++ hdrModeExt h.raw ++ hdrMode h.raw ++
      hdrPrivateBit h.raw ++ hdrPad h.raw ++ hdrFreqCode h.raw ++ hdrBitrateCode h.raw ++ hdrProtection h.raw ++
      hdrLayer h.raw ++ hdrVersion h.raw ++ hdrSync h.raw := by
  apply eq_of_fieldAt
  simp only [↓fieldAt_append, hdrFieldsWord, BitVec.or_assoc, Nat.reduceAdd]

theorem halfWord_eq (v : BitVec 16) : fieldAt v 0 = 0#16 ++ v := by
  apply eq_of_fieldAt
  simp [↓fieldAt_append]

theorem halvesWord_eq (lo hi : BitVec 16) : fieldAt lo 0 ||| fieldAt hi 16 = hi ++ lo := by
  apply eq_of_fieldAt
  simp [↓fieldAt_append]

theorem errWord_eq (err : BitVec 9) : fieldAt err 0 = 0#23 ++ err := by
  apply eq_of_fieldAt
  simp [↓fieldAt_append]

theorem hdrAuxWord_eq (h : Header) : hdrAuxWord h =
    0#8 ++ h.siLen ++ h.headerLen ++ 0#2 ++ h.nch ++ BitVec.ofBool h.crcPresent ++ h.padding := by
  apply eq_of_fieldAt
  simp [↓fieldAt_append, hdrAuxWord, flagAt_eq_fieldAt, BitVec.or_assoc]

theorem siGlobalWord_eq (x : SideInfo) : siGlobalWord x =
    0#10 ++ x.scfsi.ch1 ++ x.scfsi.ch0 ++ x.privateBits ++ x.mainDataBegin := by
  apply eq_of_fieldAt
  simp [↓fieldAt_append, siGlobalWord, BitVec.or_assoc]

theorem statusWord_idle {s : State} (h : s.busy = false) : statusWord s =
    0#12 ++ BitVec.ofBool s.mdValid ++ BitVec.ofBool s.siValid ++ BitVec.ofBool s.hdrValid ++ 0#1 ++ s.statusDetail ++
      s.statusCode := by
  apply eq_of_fieldAt
  simp [↓fieldAt_append, statusWord, setWidth_word, h, flagAt_eq_fieldAt, BitVec.or_assoc]

theorem paramWord_eq (c : Config) : paramWord c.data =
    1#8 ++ 0#6 ++ BitVec.ofBool (c.data.limitMode == .part23) ++ c.data.crcOnBit ++
      BitVec.ofNat 16 c.data.ibufBytes := by
  have hbytes := c.ibufBytes_le
  apply eq_of_fieldAt
  simp [↓fieldAt_append, paramWord, ofNat_word (k := 16) (n := c.data.ibufBytes) (by omega), flagAt_eq_fieldAt,
    BitVec.or_assoc]

theorem siGcWord_zero (r : ChannelSideInfo) : siGcWord r 0 = gcWord0 r := by
  apply eq_of_fieldAt
  rw [gcWord0]
  simp [siGcWord, ↓fieldAt_append, BitVec.or_assoc]

theorem siGcWord_one (r : ChannelSideInfo) : siGcWord r 1 = gcWord1 r := by
  apply eq_of_fieldAt
  unfold gcWord1
  split
  next harm =>
    simp [siGcWord, harm, windowSwitchFlag, blockType, mixedBlockFlag, region0Count, region1Count, ↓fieldAt_append,
      BitVec.or_assoc, fieldAt_setWidth]
  next harm =>
    simp only [siGcWord, harm, windowSwitchFlag, blockType, mixedBlockFlag, region0Count, region1Count]
    split_ifs <;> simp [↓fieldAt_append, BitVec.or_assoc]

theorem siGcWord_two (r : ChannelSideInfo) : siGcWord r 2 = gcWord2 r := by
  apply eq_of_fieldAt
  unfold gcWord2
  split
  all_goals
    rename_i harm
    simp [siGcWord, harm, tableSelect0, tableSelect1, tableSelect2, subblockGain0, subblockGain1, subblockGain2,
      ↓fieldAt_append, BitVec.or_assoc]

/-! ### What idle reads give -/

/-- Settles O54: no register but the two data ports has a side effect, and each one's value has the layout of R130 and
R131. -/
theorem controlRegistersReadAsLaidOut : Obligations.ControlRegistersReadAsLaidOut := by
  intro s hreset hidle
  have reads {v : Word} (r : Reg) (hv : regValue s r = v) (hport : ∀ t, afterRead t r = t := by exact fun _ => rfl) :
      ReadsAs s (regOffset r) v := readsAs_reg hreset hidle r rfl hport hv
  refine ⟨reads .cmd rfl, reads .status (statusWord_idle hidle), reads .err (errWord_eq _),
    reads .brBase (halfWord_eq _), reads .brLen (halfWord_eq _), reads .brPos (halfWord_eq _),
    reads .brWin (halvesWord_eq _ _), reads .param ((paramWord_eq s.cfg).trans ?_), reads (.res 0) rfl, reads (.res 1) rfl,
    reads (.res 2) rfl, reads (.res 3) rfl, reads .ibufAddr (halfWord_eq _), reads .outAddr (halfWord_eq _),
    fun o ho h4 hunmapped => readsAs_unmapped hreset ho h4 (regAt_eq_none hunmapped)⟩
  cases s.cfg.data.limitMode <;> rfl

/-- Settles O55: as for the control registers, with the layouts of R130, R133, R134 and R135; word `w` of
granule-channel `q` stands `4 * w` above its word 0. -/
theorem recordRegistersReadAsLaidOut : Obligations.RecordRegistersReadAsLaidOut := by
  intro s hreset hidle
  have reads {v : Word} {o : Nat} (r : Reg) (hv : regValue s r = v) (ho : regOffset r = o := by rfl)
      (hport : ∀ t, afterRead t r = t := by exact fun _ => rfl) : ReadsAs s o v :=
    readsAs_reg hreset hidle r ho hport hv
  exact ⟨reads .hdrRaw rfl, reads .hdrFields (hdrFieldsWord_eq _), reads .hdrBitrate rfl, reads .hdrFreq rfl,
    reads .hdrSize (halvesWord_eq _ _), reads .hdrAux (hdrAuxWord_eq _), reads .hdrMdlen (halfWord_eq _),
    reads .siGlobal (siGlobalWord_eq _), fun q =>
      ⟨reads (.siGc q 0) (siGcWord_zero _),
        reads (.siGc q 1) (siGcWord_one _) (Nat.add_right_comm 0x080 (16 * q.val) 4),
        reads (.siGc q 2) (siGcWord_two _) (Nat.add_right_comm 0x080 (16 * q.val) 8),
        reads (.siGc q 3) rfl (Nat.add_right_comm 0x080 (16 * q.val) 12)⟩⟩

end Sys2Proof.Machine
end

section
/-! The bit reader: the window's bits, the four commands' completions and frame, and what any command's result depends
on. -/

namespace Sys2Proof.Machine

open Sys2Proof.Spec

/-! ### The window's bits (spec/20_memory.md R86, spec/40_bitreader.md R161) -/

theorem winBit_window (s : State) (k : Nat) : winBit s.window k =
    ((ibufByte s.ibuf s.ibufDraw (s.winBase.toNat + k / 8)).getLsbD (7 - k % 8)).toNat := by
  rw [winBit, Nat.and_one_is_mod, Nat.shiftRight_eq_div_pow, ← Nat.toNat_testBit]
  rfl

theorem memRead_eq_sum (w : Window) (p n : Nat) :
    memRead w p n = ∑ j ∈ Finset.range n, winBit w (p + j) <<< (n - 1 - j) := by
  induction n with
  | zero => rfl
  | succ n ih =>
    have hshift : ∀ j ∈ Finset.range n, winBit w (p + j) <<< (n - j) = 2 * winBit w (p + j) <<< (n - 1 - j) := by
      intro j hj
      have hlt := Finset.mem_range.mp hj
      rw [show n - j = n - 1 - j + 1 by omega, Nat.shiftLeft_succ]
    rw [memRead, ih, Finset.mul_sum, Finset.sum_range_succ, Nat.add_sub_cancel, Nat.sub_self, Nat.shiftLeft_zero,
      Finset.sum_congr rfl hshift]

/-- Settles O16: a bit taken by shift and mask is the byte's bit, and each further bit read doubles the value before
it. -/
theorem memReadIsBigEndian : Obligations.MemReadIsBigEndian :=
  ⟨winBit_window, fun w p n => ⟨memRead_eq_sum w p n, memRead_lt w p n⟩⟩

/-! ### The words of the reader commands -/

/-- The word of a command that is not legal fails the last of the decoder's tests only. -/
theorem decodeWord_encode (i : Instr) :
    decodeWord (encode i) = if i.wellFormed then .ok i else .error .countTooLarge := by
  obtain ⟨reserved, hrow, hclear⟩ := encode_row i
  rw [decodeWord_of_row hrow, if_neg (not_not.mpr hclear)]

theorem encode_brRead (n : BitVec 6) : encode (.brRead n) = 0x02000000 ||| n.setWidth 32 := by
  revert n
  decide

theorem encode_brPeek (n : BitVec 6) : encode (.brPeek n) = 0x03000000 ||| n.setWidth 32 := by
  revert n
  decide

/-! ### How each reader command ends -/

/-- Settles O17: the programmed pair is the one to latch when nothing raced, and the two outcomes part at the end of
IBUF. -/
theorem brOpenLatchesTheProgrammedWindow : Obligations.BrOpenLatchesTheProgrammedWindow := by
  refine ⟨by decide, fun s hrace => ?_⟩
  have hpair : openPair s = (s.brBaseReg, s.brLenReg) := by rw [openPair, hrace]; rfl
  obtain ⟨g, hle⟩ | ⟨g, hlt⟩ := brOpen_cases s
  · rw [hpair] at g hle
    exact ⟨fun _ => g, fun hlt => absurd hle (Nat.not_le.mpr hlt)⟩
  · rw [hpair] at hlt
    exact ⟨fun hle => absurd hle (Nat.not_le.mpr hlt), fun _ => g⟩

/-- Settles O19: the three outcomes of the command exclude each other. -/
theorem brReadConsumesTheNextBits : Obligations.BrReadConsumesTheNextBits := by
  refine ⟨fun n => ?_, fun n s => ?_⟩
  · rw [← encode_brRead, decodeWord_encode]
    simp [Instr.wellFormed]
  · rw [← windowEnd_eq_bitsInWindow]
    obtain ⟨hn, hfits, g⟩ | ⟨hn, hshort, g⟩ | ⟨hn, g⟩ := brRead_cases n s
    · exact ⟨fun _ _ => g, fun _ _ => by omega, fun _ => by omega⟩
    · exact ⟨fun _ _ => by omega, fun _ _ => g, fun _ => by omega⟩
    · exact ⟨fun _ _ => by omega, fun _ _ => by omega, fun _ => g⟩

/-- Settles O20: the three outcomes of the command exclude each other. -/
theorem brPeekLooksAheadWithoutMoving : Obligations.BrPeekLooksAheadWithoutMoving := by
  refine ⟨fun n => ?_, fun n s => ?_⟩
  · rw [← encode_brPeek, decodeWord_encode]
    simp [Instr.wellFormed]
  · rw [← windowEnd_eq_bitsInWindow]
    obtain ⟨hn, hfits, g⟩ | ⟨hn, hshort, g⟩ | ⟨hn, g⟩ := brPeek_cases n s
    · exact ⟨fun _ _ => g, fun _ _ => by omega, fun _ => by omega⟩
    · exact ⟨fun _ _ => by omega, fun _ _ => g, fun _ => by omega⟩
    · exact ⟨fun _ _ => by omega, fun _ _ => by omega, fun _ => g⟩

/-- Settles O21: the two outcomes part at the window's end. -/
theorem brSeekMovesToTheOffset : Obligations.BrSeekMovesToTheOffset := by
  intro off s
  rw [← windowEnd_eq_bitsInWindow]
  obtain ⟨hle, g⟩ | ⟨hlt, g⟩ := brSeek_cases off s
  · exact ⟨fun _ => g, fun _ => by omega⟩
  · exact ⟨fun _ => by omega, fun _ => g⟩

theorem errorCode_ne_zero (k : ErrorKind) : errorCode k ≠ 0 := by cases k <;> decide

/-- A BR_PEEK that reports its bits present read them at the cursor and left the window and the cursor. -/
theorem brPeek_present {n : BitVec 6} {s t : State} (h : exec (.brPeek n) s = .next t) (hok : t.statusCode = 0)
    (hpresent : t.res.q1 = 1) :
    n.toNat ≤ 32 ∧ s.pos.toNat + n.toNat ≤ windowEnd s.window ∧ t.window = s.window ∧ t.pos = s.pos ∧
      t.res.q0 = BitVec.ofNat 32 (memRead s.window s.pos.toNat n.toNat) := by
  obtain ⟨hn, hfits, g⟩ | ⟨-, -, g⟩ | ⟨-, g⟩ := brPeek_cases n s
  · cases g.symm.trans h
    exact ⟨hn, hfits, rfl, rfl, rfl⟩
  · cases g.symm.trans h
    exact absurd hpresent (show (0 : Word) ≠ 1 by decide)
  · cases g.symm.trans h
    exact absurd hok (errorCode_ne_zero .illegalCmd)

/-- Settles O22: BR_READ finds the cursor and the window that BR_PEEK found. -/
theorem peekThenReadAgree : Obligations.PeekThenReadAgree := by
  intro n s t u w hpeek hok hpresent hread
  obtain ⟨hn, hfits, hwindow, hpos, hres⟩ := brPeek_present hpeek hok hpresent
  have hreads := (brReadConsumesTheNextBits.2 n (t.accept w)).1 hn (by
    rw [← windowEnd_eq_bitsInWindow, window_accept, hwindow, accept_pos, hpos]
    exact hfits)
  cases hreads.symm.trans hread
  refine ⟨rfl, ?_⟩
  show BitVec.ofNat 32 (memRead t.window t.pos.toNat n.toNat) = t.res.q0
  rw [hwindow, hpos, hres]

/-! ### The frame of the reader commands (spec/40_bitreader.md R173) -/

theorem errMask_errorCode_getLsbD (kind : ErrorKind) : ∀ k < 9,
    (errMask (errorCode kind)).getLsbD k = (decide (k = (errorCode kind).toNat) && decide (k ≠ 0)) := by
  cases kind <;> decide

theorem errOfStatus_fail (s : State) (e : CmdError) : ErrOfStatus s (s.fail e) := by
  intro k hk
  rw [fail_err, BitVec.getLsbD_or, errMask_errorCode_getLsbD e.kind k hk, fail_statusCode]

theorem errOfStatus_of_ok {s t : State} (herr : t.err = s.err) (hok : t.statusCode = 0) : ErrOfStatus s t := by
  intro k _
  rw [herr, hok]
  simp

/-- The frame of a reader command that leads from `s` to `t`. -/
structure ReaderFrame (i : Instr) (s t : State) : Prop where
  setup : SameSetup s t
  records : SameRecords s t
  err : ErrOfStatus s t
  res2 : t.res.q2 = s.res.q2
  res3 : t.res.q3 = s.res.q3
  res1 : (∀ n, i ≠ .brPeek n) → t.res.q1 = s.res.q1
  res0 : i = .brOpen ∨ (∃ off, i = .brSeek off) ∨ t.statusCode ≠ 0 → t.res.q0 = s.res.q0
  window : i ≠ .brOpen → SameWindow s t
  cursor : ∀ n, i = .brPeek n → t.statusCode = 0 → t.pos = s.pos

theorem ReaderFrame.fail (i : Instr) (s : State) (e : CmdError) : ReaderFrame i s (s.fail e) where
  setup := ⟨rfl, rfl, rfl, rfl, rfl, rfl, rfl, fun _ => rfl, rfl, rfl, rfl⟩
  records := ⟨rfl, rfl, fun _ => rfl, rfl, rfl, rfl⟩
  err := errOfStatus_fail s e
  res2 := rfl
  res3 := rfl
  res1 _ := rfl
  res0 _ := rfl
  window _ := ⟨rfl, rfl⟩
  cursor _ _ hok := absurd hok (errorCode_ne_zero e.kind)

/-- The state `s` with what a reader command may write: the window, the cursor, `res[0]` and `res[1]`. -/
def readerWrite (s : State) (base len pos : BitVec 16) (q0 q1 : Word) : State :=
  { s with winBase := base, winLen := len, pos := pos, res := { s.res with q0 := q0, q1 := q1 } }

theorem ReaderFrame.finish {i : Instr} {s : State} {base len pos : BitVec 16} {q0 q1 : Word}
    (hres1 : (∀ n, i ≠ .brPeek n) → q1 = s.res.q1)
    (hres0 : i = .brOpen ∨ (∃ off, i = .brSeek off) → q0 = s.res.q0)
    (hwindow : i ≠ .brOpen → base = s.winBase ∧ len = s.winLen) (hpos : ∀ n, i = .brPeek n → pos = s.pos) :
    ReaderFrame i s (readerWrite s base len pos q0 q1).finish where
  setup := ⟨rfl, rfl, rfl, rfl, rfl, rfl, rfl, fun _ => rfl, rfl, rfl, rfl⟩
  records := ⟨rfl, rfl, fun _ => rfl, rfl, rfl, rfl⟩
  err := errOfStatus_of_ok rfl rfl
  res2 := rfl
  res3 := rfl
  res1 := hres1
  res0
    | .inl h => hres0 (.inl h)
    | .inr (.inl h) => hres0 (.inr h)
    | .inr (.inr h) => absurd rfl h
  window := hwindow
  cursor n hn _ := hpos n hn

theorem brOpen_frame {s t : State} (h : exec .brOpen s = .next t) : ReaderFrame .brOpen s t := by
  obtain ⟨g, -⟩ | ⟨g, -⟩ := brOpen_cases s <;> cases g.symm.trans h
  · exact .finish (fun _ => rfl) (fun _ => rfl) (fun hi => absurd rfl hi) nofun
  · exact .fail _ s _

theorem brRead_frame {n : BitVec 6} {s t : State} (h : exec (.brRead n) s = .next t) : ReaderFrame (.brRead n) s t := by
  obtain ⟨-, -, g⟩ | ⟨-, -, g⟩ | ⟨-, g⟩ := brRead_cases n s <;> cases g.symm.trans h
  · exact .finish (fun _ => rfl) (by simp) (fun _ => ⟨rfl, rfl⟩) nofun
  · exact .fail _ s _
  · exact .fail _ s _

theorem brPeek_frame {n : BitVec 6} {s t : State} (h : exec (.brPeek n) s = .next t) : ReaderFrame (.brPeek n) s t := by
  obtain ⟨-, -, g⟩ | ⟨-, -, g⟩ | ⟨-, g⟩ := brPeek_cases n s <;> cases g.symm.trans h
  · exact .finish (fun hi => absurd rfl (hi n)) (by simp) (fun _ => ⟨rfl, rfl⟩) (fun _ _ => rfl)
  · exact .finish (fun hi => absurd rfl (hi n)) (by simp) (fun _ => ⟨rfl, rfl⟩) (fun _ _ => rfl)
  · exact .fail _ s _

theorem brSeek_frame {off : BitVec 16} {s t : State} (h : exec (.brSeek off) s = .next t) :
    ReaderFrame (.brSeek off) s t := by
  obtain ⟨-, g⟩ | ⟨-, g⟩ := brSeek_cases off s <;> cases g.symm.trans h
  · exact .finish (fun _ => rfl) (fun _ => rfl) (fun _ => ⟨rfl, rfl⟩) nofun
  · exact .fail _ s _

/-- Settles O23: each of the four ends OK with its own registers written, or fails. -/
theorem readerCommandsFrame : Obligations.ReaderCommandsFrame := by
  intro i s t hi h
  have hframe : ReaderFrame i s t := by
    obtain rfl | ⟨n, rfl⟩ | ⟨n, rfl⟩ | ⟨off, rfl⟩ := hi
    · exact brOpen_frame h
    · exact brRead_frame h
    · exact brPeek_frame h
    · exact brSeek_frame h
  exact ⟨hframe.setup, hframe.records, hframe.err, hframe.res2, hframe.res3, hframe.res1, hframe.res0, hframe.window,
    hframe.cursor⟩

/-! ### What a command's result depends on (spec/40_bitreader.md R164) -/

/-- Two states with the same inputs of command `i`. -/
structure SameInputs (i : Instr) (s t : State) : Prop where
  cfg : s.cfg = t.cfg
  bits : SameBits s.window t.window
  pos : s.pos = t.pos
  hdr : s.hdr = t.hdr
  si : s.si = t.si
  hdrValid : s.hdrValid = t.hdrValid
  siValid : s.siValid = t.siValid
  pair : i = .brOpen → openPair s = openPair t

/-- The ways command `i` can end, each as a function from the state it ran in to the state it leads to: the values it
writes are fixed, and every field it does not write is kept. -/
inductive EndsBy : Instr → (State → State) → Prop where
  | nop : EndsBy .nop State.finish
  | srst : EndsBy .srst fun s => s.resetRegisters.finish
  | brOpen (base len : BitVec 16) : EndsBy .brOpen fun s => (latchWindow s base len).finish
  | brRead (n : BitVec 6) (v : Word) (p : BitVec 16) :
    EndsBy (.brRead n) fun s => State.finish { s with res := { s.res with q0 := v }, pos := p }
  | brPeek (n : BitVec 6) (v present : Word) :
    EndsBy (.brPeek n) fun s => State.finish { s with res := { s.res with q0 := v, q1 := present } }
  | brSeek (off p : BitVec 16) : EndsBy (.brSeek off) fun s => State.finish { s with pos := p }
  | hdrDecode (h : Header) (p : BitVec 16) : EndsBy .hdrDecode fun s =>
    State.finish { s with hdr := h, hdrValid := true, siValid := false, mdValid := false, pos := p }
  | siDecode (x : SideInfo) (p : BitVec 16) :
    EndsBy .siDecode fun s => State.finish { s with si := x, siValid := true, mdValid := false, pos := p }
  | huffPair (k : BitVec 5) (r : Quad Word) (p : BitVec 16) :
    EndsBy (.huffPair k) fun s => State.finish { s with res := r, pos := p }
  | huffQuad (k : BitVec 1) (r : Quad Word) (p : BitVec 16) :
    EndsBy (.huffQuad k) fun s => State.finish { s with res := r, pos := p }
  | mdDecode (m : Record) (p : BitVec 16) :
    EndsBy .mdDecode fun s => State.finish { s with md := .record m, mdValid := true, pos := p }
  | error (i : Instr) (e : CmdError) : EndsBy i fun s => s.fail e
  | hdrError (e : CmdError) : EndsBy .hdrDecode fun s => (invalidateFromHdr s).fail e
  | siError (e : CmdError) : EndsBy .siDecode fun s => (invalidateFromSi s).fail e
  | mdError (e : CmdError) : EndsBy .mdDecode fun s => (invalidateMd s).fail e
  | streamError (e : CmdError) : EndsBy .mdDecode fun s => (invalidateMd s).scrambleOut.fail e

/-- Command `i` comes to the same end from both states. -/
def EndAlike (i : Instr) (s t : State) : Prop :=
  ∃ f, EndsBy i f ∧ exec i s = .next (f s) ∧ exec i t = .next (f t)

/-! The lemmas below open the two runs of a command side by side: with the same inputs they take the same branch at every
test, and each branch is one way to end. -/

section SameInputs

variable {i : Instr} {s t : State}

theorem SameInputs.takeBits (h : SameInputs i s t) (n : Nat) :
    takeBits t.window n (windowEnd t.window) t.pos.toNat = takeBits s.window n (windowEnd s.window) s.pos.toNat := by
  rw [← h.pos, ← h.bits.ends, h.bits.takeBits le_rfl]

theorem brOpen_endAlike (h : SameInputs .brOpen s t) : EndAlike .brOpen s t := by
  unfold EndAlike
  simp only [exec, execBrOpen, ← h.pair rfl, ← h.cfg]
  split
  · exact ⟨_, .error _ _, rfl, rfl⟩
  · exact ⟨_, .brOpen _ _, rfl, rfl⟩

theorem brRead_endAlike {n : BitVec 6} (h : SameInputs (.brRead n) s t) : EndAlike (.brRead n) s t := by
  unfold EndAlike
  simp only [exec, execBrRead, h.takeBits]
  split
  · split
    · exact ⟨_, .error _ _, rfl, rfl⟩
    · exact ⟨_, .brRead n _ _, rfl, rfl⟩
  · exact ⟨_, .error _ _, rfl, rfl⟩

theorem brPeek_endAlike {n : BitVec 6} (h : SameInputs (.brPeek n) s t) : EndAlike (.brPeek n) s t := by
  unfold EndAlike
  simp only [exec, execBrPeek, h.takeBits]
  split
  · split
    · exact ⟨_, .brPeek n _ _, rfl, rfl⟩
    · exact ⟨_, .brPeek n _ _, rfl, rfl⟩
  · exact ⟨_, .error _ _, rfl, rfl⟩

theorem brSeek_endAlike {off : BitVec 16} (h : SameInputs (.brSeek off) s t) : EndAlike (.brSeek off) s t := by
  unfold EndAlike
  simp only [exec, execBrSeek, ← h.bits.ends]
  split
  · exact ⟨_, .error _ _, rfl, rfl⟩
  · exact ⟨_, .brSeek off _, rfl, rfl⟩

theorem hdrDecode_endAlike (h : SameInputs .hdrDecode s t) : EndAlike .hdrDecode s t := by
  unfold EndAlike
  simp only [exec, execHdrDecode, h.takeBits, ← h.cfg]
  split
  · exact ⟨_, .hdrError _, rfl, rfl⟩
  · split
    · exact ⟨_, .hdrError _, rfl, rfl⟩
    · exact ⟨_, .hdrDecode _ _, rfl, by rw [h.cfg]; rfl⟩

theorem siDecode_endAlike (h : SameInputs .siDecode s t) : EndAlike .siDecode s t := by
  unfold EndAlike
  simp only [exec, execSiDecode, ← h.hdrValid, ← h.hdr, ← h.pos, ← h.bits.ends]
  split
  · exact ⟨_, .error _ _, rfl, rfl⟩
  · split
    · exact ⟨_, .siError _, rfl, rfl⟩
    · rename_i hfits
      rw [← readSideInfo_congr h.bits (Nat.le_of_not_lt hfits)]
      exact ⟨_, .siDecode _ _, rfl, by rw [h.hdrValid, h.hdr]; rfl⟩

theorem huffPair_endAlike {k : BitVec 5} (h : SameInputs (.huffPair k) s t) : EndAlike (.huffPair k) s t := by
  unfold EndAlike
  simp only [exec, execHuffPair, ← h.cfg, ← h.pos, ← h.bits.ends, ← decodePair_congr h.bits le_rfl]
  split
  · exact ⟨_, .error _ _, rfl, rfl⟩
  · exact ⟨_, .error _ _, rfl, rfl⟩
  · exact ⟨_, .huffPair k _ _, rfl, by rw [h.cfg]; rfl⟩

theorem huffQuad_endAlike {k : BitVec 1} (h : SameInputs (.huffQuad k) s t) : EndAlike (.huffQuad k) s t := by
  unfold EndAlike
  simp only [exec, execHuffQuad, ← h.cfg, ← h.pos, ← h.bits.ends, ← decodeQuad_congr h.bits le_rfl]
  split
  · exact ⟨_, .error _ _, rfl, rfl⟩
  · exact ⟨_, .error _ _, rfl, rfl⟩
  · exact ⟨_, .huffQuad k _ _, rfl, by rw [h.cfg]; rfl⟩

theorem mdDecode_endAlike (h : SameInputs .mdDecode s t) : EndAlike .mdDecode s t := by
  unfold EndAlike
  simp only [exec, execMdDecode, ← h.hdrValid, ← h.siValid, ← h.cfg, ← h.hdr, ← h.si, ← h.pos,
    ← decodeFrame_congr h.bits]
  split
  · exact ⟨_, .error _ _, rfl, rfl⟩
  split
  · exact ⟨_, .error _ _, rfl, rfl⟩
  split
  · exact ⟨_, .mdError _, rfl, rfl⟩
  split
  · exact ⟨_, .streamError _, rfl, rfl⟩
  · exact ⟨_, .mdDecode _ _, rfl, by rw [h.cfg, h.hdrValid, h.siValid, h.hdr, h.si]; rfl⟩

/-- Every command comes to the same end from two states with the same inputs. -/
theorem exec_endAlike (h : SameInputs i s t) : EndAlike i s t := by
  cases i with
  | nop => exact ⟨_, .nop, nop_eq s, nop_eq t⟩
  | srst => exact ⟨_, .srst, srst_eq s, srst_eq t⟩
  | brOpen => exact brOpen_endAlike h
  | brRead n => exact brRead_endAlike h
  | brPeek n => exact brPeek_endAlike h
  | brSeek off => exact brSeek_endAlike h
  | hdrDecode => exact hdrDecode_endAlike h
  | siDecode => exact siDecode_endAlike h
  | huffPair k => exact huffPair_endAlike h
  | huffQuad k => exact huffQuad_endAlike h
  | mdDecode => exact mdDecode_endAlike h

end SameInputs

/-- No way a command ends writes or reads IBUF. -/
theorem EndsBy.setIbuf {i : Instr} {f : State → State} (h : EndsBy i f) (s : State) (m : List Host.Cell) (d : Nat) :
    f { s with ibuf := m, ibufDraw := d } = { f s with ibuf := m, ibufDraw := d } := by
  cases h <;> rfl

/-- Two IBUFs with the same bytes in the window give it the same bits. -/
theorem sameBits_setIbuf {s : State} {m : List Host.Cell} {d : Nat}
    (h : ∀ a, s.winBase.toNat ≤ a → a < s.winBase.toNat + s.winLen.toNat →
      ibufByte m d a = ibufByte s.ibuf s.ibufDraw a) :
    SameBits s.window ({ s with ibuf := m, ibufDraw := d } : State).window where
  len := rfl
  bits k hk := by
    have hbyte : k / 8 < s.winLen.toNat := Nat.div_lt_of_lt_mul hk
    rw [winBit_window, winBit_window, h _ (Nat.le_add_right _ _) (Nat.add_lt_add_left hbyte _)]

/-- Settles O57: the two states have the same inputs, so they come to the same end, which does not touch IBUF. -/
theorem commandSeesOnlyItsWindow : Obligations.CommandSeesOnlyItsWindow := by
  intro i s m d hbytes
  have hinputs : SameInputs i s { s with ibuf := m, ibufDraw := d } :=
    ⟨rfl, sameBits_setIbuf hbytes, rfl, rfl, rfl, rfl, rfl, fun _ => rfl⟩
  obtain ⟨f, hf, hs, ht⟩ := exec_endAlike hinputs
  exact ⟨f s, hs, ht.trans (congrArg _ (hf.setIbuf s m d))⟩

/-- What command `i` reports and, where it ends OK, the cursor and its own results are the same in `u` and `v`
(spec/40_bitreader.md R164). -/
def SameResults (i : Instr) (u v : State) : Prop :=
  u.statusCode = v.statusCode ∧ u.statusDetail = v.statusDetail ∧
  (u.statusCode = 0 →
    u.pos = v.pos ∧
    ((∃ n, i = .brRead n) ∨ (∃ n, i = .brPeek n) → u.res.q0 = v.res.q0) ∧
    ((∃ n, i = .brPeek n) → u.res.q1 = v.res.q1) ∧
    ((∃ k, i = .huffPair k) ∨ (∃ k, i = .huffQuad k) → u.res = v.res) ∧
    (i = .brOpen → u.winBase = v.winBase ∧ u.winLen = v.winLen) ∧
    (i = .hdrDecode → u.hdr = v.hdr) ∧
    (i = .siDecode → u.si = v.si) ∧
    (i = .mdDecode → u.md = v.md))

theorem SameResults.fail (i : Instr) (s t : State) (e : CmdError) : SameResults i (s.fail e) (t.fail e) :=
  ⟨rfl, rfl, fun hok => absurd hok (errorCode_ne_zero e.kind)⟩

/-- A command's end gives the same results from every state with the same cursor. -/
theorem EndsBy.sameResults {i : Instr} {f : State → State} (h : EndsBy i f) {s t : State} (hpos : s.pos = t.pos) :
    SameResults i (f s) (f t) := by
  cases h with
  | nop | brPeek n v present => exact ⟨rfl, rfl, fun _ => by simp [-finish_eq_endOk, hpos]⟩
  | brOpen base len => exact ⟨rfl, rfl, fun _ => by simp [-finish_eq_endOk, latchWindow]⟩
  | srst | brRead n v p | brSeek off p | hdrDecode x p | siDecode x p | huffPair k r p | huffQuad k r p
  | mdDecode m p =>
    exact ⟨rfl, rfl, fun _ => by simp [-finish_eq_endOk]⟩
  | error i e | hdrError e | siError e | mdError e | streamError e => exact .fail _ _ _ e

/-- Settles O59: the two states have the same inputs and come to the same end. -/
theorem resultsDependOnlyOnTheInputs : Obligations.ResultsDependOnlyOnTheInputs := by
  intro i s t u v hcfg hlen hbits hpos hhdr hsi hhdrValid hsiValid hpair hu hv
  have hinputs : SameInputs i s t :=
    ⟨hcfg, ⟨congrArg BitVec.toNat hlen, hbits⟩, hpos, hhdr, hsi, hhdrValid, hsiValid, hpair⟩
  obtain ⟨f, hf, hs, ht⟩ := exec_endAlike hinputs
  cases hs.symm.trans hu
  cases ht.symm.trans hv
  exact hf.sameResults hpos

end Sys2Proof.Machine
end

section
/-! The frame header: the fields of its word, the default tables, the bound on frame sizes, HDR_DECODE's outcomes, and
the frame of the two record decoders. -/

namespace Sys2Proof.Machine

open Sys2Proof.Spec

/-! ### The fields of the header word (spec/30_encoding.md R140, spec/41_header.md R192) -/

/-- Settles O24: each field begins where the one before it ends, so field by field the concatenation is a longer slice,
in the end the whole word. -/
theorem headerFieldsCutTheWord : Obligations.HeaderFieldsCutTheWord := by
  intro h
  unfold hdrSync hdrVersion hdrLayer hdrProtection hdrBitrateCode hdrFreqCode hdrPad hdrPrivateBit hdrMode hdrModeExt
    hdrCopyright hdrOriginal hdrEmphasis
  repeat rw [BitVec.extractLsb'_append_extractLsb'_eq_extractLsb' (by rfl)]
  exact BitVec.extractLsb'_eq_self.symm

/-! ### The default tables (spec/41_header.md R198 to R201) -/

/-- Settles O25: every table is a small constant, compared entry by entry. -/
theorem defaultTablesAsTabulated : Obligations.DefaultTablesAsTabulated := by
  and_intros <;> decide

theorem standard_bitrate_le {layer : BitVec 2} {code : BitVec 4} {br : Word}
    (h : lookupBitrate Config.standard.data layer code = some br) :
    br.toNat ≤ if layer = 3 then 448000 else 384000 := by
  have hall : ∀ (layer : BitVec 2) (code : BitVec 4), (lookupBitrate Config.standard.data layer code).all
      (fun br => decide (br.toNat ≤ if layer = 3 then 448000 else 384000)) = true := by decide
  exact of_decide_eq_true ((Option.all_eq_true _ _).mp (hall layer code) br h)

theorem standard_freq_ge {version code : BitVec 2} {fr : Word}
    (h : lookupFreq Config.standard.data version code = some fr) : 8000 ≤ fr.toNat := by
  have hall : ∀ version code : BitVec 2, (lookupFreq Config.standard.data version code).all
      (fun fr => decide (8000 ≤ fr.toNat)) = true := by decide
  exact of_decide_eq_true ((Option.all_eq_true _ _).mp (hall version code) fr h)

theorem standard_padding_le : ∀ layer : BitVec 2,
    (lookupPadding Config.standard.data layer).toNat ≤ if layer = 3 then 4 else 1 := by decide

/-! ### Frame sizes (spec/41_header.md R203) -/

/-- A layer code as the configuration's constraints read it. -/
theorem toNat_eq_three {layer : BitVec 2} : layer.toNat = 3 ↔ layer = 3 := by
  revert layer
  decide

theorem frameSizeOf_le_largestFrame (c : ConfigData) (layer : BitVec 2) (br fr : Word) (pad : BitVec 1) :
    frameSizeOf c layer br fr pad ≤ largestFrame layer.toNat (lookupPadding c layer).toNat br.toNat fr.toNat := by
  have hpad : pad.toNat * (lookupPadding c layer).toNat ≤ (lookupPadding c layer).toNat :=
    mul_le_of_le_one_left (Nat.zero_le _) (Nat.le_of_lt_succ pad.isLt)
  simp only [frameSizeOf, largestFrame, toNat_eq_three]
  split <;> exact Nat.add_le_add_left hpad _

/-- The largest frame grows with the padding and the bitrate and shrinks with the frequency. -/
theorem largestFrame_mono {layer p p' br br' fr fr' : Nat} (hp : p ≤ p') (hbr : br ≤ br') (hfr : fr' ≤ fr)
    (hpos : 0 < fr') : largestFrame layer p br fr ≤ largestFrame layer p' br' fr' := by
  have hquot (k : Nat) : k * br / fr ≤ k * br' / fr' := Nat.div_le_div (Nat.mul_le_mul_left k hbr) hfr hpos.ne'
  unfold largestFrame
  split
  · exact Nat.add_le_add (Nat.mul_le_mul_left 4 (hquot 12)) hp
  · exact Nat.add_le_add (hquot 144) hp

/-- The frame of the largest bitrate and padding and the smallest frequency in the default tables, for each layer. -/
theorem standard_largestFrame_le : ∀ layer : BitVec 2,
    largestFrame layer.toNat (if layer = 3 then 4 else 1) (if layer = 3 then 448000 else 384000) 8000 ≤ 6913 := by
  decide

/-- Settles O27: a frame is at most its layer's largest, which every configuration keeps below 65536 and which grows to
6913 at the ends of the default tables. -/
theorem frameSizeFitsItsRegister : Obligations.FrameSizeFitsItsRegister := by
  refine ⟨fun c layer version fcode bcode pad br fr hbr hfr => ?_,
    fun layer version fcode bcode pad br fr hbr hfr => ?_, by decide⟩
  · exact (frameSizeOf_le_largestFrame _ layer br fr pad).trans_lt (c.frame_fits hbr hfr)
  · calc frameSizeOf Config.standard.data layer br fr pad
      _ ≤ largestFrame layer.toNat (lookupPadding Config.standard.data layer).toNat br.toNat fr.toNat :=
        frameSizeOf_le_largestFrame _ layer br fr pad
      _ ≤ largestFrame layer.toNat (if layer = 3 then 4 else 1) (if layer = 3 then 448000 else 384000) 8000 :=
        largestFrame_mono (standard_padding_le layer) (standard_bitrate_le hbr) (standard_freq_ge hfr) (by decide)
      _ ≤ 6913 := standard_largestFrame_le layer

/-! ### HDR_DECODE (spec/41_header.md R190, R195, R208) -/

theorem decodeHeader_of_no_bitrate {c : ConfigData} {h : Word}
    (hbr : lookupBitrate c (hdrLayer h) (hdrBitrateCode h) = none) :
    decodeHeader c h = .error ⟨.invalidFieldEncoding, 1⟩ := by
  simp only [decodeHeader, hbr]

theorem decodeHeader_of_no_freq {c : ConfigData} {h br : Word}
    (hbr : lookupBitrate c (hdrLayer h) (hdrBitrateCode h) = some br)
    (hfr : lookupFreq c (hdrVersion h) (hdrFreqCode h) = none) :
    decodeHeader c h = .error ⟨.invalidFieldEncoding, 2⟩ := by
  simp only [decodeHeader, hbr, hfr]

theorem decodeHeader_of_found {c : ConfigData} {h br fr : Word}
    (hbr : lookupBitrate c (hdrLayer h) (hdrBitrateCode h) = some br)
    (hfr : lookupFreq c (hdrVersion h) (hdrFreqCode h) = some fr) :
    decodeHeader c h = .ok (deriveHeader c h br fr) := by
  simp only [decodeHeader, hbr, hfr]

/-- The state HDR_DECODE leaves when 32 bits are left, from what their word decodes to. -/
def hdrDecodeEnd (s : State) : Except CmdError Header → State
  | .error e => (noneValid s).fail e
  | .ok x =>
    endOk { s with hdr := x, hdrValid := true, siValid := false, mdValid := false, pos := cursor (s.pos.toNat + 32) }

theorem hdrDecode_of_exhausted {s : State} (hshort : bitsInWindow s < s.pos.toNat + 32) :
    exec .hdrDecode s = .next (endError (noneValid s) 1 0) := by
  obtain ⟨-, g⟩ | ⟨hfits, -⟩ := hdrDecode_cases s
  · exact g
  · exact absurd hshort (Nat.not_lt.mpr hfits)

theorem hdrDecode_of_fits {s : State} (hfits : s.pos.toNat + 32 ≤ bitsInWindow s) :
    exec .hdrDecode s = .next (hdrDecodeEnd s (decodeHeader s.cfg.data (BitVec.ofNat 32 (nextBits s 32)))) := by
  obtain ⟨hshort, -⟩ | ⟨-, ⟨e, he, g⟩ | ⟨x, hx, g⟩⟩ := hdrDecode_cases s
  · exact absurd hfits (Nat.not_le.mpr hshort)
  · rw [nextBits, he]; exact g
  · rw [nextBits, hx]; exact g

theorem sideInfoLength_eq (h : Word) : sideInfoLength h = if hdrMode h = 3 then 17 else 32 := by
  unfold sideInfoLength channelCount
  split <;> rfl

/-- The derived record, field by field as the rules R202 to R205 give it. -/
theorem deriveHeader_eq {c : ConfigData} {h br fr : Word} {pad frameSize headerLen siLen : Nat}
    (hpad : pad = (hdrPad h).toNat * (c.padding[(hdrLayer h).toFin]).toNat)
    (hframe : frameSize = if hdrLayer h = 3 then 4 * (12 * br.toNat / fr.toNat) + pad
      else 144 * br.toNat / fr.toNat + pad)
    (hheader : headerLen = if hdrProtection h = c.crcOnBit then 6 else 4)
    (hsi : siLen = if hdrMode h = 3 then 17 else 32) :
    deriveHeader c h br fr =
      { raw := h
        bitrate := br
        frequency := fr
        padding := c.padding[(hdrLayer h).toFin]
        spf := c.spf[(hdrLayer h).toFin][(hdrVersion h).toFin]
        frameSize := BitVec.ofNat 16 frameSize
        crcPresent := decide (hdrProtection h = c.crcOnBit)
        nch := if hdrMode h = 3 then 1 else 2
        headerLen := BitVec.ofNat 8 headerLen
        siLen := BitVec.ofNat 8 siLen
        mdLen := BitVec.ofNat 16 (frameSize - (headerLen + siLen)) } := by
  have hframe' : frameSizeOf c (hdrLayer h) br fr (hdrPad h) = frameSize := by rw [hframe, hpad]; rfl
  have hcrc : crcFollows c h = decide (hdrProtection h = c.crcOnBit) := rfl
  have hheader' : headerLength c h = headerLen := by simp [headerLength, hcrc, hheader]
  have hsi' : sideInfoLength h = siLen := by rw [sideInfoLength_eq, hsi]
  have hnch : BitVec.ofNat 2 (channelCount h) = if hdrMode h = 3 then 1 else 2 := by
    unfold channelCount
    split <;> rfl
  rw [deriveHeader, hframe', hheader', hsi', hnch, hcrc, Nat.sub_sub]
  rfl

/-- Settles O26: where 32 bits are left their word decides the end, by its two lookups. -/
theorem hdrDecodeStoresTheHeader : Obligations.HdrDecodeStoresTheHeader := by
  intro s h hword
  refine ⟨hdrDecode_of_exhausted, fun hfits => ?_⟩
  have hend := hdrDecode_of_fits hfits
  rw [← hword] at hend
  have noBitrate (hbr : lookupBitrate s.cfg.data (hdrLayer h) (hdrBitrateCode h) = none) :
      exec .hdrDecode s = .next (endError (noneValid s) 2 1) := by
    rw [hend, decodeHeader_of_no_bitrate hbr]; rfl
  refine ⟨fun hreserved => noBitrate (lookupBitrate_reserved s.cfg hreserved), noBitrate, fun br hbr => ?_⟩
  have noFreq (hfr : lookupFreq s.cfg.data (hdrVersion h) (hdrFreqCode h) = none) :
      exec .hdrDecode s = .next (endError (noneValid s) 2 2) := by
    rw [hend, decodeHeader_of_no_freq hbr hfr]; rfl
  refine ⟨fun hreserved => noFreq (lookupFreq_reserved s.cfg hreserved), noFreq,
    fun fr hfr pad frameSize headerLen siLen hpad hframe hheader hsi => ?_⟩
  rw [hend, decodeHeader_of_found hbr hfr, deriveHeader_eq hpad hframe hheader hsi]; rfl

/-- Settles O28: both states end by what the same word decodes to under the same configuration. -/
theorem hdrDecodeReadsOnlyItsBits : Obligations.HdrDecodeReadsOnlyItsBits := by
  intro s t u v hcfg hs ht hbits hu hv
  rw [hdrDecode_of_fits hs] at hu
  rw [hdrDecode_of_fits ht, ← hcfg, ← hbits] at hv
  cases hu
  cases hv
  cases decodeHeader s.cfg.data (BitVec.ofNat 32 (nextBits s 32)) with
  | error e => exact ⟨rfl, rfl, rfl, fun hok => absurd hok (errorCode_ne_zero e.kind)⟩
  | ok x => exact ⟨rfl, rfl, rfl, fun _ => rfl⟩

/-! ### The frame of the record decoders (spec/41_header.md R190, spec/42_sideinfo.md R230) -/

/-- The frame of a record decoder that leads from `s` to `t`. -/
structure RecordFrame (i : Instr) (s t : State) : Prop where
  setup : SameSetup s t
  window : SameWindow s t
  out : SameOut s t
  res : t.res = s.res
  err : ErrOfStatus s t
  si : i = .hdrDecode → t.si = s.si
  hdr : i = .siDecode → t.hdr = s.hdr ∧ t.hdrValid = s.hdrValid
  records : t.statusCode ≠ 0 → t.hdr = s.hdr ∧ t.si = s.si

/-- The state `s` with what a record decoder may write: its record, the valid flags and the cursor. -/
def recordWrite (s : State) (hdr : Header) (si : SideInfo) (hdrValid siValid mdValid : Bool) (pos : BitVec 16) :
    State :=
  { s with hdr := hdr, si := si, hdrValid := hdrValid, siValid := siValid, mdValid := mdValid, pos := pos }

theorem RecordFrame.finish {i : Instr} {s : State} {hdr : Header} {si : SideInfo} {hdrValid siValid mdValid : Bool}
    {pos : BitVec 16} (hsi : i = .hdrDecode → si = s.si)
    (hhdr : i = .siDecode → hdr = s.hdr ∧ hdrValid = s.hdrValid) :
    RecordFrame i s (recordWrite s hdr si hdrValid siValid mdValid pos).finish where
  setup := ⟨rfl, rfl, rfl, rfl, rfl, rfl, rfl, fun _ => rfl, rfl, rfl, rfl⟩
  window := ⟨rfl, rfl⟩
  out _ := rfl
  res := rfl
  err := errOfStatus_of_ok rfl rfl
  si := hsi
  hdr := hhdr
  records hfail := absurd rfl hfail

/-- A failing record decoder writes the valid flags alone, and SI_DECODE keeps the header's. -/
theorem RecordFrame.fail {i : Instr} {s : State} {hdrValid siValid mdValid : Bool} (e : CmdError)
    (hvalid : i = .siDecode → hdrValid = s.hdrValid) :
    RecordFrame i s ((recordWrite s s.hdr s.si hdrValid siValid mdValid s.pos).fail e) where
  setup := ⟨rfl, rfl, rfl, rfl, rfl, rfl, rfl, fun _ => rfl, rfl, rfl, rfl⟩
  window := ⟨rfl, rfl⟩
  out _ := rfl
  res := rfl
  err := errOfStatus_fail (recordWrite s s.hdr s.si hdrValid siValid mdValid s.pos) e
  si _ := rfl
  hdr hi := ⟨rfl, hvalid hi⟩
  records _ := ⟨rfl, rfl⟩

theorem hdrDecode_frame {s t : State} (h : exec .hdrDecode s = .next t) : RecordFrame .hdrDecode s t := by
  obtain ⟨-, g⟩ | ⟨-, ⟨e, -, g⟩ | ⟨x, -, g⟩⟩ := hdrDecode_cases s <;> cases g.symm.trans h
  · exact .fail _ nofun
  · exact .fail e nofun
  · exact .finish (fun _ => rfl) nofun

theorem siDecode_frame {s t : State} (h : exec .siDecode s = .next t) : RecordFrame .siDecode s t := by
  obtain ⟨-, g⟩ | ⟨-, -, g⟩ | ⟨-, -, g⟩ := siDecode_cases s <;> cases g.symm.trans h
  · exact .fail _ fun _ => rfl
  · exact .fail _ fun _ => rfl
  · exact .finish nofun fun _ => ⟨rfl, rfl⟩

/-- Settles O31: each decoder ends OK with its own record written, or fails with no record written. -/
theorem recordDecodersFrame : Obligations.RecordDecodersFrame := by
  intro i s t hi h
  have hframe : RecordFrame i s t := by
    obtain rfl | rfl := hi
    · exact hdrDecode_frame h
    · exact siDecode_frame h
  exact ⟨hframe.setup, hframe.window, hframe.out, hframe.res, hframe.err, hframe.si, hframe.hdr, hframe.records⟩

end Sys2Proof.Machine
end

section
/-! The side-info decoder: a record read back from its block, and SI_DECODE's outcomes. -/

namespace Sys2Proof.Machine

open Sys2Proof.Spec

/-! ### A record read back from its block (spec/30_encoding.md R141, spec/42_sideinfo.md R230, R234) -/

/-- A register wider than its stream field reads back when its value fits in the field. -/
theorem setWidth_bitsAt_field {w : Window} {p n m : Nat} (v : BitVec m) (hv : v.toNat < 2 ^ n)
    (h : BitsAt w p (bitString n v.toNat)) : (bitsAt w p n).setWidth m = v := by
  apply BitVec.eq_of_toNat_eq
  rw [bitsAt, memRead_bitString h hv, BitVec.toNat_setWidth, BitVec.toNat_ofNat, Nat.mod_eq_of_lt hv,
    Nat.mod_eq_of_lt v.isLt]

/-- R234: what the block does not hold, the absent channel's part, the shape says is zero. -/
theorem readSideInfo_stream_mono {w : Window} {p : Nat} {x : SideInfo} (hshape : SideInfoShape true x)
    (h : BitsAt w p (sideInfoStream true x)) : readSideInfo w true p = x := by
  obtain ⟨mainDataBegin, privateBits, ⟨ch0, ch1⟩, ⟨q0, q1, q2, q3⟩⟩ := x
  obtain ⟨rfl, rfl, rfl⟩ : ch1 = 0 ∧ q1 = ChannelSideInfo.zero ∧ q3 = ChannelSideInfo.zero := hshape
  simp only [sideInfoStream, if_true, bitsAt_append, List.length_append, bitString_length, channelStream_length,
    Nat.reduceAdd, and_assoc] at h
  obtain ⟨hbegin, hprivate, hch0, hq0, hq2⟩ := h
  simp only [readSideInfo, if_true, bitsAt_field _ hbegin, bitsAt_field _ hprivate, bitsAt_field _ hch0,
    readChannel_stream hq0, readChannel_stream hq2]

/-- R235: the block holds 3 of the 5 private bits, and the shape says the other two are zero. -/
theorem readSideInfo_stream_stereo {w : Window} {p : Nat} {x : SideInfo} (hshape : SideInfoShape false x)
    (h : BitsAt w p (sideInfoStream false x)) : readSideInfo w false p = x := by
  have hsmall : x.privateBits.toNat < 2 ^ 3 := hshape
  simp only [sideInfoStream, Bool.false_eq_true, if_false, bitsAt_append, List.length_append, bitString_length,
    channelStream_length, Nat.reduceAdd, and_assoc] at h
  obtain ⟨hbegin, hprivate, hch0, hch1, hq0, hq1, hq2, hq3⟩ := h
  simp only [readSideInfo, Bool.false_eq_true, if_false, bitsAt_field _ hbegin,
    setWidth_bitsAt_field _ hsmall hprivate, bitsAt_field _ hch0, bitsAt_field _ hch1, readChannel_stream hq0,
    readChannel_stream hq1, readChannel_stream hq2, readChannel_stream hq3]

theorem readSideInfo_stream {w : Window} {mono : Bool} {p : Nat} {x : SideInfo} (hshape : SideInfoShape mono x)
    (h : BitsAt w p (sideInfoStream mono x)) : readSideInfo w mono p = x := by
  cases mono with
  | true => exact readSideInfo_stream_mono hshape h
  | false => exact readSideInfo_stream_stereo hshape h

theorem readSideInfo_shape (w : Window) (mono : Bool) (p : Nat) : SideInfoShape mono (readSideInfo w mono p) := by
  cases mono with
  | true => exact readSideInfo_mono w p
  | false =>
    show ((bitsAt w (p + 9) 3).setWidth 5).toNat < 8
    rw [BitVec.toNat_setWidth]
    exact (Nat.mod_le _ _).trans_lt (bitsAt w (p + 9) 3).isLt

/-! ### SI_DECODE (spec/42_sideinfo.md R230) -/

theorem siDecode_of_no_header {s : State} (hnone : s.hdrValid = false) :
    exec .siDecode s = .next (endError s 5 1) := by
  obtain ⟨-, g⟩ | ⟨hhdr, -⟩ | ⟨hhdr, -⟩ := siDecode_cases s
  · exact g
  · simp [hnone] at hhdr
  · simp [hnone] at hhdr

theorem siDecode_of_exhausted {s : State} (hhdr : s.hdrValid = true)
    (hshort : bitsInWindow s < s.pos.toNat + sideInfoBits (isMono s.hdr)) :
    exec .siDecode s = .next (endError (headerOnlyValid s) 1 0) := by
  obtain ⟨hnone, -⟩ | ⟨-, -, g⟩ | ⟨-, hfits, -⟩ := siDecode_cases s
  · simp [hhdr] at hnone
  · exact g
  · exact absurd hshort (Nat.not_lt.mpr hfits)

theorem siDecode_of_fits {s : State} (hhdr : s.hdrValid = true)
    (hfits : s.pos.toNat + sideInfoBits (isMono s.hdr) ≤ bitsInWindow s) :
    exec .siDecode s = .next (endOk
      { s with
        si := readSideInfo s.window (isMono s.hdr) s.pos.toNat
        siValid := true
        mdValid := false
        pos := cursor (s.pos.toNat + sideInfoBits (isMono s.hdr)) }) := by
  obtain ⟨hnone, -⟩ | ⟨-, hshort, -⟩ | ⟨-, -, g⟩ := siDecode_cases s
  · simp [hhdr] at hnone
  · exact absurd hfits (Nat.not_le.mpr hshort)
  · exact g

/-- Settles O29: SI_DECODE stores what it reads at the cursor, and reading a record's block gives the record. -/
theorem sideInfoBlockDecodesToItsRecord : Obligations.SideInfoBlockDecodesToItsRecord := by
  intro s x hhdr hshape hblock hfits
  rw [siDecode_of_fits hhdr hfits, readSideInfo_stream hshape hblock]
  rfl

/-- Settles O30: a block that fits is decoded to a record of its shape; the errors part at the valid header and at the
window's end. -/
theorem siDecodeOutcomes : Obligations.SiDecodeOutcomes := by
  rintro s _ rfl
  exact ⟨fun hhdr hfits => ⟨_, readSideInfo_shape s.window (isMono s.hdr) s.pos.toNat, siDecode_of_fits hhdr hfits⟩,
    siDecode_of_exhausted, siDecode_of_no_header⟩

end Sys2Proof.Machine
end

section
/-! The Huffman symbol engine: what it decodes from a codeword, how HUFF_PAIR and HUFF_QUAD end, the values they report
and their frame. -/

namespace Sys2Proof.Machine

open Sys2Proof.Spec

/-! ### A symbol read back from its bits (spec/43_huffman.md R262 to R265) -/

theorem takePair_of {w : Window} {lb lim pos linx liny : Nat} {xy : BitVec 4 × BitVec 4} {nx ny : Bool}
    (hlinx : linx < 2 ^ lb) (hliny : liny < 2 ^ lb)
    (hx : BitsAt w pos (pairExtension lb xy.1 linx nx))
    (hy : BitsAt w (pos + (pairExtension lb xy.1 linx nx).length) (pairExtension lb xy.2 liny ny))
    (hfits : pos + (pairExtension lb xy.1 linx nx).length + (pairExtension lb xy.2 liny ny).length ≤ lim) :
    takePair w lb lim xy pos =
      some ((signed nx (pairMagnitude lb xy.1 linx), signed ny (pairMagnitude lb xy.2 liny)),
        pos + (pairExtension lb xy.1 linx nx).length + (pairExtension lb xy.2 liny ny).length) := by
  simp only [takePair, takeValue_of (lim := lim) hlinx hx (by omega), takeValue_of hliny hy hfits]

theorem takeQuad_of {w : Window} {lim pos : Nat} {u : BitVec 4} {nv nw nx ny : Bool}
    (h : BitsAt w pos (quadSigns u nv nw nx ny)) (hfits : pos + (quadSigns u nv nw nx ny).length ≤ lim) :
    takeQuad w lim u pos = some (⟨quadValue u 3 nv, quadValue u 2 nw, quadValue u 1 nx, quadValue u 0 ny⟩,
      pos + (quadSigns u nv nw nx ny).length) := by
  simp only [quadSigns, bitsAt_append, List.length_append, ← Nat.add_assoc, and_assoc] at h hfits ⊢
  obtain ⟨hv, hw, hx, hy⟩ := h
  simp only [takeQuad, takeSign_quad (lim := lim) hv (by omega), takeSign_quad (lim := lim) hw (by omega),
    takeSign_quad (lim := lim) hx (by omega), takeSign_quad hy hfits]

section Codeword
variable {c : Config} {w : Window} {lim pos : Nat}

theorem decodePair_codeword {t : BitVec 5} {e : CodeEntry (BitVec 4 × BitVec 4)} {lb linx liny : Nat} {nx ny : Bool}
    {bits : List Bool} (ht : t ≠ 0) (he : e ∈ c.data.pairBook[t.toFin]) (hlb : lb = c.data.linbits[t.toFin])
    (hlinx : linx < 2 ^ lb) (hliny : liny < 2 ^ lb)
    (hbits : bits = e.code ++ pairExtension lb e.val.1 linx nx ++ pairExtension lb e.val.2 liny ny)
    (h : BitsAt w pos bits) (hfits : pos + bits.length ≤ lim) :
    decodePair c.data w t lim pos =
      .ok (signed nx (pairMagnitude lb e.val.1 linx), signed ny (pairMagnitude lb e.val.2 liny))
        (pos + bits.length) := by
  subst hlb hbits
  simp only [bitsAt_append, List.length_append, ← Nat.add_assoc] at h hfits ⊢
  obtain ⟨⟨hcode, hx⟩, hy⟩ := h
  have hfound := match_found (c.pairBook_ok t.toFin) he hcode (lim := lim) (by omega)
  simp only [decodePair, if_neg ht, hfound, takePair_of hlinx hliny hx hy hfits]

theorem decodeQuad_codeword {t : BitVec 1} {e : CodeEntry (BitVec 4)} {nv nw nx ny : Bool} {bits : List Bool}
    (he : e ∈ c.data.quadBook[t.toFin]) (hbits : bits = e.code ++ quadSigns e.val nv nw nx ny)
    (h : BitsAt w pos bits) (hfits : pos + bits.length ≤ lim) :
    decodeQuad c.data w t lim pos =
      .ok ⟨quadValue e.val 3 nv, quadValue e.val 2 nw, quadValue e.val 1 nx, quadValue e.val 0 ny⟩
        (pos + bits.length) := by
  subst hbits
  simp only [bitsAt_append, List.length_append, ← Nat.add_assoc] at h hfits ⊢
  obtain ⟨hcode, hsigns⟩ := h
  have hfound := match_found (c.quadBook_ok t.toFin) he hcode (lim := lim) (by omega)
  simp only [decodeQuad, hfound, takeQuad_of hsigns hfits]

/-! ### Bits that hold no whole symbol (spec/43_huffman.md R262, R269) -/

theorem decodePair_unknownCode {t : BitVec 5} (ht : t ≠ 0)
    (h : ∀ e ∈ c.data.pairBook[t.toFin], Incompatible w lim pos e) :
    decodePair c.data w t lim pos = .unknownCode := by
  rw [decodePair, if_neg ht, match_noMatch h]

theorem decodeQuad_unknownCode {t : BitVec 1} (h : ∀ e ∈ c.data.quadBook[t.toFin], Incompatible w lim pos e) :
    decodeQuad c.data w t lim pos = .unknownCode := by
  rw [decodeQuad, match_noMatch h]

/-- The bits end inside a codeword, or after one that fits and inside its extension of `extension e` bits. -/
def SymbolCutShort {α : Type} (extension : CodeEntry α → Nat) (w : Window) (lim pos : Nat) (e : CodeEntry α) : Prop :=
  EndsInside w lim pos e ∨
    (BitsAt w pos e.code ∧ pos + e.code.length ≤ lim ∧ lim < pos + e.code.length + extension e)

theorem decodePair_exhausted {t : BitVec 5} {e : CodeEntry (BitVec 4 × BitVec 4)} (ht : t ≠ 0)
    (he : e ∈ c.data.pairBook[t.toFin])
    (h : SymbolCutShort (fun e => extensionLength c.data.linbits[t.toFin] e.val.1 +
      extensionLength c.data.linbits[t.toFin] e.val.2) w lim pos e) :
    decodePair c.data w t lim pos = .exhausted := by
  rw [decodePair, if_neg ht]
  obtain hinside | ⟨hcode, hle, hlt⟩ := h
  · rw [match_short (c.pairBook_ok t.toFin) he hinside]
  · simp only [match_found (c.pairBook_ok t.toFin) he hcode hle, takePair_none hlt hle]

theorem decodeQuad_exhausted {t : BitVec 1} {e : CodeEntry (BitVec 4)} (he : e ∈ c.data.quadBook[t.toFin])
    (h : SymbolCutShort (fun e => signCount e.val) w lim pos e) :
    decodeQuad c.data w t lim pos = .exhausted := by
  rw [decodeQuad]
  obtain hinside | ⟨hcode, hle, hlt⟩ := h
  · rw [match_short (c.quadBook_ok t.toFin) he hinside]
  · simp only [match_found (c.quadBook_ok t.toFin) he hcode hle, takeQuad_none hlt hle]

end Codeword

/-! ### How each symbol command ends (spec/43_huffman.md R270, R272) -/

section Ends
variable {s : State}

theorem huffPair_of_ok {t : BitVec 5} {x y : Int} {p : Nat}
    (h : decodePair s.cfg.data s.window t (windowEnd s.window) s.pos.toNat = .ok (x, y) p) :
    exec (.huffPair t) s = .next (endOk
      { s with
        res := ⟨signedWord x, signedWord y, BitVec.ofNat 32 (p - s.pos.toNat), 0⟩
        pos := cursor p }) := by
  obtain ⟨hd, -⟩ | ⟨hd, -⟩ | ⟨_, _, _, hd, g⟩ := huffPair_cases t s <;> cases h.symm.trans hd
  exact g

theorem huffPair_of_unknownCode {t : BitVec 5}
    (h : decodePair s.cfg.data s.window t (windowEnd s.window) s.pos.toNat = .unknownCode) :
    exec (.huffPair t) s = .next (endError s 3 0) := by
  obtain ⟨-, g⟩ | ⟨hd, -⟩ | ⟨_, _, _, hd, -⟩ := huffPair_cases t s
  · exact g
  · cases h.symm.trans hd
  · cases h.symm.trans hd

theorem huffPair_of_exhausted {t : BitVec 5}
    (h : decodePair s.cfg.data s.window t (windowEnd s.window) s.pos.toNat = .exhausted) :
    exec (.huffPair t) s = .next (endError s 1 0) := by
  obtain ⟨hd, -⟩ | ⟨-, g⟩ | ⟨_, _, _, hd, -⟩ := huffPair_cases t s
  · cases h.symm.trans hd
  · exact g
  · cases h.symm.trans hd

theorem huffQuad_of_ok {t : BitVec 1} {v : Quad Int} {p : Nat}
    (h : decodeQuad s.cfg.data s.window t (windowEnd s.window) s.pos.toNat = .ok v p) :
    exec (.huffQuad t) s = .next (endOk
      { s with
        res := ⟨signedWord v.q0, signedWord v.q1, signedWord v.q2, signedWord v.q3⟩
        pos := cursor p }) := by
  obtain ⟨hd, -⟩ | ⟨hd, -⟩ | ⟨_, _, hd, g⟩ := huffQuad_cases t s <;> cases h.symm.trans hd
  exact g

theorem huffQuad_of_unknownCode {t : BitVec 1}
    (h : decodeQuad s.cfg.data s.window t (windowEnd s.window) s.pos.toNat = .unknownCode) :
    exec (.huffQuad t) s = .next (endError s 3 0) := by
  obtain ⟨-, g⟩ | ⟨hd, -⟩ | ⟨_, _, hd, -⟩ := huffQuad_cases t s
  · exact g
  · cases h.symm.trans hd
  · cases h.symm.trans hd

theorem huffQuad_of_exhausted {t : BitVec 1}
    (h : decodeQuad s.cfg.data s.window t (windowEnd s.window) s.pos.toNat = .exhausted) :
    exec (.huffQuad t) s = .next (endError s 1 0) := by
  obtain ⟨hd, -⟩ | ⟨-, g⟩ | ⟨_, _, hd, -⟩ := huffQuad_cases t s
  · cases h.symm.trans hd
  · exact g
  · cases h.symm.trans hd

end Ends

/-- Settles O33: the engine reads the codeword, then each value's linbits and sign, and its cursor is past them. -/
theorem huffPairDecodesItsCodeword : Obligations.HuffPairDecodesItsCodeword := by
  intro s t e lb linx liny nx ny bits ht he hlb hlinx hliny hbits h hfits
  rw [huffPair_of_ok (decodePair_codeword ht he hlb hlinx hliny hbits h hfits), Nat.add_sub_cancel_left]
  rfl

/-- Settles O34: the engine reads the codeword, then the signs, and its cursor is past them. -/
theorem huffQuadDecodesItsCodeword : Obligations.HuffQuadDecodesItsCodeword := by
  intro s t e nv nw nx ny bits he hbits h hfits
  rw [huffQuad_of_ok (decodeQuad_codeword he hbits h hfits)]
  rfl

/-- Settles O35: bits no codeword agrees with are an unknown code, and bits that cut a symbol short are exhausted. -/
theorem huffmanCommandErrors : Obligations.HuffmanCommandErrors := by
  intro s
  refine ⟨fun t ht => ⟨fun h => ?_, fun ⟨e, he, h⟩ => ?_⟩, fun t => ⟨fun h => ?_, fun ⟨e, he, h⟩ => ?_⟩⟩
  · exact huffPair_of_unknownCode (decodePair_unknownCode ht h)
  · exact huffPair_of_exhausted (decodePair_exhausted ht he h)
  · exact huffQuad_of_unknownCode (decodeQuad_unknownCode h)
  · exact huffQuad_of_exhausted (decodeQuad_exhausted he h)

theorem decodePair_zero (c : ConfigData) (w : Window) (lim pos : Nat) : decodePair c w 0 lim pos = .ok (0, 0) pos := rfl

/-- Settles O32: table index 0 has no codebook, so no bit is looked for. -/
theorem tableZeroPairReadsNothing : Obligations.TableZeroPairReadsNothing := by
  intro s
  rw [huffPair_of_ok (decodePair_zero _ _ _ _), Nat.sub_self, cursor, BitVec.ofNat_toNat, BitVec.setWidth_eq]
  rfl

/-! ### The values and the cursor (spec/43_huffman.md R265, R271, R273) -/

/-- R273: a value the engine returns fits in its result register, so its sign extension is the value. -/
theorem signedWord_toInt {v : Int} (h : v.natAbs < 2 ^ 16) : (signedWord v).toInt = v :=
  BitVec.toInt_ofInt_eq_self (by omega) (by omega) (by omega)

/-- A quadruple takes at least the bits of its codeword. -/
theorem decodeQuad_moves {c : Config} {w : Window} {t : BitVec 1} {lim pos p : Nat} {v : Quad Int}
    (h : decodeQuad c.data w t lim pos = .ok v p) : pos < p := by
  rw [decodeQuad] at h
  split at h
  · cases h
  · cases h
  · rename_i e he
    split at h
    · cases h
    · rename_i vs q hq
      cases h
      obtain ⟨hmem, -, -⟩ := matchBook_found he
      have hcode := bookOk_length (c.quadBook_ok t.toFin) hmem
      obtain ⟨-, -, -, -, hforward, -, -⟩ := takeQuad_some hq
      omega

theorem huffPair_values {s u : State} {t : BitVec 5} (hinv : Inv s) (hok : u.statusCode = 0)
    (h : exec (.huffPair t) s = .next u) :
    u.res.q0.toInt.natAbs ≤ 8206 ∧ u.res.q1.toInt.natAbs ≤ 8206 ∧
      u.pos.toNat = s.pos.toNat + u.res.q2.toNat ∧ u.pos.toNat ≤ bitsInWindow s := by
  obtain ⟨-, g⟩ | ⟨-, g⟩ | ⟨x, y, p, hd, g⟩ := huffPair_cases t s <;> cases g.symm.trans h
  · exact absurd hok (errorCode_ne_zero .unknownCode)
  · exact absurd hok (errorCode_ne_zero .exhausted)
  · obtain ⟨hx, hy, hforward, hinside, htook⟩ := decodePair_ok hd hinv.cursorInside
    have hpos := hinv.sound.cursor_toNat hinside
    simp only [finish_res, finish_pos, hpos, signedWord_toInt (hx.trans_lt (by decide)),
      signedWord_toInt (hy.trans_lt (by decide)), BitVec.toNat_ofNat]
    exact ⟨hx, hy, by omega, hinside⟩

theorem huffQuad_values {s u : State} {t : BitVec 1} (hinv : Inv s) (hok : u.statusCode = 0)
    (h : exec (.huffQuad t) s = .next u) :
    u.res.q0.toInt.natAbs ≤ 1 ∧ u.res.q1.toInt.natAbs ≤ 1 ∧ u.res.q2.toInt.natAbs ≤ 1 ∧
      u.res.q3.toInt.natAbs ≤ 1 ∧ s.pos.toNat < u.pos.toNat ∧ u.pos.toNat ≤ bitsInWindow s := by
  obtain ⟨-, g⟩ | ⟨-, g⟩ | ⟨v, p, hd, g⟩ := huffQuad_cases t s <;> cases g.symm.trans h
  · exact absurd hok (errorCode_ne_zero .unknownCode)
  · exact absurd hok (errorCode_ne_zero .exhausted)
  · obtain ⟨h0, h1, h2, h3, -, hinside, -⟩ := decodeQuad_ok hd hinv.cursorInside
    have hpos := hinv.sound.cursor_toNat hinside
    have hone : ∀ {x : Int}, x.natAbs ≤ 1 → (signedWord x).toInt = x := fun hx =>
      signedWord_toInt (hx.trans_lt (by decide))
    simp only [finish_res, finish_pos, hpos, hone h0, hone h1, hone h2, hone h3]
    exact ⟨h0, h1, h2, h3, decodeQuad_moves hd, hinside⟩

/-- Settles O36: the engine's bounds, kept by registers they fit in. -/
theorem engineValuesFit : Obligations.EngineValuesFit := fun _ _ hinv hok =>
  ⟨fun _ h => huffPair_values hinv hok h, fun _ h => huffQuad_values hinv hok h⟩

/-! ### The frame of the symbol commands (spec/43_huffman.md R270, R272) -/

/-- The frame of a symbol command that leads from `s` to `t`. -/
structure SymbolFrame (s t : State) : Prop where
  setup : SameSetup s t
  window : SameWindow s t
  records : SameRecords s t
  err : ErrOfStatus s t
  res : t.statusCode ≠ 0 → t.res = s.res

theorem SymbolFrame.finish (s : State) (res : Quad Word) (pos : BitVec 16) :
    SymbolFrame s (State.finish { s with res := res, pos := pos }) where
  setup := ⟨rfl, rfl, rfl, rfl, rfl, rfl, rfl, fun _ => rfl, rfl, rfl, rfl⟩
  window := ⟨rfl, rfl⟩
  records := ⟨rfl, rfl, fun _ => rfl, rfl, rfl, rfl⟩
  err := errOfStatus_of_ok rfl rfl
  res hfail := absurd rfl hfail

theorem SymbolFrame.fail (s : State) (e : CmdError) : SymbolFrame s (s.fail e) where
  setup := ⟨rfl, rfl, rfl, rfl, rfl, rfl, rfl, fun _ => rfl, rfl, rfl, rfl⟩
  window := ⟨rfl, rfl⟩
  records := ⟨rfl, rfl, fun _ => rfl, rfl, rfl, rfl⟩
  err := errOfStatus_fail s e
  res _ := rfl

theorem huffPair_frame {k : BitVec 5} {s t : State} (h : exec (.huffPair k) s = .next t) : SymbolFrame s t := by
  obtain ⟨-, g⟩ | ⟨-, g⟩ | ⟨x, y, p, -, g⟩ := huffPair_cases k s <;> cases g.symm.trans h
  · exact .fail s _
  · exact .fail s _
  · exact .finish s _ _

theorem huffQuad_frame {k : BitVec 1} {s t : State} (h : exec (.huffQuad k) s = .next t) : SymbolFrame s t := by
  obtain ⟨-, g⟩ | ⟨-, g⟩ | ⟨v, p, -, g⟩ := huffQuad_cases k s <;> cases g.symm.trans h
  · exact .fail s _
  · exact .fail s _
  · exact .finish s _ _

/-- Settles O37: each of the two ends OK with `res` and the cursor written, or fails with nothing written. -/
theorem huffmanCommandsFrame : Obligations.HuffmanCommandsFrame := by
  intro i s t hi h
  have hframe : SymbolFrame s t := by
    obtain ⟨k, rfl⟩ | ⟨k, rfl⟩ := hi
    · exact huffPair_frame h
    · exact huffQuad_frame h
  exact ⟨hframe.setup, hframe.window, hframe.records, hframe.err, hframe.res⟩

end Sys2Proof.Machine
end

section
/-! How MD_DECODE ends: its checks, its outcomes, when it completes, which stream error a frame ends in, and its frame. -/

namespace Sys2Proof.Spec

open Sys2Proof.Machine

/-! ### The checks before the first bit (spec/44_maindata.md R309) -/

theorem bandTableMissing_of_long {s : State} {q : Fin 4} (hq : Present s q) (hlong : isShort (gc s q) = false)
    (hnone : ∀ T ∈ s.cfg.data.sfbLong, T.hz ≠ s.hdr.frequency) : bandTableMissing s.cfg.data s.hdr s.si = true := by
  have hsome : (frameOrder (isMono s.hdr)).any (fun q => !isShort (s.si.gc.get q)) = true :=
    List.any_eq_true.mpr ⟨q, mem_frameOrder.mpr hq, by rw [show isShort (s.si.gc.get q) = false from hlong]; rfl⟩
  have htable : lookupSfb s.cfg.data s.hdr.frequency = none := by
    rw [lookupSfb, Option.map_eq_none_iff, List.find?_eq_none]
    exact fun T hT => by simpa using hnone T hT
  rw [bandTableMissing, hsome, htable]
  rfl

/-- Settles O38: the conditions of MD_DECODE's ways to end exclude each other, and a present long granule-channel without
a band table fails the third check. -/
theorem mdDecodeChecksBeforeReading : Obligations.MdDecodeChecksBeforeReading := by
  intro s
  obtain ⟨hhdr, g⟩ | ⟨hhdr, hsi, g⟩ | ⟨hhdr, hsi, ⟨-, g⟩ | ⟨htable, -⟩⟩ := mdDecode_cases s
  · exact ⟨fun _ => g, by simp [hhdr], by simp [hhdr]⟩
  · exact ⟨by simp [hhdr], fun _ _ => g, by simp [hsi]⟩
  · exact ⟨by simp [hhdr], by simp [hsi], fun _ _ _ _ => g⟩
  · refine ⟨by simp [hhdr], by simp [hsi], fun _ _ ⟨q, hq, hlong⟩ hnone => ?_⟩
    exact absurd (bandTableMissing_of_long hq hlong hnone) (by simp [htable])

/-! ### The two stream errors (spec/44_maindata.md R290, spec/60_exceptions.md R351) -/

/-- A detail's base is free of the bits that name the granule-channel. -/
theorem streamDetail_eq : ∀ q : Fin 4,
    (0x10 ||| BitVec.ofNat 8 q.val : BitVec 8) = 0x10 + BitVec.ofNat 8 q.val ∧
      (0x14 ||| BitVec.ofNat 8 q.val : BitVec 8) = 0x14 + BitVec.ofNat 8 q.val := by
  decide

section Ready
variable {s : State} (hr : MdReady s) {q : Fin 4}
include hr

theorem MdReady.exec_exhausted
    (h : decodeFrame s.cfg.data s.window s.hdr s.si s.pos.toNat = .error ⟨.exhausted, 0x10 ||| BitVec.ofNat 8 q.val⟩) :
    exec .mdDecode s = .next (endError { mdInvalid s with md := .drawn s.draws, draws := s.draws + 1 } 1
      (0x10 + BitVec.ofNat 8 q.val)) := by
  rw [hr.exec_error h, (streamDetail_eq q).1]
  rfl

theorem MdReady.exec_unknownCode
    (h : decodeFrame s.cfg.data s.window s.hdr s.si s.pos.toNat = .error ⟨.unknownCode, 0x14 ||| BitVec.ofNat 8 q.val⟩) :
    exec .mdDecode s = .next (endError { mdInvalid s with md := .drawn s.draws, draws := s.draws + 1 } 3
      (0x14 + BitVec.ofNat 8 q.val)) := by
  rw [hr.exec_error h, (streamDetail_eq q).2]
  rfl

end Ready

/-- Settles O39: after the checks MD_DECODE ends as its frame does, and a frame's only errors are stream errors. -/
theorem mdDecodeOutcomes : Obligations.MdDecodeOutcomes := by
  intro s hr
  cases hframe : decodeFrame s.cfg.data s.window s.hdr s.si s.pos.toNat with
  | ok x => exact .inl ⟨x.1, cursor x.2, hr.exec_ok hframe⟩
  | error e =>
    obtain ⟨q, hq, rfl | rfl⟩ := decodeFrame_error hr.bandTable hframe
    · exact .inr ⟨q, mem_frameOrder.mp hq, .inl (hr.exec_exhausted hframe)⟩
    · exact .inr ⟨q, mem_frameOrder.mp hq, .inr (hr.exec_unknownCode hframe)⟩

/-- Settles O47: the frame ends in the error of the first granule-channel that fails. -/
theorem mdFirstGranuleErrors : Obligations.MdFirstGranuleErrors := by
  intro s c q hr hs hq hrun
  refine ⟨fun hlong => ?_, fun hbad => ?_⟩
  · exact hr.exec_exhausted (hrun.decodeFrame_error hr hs hq fun hc _ hm => decodeGranule_exhausted hm hc hlong)
  · exact hr.exec_unknownCode (hrun.decodeFrame_error hr hs hq fun _ m _ => hbad.decodeGranule hr hq m)

/-! ### Frames that complete on any bits (spec/44_maindata.md R302, R304, R308) -/

theorem frameOrder_nodup (mono : Bool) : (frameOrder mono).Nodup := by cases mono <;> decide

theorem mem_granulesBefore {s : State} {n : Nat} {q : Fin 4} :
    q ∈ granulesBefore s n ↔ q.val < n ∧ Present s q := by
  simp [granulesBefore, mem_frameOrder, and_comm]

/-- The statements' sums over the present granule-channels run through the decode order. -/
theorem sum_granulesBefore (s : State) (f : Fin 4 → Nat) (n : Nat)
    [DecidablePred fun p : Fin 4 => p.val < n ∧ Present s p] :
    ((granulesBefore s n).map f).sum = ∑ p : Fin 4, if p.val < n ∧ Present s p then f p else 0 := by
  have hnodup : (granulesBefore s n).Nodup := (frameOrder_nodup _).filter _
  rw [← List.sum_toFinset f hnodup, ← Finset.sum_filter]
  congr 1
  ext p
  simp [mem_granulesBefore]

theorem mostFrameBits_eq (s : State) : mostFrameBits s = ((granulesBefore s 4).map (mostBits s)).sum := by
  classical
  rw [sum_granulesBefore, mostFrameBits]
  simp

theorem part23Start_eq (s : State) (q : Fin 4) : part23Start s q =
    min (bitsInWindow s)
      (s.pos.toNat + ((granulesBefore s q.val).map fun p => (gc s p).part23Length.toNat).sum) := by
  classical
  rw [sum_granulesBefore, part23Start]
  rfl

/-- The three conditions under which the scale factors of every granule-channel fit. -/
def FactorsHaveRoom (s : State) : Prop :=
  (∀ q, Present s q → factorBits s q = 0) ∨
    (s.cfg.data.limitMode = .span ∧ s.pos.toNat + mostFrameBits s ≤ bitsInWindow s) ∨
    (s.cfg.data.limitMode = .part23 ∧
      ∀ q, Present s q → part23Start s q + factorBits s q ≤ limitOf s q (part23Start s q))

/-- Where the cursor can stand before granule-channel number `n`: in SPAN mode no further than the most bits of those
before it, in PART23 mode where their lengths put it. -/
structure CursorBefore (s : State) (n p : Nat) : Prop where
  inside : p ≤ bitsInWindow s
  span : s.cfg.data.limitMode = .span → p ≤ s.pos.toNat + ((granulesBefore s n).map (mostBits s)).sum
  part23 : s.cfg.data.limitMode = .part23 → p =
    min (bitsInWindow s) (s.pos.toNat + ((granulesBefore s n).map fun q => (gc s q).part23Length.toNat).sum)

theorem CursorBefore.start {s : State} (hs : s.pos.toNat ≤ bitsInWindow s) : CursorBefore s 0 s.pos.toNat := by
  have hnone : granulesBefore s 0 = [] := by simp [granulesBefore]
  exact ⟨hs, by simp [hnone], by simp [hnone, hs]⟩

section Step
variable {s : State} {q : Fin 4} {p : Nat} (hc : CursorBefore s q.val p)
include hc

theorem CursorBefore.absent (hq : ¬ Present s q) : CursorBefore s (q.val + 1) p := by
  have hsame := (granulesBefore_succ s q).2 hq
  exact ⟨hc.inside, by rw [hsame]; exact hc.span, by rw [hsame]; exact hc.part23⟩

theorem CursorBefore.present {stop : Nat} (hq : Present s q) (hstop : stop ≤ bitsInWindow s)
    (hspan : s.cfg.data.limitMode = .span → stop ≤ p + mostBits s q)
    (hpart23 : s.cfg.data.limitMode = .part23 → stop = limitOf s q p) : CursorBefore s (q.val + 1) stop := by
  have hone := (granulesBefore_succ s q).1 hq
  refine ⟨hstop, fun hm => ?_, fun hm => ?_⟩
  · have := hc.span hm
    have := hspan hm
    simp only [hone, List.map_append, List.sum_append, List.map_cons, List.map_nil, List.sum_singleton]
    omega
  · have := hc.part23 hm
    have hlimit : limitOf s q p = min (bitsInWindow s) (p + (gc s q).part23Length.toNat) := by rw [limitOf, hm]
    rw [hpart23 hm, hlimit]
    simp only [hone, List.map_append, List.sum_append, List.map_cons, List.map_nil, List.sum_singleton]
    omega

theorem CursorBefore.factorsFit (hq : Present s q) (hroom : FactorsHaveRoom s) :
    p + factorBits s q ≤ limitOf s q p := by
  obtain hzero | ⟨hm, hroom⟩ | ⟨hm, hroom⟩ := hroom
  · rw [hzero q hq]
    exact le_granuleLimit (mode := s.cfg.data.limitMode) (r := gc s q) hc.inside
  · obtain ⟨rest, hrest⟩ := frameOrder_at hq
    have hspan := hc.span hm
    have hfactor : factorBits s q ≤ mostBits s q := by unfold mostBits; omega
    have hlimit : limitOf s q p = bitsInWindow s := by rw [limitOf, hm]
    rw [mostFrameBits_eq, granulesBefore_four, hrest] at hroom
    simp only [List.map_append, List.sum_append, List.map_cons, List.sum_cons] at hroom
    omega
  · have hstart : p = part23Start s q := by rw [part23Start_eq]; exact hc.part23 hm
    exact hstart ▸ hroom q hq

end Step

/-- With codebooks that know every bit string and room for the scale factors, the granule-channels decode one after the
other. -/
theorem granules_complete {s : State} (hr : MdReady s) (hs : s.pos.toNat ≤ bitsInWindow s)
    (hcover : ∀ q, Present s q → CoveringTables s q) (hroom : FactorsHaveRoom s) {n : Nat} (hn : n ≤ 4) :
    ∃ m p, decodeGranules s.cfg.data s.window (lookupSfb s.cfg.data s.hdr.frequency) s.si (granulesBefore s n) []
      s.pos.toNat = .ok (m, p) ∧ CursorBefore s n p := by
  induction n with
  | zero => exact ⟨[], _, by simp [granulesBefore, decodeGranules], .start hs⟩
  | succ n ih =>
    obtain ⟨m, p, hbefore, hc⟩ := ih (by omega)
    obtain ⟨q, rfl⟩ : ∃ q : Fin 4, q.val = n := ⟨⟨n, hn⟩, rfl⟩
    by_cases hq : Present s q
    · obtain ⟨m', stop, hone, hstop, hspan, hpart23⟩ := (hcover q hq).decodeGranule hr hq (hc.factorsFit hq hroom) m
      refine ⟨m', stop, ?_, hc.present hq hstop hspan hpart23⟩
      rw [(granulesBefore_succ s q).1 hq, decodeGranules_append, hbefore]
      simp only [decodeGranules, hone]
    · exact ⟨m, p, by rw [(granulesBefore_succ s q).2 hq]; exact hbefore, hc.absent hq⟩

/-- Settles O40: granule-channels that end without error, or must, make a frame. -/
theorem mdDecodeCompletes : Obligations.MdDecodeCompletes := by
  refine ⟨fun s c hr hs hrun => ?_, fun s hinv hr hcover hroom => ?_⟩
  · obtain ⟨m, hframe, -, -⟩ := hrun.granules le_rfl hr hs
    rw [granulesBefore_four] at hframe
    exact ⟨m, hr.exec_ok hframe⟩
  · obtain ⟨m, p, hframe, hc⟩ := granules_complete hr hinv.cursorInside hcover hroom le_rfl
    rw [granulesBefore_four] at hframe
    have hforward := (decodeFrame_grows hinv.cursorInside hframe).forward
    refine ⟨m, cursor p, hr.exec_ok hframe, ?_⟩
    rw [hinv.sound.cursor_toNat hc.inside]
    exact ⟨hforward, hc.inside⟩

/-! ### The frame of MD_DECODE (spec/60_exceptions.md R356, R357) -/

/-- The frame of an MD_DECODE that leads from `s` to `t`. -/
structure MdFrame (s t : State) : Prop where
  setup : SameSetup s t
  window : SameWindow s t
  res : t.res = s.res
  hdr : t.hdr = s.hdr
  si : t.si = s.si
  hdrValid : t.hdrValid = s.hdrValid
  siValid : t.siValid = s.siValid
  err : ErrOfStatus s t
  out : t.statusCode = 5 ∨ t.statusCode = 7 → SameOut s t

/-- The state `s` with what MD_DECODE may write: OUT, with the draw it takes, its valid flag and the cursor. -/
def mdWrite (s : State) (md : OutMem) (draws : Nat) (mdValid : Bool) (pos : BitVec 16) : State :=
  { s with md := md, draws := draws, mdValid := mdValid, pos := pos }

theorem MdFrame.finish (s : State) (md : OutMem) (draws : Nat) (mdValid : Bool) (pos : BitVec 16) :
    MdFrame s (mdWrite s md draws mdValid pos).finish where
  setup := ⟨rfl, rfl, rfl, rfl, rfl, rfl, rfl, fun _ => rfl, rfl, rfl, rfl⟩
  window := ⟨rfl, rfl⟩
  res := rfl
  hdr := rfl
  si := rfl
  hdrValid := rfl
  siValid := rfl
  err := errOfStatus_of_ok rfl rfl
  out hcode := absurd hcode (show ¬ ((0 : BitVec 8) = 5 ∨ (0 : BitVec 8) = 7) by decide)

theorem MdFrame.fail {s : State} {md : OutMem} {draws : Nat} {mdValid : Bool} {e : CmdError}
    (hout : errorCode e.kind = 5 ∨ errorCode e.kind = 7 → md = s.md) :
    MdFrame s ((mdWrite s md draws mdValid s.pos).fail e) where
  setup := ⟨rfl, rfl, rfl, rfl, rfl, rfl, rfl, fun _ => rfl, rfl, rfl, rfl⟩
  window := ⟨rfl, rfl⟩
  res := rfl
  hdr := rfl
  si := rfl
  hdrValid := rfl
  siValid := rfl
  err := errOfStatus_fail (mdWrite s md draws mdValid s.pos) e
  out hcode i := congrArg (outRead · i) (hout hcode)

/-- A stream error leaves OUT a draw; the checks before the first bit leave it as it was. -/
theorem mdDecode_frame {s t : State} (h : exec .mdDecode s = .next t) : MdFrame s t := by
  obtain ⟨-, g⟩ | ⟨-, -, g⟩ | ⟨-, -, ⟨-, g⟩ | ⟨htable, ⟨e, hframe, g⟩ | ⟨m, p, -, g⟩⟩⟩ := mdDecode_cases s <;>
    cases g.symm.trans h
  · exact .fail fun _ => rfl
  · exact .fail fun _ => rfl
  · exact .fail fun _ => rfl
  · obtain ⟨q, -, rfl | rfl⟩ := decodeFrame_error htable hframe
    · exact .fail fun hcode => absurd hcode (show ¬ (errorCode .exhausted = 5 ∨ errorCode .exhausted = 7) by decide)
    · exact .fail fun hcode => absurd hcode (show ¬ (errorCode .unknownCode = 5 ∨ errorCode .unknownCode = 7) by decide)
  · exact .finish s _ _ _ _

/-- Settles O48: MD_DECODE writes OUT, its valid flag and the cursor, and where it fails a check OUT reads as before. -/
theorem mdDecodeFrame : Obligations.MdDecodeFrame := by
  intro s t h
  have hframe := mdDecode_frame h
  exact ⟨hframe.setup, hframe.window, hframe.res, hframe.hdr, hframe.si, hframe.hdrValid, hframe.siValid, hframe.err,
    hframe.out⟩

end Sys2Proof.Spec
end

section
/-! The record of an MD_DECODE that ended OK, granule-channel by granule-channel: the cursors, the scale factors, the region
boundaries, the spectral lines, and what is 0. -/

namespace Sys2Proof.Spec

open Sys2Proof.Machine

/-! ### A present granule-channel's OUT elements -/

theorem isLine_flIndex {q i : Nat} (hi : i < 576) : IsLine q (flIndex q i) :=
  ⟨Nat.le_add_right _ _, Nat.add_lt_add_left hi _⟩

section Run
variable {s t : State} {q : Fin 4} {p0 pa pb : Nat} {m0 ma mc mb : Record} {r1 r2 : Nat}
  (g : GranuleRun s t q p0 pa pb m0 ma mc mb r1 r2)
include g

theorem GranuleRun.startOf_eq (hinv : Inv s) : startOf t q = p0 := by
  rw [g.start, hinv.sound.cursor_toNat (g.startInside.trans g.limitInside)]

theorem GranuleRun.endOf_eq (hinv : Inv s) : endOf t q = endFrom s q p0 pb := by
  have hend : granuleEnd s.cfg.data.limitMode (limitOf s q p0) pb ≤ windowEnd s.window := by
    have := g.endInside
    have := g.limitInside
    unfold granuleEnd
    split <;> omega
  rw [g.endPos, hinv.sound.cursor_toNat hend]
  rfl

theorem GranuleRun.factorL_eq {b : Nat} (hb : b < 22) : factorL t q b = recordGet ma (scalefacLIndex q b) :=
  g.factorOut _ (isFactor_long hb)

theorem GranuleRun.factorS_eq {b w : Nat} (hb : b < 13) (hw : w < 3) :
    factorS t q b w = recordGet ma (scalefacSIndex q b w) :=
  g.factorOut _ (isFactor_short hb hw)

theorem GranuleRun.line_eq {i : Nat} (hi : i < 576) : line t q i = recordGet mb (flIndex q i) :=
  g.lineOut _ (isLine_flIndex hi)

theorem GranuleRun.line_before {i : Nat} (hi : i < 576) : recordGet mc (flIndex q i) = 0 :=
  g.linesZero _ (isLine_flIndex hi)

end Run

/-! ### The cursors (spec/44_maindata.md R296, R304, R311) -/

/-- The recorded cursors of these granule-channels lead from `p` to `p'`: each starts where the one before it ended. -/
def CursorsChain (t : State) : List (Fin 4) → Nat → Nat → Prop
  | [], p, p' => p = p'
  | q :: qs, p, p' => startOf t q = (cursor p).toNat ∧
      ∃ stop, endOf t q = (cursor stop).toNat ∧ CursorsChain t qs stop p'

/-- A granule-channel's cursors stay as it wrote them, since each later one writes its own elements alone. -/
theorem decodeGranules_chain {s t : State} {qs : List (Fin 4)} (hnodup : qs.Nodup) {m m' : Record} {p p' : Nat}
    (hm : RecordOk m) (hp : p ≤ windowEnd s.window) (hout : t.md = .record m')
    (h : decodeGranules s.cfg.data s.window (lookupSfb s.cfg.data s.hdr.frequency) s.si qs m p = .ok (m', p')) :
    CursorsChain t qs p p' := by
  induction qs generalizing m p with
  | nil => cases h; rfl
  | cons q qs ih =>
    obtain ⟨hq, hrest⟩ := List.nodup_cons.mp hnodup
    obtain ⟨m1, p1, hfirst, hlater⟩ := decodeGranules_cons h
    have hdone := decodeGranule_done hm hp hfirst
    have hp1 := hdone.grows.inside hp
    have hkept : ∀ k < 4, outElement t.md (0x1200 + 4 * q.val + k) = recordGet m1 (0x1200 + 4 * q.val + k) := by
      intro k hk
      rw [outElement_of_record hout]
      refine (decodeGranules_grows hdone.grows.ok hp1 hlater).frame _ ?_
      rintro ⟨r, hr, hof⟩
      exact hq (Fin.ext (ofGranule_unique q.isLt r.isLt (ofGranule_book q.val k hk) hof) ▸ hr)
    refine ⟨?_, p1, ?_, ih hrest hdone.grows.ok hp1 hlater⟩
    · rw [startOf, hkept 2 (by omega)]
      exact congrArg _ hdone.startPos
    · rw [endOf, hkept 3 (by omega)]
      exact congrArg _ hdone.endPos

theorem MdDecoded.cursorsChain {s t : State} (hinv : Inv s) (h : MdDecoded s t) :
    ∃ p, CursorsChain t (frameOrder (isMono s.hdr)) s.pos.toNat p ∧ t.pos = cursor p := by
  obtain ⟨m, p, hframe, hout, hpos⟩ := h.frame
  exact ⟨p, decodeGranules_chain (frameOrder_nodup _) recordOk_nil hinv.cursorInside hout hframe, hpos⟩

/-- In either mode a granule-channel ends between its start and its limit. -/
theorem GranuleRun.cursors {s t : State} {q : Fin 4} {p0 pa pb : Nat} {m0 ma mc mb : Record} {r1 r2 : Nat}
    (g : GranuleRun s t q p0 pa pb m0 ma mc mb r1 r2) (hinv : Inv s) :
    startOf t q ≤ endOf t q ∧ endOf t q ≤ limitOf s q (startOf t q) ∧
      (s.cfg.data.limitMode = .part23 → endOf t q = limitOf s q (startOf t q)) := by
  rw [g.startOf_eq hinv, g.endOf_eq hinv, endFrom]
  cases s.cfg.data.limitMode with
  | span => exact ⟨g.endForward, g.endInside, nofun⟩
  | part23 => exact ⟨g.startInside, le_rfl, fun _ => rfl⟩

/-- Settles O41: the recorded cursors chain through the decode order, two granule-channels for mono and four otherwise. -/
theorem mdGranulesRunInOrder : Obligations.MdGranulesRunInOrder := by
  intro s t hinv h
  obtain ⟨p, hchain, hpos⟩ := h.cursorsChain hinv
  have hsaved : (cursor s.pos.toNat).toNat = s.pos.toNat := hinv.sound.cursor_toNat hinv.cursorInside
  refine ⟨?_, fun hmono => ?_, fun hstereo => ?_, fun q hq => ?_⟩
  · cases hmono : isMono s.hdr <;> rw [hmono] at hchain <;> exact hchain.1.trans hsaved
  · rw [hmono] at hchain
    obtain ⟨-, p0, hend0, hstart2, p2, hend2, rfl⟩ := hchain
    exact ⟨hstart2.trans hend0.symm, by rw [hpos, hend2]⟩
  · rw [hstereo] at hchain
    obtain ⟨-, p0, hend0, hstart1, p1, hend1, hstart2, p2, hend2, hstart3, p3, hend3, rfl⟩ := hchain
    exact ⟨hstart1.trans hend0.symm, hstart2.trans hend1.symm, hstart3.trans hend2.symm, by rw [hpos, hend3]⟩
  · obtain ⟨_, _, _, _, _, _, _, _, _, g⟩ := granuleRun hinv.cursorInside h hq
    exact g.cursors hinv

/-! ### The scale factors (spec/44_maindata.md R293 to R295) -/

/-- A long granule-channel's factors: bands 0 to 20 shared or read, and nothing else written. -/
theorem GranuleRun.longFactors {s t : State} {q : Fin 4} {p0 pa pb : Nat} {m0 ma mc mb : Record} {r1 r2 : Nat}
    (g : GranuleRun s t q p0 pa pb m0 ma mc mb r1 r2) (hlong : isShort (gc s q) = false) :
    (∀ k, (∀ b < 21, k ≠ scalefacLIndex q b) → recordGet ma k = recordGet m0 k) ∧
      ∀ b < 21, recordGet ma (scalefacLIndex q b) =
        if scfsiBit (usedScfsi s q) (scfsiGroup b) then recordGet m0 (scalefacLIndex (q.val - 2) b)
        else BitVec.ofNat 16 (memRead s.window (p0 + bitsBefore (widths s q) (usedScfsi s q) b)
          (if b < 11 then (widths s q).slen1 else (widths s q).slen2)) := by
  obtain ⟨hslen1, hslen2⟩ := widths_le s q
  have hfactors := g.factors
  rw [scaleFactors_long hlong] at hfactors
  exact (sharedFactors_get hslen1 hslen2 (usedScfsi_cases s q) q.isLt g.before hfactors).2

/-- Settles O42: each band's place counts the bits of the bands before it, from the recorded start. -/
theorem mdLongScaleFactors : Obligations.MdLongScaleFactors := by
  intro s t q hinv h hq hlong
  obtain ⟨p0, pa, pb, m0, ma, mc, mb, r1, r2, g⟩ := granuleRun hinv.cursorInside h hq
  obtain ⟨hslen1, hslen2⟩ := widths_le s q
  obtain ⟨hrest, hband⟩ := g.longFactors hlong
  refine ⟨fun b hb => ⟨fun hread => ?_, fun hshared p hp => ?_⟩, ?_⟩
  · have hwidth : (if b < 11 then (widths s q).slen1 else (widths s q).slen2) ≤ 4 := by split <;> assumption
    rw [g.factorL_eq (by omega), hband b hb, if_neg (mt (shared_iff s q b).mpr hread), factor_toNat hwidth,
      g.startOf_eq hinv, longBits_eq s q (by omega)]
  · have hearlier : factorL t p b = recordGet m0 (scalefacLIndex (q.val - 2) b) := by
      have hp' : p.val = q.val - 2 := by omega
      rw [factorL, hp']
      exact g.earlierFactor hshared.1 _ (isFactor_long (by omega))
    rw [g.factorL_eq (by omega), hband b hb, if_pos ((shared_iff s q b).mp hshared), hearlier]
  · rw [g.factorL_eq (by omega), hrest _ (fun b hb => by unfold scalefacLIndex; omega)]
    exact g.factorZero _ (isFactor_long (by omega))

/-- Settles O43: `shortFactors_get` places each factor, from the recorded start. -/
theorem mdShortScaleFactors : Obligations.MdShortScaleFactors := by
  intro s t q hinv h hq hshort
  obtain ⟨p0, pa, pb, m0, ma, mc, mb, r1, r2, g⟩ := granuleRun hinv.cursorInside h hq
  obtain ⟨hslen1, hslen2⟩ := widths_le s q
  have hfactors := g.factors
  rw [scaleFactors_short hshort] at hfactors
  obtain ⟨-, hmixed, hslow, hshigh, hlong, hsrest⟩ :=
    shortFactors_get (start := p0 + mixedBits s q) q.isLt g.before.1 hfactors (by rw [mixedBits_eq])
  rw [g.startOf_eq hinv]
  refine ⟨fun hm b hb => ?_, fun b hb3 hb6 w hw => ?_, fun b hb6 hb12 w hw => ?_, fun b hb hzero => ?_,
    fun b hb hzero w hw => ?_⟩
  · rw [g.factorL_eq (by omega), hmixed (by simpa using hm) b hb, factor_toNat hslen1]
  · rw [g.factorS_eq (by omega) hw, hslow b w hb3 hb6 hw, factor_toNat hslen1]
  · rw [g.factorS_eq (by omega) hw, hshigh b w hb6 hb12 hw, factor_toNat hslen2]
  · rw [g.factorL_eq hb, hlong b hb (hzero.imp_left fun h => by simp [h])]
    exact g.factorZero _ (isFactor_long hb)
  · rw [g.factorS_eq hb hw, hsrest b w hb hw hzero]
    exact g.factorZero _ (isFactor_short hb hw)

/-! ### The region boundaries (spec/44_maindata.md R297) -/

theorem bandStart_eq_getD (T : Vector Nat 23) (i : Nat) : bandStart T i = T.toList.getD i 576 := by
  by_cases hi : i < 23
  · rw [bandStart, dif_pos hi, List.getD_eq_getElem _ _ (by simpa using hi), Vector.getElem_toList]
  · rw [bandStart, dif_neg hi, List.getD_eq_default _ _ (by simpa using hi)]

theorem regions_short {T : Option (Vector Nat 23)} {r : ChannelSideInfo} {r1 r2 : Nat} (hshort : isShort r = true)
    (h : Machine.regions T r = some (r1, r2)) : r1 = 36 ∧ r2 = 576 := by
  rw [Machine.regions, if_pos hshort] at h
  cases h
  exact ⟨rfl, rfl⟩

/-- A long granule-channel's boundaries are entries of a band table of the frame's frequency. -/
theorem regions_long {c : ConfigData} {hz : Word} {r : ChannelSideInfo} {r1 r2 : Nat} (hlong : isShort r = false)
    (h : Machine.regions (lookupSfb c hz) r = some (r1, r2)) :
    ∃ T ∈ c.sfbLong, T.hz = hz ∧ r1 = T.bounds.toList.getD ((region0Count r).toNat + 1) 576 ∧
      r2 = T.bounds.toList.getD ((region0Count r).toNat + (region1Count r).toNat + 2) 576 := by
  rw [Machine.regions, if_neg (by simp [hlong]), lookupSfb, Option.map_map, Option.map_eq_some_iff] at h
  obtain ⟨T, hT, hr⟩ := h
  cases hr
  exact ⟨T, List.mem_of_find?_eq_some hT, by simpa using List.find?_some hT, bandStart_eq_getD _ _,
    bandStart_eq_getD _ _⟩

/-- Settles O44: the recorded boundaries are those the decoder's `Regions(r)` gave. -/
theorem mdRegionBoundaries : Obligations.MdRegionBoundaries := by
  intro s t q hinv h hq
  obtain ⟨p0, pa, pb, m0, ma, mc, mb, r1, r2, g⟩ := granuleRun hinv.cursorInside h hq
  obtain ⟨h12, h576⟩ := regions_ordered g.regions
  rw [g.region1Out, g.region2Out]
  exact ⟨h12, h576, fun hshort => regions_short hshort g.regions, fun hlong => regions_long hlong g.regions⟩

/-! ### The spectral lines (spec/44_maindata.md R299 to R304) -/

/-- Spectral lines that end without error: the big-values loop stopped, or it ran to its end and the count1 loop after it
ended without error. -/
theorem spectral_cases {c : ConfigData} {w : Window} {r : ChannelSideInfo} {r1 r2 q lim : Nat} {m m' : Record}
    {p p' : Nat} (h : spectral c w r r1 r2 q lim m p = some (m', p')) :
    bigValuesLoop c w (tableFor r r1 r2) q lim r.bigValues.toNat 0 m p = .stopped m' p' ∨
      ∃ m1 p1, bigValuesLoop c w (tableFor r r1 r2) q lim r.bigValues.toNat 0 m p = .complete m1 p1 ∧
        (count1Loop c w r.count1TableSelect q lim 144 (2 * r.bigValues.toNat) m1 p1).result = some (m', p') := by
  unfold spectral at h
  cases hpairs : bigValuesLoop c w (tableFor r r1 r2) q lim r.bigValues.toNat 0 m p with
  | unknownCode => simp [hpairs] at h
  | stopped m1 p1 =>
    simp only [hpairs, Option.some.injEq, Prod.mk.injEq] at h
    obtain ⟨rfl, rfl⟩ := h
    exact .inl rfl
  | complete m1 p1 =>
    refine .inr ⟨m1, p1, rfl, ?_⟩
    simp only [hpairs] at h
    rw [← h]
    cases count1Loop c w r.count1TableSelect q lim 144 (2 * r.bigValues.toNat) m1 p1 <;> rfl

/-- After `n` pairs the lines of granule-channel `q` end before the last pair: at the limit, or inside a symbol. -/
def PairsStop (s t : State) (q : Fin 4) (start n : Nat) (p : Nat → Nat) : Prop :=
  n < min (gc s q).bigValues.toNat 288 ∧
    (p n = limitOf s q start ∨ pairAt s t q (2 * n) (limitOf s q start) (p n) = .exhausted) ∧
    (∀ i, 2 * n ≤ i → i < 576 → line t q i = 0) ∧ endOf t q = endFrom s q start (p n)

/-- After all `n` pairs the lines of granule-channel `q` go on in quadruples, until line 576 or until the bits end. -/
def QuadsFollow (s t : State) (q : Fin 4) (start n : Nat) (p : Nat → Nat) : Prop :=
  n = min (gc s q).bigValues.toNat 288 ∧ ∃ k r, r 0 = p n ∧ (∀ j < k, 2 * (gc s q).bigValues.toNat + 4 * j < 576) ∧
    QuadRun s t q (limitOf s q start) (2 * (gc s q).bigValues.toNat) k r ∧
    (2 * (gc s q).bigValues.toNat + 4 * k < 576 →
      r k = limitOf s q start ∨ quadAt s q (limitOf s q start) (r k) = .exhausted) ∧
    (∀ i, 2 * (gc s q).bigValues.toNat + 4 * k ≤ i → i < 576 → line t q i = 0) ∧
    endOf t q = endFrom s q start (r k)

section Lines
variable {s t : State} {q : Fin 4} {p0 pa pb : Nat} {m0 ma mc mb : Record} {r1 r2 : Nat}
  (g : GranuleRun s t q p0 pa pb m0 ma mc mb r1 r2) {n : Nat} {p : Nat → Nat} {m1 : Record}
include g

theorem GranuleRun.pairAt_eq (i lim p : Nat) :
    pairAt s t q i lim p = decodePair s.cfg.data s.window (tableFor (gc s q) r1 r2 i) lim p := by
  rw [pairAt, g.region1Out, g.region2Out]
  rfl

/-- A loop that writes the lines of `n` pairs leaves the later ones 0. -/
theorem GranuleRun.zeroAfterPairs
    (hframe : ∀ k, (∀ l < 2 * n, k ≠ flIndex q l) → recordGet m1 k = recordGet mc k) (i : Nat) (hi : 2 * n ≤ i)
    (h576 : i < 576) : recordGet m1 (flIndex q i) = 0 := by
  rw [hframe _ (fun l hl => by unfold flIndex; omega), g.line_before h576]

/-- A run of pairs stored in `m1` is in OUT where the quadruples after it leave its lines. -/
theorem GranuleRun.pairRun (hn : 2 * n ≤ 576)
    (hrun : ∀ j < n, p j ≠ limitOf s q p0 ∧ ∃ x y,
      decodePair s.cfg.data s.window (tableFor (gc s q) r1 r2 (2 * j)) (limitOf s q p0) (p j) = .ok (x, y) (p (j + 1)) ∧
      recordGet m1 (flIndex q (2 * j)) = BitVec.ofInt 16 x ∧ recordGet m1 (flIndex q (2 * j + 1)) = BitVec.ofInt 16 y)
    (hkept : ∀ i < 2 * n, recordGet mb (flIndex q i) = recordGet m1 (flIndex q i)) :
    PairRun s t q (limitOf s q p0) n p := by
  intro j hj
  obtain ⟨hlimit, x, y, hpair, hx, hy⟩ := hrun j hj
  refine ⟨hlimit, x, y, (g.pairAt_eq _ _ _).trans hpair, ?_, ?_⟩
  · rw [g.line_eq (by omega), hkept _ (by omega), hx]
  · rw [g.line_eq (by omega), hkept _ (by omega), hy]

/-- The count1 loop from a record of `n` pairs writes the lines after them alone. -/
theorem GranuleRun.quadsFollow (hinv : Inv s) (hn : n = min (gc s q).bigValues.toNat 288) (hok : RecordOk m1)
    (hp : p n ≤ limitOf s q p0) (hzero : ∀ i, 2 * n ≤ i → i < 576 → recordGet m1 (flIndex q i) = 0)
    (hquads : (count1Loop s.cfg.data s.window (gc s q).count1TableSelect q (limitOf s q p0) 144
      (2 * (gc s q).bigValues.toNat) m1 (p n)).result = some (mb, pb)) :
    QuadsFollow s t q p0 n p ∧ ∀ i < 2 * n, recordGet mb (flIndex q i) = recordGet m1 (flIndex q i) := by
  generalize hloop : count1Loop s.cfg.data s.window (gc s q).count1TableSelect q (limitOf s q p0) 144
    (2 * (gc s q).bigValues.toNat) m1 (p n) = e at hquads
  obtain ⟨k, r, m2, hfirst, hr0, -, -, hrun, hframe, hstop, hend⟩ :=
    count1Loop_run q.isLt (Nat.mul_mod_right 2 _) (by omega) hok hp hloop (by rintro rfl; cases hquads)
  obtain ⟨rfl, rfl⟩ : m2 = mb ∧ r k = pb := by
    obtain rfl | rfl := hend <;> cases hquads <;> exact ⟨rfl, rfl⟩
  refine ⟨⟨hn, k, r, hr0, hfirst, fun j hj => ?_, hstop, fun i hi h576 => ?_, g.endOf_eq hinv⟩, fun i hi => ?_⟩
  · have hj576 := hfirst j hj
    obtain ⟨hlimit, v, hquad, h0, h1, h23⟩ := hrun j hj
    refine ⟨hlimit, v, hquad, ?_, ?_, fun h => ⟨?_, ?_⟩⟩
    · rw [g.line_eq (by omega), h0]
    · rw [g.line_eq (by omega), h1]
    · rw [g.line_eq (by omega), (h23 h).1]
    · rw [g.line_eq (by omega), (h23 h).2]
  · rw [g.line_eq h576, hframe _ (fun l _ hl _ => by unfold flIndex; omega), hzero i (by omega) h576]
  · exact hframe _ fun l hl _ _ => by unfold flIndex; omega

/-- The lines of a granule-channel that ends without error. A big-values loop that stops at the limit with all 576 lines
stored counts as one that ran to its end, with no quadruple after it. -/
theorem GranuleRun.linesEnd (hinv : Inv s) :
    ∃ n p, n ≤ min (gc s q).bigValues.toNat 288 ∧ p 0 = pa ∧ PairRun s t q (limitOf s q p0) n p ∧
      (PairsStop s t q p0 n p ∨ QuadsFollow s t q p0 n p) := by
  have hpairs := fun e =>
    bigValuesLoop_run (c := s.cfg) (w := s.window) (table := tableFor (gc s q) r1 r2) (pairs := (gc s q).bigValues.toNat)
      (e := e) q.isLt (Nat.zero_mod 2) (Nat.zero_le 576) g.linesBefore g.factorsInside
  simp only [Nat.zero_add, Nat.zero_le, forall_const] at hpairs
  obtain hloop | ⟨m1, p1, hloop, hquads⟩ := spectral_cases g.lines
  · obtain ⟨n, p, m1, hn, hn576, hp0, hpn, hok, hrun, hframe, ⟨⟨⟩, -⟩ | ⟨⟨⟩, hlt, hstop⟩⟩ := hpairs _ hloop nofun
    have hrun := g.pairRun hn576 hrun fun _ _ => rfl
    have hzero := g.zeroAfterPairs hframe
    refine ⟨n, p, by omega, hp0, hrun, ?_⟩
    by_cases hfull : n < 288
    · refine .inl ⟨by omega, hstop.imp_right ((g.pairAt_eq _ _ _).trans ·), fun i hi h576 => ?_, g.endOf_eq hinv⟩
      rw [g.line_eq h576, hzero i hi h576]
    · refine .inr (g.quadsFollow hinv (by omega) hok hpn hzero ?_).1
      rw [count1Loop, if_pos (by omega)]
      rfl
  · obtain ⟨n, p, m1, hn, hn576, hp0, hpn, hok, hrun, hframe, ⟨⟨⟩, hall⟩ | ⟨⟨⟩, -⟩⟩ := hpairs _ hloop nofun
    obtain ⟨hfollow, hkept⟩ := g.quadsFollow hinv (by omega) hok hpn (g.zeroAfterPairs hframe) hquads
    exact ⟨n, p, by omega, hp0, g.pairRun hn576 hrun hkept, .inr hfollow⟩

end Lines

/-- Settles O45: the decoder's two loops are the runs of symbols, and they start where the scale factors end. -/
theorem mdSpectralLines : Obligations.MdSpectralLines := by
  rintro s t q hinv h hq _ _ rfl rfl
  obtain ⟨p0, pa, pb, m0, ma, mc, mb, r1, r2, g⟩ := granuleRun hinv.cursorInside h hq
  obtain ⟨n, p, hn, hp0, hrun, hend⟩ := g.linesEnd hinv
  rw [g.startOf_eq hinv, ← scaleFactors_length g.before g.factors]
  exact ⟨n, p, hn, hp0, hrun, hend⟩

/-! ### What is 0 (spec/44_maindata.md R303) -/

/-- No granule-channel writes an element of one that is not present. -/
theorem MdDecoded.absent_zero {s t : State} {q : Fin 4} (h : MdDecoded s t) (hs : s.pos.toNat ≤ bitsInWindow s)
    (hq : ¬ Present s q) {k : Nat} (hk : OfGranule q k) : outElement t.md k = 0 := by
  obtain ⟨m, p, hframe, hout, -⟩ := h.frame
  rw [outElement_of_record hout, (decodeFrame_grows hs hframe).frame k, recordGet_nil]
  rintro ⟨r, hr, hof⟩
  exact hq (mem_frameOrder.mp (Fin.ext (ofGranule_unique q.isLt r.isLt hk hof) ▸ hr))

/-- Settles O46: an absent granule-channel is never written, and a long one writes long bands alone. -/
theorem mdZeroFill : Obligations.MdZeroFill := by
  intro s t q h hs
  refine ⟨fun hq => ?_, fun hq hlong b hb w hw => ?_⟩
  · have hbook : ∀ k < 4, outElement t.md (0x1200 + 4 * q.val + k) = 0 := fun k hk =>
      h.absent_zero hs hq (ofGranule_book q k hk)
    refine ⟨fun i hi => h.absent_zero hs hq (.inl (isLine_flIndex hi)),
      fun b hb => h.absent_zero hs hq (.inr (.inl (isFactor_long hb))),
      fun b hb w hw => h.absent_zero hs hq (.inr (.inl (isFactor_short hb hw))), ?_, ?_, ?_, ?_⟩
    · exact congrArg BitVec.toNat (hbook 0 (by omega))
    · exact congrArg BitVec.toNat (hbook 1 (by omega))
    · exact congrArg BitVec.toNat (hbook 2 (by omega))
    · exact congrArg BitVec.toNat (hbook 3 (by omega))
  · obtain ⟨p0, pa, pb, m0, ma, mc, mb, r1, r2, g⟩ := granuleRun hs h hq
    rw [g.factorS_eq hb hw, (g.longFactors hlong).1 _ (fun d hd => by unfold scalefacLIndex scalefacSIndex; omega)]
    exact g.factorZero _ (isFactor_short hb hw)

end Sys2Proof.Spec
end

section
/-! The control commands NOP and SRST: each one's whole next state and the words of its opcode. -/

namespace Sys2Proof

/-- Where the map reserves the whole operand, the opcode's only legal word is the one with operand 0. -/
theorem decodeWord_of_operandReserved {w : Word} {opcode : BitVec 8} (hrow : (opcode, 0xFFFFFF) ∈ opcodeMap)
    (hop : opcodeOf w = opcode) (hne : w ≠ commandWord opcode 0) : decodeWord w = .error .reservedBitSet := by
  refine decodeWord_reservedBitSet hrow hop fun hclear => hne ?_
  have hoperand : w.extractLsb' 0 24 = 0 := by
    rw [← (and_setWidth_eq_zero_iff w 0xFFFFFF).mp hclear]
    exact BitVec.and_allOnes.symm
  rw [← commandWord_fields w, hop, hoperand]

end Sys2Proof

namespace Sys2Proof.Machine

open Sys2Proof.Spec

/-- Settles O14: NOP is a completion and nothing else, and its opcode reserves the whole operand. -/
theorem nopOnlyWritesTheStatus : Obligations.NopOnlyWritesTheStatus :=
  ⟨nop_eq, encodedCommandDecodes .nop rfl, fun _ => decodeWord_of_operandReserved (by decide)⟩

/-- Settles O15: SRST is `State.resetRegisters` and a completion, which finds the status already 0; its opcode reserves
the whole operand. -/
theorem srstRestoresEveryRegister : Obligations.SrstRestoresEveryRegister :=
  ⟨srst_eq, encodedCommandDecodes .srst rfl, fun _ => decodeWord_of_operandReserved (by decide)⟩

end Sys2Proof.Machine
end

section
/-! Issuing, running and failing a command: a CMD write, the sequencer's turn, and the table of failures. -/

namespace Sys2Proof.Machine

open Sys2Proof.Spec

/-! ### Acceptance and the turn (spec/60_exceptions.md R352, R353) -/

theorem writeCmd_busy {s : State} (h : s.busy = true) (d : Word) :
    writeCmd s d = { s with err := s.err ||| cmdDroppedMask } := by
  rw [writeCmd, if_pos h]

/-- Settles O6: the offset of CMD is 0, and `writeCmd` accepts or drops the word by the busy bit. -/
theorem commandWriteIsAcceptedOrDropped : Obligations.CommandWriteIsAcceptedOrDropped := by
  intro s d rest hreset hin
  have hwrite : step s = .next (writeCmd { s with inputs := rest } d) :=
    step_write (o := 0) (r := .cmd) hreset hin (by decide) (by decide) rfl
  refine ⟨fun hidle => ?_, fun hbusy => ?_⟩
  · rw [hwrite, writeCmd_idle (s := { s with inputs := rest }) hidle]
    rfl
  · rw [hwrite, writeCmd_busy (s := { s with inputs := rest }) hbusy]
    rfl

/-- An empty input list is the sequencer's turn (log 4). -/
theorem step_noInput {s : State} (hin : s.inputs = []) : step s = step { s with inputs := [.sequencerTurn] } := by
  cases s
  cases hin
  rfl

/-- Settles O5: the turn is the next input, or the list is empty and the step is that of the turn alone. -/
theorem stepRunsTheDecodedCommand : Obligations.StepRunsTheDecodedCommand := by
  intro s i hbusy htaint hturn hi
  obtain hin | ⟨rest, hin⟩ := hturn
  · rw [step_noInput hin, step_turn (s := { s with inputs := [.sequencerTurn] }) rfl hbusy htaint hi, hin, List.tail_nil]
  · rw [step_turn hin hbusy htaint hi, hin, List.tail_cons]

/-! ### The table of failures (spec/60_exceptions.md R355 to R357) -/

/-- What command `i` from `s` has written, as `u`, when it fails with error `e`: a row of the table of failures. -/
inductive FailureRow (s : State) : Instr → State → CmdError → Prop where
  | noRecord {i : Instr} (e : CmdError) (notHdr : i ≠ .hdrDecode) (notSi : i ≠ .siDecode) (notMd : i ≠ .mdDecode) :
      FailureRow s i s e
  | siSequence (detail : BitVec 8) : FailureRow s .siDecode s ⟨.sequence, detail⟩
  | mdSequence (detail : BitVec 8) : FailureRow s .mdDecode s ⟨.sequence, detail⟩
  | hdr (e : CmdError) : FailureRow s .hdrDecode (invalidateFromHdr s) e
  | siExhausted (detail : BitVec 8) : FailureRow s .siDecode (invalidateFromSi s) ⟨.exhausted, detail⟩
  | mdConfig (detail : BitVec 8) : FailureRow s .mdDecode (invalidateMd s) ⟨.config, detail⟩
  | mdExhausted (detail : BitVec 8) : FailureRow s .mdDecode (invalidateMd s).scrambleOut ⟨.exhausted, detail⟩
  | mdUnknownCode (detail : BitVec 8) : FailureRow s .mdDecode (invalidateMd s).scrambleOut ⟨.unknownCode, detail⟩

/-- Every command ends OK or by a row of the table. -/
theorem exec_failureRow (i : Instr) (s : State) :
    (∃ u : State, exec i s = .next u.finish) ∨ ∃ u e, FailureRow s i u e ∧ exec i s = .next (u.fail e) := by
  cases i with
  | nop => exact .inl ⟨_, nop_eq s⟩
  | srst => exact .inl ⟨_, srst_eq s⟩
  | brOpen =>
    obtain ⟨g, -⟩ | ⟨g, -⟩ := brOpen_cases s
    · exact .inl ⟨_, g⟩
    · exact .inr ⟨_, _, .noRecord _ nofun nofun nofun, g⟩
  | brRead n =>
    obtain ⟨-, -, g⟩ | ⟨-, -, g⟩ | ⟨-, g⟩ := brRead_cases n s
    · exact .inl ⟨_, g⟩
    · exact .inr ⟨_, _, .noRecord _ nofun nofun nofun, g⟩
    · exact .inr ⟨_, _, .noRecord _ nofun nofun nofun, g⟩
  | brPeek n =>
    obtain ⟨-, -, g⟩ | ⟨-, -, g⟩ | ⟨-, g⟩ := brPeek_cases n s
    · exact .inl ⟨_, g⟩
    · exact .inl ⟨_, g⟩
    · exact .inr ⟨_, _, .noRecord _ nofun nofun nofun, g⟩
  | brSeek off =>
    obtain ⟨-, g⟩ | ⟨-, g⟩ := brSeek_cases off s
    · exact .inl ⟨_, g⟩
    · exact .inr ⟨_, _, .noRecord _ nofun nofun nofun, g⟩
  | hdrDecode =>
    obtain ⟨-, g⟩ | ⟨-, ⟨e, -, g⟩ | ⟨x, -, g⟩⟩ := hdrDecode_cases s
    · exact .inr ⟨_, _, .hdr _, g⟩
    · exact .inr ⟨_, _, .hdr e, g⟩
    · exact .inl ⟨_, g⟩
  | siDecode =>
    obtain ⟨-, g⟩ | ⟨-, -, g⟩ | ⟨-, -, g⟩ := siDecode_cases s
    · exact .inr ⟨_, _, .siSequence 1, g⟩
    · exact .inr ⟨_, _, .siExhausted 0, g⟩
    · exact .inl ⟨_, g⟩
  | huffPair k =>
    obtain ⟨-, g⟩ | ⟨-, g⟩ | ⟨x, y, p, -, g⟩ := huffPair_cases k s
    · exact .inr ⟨_, _, .noRecord _ nofun nofun nofun, g⟩
    · exact .inr ⟨_, _, .noRecord _ nofun nofun nofun, g⟩
    · exact .inl ⟨_, g⟩
  | huffQuad k =>
    obtain ⟨-, g⟩ | ⟨-, g⟩ | ⟨v, p, -, g⟩ := huffQuad_cases k s
    · exact .inr ⟨_, _, .noRecord _ nofun nofun nofun, g⟩
    · exact .inr ⟨_, _, .noRecord _ nofun nofun nofun, g⟩
    · exact .inl ⟨_, g⟩
  | mdDecode =>
    obtain ⟨-, g⟩ | ⟨-, -, g⟩ | ⟨-, -, ⟨-, g⟩ | ⟨htable, ⟨e, hframe, g⟩ | ⟨m, p, -, g⟩⟩⟩ := mdDecode_cases s
    · exact .inr ⟨_, _, .mdSequence 1, g⟩
    · exact .inr ⟨_, _, .mdSequence 2, g⟩
    · exact .inr ⟨_, _, .mdConfig 1, g⟩
    · obtain ⟨q, -, rfl | rfl⟩ := decodeFrame_error htable hframe
      · exact .inr ⟨_, _, .mdExhausted _, g⟩
      · exact .inr ⟨_, _, .mdUnknownCode _, g⟩
    · exact .inl ⟨_, g⟩

/-- A command that ends with a nonzero code ends by a row of the table. -/
theorem failureRow_of_statusCode {i : Instr} {s t : State} (h : exec i s = .next t) (hcode : t.statusCode ≠ 0) :
    ∃ u e, FailureRow s i u e ∧ t = u.fail e := by
  obtain ⟨u, g⟩ | ⟨u, e, hrow, g⟩ := exec_failureRow i s <;> cases g.symm.trans h
  · exact absurd rfl hcode
  · exact ⟨u, e, hrow, rfl⟩

/-- What every row leaves as it was: all but the valid flags and OUT, with the draw it takes. -/
structure FailureFrame (s u : State) : Prop where
  setup : SameSetup s u
  window : SameWindow s u
  res : u.res = s.res
  hdr : u.hdr = s.hdr
  si : u.si = s.si
  err : u.err = s.err

section FailureRow
variable {s u : State} {i : Instr} {e : CmdError} (h : FailureRow s i u e)
include h

theorem FailureRow.frame : FailureFrame s u := by
  cases h <;> exact ⟨⟨rfl, rfl, rfl, rfl, rfl, rfl, rfl, fun _ => rfl, rfl, rfl, rfl⟩, ⟨rfl, rfl⟩, rfl, rfl, rfl, rfl⟩

/-- Only a stream error of MD_DECODE reaches OUT. -/
theorem FailureRow.out : i = .mdDecode ∧ (errorCode e.kind = 1 ∨ errorCode e.kind = 3) ∨ u.md = s.md := by
  cases h with
  | mdExhausted detail => exact .inl ⟨rfl, .inl rfl⟩
  | mdUnknownCode detail => exact .inl ⟨rfl, .inr rfl⟩
  | _ => exact .inr rfl

theorem FailureRow.hdrDecode_flags (hi : i = .hdrDecode) :
    u.hdrValid = false ∧ u.siValid = false ∧ u.mdValid = false := by
  cases h with
  | noRecord e notHdr notSi notMd => exact absurd hi notHdr
  | hdr e => exact ⟨rfl, rfl, rfl⟩
  | _ => cases hi

theorem FailureRow.siDecode_flags (hi : i = .siDecode) (hcode : errorCode e.kind = 1) :
    u.hdrValid = s.hdrValid ∧ u.siValid = false ∧ u.mdValid = false := by
  cases h with
  | noRecord e notHdr notSi notMd => exact absurd hi notSi
  | siSequence detail => cases hcode
  | siExhausted detail => exact ⟨rfl, rfl, rfl⟩
  | _ => cases hi

theorem FailureRow.mdDecode_flags (hi : i = .mdDecode) (hcode : errorCode e.kind ≠ 5) :
    u.hdrValid = s.hdrValid ∧ u.siValid = s.siValid ∧ u.mdValid = false := by
  cases h with
  | noRecord e notHdr notSi notMd => exact absurd hi notMd
  | mdSequence detail => exact absurd rfl hcode
  | mdConfig detail | mdExhausted detail | mdUnknownCode detail => exact ⟨rfl, rfl, rfl⟩
  | _ => cases hi

/-- A decoder called out of order, and a command that stores no record, leave the flags. -/
theorem FailureRow.flags_kept
    (hi : (i = .siDecode ∨ i = .mdDecode) ∧ errorCode e.kind = 5 ∨
      (i ≠ .hdrDecode ∧ i ≠ .siDecode ∧ i ≠ .mdDecode)) :
    u.hdrValid = s.hdrValid ∧ u.siValid = s.siValid ∧ u.mdValid = s.mdValid := by
  cases h with
  | noRecord | siSequence | mdSequence => exact ⟨rfl, rfl, rfl⟩
  | hdr | siExhausted | mdConfig | mdExhausted | mdUnknownCode => simp [errorCode] at hi

end FailureRow

/-- Settles O49: the command fails by a row of the table, and the block's reaction to the error adds the rollback, the
status and the code's bit of ERR. -/
theorem errorsArePrecise : Obligations.ErrorsArePrecise := by
  intro i s t h hcode
  obtain ⟨u, e, hrow, rfl⟩ := failureRow_of_statusCode h hcode
  have hframe := hrow.frame
  obtain ⟨-, -, hpos, -⟩ := hframe.setup
  have herr : ErrOfStatus s (u.fail e) := fun k hk => by rw [← hframe.err]; exact errOfStatus_fail u e k hk
  exact ⟨hpos, rfl, hframe.res, hframe.hdr, hframe.si, hframe.window, hframe.setup, herr,
    hrow.out.imp_right fun hmd i => congrArg (outRead · i) hmd, hrow.hdrDecode_flags, hrow.siDecode_flags,
    hrow.mdDecode_flags, hrow.flags_kept⟩

end Sys2Proof.Machine
end

section
/-! Reset and hazards: an accepted command completes, a BR_OPEN raced by a write to its registers, reads while a command
runs, and how each command ends in the reset state. -/

namespace Sys2Proof.Machine

open Sys2Proof.Spec

/-! ### Completion (spec/70_reset_and_hazards.md R405) -/

/-- What an input does to the block leaves the inputs behind it pending. -/
theorem takeInput_inputs {x : Input} {s t : State} (h : takeInput x s = .next t) : t.inputs = s.inputs := by
  cases x with
  | busRead addr bytes =>
    simp only [takeInput, hostRead] at h
    split at h
    · cases h
    split at h <;> cases h
    · rfl
    · obtain ⟨-, hinputs, -⟩ := readReg_keeps s _
      exact hinputs
  | busWrite addr bytes d =>
    simp only [takeInput, hostWrite] at h
    split at h
    · cases h
    split at h <;> cases h
    · rfl
    · obtain ⟨-, hinputs, -⟩ := writeReg_keeps s _ d
      exact hinputs
  | sequencerTurn =>
    obtain ⟨-, hinputs, -⟩ := sequencerTurn_keeps h
    exact hinputs
  | assertReset => cases h; rfl
  | releaseReset => cases h; rfl

/-- A step takes one pending input and leaves the others. -/
theorem step_inputs {s t : State} {x : Input} {l : List Input} (hin : s.inputs = x :: l) (h : step s = .next t) :
    t.inputs = l :=
  takeInput_inputs ((step_takeInput hin).symm.trans h)

/-- With no input pending the step is the sequencer's turn, which ends a running command. -/
theorem step_noInput_idle {s t : State} (hin : s.inputs = []) (h : step s = .next t) : t.busy = false := by
  rw [step, nextStep, hin] at h
  obtain ⟨-, -, hidle⟩ := sequencerTurn_keeps h
  exact hidle

/-- Settles O11, by induction on the pending inputs: each step takes one, and the step after the last is the sequencer's
turn. -/
theorem acceptedCommandCompletes : Obligations.AcceptedCommandCompletes := by
  intro s t h
  generalize hin : s.inputs = l at h
  induction l generalizing s with
  | nil =>
    obtain ⟨u, hstep, hrun⟩ := core_run_succ h
    cases hrun
    exact step_noInput_idle hin hstep
  | cons x l ih =>
    obtain ⟨u, hstep, hrun⟩ := core_run_succ h
    exact ih u (step_inputs hin hstep) hrun

/-! ### A raced BR_OPEN (spec/70_reset_and_hazards.md R402) -/

theorem openRunning_eq_true {s : State} (hbusy : s.busy = true) (hi : decodeWord s.cmdLatch = .ok .brOpen) :
    openRunning s = true := by
  rw [openRunning, hbusy, hi]
  rfl

/-- Settles O18: the bit drawn at the write picks the old half or the new one, and BR_OPEN latches the recorded pair. -/
theorem racedBrOpenLatchesOldOrNew : Obligations.RacedBrOpenLatchesOldOrNew := by
  refine ⟨fun s d rest hreset hbusy hi => ?_, fun s b l hrace => ?_⟩
  · have hopen : openRunning { s with inputs := rest } = true := openRunning_eq_true hbusy hi
    refine ⟨fun hin => ⟨if raceTakesNew s then d.setWidth 16 else (openPair s).1, ?_, ?_⟩,
      fun hin => ⟨if raceTakesNew s then d.setWidth 16 else (openPair s).2, ?_, ?_⟩⟩
    · rw [step_write (r := .brBase) hreset hin (by decide) (by decide) rfl, writeReg, writeBrBase, if_pos hopen]
      rfl
    · exact (ite_eq_or_eq _ _ _).symm
    · rw [step_write (r := .brLen) hreset hin (by decide) (by decide) rfl, writeReg, writeBrLen, if_pos hopen]
      rfl
    · exact (ite_eq_or_eq _ _ _).symm
  · have hpair : openPair s = (b, l) := by rw [openPair, hrace]; rfl
    obtain ⟨g, hle⟩ | ⟨g, hlt⟩ := brOpen_cases s
    · rw [hpair] at g hle
      rw [g, if_pos hle]
      rfl
    · rw [hpair] at hlt
      rw [g, if_neg (Nat.not_le.mpr hlt)]
      rfl

/-! ### Reads while a command runs (spec/70_reset_and_hazards.md R401) -/

theorem isResReg_offset {r : Reg} (h : isResReg r = true) : regOffset r ∈ writtenOffsets (.huffPair 0) := by
  cases r with
  | res k => clear h; revert k; decide
  | _ => cases h

theorem isHdrReg_offset {r : Reg} (h : isHdrReg r = true) : regOffset r ∈ writtenOffsets .hdrDecode := by
  cases r with
  | hdrRaw | hdrFields | hdrBitrate | hdrFreq | hdrSize | hdrAux | hdrMdlen => decide
  | _ => cases h

theorem isSiReg_offset {r : Reg} (h : isSiReg r = true) : regOffset r ∈ writtenOffsets .siDecode := by
  cases r with
  | siGlobal => decide
  | siGc q w => clear h; revert q w; decide
  | _ => cases h

/-- SRST writes what the decoders and the symbol commands write, OUT aside. -/
theorem srst_writtenOffsets : ∀ i ∈ [Instr.hdrDecode, .siDecode, .huffPair 0], ∀ o ∈ writtenOffsets i,
    o ∈ writtenOffsets .srst := by
  decide

/-- A register that a command writes stands at one of the offsets of the command's rule (log 9). -/
theorem commandWrites_offset {i : Instr} {r : Reg} (h : commandWrites i r = true) : regOffset r ∈ writtenOffsets i := by
  cases i with
  | nop => cases h
  | brOpen | brRead | brPeek | mdDecode =>
    simp only [commandWrites, Bool.or_eq_true, beq_iff_eq] at h
    obtain rfl | rfl := h <;> simp [regOffset, writtenOffsets]
  | brSeek off =>
    simp only [commandWrites, beq_iff_eq] at h
    subst h
    simp [regOffset, writtenOffsets]
  | hdrDecode =>
    simp only [commandWrites, Bool.or_eq_true, beq_iff_eq] at h
    obtain h | rfl := h
    · exact isHdrReg_offset h
    · decide
  | siDecode =>
    simp only [commandWrites, Bool.or_eq_true, beq_iff_eq] at h
    obtain h | rfl := h
    · exact isSiReg_offset h
    · decide
  | huffPair | huffQuad =>
    simp only [commandWrites, Bool.or_eq_true, beq_iff_eq] at h
    obtain h | rfl := h
    · exact isResReg_offset h
    · simp [regOffset, writtenOffsets]
  | srst =>
    by_cases hres : isResReg r = true
    · exact srst_writtenOffsets (.huffPair 0) (by decide) _ (isResReg_offset hres)
    by_cases hhdr : isHdrReg r = true
    · exact srst_writtenOffsets .hdrDecode (by decide) _ (isHdrReg_offset hhdr)
    by_cases hsi : isSiReg r = true
    · exact srst_writtenOffsets .siDecode (by decide) _ (isSiReg_offset hsi)
    simp only [commandWrites, Bool.or_eq_true, beq_iff_eq, hres, hhdr, hsi, Bool.false_eq_true,
      or_false, or_assoc] at h
    obtain rfl | rfl | rfl | rfl | rfl | rfl | rfl := h <;> decide

/-- A command writes no register that stands at no offset of its rule, and an illegal word writes none. -/
theorem runningWrites_eq_false {s : State} {r : Reg}
    (h : ∀ i, decodeWord s.cmdLatch = .ok i → regOffset r ∉ writtenOffsets i) : runningWrites s r = false := by
  unfold runningWrites
  split
  next i hi => exact Bool.eq_false_iff.mpr fun hw => h i hi (commandWrites_offset hw)
  next => rfl

/-- Only STATUS shows whether a command runs. -/
theorem regValue_setBusy {r : Reg} (h : r ≠ .status) (s : State) (b : Bool) :
    regValue { s with busy := b } r = regValue s r := by
  cases r with
  | status => exact absurd rfl h
  | _ => rfl

theorem reply_replies (s : State) (v : Word) : (s.reply v).replies = v :: s.replies := rfl

theorem afterRead_replies (s : State) (r : Reg) : (afterRead s r).replies = s.replies := by
  obtain ⟨a, b, h⟩ := afterRead_writes s r
  rw [h]

/-- A read is a reply after the port's side effect, with some draws taken. -/
theorem readReg_eq_reply (s : State) (r : Reg) : ∃ v d, s.draws ≤ d ∧
    readReg s r = (afterRead { s with draws := d } r).reply v := by
  unfold readReg
  split
  · exact ⟨_, s.draws + 1, Nat.le_succ _, rfl⟩
  · exact ⟨_, s.draws, le_rfl, rfl⟩

/-- A read of STATUS while a command runs: bit 16 is set, and what is open is inside bits 19 to 17 and 15 to 0. -/
theorem readReg_status_busy {s : State} (h : s.busy = true) :
    ∃ d : Word, (readReg s .status).replies = (d &&& 0x000EFFFF ||| 0x00010000) :: s.replies := by
  refine ⟨Config.freeDraw s.draws 0, ?_⟩
  simp [readReg, busyValue, h, afterRead, State.reply]

/-- The state a read of an aligned offset leads to, whether or not a command runs. -/
theorem step_read_frame {s : State} {o : Nat} {l : List Input} (hreset : s.resetAsserted = false)
    (hin : s.inputs = .busRead (s.cfg.data.regBase + o) 4 :: l) (ho : o < 256) (h4 : o % 4 = 0) :
    ∃ v d, s.draws ≤ d ∧ step s = .next
      { s with
        inputs := l
        replies := v :: s.replies
        draws := d
        ibufAddr := if o = 0x034 then s.ibufAddr + 1 else s.ibufAddr
        outAddr := if o = 0x03C then s.outAddr + 1 else s.outAddr } := by
  cases hr : regAt o with
  | none =>
    have h34 : o ≠ 0x034 := by rintro rfl; cases hr
    have h3C : o ≠ 0x03C := by rintro rfl; cases hr
    refine ⟨0, s.draws, le_rfl, ?_⟩
    rw [readsAs_unmapped hreset ho h4 hr l hin, if_neg h34, if_neg h3C]
  | some r =>
    obtain ⟨v, d, hd, hread⟩ := readReg_eq_reply { s with inputs := l } r
    refine ⟨v, d, hd, ?_⟩
    rw [step_read hreset hin ho h4 hr, hread, afterRead_at hr]
    rfl

/-- What a read of an offset other than STATUS, that the running command does not write, returns is not changed by the
command. -/
theorem step_read_unwritten {s : State} {o : Nat} {l : List Input} (hreset : s.resetAsserted = false)
    (hin : s.inputs = .busRead (s.cfg.data.regBase + o) 4 :: l) (ho : o < 256) (h4 : o % 4 = 0) (hne : o ≠ 4)
    (hw : ∀ i, decodeWord s.cmdLatch = .ok i → o ∉ writtenOffsets i) :
    ∃ t u, step s = .next t ∧ step { s with busy := false } = .next u ∧ t.replies = u.replies := by
  cases hr : regAt o with
  | none =>
    exact ⟨_, _, readsAs_unmapped hreset ho h4 hr l hin,
      readsAs_unmapped (s := { s with busy := false }) hreset ho h4 hr l hin, rfl⟩
  | some r =>
    obtain rfl := regOffset_of_regAt hr
    have hstatus : r ≠ .status := by rintro rfl; exact hne rfl
    refine ⟨_, _, step_read_current hreset hin ho h4 hr hstatus (.inr (runningWrites_eq_false hw)),
      step_read_current (s := { s with busy := false }) hreset hin ho h4 hr hstatus (.inl rfl), ?_⟩
    rw [regValue_setBusy hstatus s false, reply_replies, reply_replies, afterRead_replies, afterRead_replies]

/-- Settles O56: every read is a reply with a port's side effect, STATUS masks its draw, and a register that no line of
the running command's rule names is read from the state. -/
theorem busyReadsAreOpenOnlyWhereStated : Obligations.BusyReadsAreOpenOnlyWhereStated := by
  intro s o rest hreset hbusy hin
  refine ⟨step_read_frame hreset hin, ?_, step_read_unwritten hreset hin⟩
  rintro rfl
  obtain ⟨d, hd⟩ := readReg_status_busy (s := { s with inputs := rest }) hbusy
  refine ⟨_, _, step_read (r := .status) hreset hin (by decide) (by decide) rfl, hd, ?_, ?_⟩
  · simp [BitVec.extractLsb'_or, BitVec.extractLsb'_and]
  · simp [BitVec.extractLsb'_or, BitVec.extractLsb'_and]

/-! ### The reset state (spec/70_reset_and_hazards.md R393) -/

/-- What a command finds in a state whose registers are at their reset values. -/
structure BootState (s : State) : Prop where
  cursor : s.pos.toNat = 0
  windowEmpty : bitsInWindow s = 0
  programmedEmpty : s.brBaseReg.toNat + s.brLenReg.toNat = 0
  noRace : s.openRace = none
  noHeader : s.hdrValid = false

theorem bootState_of_registersReset {s : State} (h : RegistersReset s) (hrace : s.openRace = none) : BootState s := by
  obtain ⟨-, -, -, -, -, -, hbase, hlen, -, hwin, hpos, -, -, -, hhdr, -⟩ := h
  exact ⟨by simp [hpos], by simp [bitsInWindow, hwin], by simp [hbase, hlen], hrace, hhdr⟩

/-- The status code and detail with which a legal command ends in the reset state. -/
def bootStatus (c : ConfigData) : Instr → BitVec 8 × BitVec 8
  | .nop | .brOpen | .brPeek _ | .srst => (0, 0)
  | .brRead n => if n = 0 then (0, 0) else (1, 0)
  | .brSeek off => if off = 0 then (0, 0) else (6, 2)
  | .hdrDecode => (1, 0)
  | .siDecode | .mdDecode => (5, 1)
  | .huffPair k => if k = 0 then (0, 0) else if c.pairBook[k.toFin] = [] then (3, 0) else (1, 0)
  | .huffQuad k => if c.quadBook[k.toFin] = [] then (3, 0) else (1, 0)

/-- Command `i` from `s` ends with this status code and detail. -/
def EndsWith (i : Instr) (s : State) (status : BitVec 8 × BitVec 8) : Prop :=
  ∃ t, exec i s = .next t ∧ (t.statusCode, t.statusDetail) = status

/-- A legal BR_PEEK ends OK from every state. -/
theorem brPeek_endsOk {n : BitVec 6} (hn : n.toNat ≤ 32) (s : State) : EndsWith (.brPeek n) s (0, 0) := by
  obtain ⟨-, -, g⟩ | ⟨-, -, g⟩ | ⟨hcount, -⟩ := brPeek_cases n s
  · exact ⟨_, g, rfl⟩
  · exact ⟨_, g, rfl⟩
  · exact absurd hn (Nat.not_le.mpr hcount)

section Boot
variable {s : State} (h : BootState s)
include h

theorem BootState.brOpen : EndsWith .brOpen s (0, 0) :=
  ⟨_, (brOpenLatchesTheProgrammedWindow.2 s h.noRace).1 (h.programmedEmpty.trans_le (Nat.zero_le _)), rfl⟩

theorem BootState.brRead {n : BitVec 6} (hn : n.toNat ≤ 32) :
    EndsWith (.brRead n) s (if n = 0 then (0, 0) else (1, 0)) := by
  obtain ⟨hfits, hshort, -⟩ := brReadConsumesTheNextBits.2 n s
  rw [h.cursor, h.windowEmpty] at hfits hshort
  split
  next h0 => exact ⟨_, hfits hn (by simp [h0]), rfl⟩
  next h0 => exact ⟨_, hshort hn (by bv_omega), rfl⟩

/-- A BR_PEEK of a bit finds none in the empty window. -/
theorem BootState.brPeek_absent {n : BitVec 6} {t : State} (hn : n.toNat ≤ 32) (h0 : n ≠ 0)
    (hexec : exec (.brPeek n) s = .next t) : t.res.q1 = 0 := by
  have hshort := (brPeekLooksAheadWithoutMoving.2 n s).2.1 hn (by rw [h.cursor, h.windowEmpty]; bv_omega)
  cases hshort.symm.trans hexec
  rfl

theorem BootState.brSeek (off : BitVec 16) : EndsWith (.brSeek off) s (if off = 0 then (0, 0) else (6, 2)) := by
  obtain ⟨hinside, hbeyond⟩ := brSeekMovesToTheOffset off s
  rw [h.windowEmpty] at hinside hbeyond
  split
  next h0 => exact ⟨_, hinside (by simp [h0]), rfl⟩
  next h0 => exact ⟨_, hbeyond (by bv_omega), rfl⟩

theorem BootState.hdrDecode : EndsWith .hdrDecode s (1, 0) :=
  ⟨_, hdrDecode_of_exhausted (by rw [h.windowEmpty]; omega), rfl⟩

/-- With no bit left, every codeword is cut short before its first bit (spec/43_huffman.md R262). -/
theorem BootState.endsInside {α : Type} {book : List (CodeEntry α)} (hbook : bookOk book = true) {e : CodeEntry α}
    (he : e ∈ book) : EndsInside s.window (windowEnd s.window) s.pos.toNat e := by
  have hlen := bookOk_length hbook he
  rw [windowEnd_eq_bitsInWindow, h.windowEmpty, h.cursor]
  exact ⟨hlen.1, fun j _ hj => absurd hj (Nat.not_lt_zero j)⟩

theorem BootState.huffPair (k : BitVec 5) : EndsWith (.huffPair k) s
    (if k = 0 then (0, 0) else if s.cfg.data.pairBook[k.toFin] = [] then (3, 0) else (1, 0)) := by
  split_ifs with h0 hbook
  · subst h0
    exact ⟨_, tableZeroPairReadsNothing s, rfl⟩
  · exact ⟨_, huffPair_of_unknownCode (decodePair_unknownCode h0 (by simp [hbook])), rfl⟩
  · obtain ⟨e, he⟩ := List.exists_mem_of_ne_nil _ hbook
    have hcut := h.endsInside (s.cfg.pairBook_ok k.toFin) he
    exact ⟨_, huffPair_of_exhausted (decodePair_exhausted h0 he (.inl hcut)), rfl⟩

theorem BootState.huffQuad (k : BitVec 1) : EndsWith (.huffQuad k) s
    (if s.cfg.data.quadBook[k.toFin] = [] then (3, 0) else (1, 0)) := by
  split_ifs with hbook
  · exact ⟨_, huffQuad_of_unknownCode (decodeQuad_unknownCode (by simp [hbook])), rfl⟩
  · obtain ⟨e, he⟩ := List.exists_mem_of_ne_nil _ hbook
    have hcut := h.endsInside (s.cfg.quadBook_ok k.toFin) he
    exact ⟨_, huffQuad_of_exhausted (decodeQuad_exhausted he (.inl hcut)), rfl⟩

/-- Every legal command ends with its status of the table. -/
theorem BootState.exec_status {i : Instr} (hwf : i.wellFormed = true) : EndsWith i s (bootStatus s.cfg.data i) := by
  cases i with
  | nop => exact ⟨_, nop_eq s, rfl⟩
  | brOpen => exact h.brOpen
  | brRead n => exact h.brRead (of_decide_eq_true hwf)
  | brPeek n => exact brPeek_endsOk (of_decide_eq_true hwf) s
  | brSeek off => exact h.brSeek off
  | hdrDecode => exact h.hdrDecode
  | siDecode => exact ⟨_, siDecode_of_no_header h.noHeader, rfl⟩
  | huffPair k => exact h.huffPair k
  | huffQuad k => exact h.huffQuad k
  | mdDecode => exact ⟨_, (mdDecodeChecksBeforeReading s).1 h.noHeader, rfl⟩
  | srst => exact ⟨_, srst_eq s, rfl⟩

end Boot

/-- The commands that end OK in the reset state. -/
theorem bootStatus_ok_iff (c : ConfigData) (i : Instr) : (bootStatus c i).1 = 0 ↔
    i = .nop ∨ i = .brOpen ∨ i = .brRead 0 ∨ (∃ n, i = .brPeek n) ∨ i = .brSeek 0 ∨ i = .huffPair 0 ∨ i = .srst := by
  cases i with
  | huffPair k | huffQuad k | brRead n | brSeek off => simp only [bootStatus]; split_ifs <;> simp_all
  | _ => simp [bootStatus]

/-- Settles O58: the statuses are those of `bootStatus`, which the empty window, the reset pair and the missing header
give. -/
theorem bootStateOutcomes : Obligations.BootStateOutcomes := by
  intro s i hreset hrace hwf
  have hboot := bootState_of_registersReset hreset hrace
  obtain ⟨t, ht, hstatus⟩ := hboot.exec_status hwf
  have hcode : t.statusCode = (bootStatus s.cfg.data i).1 := congrArg Prod.fst hstatus
  have hdetail : t.statusDetail = (bootStatus s.cfg.data i).2 := congrArg Prod.snd hstatus
  refine ⟨t, ht, ?_, ?_, ?_, ?_, ?_, ?_, ?_⟩
  · rw [hcode, bootStatus_ok_iff]
  · rintro (⟨n, rfl, hn⟩ | rfl)
    · rw [hcode, bootStatus, if_neg hn]
    · exact hcode
  · rintro (rfl | rfl)
    · exact ⟨hcode, hdetail⟩
    · exact ⟨hcode, hdetail⟩
  · rintro off rfl hoff
    rw [hcode, bootStatus, if_neg hoff]
  · rintro k rfl hk
    rw [hcode, bootStatus, if_neg hk, apply_ite Prod.fst]
  · rintro k rfl
    rw [hcode, bootStatus, apply_ite Prod.fst]
  · rintro n rfl hn
    exact hboot.brPeek_absent (of_decide_eq_true hwf) hn ht

end Sys2Proof.Machine
end
